-- ==== Sys2Proof/Word.lean ====
section
/-! DEFINITION. The two word sizes of the block: a byte (rule R8) and the 16-bit length
quantity (rule R71). Everything else that computes on them stands in files a repair may mend. -/

namespace Sys2Proof

/-- A byte, 8 bits, unsigned (R8). -/
abbrev Byte := BitVec 8

/-- A 16-bit unsigned quantity: a length, a count of payload bytes, a buffer index (R8, R70). -/
abbrev Half := BitVec 16

end Sys2Proof
end

