-- ==== Sys2Proof/Config.lean ====
section
/-! DEFINITION. What an implementation fixes (the parameters of rule R6) and the free values:
the values the spec leaves unspecified while the machine goes on. -/

namespace Sys2Proof

/-- Where the checksum stands in a frame, the build-time parameter `CHECKSUM_POS` (R6, R90, R99). -/
inductive ChecksumPos where
  | trailing
  | leading
deriving DecidableEq, Repr

/-- The electrical level that stands for an asserted auxiliary line, `AUX_ACTIVE_LEVEL` (R6).
No rule reads it (R53). -/
inductive PinLevel where
  | low
  | high
deriving DecidableEq, Repr

/-- The parameters of one endpoint (R6).  `START_MARKER` is not among them: its value is fixed.
A model takes the open ones as an argument, so they stand in `State`, where no step writes them,
and a statement about every state is a statement about every value of them (log entry 1). -/
structure Params where
  checksumPos : ChecksumPos
  ackSentinel : Byte
  ackRequest : Byte
  fill : Byte
  retries : Nat
  maxLen : Nat
  tByte : Nat
  tBackoff : Nat
  auxActiveLevel : PinLevel
deriving DecidableEq, Repr

/-- The constraints every instantiation of the parameters meets (R7, items 1 to 3). -/
def Params.wf (p : Params) : Bool :=
  p.ackSentinel != p.fill && decide (1 ≤ p.retries) && decide (p.retries ≤ 255) &&
    decide (p.maxLen ≤ 65534)

/-- What the two endpoints of one link must agree on (R7, item 4). -/
def Params.agree (p q : Params) : Bool :=
  p.checksumPos == q.checksumPos && p.ackSentinel == q.ackSentinel

/-- `START_MARKER`, the character `$`, fixed at `0x24` (R6, R91). -/
def Config.startMarker : Byte := 0x24

/-- The reference values of R6; `CHECKSUM_POS` has the value this hardware takes.  The two
durations and the pin level have no reference value and are read by no rule (log entry 1). -/
def Config.reference : Params where
  checksumPos := .trailing
  ackSentinel := 0x06
  ackRequest := 0x05
  fill := 0x00
  retries := 3
  maxLen := 1024
  tByte := 0
  tBackoff := 0
  auxActiveLevel := .low

/-- The byte a Master receives in an exchange its peer takes no part in: unspecified, chosen
afresh each time (R52, R61, R241).  Applied to a counter that every exchange advances (log entry 2). -/
opaque Config.freeByte : Nat → Byte

/-- What `byte_cnt` holds after an increment at `0xFFFF`, a case R123 says is never executed and
for which it states no result (log entry 3). -/
opaque Config.freeCount : Nat → Half

end Sys2Proof
end

