-- ==== Sys2Proof/Syntax.lean ====
section
/-! DEFINITION. The operations of the block: one constructor of `Instr` for each row of the
machine-readable table (rule R108), in the table's order, with the operands the rows name. -/

namespace Sys2Proof

/-- The role of an endpoint, coded Master = 0, Slave = 1 (R22, R103). -/
inductive Role where
  | master
  | slave
deriving DecidableEq, Repr

/-- The selections a send FSM presents to the frame encoder (R125). -/
inductive Sel where
  | start
  | lenHi
  | lenLo
  | payload
  | checksum
deriving DecidableEq, Repr

/-- One constructor per row of the table.
Formats: host commands (`CMD`), operations started by a command or a trigger (`OP`), host-side
sequences (`PSEUDO`), frames (`FRAME`), transactions (`XACT`), symbols on the wire (`WIRE8`) and
sub-block micro-operations (`UOP`). -/
inductive Instr where
  /-- `RESERVED_000`, reserved command code (R104). -/
  | reserved000
  /-- `START`, with role and handler bit (R201). -/
  | start (role : Role) (cb : Bool)
  /-- `STOP` (R202). -/
  | stop
  /-- `SEND`, with the payload length (R203). -/
  | send (len : Half)
  /-- `ATTACH` (R204). -/
  | attach
  /-- `DETACH` (R205). -/
  | detach
  /-- `CLRNEW` (R206). -/
  | clrnew
  /-- `RESERVED_111`, reserved command code (R104). -/
  | reserved111
  /-- `MSEND`, the Master-role form of `SEND` (R142). -/
  | msend (len : Half)
  /-- `SSEND`, the Slave-role form of `SEND` (R152). -/
  | ssend (len : Half)
  /-- `RXS`, the Slave-role receive operation, started by the byte `b0` (R173). -/
  | rxs (b0 : Byte)
  /-- `RXM`, the Master-role receive operation, started by the latched aux edge (R177). -/
  | rxm
  /-- `RECV`, the host-side sequence `CLRNEW` then wait (R207). -/
  | recv
  /-- `WAITNEW`, the host-side wait for `new_message` (R106). -/
  | waitNew
  /-- `FRAME_TRAILING`, the canonical frame of a payload (R90). -/
  | frameTrailing (payload : List Byte)
  /-- `FRAME_LEADING`, the legacy frame of a payload (R99). -/
  | frameLeading (payload : List Byte)
  /-- `XACT_MS`, the Master-to-Slave transaction (R96). -/
  | xactMs (payload : List Byte)
  /-- `XACT_SM`, the Slave-to-Master transaction (R97). -/
  | xactSm (payload : List Byte)
  /-- `START_MARKER` on the wire (R91). -/
  | startMarker
  /-- `ACK_SENTINEL` on the wire (R98). -/
  | ackSentinel
  /-- `ACK_REQUEST_BYTE` on the wire (R98). -/
  | ackRequestByte
  /-- `FILL_BYTE` on the wire (R98). -/
  | fillByte
  /-- `CKS_CLEAR` (R120). -/
  | cksClear
  /-- `CKS_ADD` (R120). -/
  | cksAdd (b : Byte)
  /-- `CKS_BLOCK` (R122). -/
  | cksBlock (len : Half)
  /-- `CNT_CLEAR` (R123). -/
  | cntClear
  /-- `CNT_INC` (R123). -/
  | cntInc
  /-- `ENCODE` (R124). -/
  | encode (payload : List Byte)
  /-- `ENC_BYTE` (R125). -/
  | encByte (sel : Sel)
  /-- `DEC_STEP`, canonical variant (R126). -/
  | decStep (b : Byte)
  /-- `DEC_STEP_LEADING`, legacy variant (R127). -/
  | decStepLeading (b : Byte)
  /-- `DECODE` (R128). -/
  | decode (wire : List Byte)
  /-- `Commit` (R131). -/
  | commit (ok : Bool)
  /-- `Discard` (R132). -/
  | discard
  /-- `Complete` (R180). -/
  | complete (ok : Bool)
deriving DecidableEq, Repr

end Sys2Proof
end

