-- ==== Sys2Proof/WellFormed.lean ====
section
/-! DEFINITION. Which operations are well formed: the operands that are byte sequences and stand
for a payload have at most 65535 bytes, because the length field has 16 bits (rules R90, R92, R124).
Every other operand has exactly the width its row gives it, by its type. -/

namespace Sys2Proof

/-- A payload whose length a 16-bit length field can carry (R90, R124). -/
def payloadFits (p : List Byte) : Bool := decide (p.length ≤ 65535)

/-- The checks on the operands of an operation. -/
def Instr.wellFormed : Instr → Bool
  | .reserved000 => true
  | .start _ _ => true
  | .stop => true
  | .send _ => true
  | .attach => true
  | .detach => true
  | .clrnew => true
  | .reserved111 => true
  | .msend _ => true
  | .ssend _ => true
  | .rxs _ => true
  | .rxm => true
  | .recv => true
  | .waitNew => true
  | .frameTrailing p => payloadFits p
  | .frameLeading p => payloadFits p
  | .xactMs p => payloadFits p
  | .xactSm p => payloadFits p
  | .startMarker => true
  | .ackSentinel => true
  | .ackRequestByte => true
  | .fillByte => true
  | .cksClear => true
  | .cksAdd _ => true
  | .cksBlock _ => true
  | .cntClear => true
  | .cntInc => true
  | .encode p => payloadFits p
  | .encByte _ => true
  | .decStep _ => true
  | .decStepLeading _ => true
  | .decode _ => true
  | .commit _ => true
  | .discard => true
  | .complete _ => true

end Sys2Proof
end

