-- ==== Sys2Proof/Decode.lean ====
section
/-! DEFINITION. The encodings: the command port (rule R103), the wire frames (R90, R99), the
transactions (R96, R97) and the single-byte wire symbols (R91, R98); a decoder of each, total on
any bytes and rejecting by name; then the encoder, written from the same tables. -/

namespace Sys2Proof

/-! ## Length bytes and checksum -/

/-- `n[15:8]`, the byte of a length sent first (R71, R92). -/
def lenHi (n : Half) : Byte := n.extractLsb' 8 8

/-- `n[7:0]`, the byte of a length sent second (R71, R92). -/
def lenLo (n : Half) : Byte := n.extractLsb' 0 8

/-- `{len_hi, len_lo}`, the receiver's assembly of the length (R92). -/
def lenOf (hi lo : Byte) : Half := hi ++ lo

/-- The sum of the payload bytes modulo 256 (R94, R121). -/
def sum8 (p : List Byte) : Byte := p.foldl (· + ·) 0

/-- The 16-bit length of a payload. -/
def payloadLen (p : List Byte) : Half := BitVec.ofNat 16 p.length

/-- `ENCODE(p)`, the bytes of the frame that carries `p`, in the order they are sent (R124). -/
def frameBytes (pos : ChecksumPos) (p : List Byte) : List Byte :=
  match pos with
  | .trailing =>
    Config.startMarker :: lenHi (payloadLen p) :: lenLo (payloadLen p) :: (p ++ [sum8 p])
  | .leading =>
    Config.startMarker :: sum8 p :: lenHi (payloadLen p) :: lenLo (payloadLen p) :: p

/-! ## The command port -/

/-- The signals of the command port that carry a command (R62, R103). -/
structure CmdPort where
  op : BitVec 3
  role : BitVec 1
  cb : BitVec 1
  len : Half
deriving DecidableEq, Repr

/-- `cmd_role`: 0 Master, 1 Slave (R103). -/
def roleOfBit (b : BitVec 1) : Role := if b = 0#1 then .master else .slave

/-- `cmd_role` of a role (R103). -/
def bitOfRole : Role → BitVec 1
  | .master => 0#1
  | .slave => 1#1

/-- A one-bit signal of a Boolean. -/
def bitOfBool (b : Bool) : BitVec 1 := if b then 1#1 else 0#1

/-- The command a 3-bit code stands for; every code has a meaning (R103, R104).  A signal that is
no operand of the command is not looked at. -/
def decodeCmd (c : CmdPort) : Instr :=
  if c.op = 0b000#3 then .reserved000
  else if c.op = 0b001#3 then .start (roleOfBit c.role) (c.cb == 1#1)
  else if c.op = 0b010#3 then .stop
  else if c.op = 0b011#3 then .send c.len
  else if c.op = 0b100#3 then .attach
  else if c.op = 0b101#3 then .detach
  else if c.op = 0b110#3 then .clrnew
  else .reserved111

/-- The port signals of a command; `none` for what is no host command. -/
def encodeCmd : Instr → Option CmdPort
  | .reserved000 => some ⟨0b000#3, 0#1, 0#1, 0#16⟩
  | .start r cb => some ⟨0b001#3, bitOfRole r, bitOfBool cb, 0#16⟩
  | .stop => some ⟨0b010#3, 0#1, 0#1, 0#16⟩
  | .send len => some ⟨0b011#3, 0#1, 0#1, len⟩
  | .attach => some ⟨0b100#3, 0#1, 0#1, 0#16⟩
  | .detach => some ⟨0b101#3, 0#1, 0#1, 0#16⟩
  | .clrnew => some ⟨0b110#3, 0#1, 0#1, 0#16⟩
  | .reserved111 => some ⟨0b111#3, 0#1, 0#1, 0#16⟩
  | .msend len => some ⟨0b011#3, 0#1, 0#1, len⟩
  | .ssend len => some ⟨0b011#3, 0#1, 0#1, len⟩
  | .rxs _ | .rxm | .recv | .waitNew => none
  | .frameTrailing _ | .frameLeading _ | .xactMs _ | .xactSm _ => none
  | .startMarker | .ackSentinel | .ackRequestByte | .fillByte => none
  | .cksClear | .cksAdd _ | .cksBlock _ | .cntClear | .cntInc => none
  | .encode _ | .encByte _ | .decStep _ | .decStepLeading _ | .decode _ => none
  | .commit _ | .discard | .complete _ => none

/-- The command port's signals laid out as three bytes: `cmd_op` in bits 2:0, `cmd_role` in bit 3,
`cmd_cb` in bit 4, `cmd_len` in bits 23:8.  The layout is the model's (log entry 4); the spec has
one signal for each. -/
def portBytes (c : CmdPort) : List Byte :=
  [(0#3 ++ c.cb ++ c.role ++ c.op : BitVec 8), c.len.extractLsb' 0 8, c.len.extractLsb' 8 8]

/-- The signals that three bytes carry. -/
def portOf (b0 b1 b2 : Byte) : CmdPort where
  op := b0.extractLsb' 0 3
  role := b0.extractLsb' 3 1
  cb := b0.extractLsb' 4 1
  len := b2 ++ b1

/-! ## The decoders -/

/-- Why bytes are no operation. -/
inductive DecodeError where
  /-- Fewer bytes than the encoding has. -/
  | truncated
  /-- A bit of the command word that carries no signal is set. -/
  | noSuchSignal
  /-- The command code is not that of `SEND`, the only one with a form per role. -/
  | notSend
  /-- The first byte of a frame is not `START_MARKER`. -/
  | badMarker
  /-- The checksum field differs from the sum of the payload. -/
  | badChecksum
  /-- The last byte of a Slave-to-Master transaction is not `ACK_REQUEST_BYTE`. -/
  | badAckRequest
  /-- The byte is none of the four wire symbols. -/
  | unknownSymbol
deriving DecidableEq, Repr

/-- Where encoded bits stand: the same bits mean different things on different ports. -/
inductive Port where
  /-- The command port (R103). -/
  | command
  /-- The command code taken together with the `role` register, which selects a form of `SEND`. -/
  | operation (role : Role)
  /-- The byte of an `RxByte` event (R172). -/
  | trigger
  /-- One byte of the wire read as a symbol (R91, R98). -/
  | symbol
  /-- The bytes of a frame, field order given (R90, R99). -/
  | frame (pos : ChecksumPos)
  /-- The Master's bytes of a Master-to-Slave transaction (R96). -/
  | masterToSlave
  /-- The Slave's bytes of a Slave-to-Master transaction (R97). -/
  | slaveToMaster
deriving DecidableEq, Repr

/-- Splits off `n` payload bytes. -/
def takePayload (n : Nat) (bs : List Byte) : Except DecodeError (List Byte × List Byte) :=
  if bs.length < n then .error .truncated else .ok (bs.take n, bs.drop n)

/-- Reads a canonical frame (R90): the length is known after byte offset 2, then exactly that many
payload bytes, then one checksum byte (R95). -/
def parseTrailing : List Byte → Except DecodeError (List Byte × List Byte)
  | m :: hi :: lo :: bs =>
    if m = Config.startMarker then
      match takePayload (lenOf hi lo).toNat bs with
      | .error e => .error e
      | .ok (_, []) => .error .truncated
      | .ok (p, c :: rest) => if c = sum8 p then .ok (p, rest) else .error .badChecksum
    else .error .badMarker
  | m :: _ => if m = Config.startMarker then .error .truncated else .error .badMarker
  | [] => .error .truncated

/-- Reads a legacy frame (R99): the checksum precedes the length. -/
def parseLeading : List Byte → Except DecodeError (List Byte × List Byte)
  | m :: c :: hi :: lo :: bs =>
    if m = Config.startMarker then
      match takePayload (lenOf hi lo).toNat bs with
      | .error e => .error e
      | .ok (p, rest) => if c = sum8 p then .ok (p, rest) else .error .badChecksum
    else .error .badMarker
  | m :: _ => if m = Config.startMarker then .error .truncated else .error .badMarker
  | [] => .error .truncated

/-- Reads one frame, field order given. -/
def parseFrame (pos : ChecksumPos) (bs : List Byte) :
    Except DecodeError (List Byte × List Byte) :=
  match pos with
  | .trailing => parseTrailing bs
  | .leading => parseLeading bs

/-- Reads a host command. -/
def decodeCommand : List Byte → Except DecodeError (Instr × List Byte)
  | b0 :: b1 :: b2 :: rest =>
    if b0.extractLsb' 5 3 = 0#3 then .ok (decodeCmd (portOf b0 b1 b2), rest)
    else .error .noSuchSignal
  | _ => .error .truncated

/-- Reads a command code together with the role register: code `011` is `MSEND` in Master role and
`SSEND` in Slave role (R103). -/
def decodeOperation (role : Role) (bs : List Byte) : Except DecodeError (Instr × List Byte) :=
  match decodeCommand bs with
  | .error e => .error e
  | .ok (.send len, rest) =>
    .ok ((match role with | .master => .msend len | .slave => .ssend len), rest)
  | .ok _ => .error .notSend

/-- Reads one wire symbol.  Where two parameters have one value the first name of R98's order is
given. -/
def decodeSymbol (prm : Params) : List Byte → Except DecodeError (Instr × List Byte)
  | b :: rest =>
    if b = Config.startMarker then .ok (.startMarker, rest)
    else if b = prm.ackSentinel then .ok (.ackSentinel, rest)
    else if b = prm.ackRequest then .ok (.ackRequestByte, rest)
    else if b = prm.fill then .ok (.fillByte, rest)
    else .error .unknownSymbol
  | [] => .error .truncated

/-- Reads the Slave's half of a Slave-to-Master transaction: a frame, then `ACK_REQUEST_BYTE`. -/
def decodeSlaveToMaster (prm : Params) (bs : List Byte) : Except DecodeError (Instr × List Byte) :=
  match parseFrame prm.checksumPos bs with
  | .error e => .error e
  | .ok (p, q :: rest) => if q = prm.ackRequest then .ok (.xactSm p, rest) else .error .badAckRequest
  | .ok (_, []) => .error .truncated

/-- The operation that bytes at a port stand for, and the bytes after it. -/
def decode (prm : Params) (port : Port) (bs : List Byte) : Except DecodeError (Instr × List Byte) :=
  match port with
  | .command => decodeCommand bs
  | .operation role => decodeOperation role bs
  | .trigger =>
    match bs with
    | b :: rest => .ok (.rxs b, rest)
    | [] => .error .truncated
  | .symbol => decodeSymbol prm bs
  | .frame pos =>
    match parseFrame pos bs with
    | .error e => .error e
    | .ok (p, rest) =>
      .ok ((match pos with | .trailing => .frameTrailing p | .leading => .frameLeading p), rest)
  | .masterToSlave =>
    match parseFrame prm.checksumPos bs with
    | .error e => .error e
    | .ok (p, rest) => .ok (.xactMs p, rest)
  | .slaveToMaster => decodeSlaveToMaster prm bs

/-! ## The encoder -/

/-- The port signals of a host command as bytes. -/
def commandBytes (i : Instr) : List Byte :=
  match encodeCmd i with
  | some c => portBytes c
  | none => []

/-- Where an operation is encoded and by which bytes; `none` for the rows that have no encoding:
`RXM`, the host-side sequences and the micro-operations (R108).  A transaction is encoded by the
sender's half; the other half is `replyBytes`. -/
def encode (prm : Params) (i : Instr) : Option (Port × List Byte) :=
  match i with
  | .reserved000 | .start _ _ | .stop | .send _ => some (.command, commandBytes i)
  | .attach | .detach | .clrnew | .reserved111 => some (.command, commandBytes i)
  | .msend _ => some (.operation .master, commandBytes i)
  | .ssend _ => some (.operation .slave, commandBytes i)
  | .rxs b0 => some (.trigger, [b0])
  | .frameTrailing p => some (.frame .trailing, frameBytes .trailing p)
  | .frameLeading p => some (.frame .leading, frameBytes .leading p)
  | .xactMs p => some (.masterToSlave, frameBytes prm.checksumPos p)
  | .xactSm p => some (.slaveToMaster, frameBytes prm.checksumPos p ++ [prm.ackRequest])
  | .startMarker => some (.symbol, [Config.startMarker])
  | .ackSentinel => some (.symbol, [prm.ackSentinel])
  | .ackRequestByte => some (.symbol, [prm.ackRequest])
  | .fillByte => some (.symbol, [prm.fill])
  | .rxm | .recv | .waitNew => none
  | .cksClear | .cksAdd _ | .cksBlock _ | .cntClear | .cntInc => none
  | .encode _ | .encByte _ | .decStep _ | .decStepLeading _ | .decode _ => none
  | .commit _ | .discard | .complete _ => none

/-- The receiver's half of a transaction with an `n`-byte payload that goes well; `none` is the
unspecified byte of an idle shift register (R96, R97). -/
def replyBytes (prm : Params) (toMaster : Bool) (n : Nat) : List (Option Byte) :=
  if toMaster then List.replicate (n + 4) (some prm.fill) ++ [some prm.ackSentinel]
  else none :: List.replicate (n + 3) (some prm.fill)

/-! ## One word, as the machine-readable table numbers it -/

/-- Whether a table word is a command word: its bits 7:5 carry no signal.  Any other word is a byte
on the bus (log entry 4). -/
def isCommandWord (w : Nat) : Bool := (BitVec.ofNat 8 w).extractLsb' 5 3 == 0#3

/-- The low three bytes of a word, the first byte in bits 7:0. -/
def wordBytes (w : Nat) : List Byte :=
  [BitVec.ofNat 8 w, BitVec.ofNat 8 (w / 256), BitVec.ofNat 8 (w / 65536)]

/-- The port at which a table word stands and the bytes it is laid out as. -/
def tableWordBytes (nbits w : Nat) : Port × List Byte :=
  let v := w % 2 ^ nbits
  if isCommandWord v then (.command, wordBytes v) else (.trigger, [BitVec.ofNat 8 v])

/-- The operation the decoder reads from a table word of `nbits` bits, every later bit 0. -/
def decodeTableWord (nbits w : Nat) : Option Instr :=
  let pb := tableWordBytes nbits w
  match decode Config.reference pb.1 pb.2 with
  | .ok (i, _) => some i
  | .error _ => none

end Sys2Proof
end

