-- ==== Sys2Proof/Machine/State.lean ====
section
/-! DEFINITION. The state of one endpoint as plain data: every piece of state of `10_state.md`
(rules R20 to R42), the positions inside a running operation that those rules imply, and, because
the step is one function of the state, the outside world as data: the parameters, the host's
buffer and command thread, the lines the block reads, and the schedule of what happens next. -/

namespace Sys2Proof.Machine

/-! ## The state registers -/

/-- `tx_state` (R31). -/
inductive TxState where
  | idle
  | selecting
  | requesting
  | framing
  | transferring
  | awaitAck
  | done
  | retry
deriving DecidableEq, Repr

/-- `rx_cursor`, the field the next incoming byte belongs to (R32). -/
inductive Cursor where
  | start
  | lenHi
  | lenLo
  | payload
  | checksum
  | ack
deriving DecidableEq, Repr

/-- The primitive a send FSM performs next.  `tx_state` groups these places (R141, R151); the
pseudocode of R142 and R152 tells them apart (log entry 5). -/
inductive TxPoint where
  /-- No send in progress. -/
  | idle
  /-- Inside `CKS_BLOCK`: the next Outbox byte is added to the checksum (R122). -/
  | sum
  /-- `CsWrite(1)` (R142). -/
  | select
  /-- `AuxWrite(1)`, the start of an attempt (R152). -/
  | request
  /-- The exchange of a frame field; `b` is the byte handed to it when it was requested, which stays
  while the exchange is held (R51, R62, R76; log entry 12). -/
  | send (sel : Sel) (b : Byte)
  /-- `Delay(T_BYTE)` after that field (R144). -/
  | delay (sel : Sel)
  /-- `CsWrite(0)` (R142). -/
  | release
  /-- The exchange of `ACK_REQUEST_BYTE` (R155). -/
  | ack
  /-- `AuxWrite(0)` and the comparison of the response `r` (R155, R156). -/
  | drop (r : Byte)
  /-- `Delay(T_BACKOFF)` (R154). -/
  | backoff
  /-- The last step: `send_result`, `rx_enable`, `tx_state <- Idle`, `send_done`. -/
  | finish (ok : Bool)
deriving DecidableEq, Repr

/-- How a dispatcher operation ends that has a step of its own for it: a Slave's only by `Complete`
(R173), a Master's by each of the four (R177). -/
inductive RxEnd where
  | complete (ok : Bool)
  | ignored
  | lenRejected
  | aborted
deriving DecidableEq, Repr

/-- The primitive the receive dispatcher performs next (R173, R177; log entry 5). -/
inductive RxPoint where
  /-- No operation in flight. -/
  | idle
  /-- The first exchange of `RXM`. -/
  | first
  /-- `AuxRead()` before an exchange of the frame (R178). -/
  | sample
  /-- An exchange of the frame. -/
  | pull
  /-- `AuxRead()` before the acknowledgement exchange. -/
  | ackSample (ok : Bool)
  /-- The acknowledgement exchange (R179). -/
  | ackPull (ok : Bool)
  /-- `CsWrite(0)` on a Master's way out. -/
  | release (how : RxEnd)
  /-- The last step of the operation. -/
  | finish (how : RxEnd)
deriving DecidableEq, Repr

/-! ## Results, labels and events -/

/-- What `DEC_STEP` returns (R126). -/
inductive DecResult where
  | none
  | ignored
  | lenRejected
  | frame (ok : Bool)
deriving DecidableEq, Repr

/-- What `DECODE` returns (R128): the result, the bytes consumed, the payload, the length. -/
structure DecodeAnswer where
  /-- `none` is `Incomplete`. -/
  result : Option DecResult
  consumed : Nat
  payload : List Byte
  rxLen : Half
deriving DecidableEq, Repr

/-- The outcome labels (R220).  They are stored in no register; the trace keeps them (R228). -/
inductive Label where
  | ignored
  | lenRejected
  | aborted
  | checksumFail
  | delivered
  | sendFailed
  | halFault
deriving DecidableEq, Repr

/-- The two uses of `Delay` (R55). -/
inductive DelayKind where
  | byte
  | backoff
deriving DecidableEq, Repr

/-- The externally visible events of R9 and R107, the completions of R57, and the answers of the
operations that only compute.  Ghost state: no operation reads the trace (log entry 6). -/
inductive Event where
  /-- Hardware reset was asserted (R260). -/
  | reset
  /-- `CsWrite(v)`. -/
  | cs (v : Bool)
  /-- `AuxWrite(v)`. -/
  | aux (v : Bool)
  /-- `AuxRead()` returned `v`. -/
  | auxRead (v : Bool)
  /-- One exchange: the byte this endpoint shifts out, the byte it receives. -/
  | exchange (out inp : Byte)
  /-- An `RxByte(b)` event was served (R61). -/
  | rxByte (b : Byte)
  /-- A byte met an endpoint that takes none and was lost (R52, R171). -/
  | lostByte (b : Byte)
  /-- `Delay` completed. -/
  | delay (k : DelayKind)
  /-- `HalConfigure(role)` answered (R56). -/
  | halConfigure (role : Role) (ok : Bool)
  /-- The immediate completion of a command (R57). -/
  | cmdDone (ok : Bool)
  /-- The completion of a `SEND` that ran (R29). -/
  | sendDone (ok : Bool)
  /-- `Callback()` (R60). -/
  | callback
  /-- `Commit` (R131). -/
  | commit
  /-- An outcome was raised (R220). -/
  | outcome (l : Label)
  /-- A host-side wait saw `new_message = 1` (R106). -/
  | waitDone
  /-- The byte sequence `ENCODE` answers (R124). -/
  | encoded (bytes : List Byte)
  /-- The byte `ENC_BYTE` answers (R125). -/
  | selected (b : Byte)
  /-- What `DEC_STEP` answers (R126, R127). -/
  | decStep (r : DecResult)
  /-- What `DECODE` answers (R128). -/
  | decoded (a : DecodeAnswer)
deriving DecidableEq, Repr

/-! ## The outside world as data -/

/-- Sparse byte memory: (index, byte) pairs, indices strictly rising, no entry equal to what an
unlisted index reads as. -/
abbrev Memory := List Host.Cell

/-- One thing the host's single thread does (R57, R106). -/
inductive HostItem where
  /-- Offers a command on the command port. -/
  | cmd (c : CmdPort)
  /-- Starts `receiveBlocking()` (R207). -/
  | recv
  /-- Waits until `new_message` reads 1 (R106). -/
  | waitNew
deriving DecidableEq, Repr

/-- Whether the block itself moves in a step, and what its peer puts on the bus. -/
inductive Move where
  /-- The block takes no step of its own. -/
  | quiet
  /-- The block takes its next step; no byte comes from the peer. -/
  | run
  /-- The peer takes part in an exchange and shifts out this byte. -/
  | byte (b : Byte)
deriving DecidableEq, Repr

/-- The input signals of one step (R62): what the agents outside the block do in it.  Everything in
one `Turn` falls in the same step (R230). -/
structure Turn where
  /-- `rst` (R260). -/
  rst : Bool
  /-- The host's thread goes on to this item. -/
  offer : Option HostItem
  /-- The block's own move, and the peer's byte. -/
  move : Move
  /-- The aux line takes this level (R53). -/
  aux : Option Bool
  /-- What `HalConfigure` answers from now on (R56). -/
  hal : Option Bool
  /-- The host writes a byte of its Outbox buffer (R76). -/
  outbox : Option (Half × Byte)
deriving DecidableEq, Repr

/-! ## Reasons to stop -/

/-- Why the machine stops. -/
inductive Fault where
  /-- Raised by `DEC_STEP` in `Payload` when `byte_cnt` is no index of `STAGE`, a buffer of `MAX_LEN`
  bytes (R40, R78).  Safe: the spec gives no such cell; the invariant of the model excludes it. -/
  | stageRange
  /-- Raised by `Commit` when `rx_len` exceeds the `MAX_LEN` bytes of `INBOX` (R41).  Safe: the spec
  gives no such cells; the invariant of the model excludes it. -/
  | inboxRange
  /-- Raised by `DEC_STEP` when `rx_cursor = Ack`, for which R126 and R127 give no effect ("not reachable by
  DEC_STEP").  Safe; the invariant of the model excludes it. -/
  | decStepAtAck
deriving DecidableEq, Repr

/-- Why an operation has no meaning here. -/
inductive Refusal where
  /-- The instruction has no meaning yet.  Safe. -/
  | notModelled (mnemonic : String)
  /-- `MSEND` in Slave role or `SSEND` in Master role: the code `011` is then the other operation
  (R103), and the spec gives this one no effect.  Safe. -/
  | wrongRole
  /-- A payload longer than the 65535 bytes a length field can carry (R90, R124).  Safe. -/
  | payloadTooLong
deriving DecidableEq, Repr

/-! ## The state -/

/-- One endpoint and its outside world. -/
structure State where
  /-- The parameters of R6; written by no operation. -/
  params : Params
  /-- `started` (R21). -/
  started : Bool
  /-- `role` (R22). -/
  role : Role
  /-- `rx_enable` (R23). -/
  rxEnable : Bool
  /-- `cb_enable` (R24). -/
  cbEnable : Bool
  /-- `cb_shadow` (R24). -/
  cbShadow : Bool
  /-- `fault` (R25). -/
  fault : Bool
  /-- `new_message` (R26). -/
  newMessage : Bool
  /-- `success` (R27). -/
  success : Bool
  /-- `aux_pending` (R28). -/
  auxPending : Bool
  /-- `aux_prev` (R39). -/
  auxPrev : Bool
  /-- `send_result` (R29). -/
  sendResult : Bool
  /-- `rx_active` (R30). -/
  rxActive : Bool
  /-- `tx_state` (R31). -/
  txState : TxState
  /-- `rx_cursor` (R32). -/
  rxCursor : Cursor
  /-- `byte_cnt` (R33). -/
  byteCnt : Half
  /-- `cks_acc` (R34). -/
  cksAcc : Byte
  /-- `tx_len` (R35). -/
  txLen : Half
  /-- `attempt_cnt` (R36). -/
  attemptCnt : Byte
  /-- `rx_len` (R37). -/
  rxLen : Half
  /-- `rx_cks_field` (R38). -/
  rxCksField : Byte
  /-- `STAGE` (R40). -/
  stage : Memory
  /-- `INBOX` (R41). -/
  inbox : Memory
  /-- `inbox_size` (R41). -/
  inboxSize : Half
  /-- `cs_out` (R42). -/
  csOut : Bool
  /-- `aux_out` (R42). -/
  auxOut : Bool
  /-- The MODEL's: the next primitive of the send FSM. -/
  txPoint : TxPoint
  /-- The MODEL's: the next primitive of the dispatcher. -/
  rxPoint : RxPoint
  /-- `OUTBOX`, the host's buffer (R58, R70). -/
  outbox : Memory
  /-- The level of the aux line as this endpoint reads it (R53). -/
  auxIn : Bool
  /-- What `HalConfigure` answers (R56). -/
  halOk : Bool
  /-- The host's thread: the item it holds offered, then those after it (R57). -/
  hostQ : List HostItem
  /-- The input signals of the step in progress. -/
  now : Turn
  /-- The input signals of the steps to come. -/
  sched : List Turn
  /-- The MODEL's counter of free values. -/
  freeCtr : Nat
  /-- The MODEL's ghost trace, newest event first (R228). -/
  trace : List Event
deriving DecidableEq, Repr

/-- A step in which the outside does nothing and the block does not move. -/
def Turn.idle : Turn where
  rst := false
  offer := none
  move := .quiet
  aux := none
  hal := none
  outbox := none

/-- The endpoint right after hardware reset (R46, R260), with an outside world that does nothing.
Registers for which R46 says "unspecified" hold the values of log entry 7. -/
def State.reset : State where
  params := Config.reference
  started := false
  role := .master
  rxEnable := false
  cbEnable := false
  cbShadow := false
  fault := false
  newMessage := false
  success := false
  auxPending := false
  auxPrev := false
  sendResult := false
  rxActive := false
  txState := .idle
  rxCursor := .start
  byteCnt := 0
  cksAcc := 0
  txLen := 0
  attemptCnt := 0
  rxLen := 0
  rxCksField := 0
  stage := []
  inbox := []
  inboxSize := 0
  csOut := false
  auxOut := false
  txPoint := .idle
  rxPoint := .idle
  outbox := []
  auxIn := false
  halOk := true
  hostQ := []
  now := Turn.idle
  sched := []
  freeCtr := 0
  trace := []

end Sys2Proof.Machine
end

