-- ==== Sys2Proof/Machine/Ops.lean ====
section
/-! DEFINITION. The shared operations: byte memory, the pseudocode primitives of rule R9, the
raising of an outcome, entry to and return from the dispatcher (R232, R233), hardware reset,
the edge detector, and how the input signals of a step are taken. -/

namespace Sys2Proof.Machine

/-- What an operation on the state answers. -/
abbrev Result (α : Type) := Host.Outcome α Fault Refusal

/-- First `r`, then `f` on what it answers. -/
def andThen {α β : Type} (r : Result α) (f : α → Result β) : Result β :=
  match r with
  | .next a => f a
  | .fault e => .fault e
  | .refused e => .refused e

/-! ## Byte memory (R70, R74) -/

/-- What an index that is not listed reads as (R75 for `INBOX`; log entry 8 for the other two). -/
def Memory.background : Byte := 0x00

/-- `MemRead(space, i, 1)`. -/
def Memory.read : Memory → Nat → Byte
  | [], _ => Memory.background
  | (a, b) :: rest, i => if a = i then b else Memory.read rest i

/-- Puts an entry in front unless it says what is read anyway. -/
def Memory.put (i : Nat) (b : Byte) (m : Memory) : Memory :=
  if b = Memory.background then m else (i, b) :: m

/-- `MemWrite(space, i, 1, b)`. -/
def Memory.write : Memory → Nat → Byte → Memory
  | [], i, b => Memory.put i b []
  | (a, c) :: rest, i, b =>
    if a < i then (a, c) :: Memory.write rest i b
    else if a = i then Memory.put i b rest
    else Memory.put i b ((a, c) :: rest)

/-- The bytes at indices below `n`, every other index at its background. -/
def Memory.below (m : Memory) (n : Nat) : Memory := m.filter fun c => decide (c.1 < n)

/-- The canonical form: indices strictly rise and no entry equals the background. -/
def Memory.wf : Memory → Bool
  | [] => true
  | (a, b) :: rest =>
    b != Memory.background && rest.all (fun c => decide (a < c.1)) && Memory.wf rest

/-- The bytes at indices `0 .. n-1`, in order. -/
def Memory.bytes (m : Memory) (n : Nat) : List Byte := (List.range n).map m.read

/-! ## Events and lines -/

/-- Adds an event to the trace. -/
def State.log (s : State) (e : Event) : State := { s with trace := e :: s.trace }

/-- `CsWrite(v)` (R54). -/
def State.csWrite (s : State) (v : Bool) : State := { s with csOut := v, trace := .cs v :: s.trace }

/-- `AuxWrite(v)` (R53). -/
def State.auxWrite (s : State) (v : Bool) : State := { s with auxOut := v, trace := .aux v :: s.trace }

/-- The event of one `AuxRead()`; the level read is `s.auxIn` (R53). -/
def State.auxSampled (s : State) : State := s.log (.auxRead s.auxIn)

/-- The completion of a command other than a `SEND` that ran (R57). -/
def State.done (s : State) (ok : Bool) : State := s.log (.cmdDone ok)

/-- A command the block cannot accept stays offered, at the head of the host's thread (R57). -/
def State.hold (s : State) (h : HostItem) : State := { s with hostQ := h :: s.hostQ }

/-! ## The exchange (R51, R52) -/

/-- The byte an outstanding exchange receives in this step, if it completes in it.  A Master's
exchange always completes: without a peer byte, with an unspecified one.  A Slave's completes only
when the Master clocks. -/
def State.busIn (s : State) : Option Byte :=
  match s.now.move with
  | .quiet => none
  | .byte b => some b
  | .run =>
    match s.role with
    | .master => some (Config.freeByte s.freeCtr)
    | .slave => none

/-- One completed exchange.  The counter of free values advances, so that no two exchanges share an
unspecified byte. -/
def State.exchanged (s : State) (out inp : Byte) : State :=
  { s with freeCtr := s.freeCtr + 1, trace := .exchange out inp :: s.trace }

/-! ## Raising an outcome (the place of taking an exception) and the dispatcher's entry and return -/

/-- `raise <Outcome>`: it saves nothing and jumps nowhere; the label goes to the trace (R9, R220, R228). -/
def State.raise (s : State) (l : Label) : State := s.log (.outcome l)

/-- The part of entry the two dispatcher operations share: the operation is in flight (R232). -/
def State.enterDispatcher (s : State) (at_ : RxPoint) : State :=
  { s with rxActive := true, rxPoint := at_ }

/-- The part of the return that every exit shares: no operation is in flight (R233). -/
def State.leaveDispatcher (s : State) : State := { s with rxActive := false, rxPoint := .idle }

/-! ## Hardware reset (R260) -/

/-- Every register of the block at its reset value.  The outside world, the parameters, the counter
of free values and the trace are no part of the block and stay. -/
def State.hardReset (s : State) : State :=
  { State.reset with
    params := s.params
    outbox := s.outbox
    auxIn := s.auxIn
    halOk := s.halOk
    hostQ := s.hostQ
    now := s.now
    sched := s.sched
    freeCtr := s.freeCtr
    trace := .reset :: s.trace }

/-! ## The aux line's edge detector (R28, R39) -/

/-- The aux line takes level `v`.  A started Master latches an asserting edge, whatever `rx_enable`
is; a stopped endpoint and a Slave latch nothing. -/
def State.auxChange (s : State) (v : Bool) : State :=
  if s.started && s.role == .master then
    { s with auxIn := v, auxPrev := v, auxPending := s.auxPending || (v && !s.auxPrev) }
  else { s with auxIn := v }

/-- The aux line's part of a step, taken after everything else in it: an edge in the step in which
`RXM` starts is newer than the request being served (R230, item 5). -/
def State.auxPhase (s : State) : State :=
  match s.now.aux with
  | none => s
  | some v => s.auxChange v

/-! ## Taking the input signals of a step -/

/-- The host's Outbox write of a step (R76). -/
def Turn.outboxAfter (t : Turn) (m : Memory) : Memory :=
  match t.outbox with
  | none => m
  | some (i, b) => m.write i.toNat b

/-- The host's thread after the item a step offers. -/
def Turn.hostAfter (t : Turn) (q : List HostItem) : List HostItem :=
  match t.offer with
  | none => q
  | some h => q ++ [h]

/-- The signals `t` hold in this step: the host's buffer, the host's thread and the answer of the
peripheral configuration are those of `t`.  A host write to the Outbox and the block's read of it in one
step are unordered in R82; that the write comes first is the model's choice (log entry 34, DESIGN
CHOICE). -/
def State.sense (s : State) (t : Turn) : State :=
  { s with
    now := t
    outbox := t.outboxAfter s.outbox
    hostQ := t.hostAfter s.hostQ
    halOk := t.hal.getD s.halOk }

/-! ## Placing one table word where the next step takes it -/

/-- The endpoint at which an `RxByte` event is delivered: a started Slave, armed and idle (R61, R171). -/
def State.armedSlave (s : State) : State :=
  { s with started := true, role := .slave, rxEnable := true, txState := .idle, rxActive := false }

/-- `s` with the operation of a table word placed so that the next step runs it: a command word as
the only item of the host's thread, a bus byte clocked at an armed idle Slave (log entry 9). -/
def State.placeTableWord (s : State) (nbits w : Nat) : State :=
  match tableWordBytes nbits w with
  | (.command, b0 :: b1 :: b2 :: _) =>
    { s with hostQ := [.cmd (portOf b0 b1 b2)], sched := Turn.idle :: s.sched }
  | (_, b :: _) => { s.armedSlave with hostQ := [], sched := { Turn.idle with move := .byte b } :: s.sched }
  | (_, []) => s

end Sys2Proof.Machine
end

