-- ==== Sys2Proof/Machine/Operands.lean ====
section
/-! DEFINITION. The operand forms: the frame encoder's selections (rule R125), the Outbox byte, the
length register's two halves (R92), `STAGE` and `INBOX` cells, and what the host reads. -/

namespace Sys2Proof.Machine

/-- `MemRead(OUTBOX, byte_cnt, 1)`, read in place at this moment (R58, R76). -/
def State.outboxByte (s : State) : Byte := s.outbox.read s.byteCnt.toNat

/-- `ENC_BYTE(sel)` (R125). -/
def State.encByte (s : State) (sel : Sel) : Byte :=
  match sel with
  | .start => Config.startMarker
  | .lenHi => lenHi s.txLen
  | .lenLo => lenLo s.txLen
  | .payload => s.outboxByte
  | .checksum => s.cksAcc

/-- `rx_len[15:8] <- b` (R92, R126). -/
def State.setLenHi (s : State) (b : Byte) : State := { s with rxLen := lenOf b (lenLo s.rxLen) }

/-- `rx_len[7:0] <- b` (R92, R126). -/
def State.setLenLo (s : State) (b : Byte) : State := { s with rxLen := lenOf (lenHi s.rxLen) b }

/-- `MemWrite(STAGE, byte_cnt, 1, b)`; `STAGE` has the cells `0 .. MAX_LEN-1` (R40, R78). -/
def State.stageByte (s : State) (b : Byte) : Result State :=
  if s.byteCnt.toNat < s.params.maxLen then
    .next { s with stage := s.stage.write s.byteCnt.toNat b }
  else .fault .stageRange

/-- `MemRead(INBOX, i, 1)` as the host sees it: `0x00` at and beyond `inbox_size` (R75). -/
def State.inboxByte (s : State) (i : Nat) : Byte :=
  if i < s.inboxSize.toNat then s.inbox.read i else 0x00

/-- The Inbox as the byte sequence it is (R41). -/
def State.inboxBytes (s : State) : List Byte := (List.range s.inboxSize.toNat).map s.inboxByte

/-- The payload of the frame just received, `STAGE[0 .. rx_len-1]` (R128). -/
def State.stagedBytes (s : State) : List Byte := s.stage.bytes s.rxLen.toNat

end Sys2Proof.Machine
end

