-- ==== Sys2Proof/Machine/Flags.lean ====
section
/-! DEFINITION. The flags and conditions: busy (rule R30), armed (R171), the triggers (R171, R229),
acceptance (R200), the comparisons of the data path (R134), the modes (R237), and the status port
and output pins (R59, R62). -/

namespace Sys2Proof.Machine

/-! ## Busy, armed, triggers -/

/-- `tx_busy` (R30). -/
def State.txBusy (s : State) : Bool := s.txState != .idle

/-- `rx_busy` (R30). -/
def State.rxBusy (s : State) : Bool := s.rxActive

/-- `busy` (R30). -/
def State.busy (s : State) : Bool := s.txBusy || s.rxBusy

/-- The four conditions under which a trigger starts a dispatcher operation (R171). -/
def State.armed (s : State) : Bool := s.started && s.rxEnable && !s.txBusy && !s.rxActive

/-- Whether an `RxByte` event starts `RXS` (R171). -/
def State.rxsReady (s : State) : Bool := s.armed && s.role == .slave

/-- Whether a way out publishes a frame (R180). -/
def RxEnd.isComplete (how : RxEnd) : Bool :=
  match how with
  | .complete _ => true
  | .ignored | .lenRejected | .aborted => false

/-- Whether a Slave has all bytes of a frame and publishes it in its next step (R173, R180). -/
def State.publishing (s : State) : Bool :=
  s.rxActive && s.role == .slave &&
    match s.rxPoint with
    | .finish how => how.isComplete
    | .idle | .first | .sample | .pull | .ackSample _ | .ackPull _ | .release _ => false

/-- Whether this endpoint determines the level of the aux line: it is a started Slave (R241). -/
def State.drivesAux (s : State) : Bool := s.started && s.role == .slave

/-- Whether the latched edge starts `RXM` (R171, R176). -/
def State.rxmReady (s : State) : Bool := s.armed && s.role == .master && s.auxPending

/-- Whether the input signals of this step hold an asserting edge of the aux line (R28). -/
def State.edgeNow (s : State) : Bool := s.now.aux == some true && !s.auxPrev

/-- Whether the input signals of this step hold a byte on the bus. -/
def State.byteNow (s : State) : Bool :=
  match s.now.move with
  | .byte _ => true
  | .run => false
  | .quiet => false

/-- Whether a dispatcher trigger is ready in this step, so that a `SEND` waits (R200, R230 item 2). -/
def State.triggerReady (s : State) : Bool :=
  match s.role with
  | .master => s.started && s.rxEnable && (s.auxPending || s.edgeNow)
  | .slave => s.rxsReady && s.byteNow

/-! ## Acceptance (R200) -/

/-- When a command other than `SEND` is accepted. -/
def State.acceptsPlain (s : State) : Bool := !s.txBusy

/-- When `SEND` is accepted. -/
def State.acceptsSend (s : State) : Bool := !s.txBusy && !s.rxActive && !s.triggerReady

/-- Whether the host's item goes on in this step.  A wait goes on when `new_message` reads 1; a read
that gives 0 has no effect (R106, R208). -/
def State.accepts (s : State) (h : HostItem) : Bool :=
  match h with
  | .cmd c => if c.op = 0b011#3 then s.acceptsSend else s.acceptsPlain
  | .recv => s.acceptsPlain
  | .waitNew => s.newMessage

/-! ## The comparisons of the data path (R134) -/

/-- The first-byte test (R91). -/
def isMarker (b : Byte) : Bool := b == Config.startMarker

/-- The length guard `rx_len > MAX_LEN` (R101). -/
def State.overLong (s : State) : Bool := decide (s.params.maxLen < s.rxLen.toNat)

/-- `byte_cnt = rx_len` (R123). -/
def State.rxCounted (s : State) : Bool := s.byteCnt == s.rxLen

/-- `byte_cnt = tx_len` (R123). -/
def State.txCounted (s : State) : Bool := s.byteCnt == s.txLen

/-- The checksum comparison (R130). -/
def State.checksumOk (s : State) : Bool := s.rxCksField == s.cksAcc

/-- The acknowledgement test (R155). -/
def State.acknowledged (s : State) (r : Byte) : Bool := r == s.params.ackSentinel

/-- Whether attempt number `RETRIES` has been made (R153). -/
def State.lastAttempt (s : State) : Bool := s.attemptCnt.toNat == s.params.retries

/-! ## Outstanding primitives -/

/-- The byte a send FSM shifts out in the exchange it is at. -/
def State.txRequest (s : State) : Option Byte :=
  match s.txPoint with
  | .send _ b => some b
  | .ack => some s.params.ackRequest
  | .idle | .sum | .select | .request | .delay _ => none
  | .release | .drop _ | .backoff | .finish _ => none

/-- The byte the Master answers in the acknowledgement exchange (R179). -/
def State.ackAnswer (s : State) (ok : Bool) : Byte :=
  if ok then s.params.ackSentinel else s.params.fill

/-- The byte the dispatcher shifts out in the exchange it is at (R174, R177). -/
def State.rxRequest (s : State) : Option Byte :=
  match s.rxPoint with
  | .first => some s.params.fill
  | .pull => some s.params.fill
  | .ackPull ok => some (s.ackAnswer ok)
  | .idle | .sample | .ackSample _ | .release _ | .finish _ => none

/-- The byte the block shifts out in its outstanding exchange, if it has one (R51). -/
def State.exchangeRequest (s : State) : Option Byte :=
  if s.txBusy then s.txRequest else if s.rxActive then s.rxRequest else none

/-- The outstanding delay, if there is one (R55). -/
def State.delayRequest (s : State) : Option DelayKind :=
  match s.txPoint with
  | .delay _ => some .byte
  | .backoff => some .backoff
  | .idle | .sum | .select | .request | .send _ _ => none
  | .release | .ack | .drop _ | .finish _ => none

/-! ## Modes (R237) -/

/-- The four modes. -/
inductive Mode where
  | stopped
  | master
  | slave
  | faulted
deriving DecidableEq, Repr

/-- The mode of the endpoint. -/
def State.mode (s : State) : Mode :=
  if s.fault then .faulted
  else if s.started then (match s.role with | .master => .master | .slave => .slave)
  else .stopped

/-! ## The status port and the output pins (R59, R62) -/

/-- What the host can read besides the Inbox bytes (R59). -/
inductive Status where
  | newMessage
  | success
  | inboxSize
  | started
  | role
  | rxEnable
  | cbEnable
  | fault
  | sendResult
  | busy
deriving DecidableEq, Repr

/-- A flag as the status port shows it. -/
def flagWord (b : Bool) : Half := if b then 1 else 0

/-- A status read; it has no side effect (R59, R84). -/
def State.status (s : State) (r : Status) : Half :=
  match r with
  | .newMessage => flagWord s.newMessage
  | .success => flagWord s.success
  | .inboxSize => s.inboxSize
  | .started => flagWord s.started
  | .role => (bitOfRole s.role).setWidth 16
  | .rxEnable => flagWord s.rxEnable
  | .cbEnable => flagWord s.cbEnable
  | .fault => flagWord s.fault
  | .sendResult => flagWord s.sendResult
  | .busy => flagWord s.busy

/-- The level-type output signals of R62 that are not status bits. -/
structure Pins where
  cmdReady : Bool
  exchangeValid : Bool
  exchangeOut : Byte
  delayValid : Bool
  delayKind : DelayKind
  auxOut : Bool
  csOut : Bool
deriving DecidableEq, Repr

/-- `cmd_ready`.  A host that waits for `new_message` only reads and offers no command (R106), so that
the signal is 0 then as it is with an empty thread.  It is read under the input signals `now`: in the
latched state of a step (`State.latch`) it says what that step accepts, between two steps what the
signals of the step last taken would let the block accept.  R62 gives no moment; both are the model's
choice (log entry 30, DESIGN CHOICE). -/
def State.commandReady (s : State) : Bool :=
  match s.hostQ with
  | [] => false
  | .waitNew :: _ => false
  | .recv :: _ => s.accepts .recv
  | .cmd c :: _ => s.accepts (.cmd c)

/-- The output signals of the endpoint.  Where a valid signal is 0, rule R62 gives its data signal no
value, and it gives `cmd_ready` none while no command is offered: that `xchg_out` is then `0x00`,
`delay_kind` the inter-byte delay and `cmd_ready` 0 is the model's choice (log entry 30, DESIGN
CHOICE). -/
def State.pins (s : State) : Pins where
  cmdReady := s.commandReady
  exchangeValid := s.exchangeRequest.isSome
  exchangeOut := s.exchangeRequest.getD 0
  delayValid := s.delayRequest.isSome
  delayKind := s.delayRequest.getD .byte
  auxOut := s.auxOut
  csOut := s.csOut

end Sys2Proof.Machine
end

