-- ==== Sys2Proof/Machine/Codec.lean ====
section
/-! DEFINITION. The frame codec (`40_frame_codec.md`): checksum_generator, byte_counter,
frame_encoder, frame_decoder and frame_state_accumulator, as the operations the state machines are
written in, and the meanings of the micro-operation rows. -/

namespace Sys2Proof.Machine

/-! ## checksum_generator and byte_counter -/

/-- `CKS_CLEAR` (R120). -/
def State.cksClear (s : State) : State := { s with cksAcc := 0x00 }

/-- `CKS_ADD(b)`: addition modulo 256, the carry discarded (R120). -/
def State.cksAdd (s : State) (b : Byte) : State := { s with cksAcc := s.cksAcc + b }

/-- `CNT_CLEAR` (R123). -/
def State.cntClear (s : State) : State := { s with byteCnt := 0x0000 }

/-- `CNT_INC` (R123).  At `0xFFFF`, where R123 says it is never executed and states no result, the
counter holds a free value (log entry 3). -/
def State.cntInc (s : State) : State :=
  if s.byteCnt = 0xFFFF#16 then
    { s with byteCnt := Config.freeCount s.freeCtr, freeCtr := s.freeCtr + 1 }
  else { s with byteCnt := s.byteCnt + 1 }

/-- One turn of the loop of `CKS_BLOCK`: `CKS_ADD(MemRead(OUTBOX, byte_cnt, 1)); CNT_INC` (R122). -/
def State.cksStep (s : State) : State := (s.cksAdd s.outboxByte).cntInc

/-- The loop of `CKS_BLOCK(len)`, with as many turns as `len` allows (R122). -/
def State.cksLoop (len : Half) : Nat → State → State
  | 0, s => s
  | n + 1, s => if s.byteCnt = len then s else State.cksLoop len n s.cksStep

/-- `CKS_BLOCK(len)` as one operation (R122). -/
def State.cksBlock (s : State) (len : Half) : State :=
  State.cksLoop len len.toNat s.cksClear.cntClear

/-! ## frame_decoder -/

/-- The step that receives the low length byte, common to both variants: the guard on the full
16-bit value, then the counter and the accumulator are cleared (R126, R127). -/
def State.takeLenLo (s : State) (b : Byte) (accepted : State → State × DecResult) :
    State × DecResult :=
  let s1 := s.setLenLo b
  if s1.overLong then ({ s1 with rxCursor := .start }, .lenRejected)
  else accepted s1.cntClear.cksClear

/-- The step that receives a payload byte, common to both variants: stored, added, counted (R126, R127). -/
def State.takePayload (s : State) (b : Byte) : Result State :=
  andThen (s.stageByte b) fun s1 => .next (s1.cksAdd b).cntInc

/-- `DEC_STEP(b)` of the canonical variant, with its result (R126). -/
def State.decTrailing (s : State) (b : Byte) : Result (State × DecResult) :=
  match s.rxCursor with
  | .start =>
    if isMarker b then .next ({ s with rxCursor := .lenHi }, .none) else .next (s, .ignored)
  | .lenHi => .next ({ s.setLenHi b with rxCursor := .lenLo }, .none)
  | .lenLo =>
    .next (s.takeLenLo b fun t =>
      ({ t with rxCursor := if t.rxLen = 0#16 then .checksum else .payload }, .none))
  | .payload =>
    andThen (s.takePayload b) fun t =>
      .next ((if t.rxCounted then { t with rxCursor := .checksum } else t), .none)
  | .checksum =>
    let t := { s with rxCksField := b, rxCursor := .start }
    .next (t, .frame t.checksumOk)
  | .ack => .fault .decStepAtAck

/-- `DEC_STEP(b)` of the legacy variant, with its result (R127). -/
def State.decLeading (s : State) (b : Byte) : Result (State × DecResult) :=
  match s.rxCursor with
  | .start =>
    if isMarker b then .next ({ s with rxCursor := .checksum }, .none) else .next (s, .ignored)
  | .checksum => .next ({ s with rxCksField := b, rxCursor := .lenHi }, .none)
  | .lenHi => .next ({ s.setLenHi b with rxCursor := .lenLo }, .none)
  | .lenLo =>
    .next (s.takeLenLo b fun t =>
      if t.rxLen = 0#16 then
        ({ t with rxCursor := .start }, .frame (t.rxCksField == 0x00#8))
      else ({ t with rxCursor := .payload }, .none))
  | .payload =>
    andThen (s.takePayload b) fun t =>
      if t.rxCounted then .next ({ t with rxCursor := .start }, .frame t.checksumOk)
      else .next (t, .none)
  | .ack => .fault .decStepAtAck

/-- `DEC_STEP(b)` of the variant this endpoint is built with (R6, R126, R127). -/
def State.dec (s : State) (b : Byte) : Result (State × DecResult) :=
  match s.params.checksumPos with
  | .trailing => s.decTrailing b
  | .leading => s.decLeading b

/-- The answer of `DECODE` after `n` bytes, when the last step returned `r` (R128). -/
def State.decodeAnswer (s : State) (n : Nat) (r : DecResult) : DecodeAnswer where
  result := some r
  consumed := n
  payload := match r with | .frame _ => s.stagedBytes | .ignored | .lenRejected | .none => []
  rxLen := s.rxLen

/-- The loop of `DECODE` after `n` bytes (R128). -/
def State.decodeLoop : List Byte → Nat → State → Result (State × DecodeAnswer)
  | [], n, s => .next (s, ⟨none, n, [], s.rxLen⟩)
  | b :: rest, n, s =>
    andThen (s.dec b) fun tr =>
      match tr.2 with
      | .none => State.decodeLoop rest (n + 1) tr.1
      | .ignored => .next (tr.1, tr.1.decodeAnswer (n + 1) .ignored)
      | .lenRejected => .next (tr.1, tr.1.decodeAnswer (n + 1) .lenRejected)
      | .frame ok => .next (tr.1, tr.1.decodeAnswer (n + 1) (.frame ok))

/-- `DECODE(w)`: from `rx_cursor = Start`, `DEC_STEP` on the bytes in order (R128). -/
def State.decodeAll (s : State) (w : List Byte) : Result (State × DecodeAnswer) :=
  State.decodeLoop w 0 { s with rxCursor := .start }

/-! ## frame_state_accumulator -/

/-- `Commit(ok)`: Inbox, size and both flags replaced in one step (R131, R74). -/
def State.commit (s : State) (ok : Bool) : Result State :=
  if s.overLong then .fault .inboxRange
  else
    .next { s with
      inboxSize := s.rxLen
      inbox := s.stage.below s.rxLen.toNat
      success := ok
      newMessage := true
      trace := .commit :: s.trace }

/-- `Discard` (R132). -/
def State.discard (s : State) : State := { s with rxCursor := .start }

/-- The last lines of `Complete(ok)`: the callback decision and the outcome (R180, R184). -/
def State.announce (s : State) (ok : Bool) : State :=
  let s1 := if ok && s.cbShadow then s.log .callback else s
  s1.raise (if ok then .delivered else .checksumFail)

/-- `Complete(ok)`, the common end of a recognized frame, one atomic step (R180). -/
def State.complete (s : State) (ok : Bool) : Result State :=
  andThen (s.commit ok) fun s1 => .next (s1.discard.leaveDispatcher.announce ok)

/-! ## The meanings of the micro-operation rows -/

/-- `CKS_CLEAR` (R120). -/
def execCksClear (s : State) : Result State := .next s.cksClear

/-- `CKS_ADD(b)` (R120). -/
def execCksAdd (b : Byte) (s : State) : Result State := .next (s.cksAdd b)

/-- `CKS_BLOCK(len)` (R122). -/
def execCksBlock (len : Half) (s : State) : Result State := .next (s.cksBlock len)

/-- `CNT_CLEAR` (R123). -/
def execCntClear (s : State) : Result State := .next s.cntClear

/-- `CNT_INC` (R123). -/
def execCntInc (s : State) : Result State := .next s.cntInc

/-- `ENCODE(p)`: reads nothing but its operand and writes no state; the trace holds the answer (R124). -/
def execEncode (payload : List Byte) (s : State) : Result State :=
  if payloadFits payload then .next (s.log (.encoded (frameBytes s.params.checksumPos payload)))
  else .refused .payloadTooLong

/-- `ENC_BYTE(sel)`: writes no state; the trace holds the answer (R125). -/
def execEncByte (sel : Sel) (s : State) : Result State := .next (s.log (.selected (s.encByte sel)))

/-- `DEC_STEP(b)`, canonical variant; the trace holds the result (R126). -/
def execDecStep (b : Byte) (s : State) : Result State :=
  andThen (s.decTrailing b) fun tr => .next (tr.1.log (.decStep tr.2))

/-- `DEC_STEP(b)`, legacy variant; the trace holds the result (R127). -/
def execDecStepLeading (b : Byte) (s : State) : Result State :=
  andThen (s.decLeading b) fun tr => .next (tr.1.log (.decStep tr.2))

/-- `DECODE(w)`; the trace holds the answer (R128). -/
def execDecode (wire : List Byte) (s : State) : Result State :=
  andThen (s.decodeAll wire) fun ta => .next (ta.1.log (.decoded ta.2))

/-- `Commit(ok)` (R131). -/
def execCommit (ok : Bool) (s : State) : Result State := s.commit ok

/-- `Discard` (R132). -/
def execDiscard (s : State) : Result State := .next s.discard

/-- `Complete(ok)` (R180). -/
def execComplete (ok : Bool) (s : State) : Result State := s.complete ok

end Sys2Proof.Machine
end

