-- ==== Sys2Proof/Machine/Transmit.lean ====
section
/-! DEFINITION. What the two send FSMs share: the order in which the fields of a frame go out
(rules R125, R142, R148, R152, R161) and the last step of a send (R141, R151). -/

namespace Sys2Proof.Machine

/-- Requests the exchange of a field, `Exchange(ENC_BYTE(sel))`: the encoder is asked for the byte now
(R125, R142, R152). -/
def State.toField (s : State) (sel : Sel) : State := { s with txPoint := .send sel (s.encByte sel) }

/-- After the last byte of the frame: a Master releases chip-select, a Slave goes on to the
acknowledgement exchange (R142, R152). -/
def State.frameSent (s : State) : State :=
  match s.role with
  | .master => { s with txPoint := .release }
  | .slave => { s with txPoint := .ack, txState := .awaitAck }

/-- The loop test of the payload: another byte, or what follows the payload. -/
def State.bodyNext (s : State) : State :=
  if s.txCounted then
    match s.params.checksumPos with
    | .trailing => s.toField .checksum
    | .leading => s.frameSent
  else s.toField .payload

/-- Entry to `Transferring`: the counter is cleared; a Master that sums while it sends clears the
accumulator too (R142, R148, R152). -/
def State.enterTransfer (s : State) : State :=
  let s1 := { s.cntClear with txState := .transferring }
  match s.role, s.params.checksumPos with
  | .master, .trailing => s1.cksClear
  | .master, .leading => s1
  | .slave, _ => s1

/-- Goes on after field `sel` (R125). -/
def State.fieldNext (s : State) (sel : Sel) : State :=
  match sel, s.params.checksumPos with
  | .start, .trailing => s.toField .lenHi
  | .start, .leading => s.toField .checksum
  | .checksum, .trailing => s.frameSent
  | .checksum, .leading => s.toField .lenHi
  | .lenHi, _ => s.toField .lenLo
  | .lenLo, _ => s.enterTransfer.bodyNext
  | .payload, _ => s.bodyNext

/-- The last step of a send: the result, the dispatcher armed again, `tx_state <- Idle`, and one
`send_done` event (R29, R142, R152).  No rule orders the label `SendFailed` against the completion
event of the same step (R226): that it comes before it is the model's choice (log entry 31, DESIGN
CHOICE). -/
def State.finishSend (s : State) (ok : Bool) : State :=
  let s1 := { s with sendResult := ok, rxEnable := true, txState := .idle, txPoint := .idle }
  let s2 := if ok then s1 else s1.raise .sendFailed
  s2.log (.sendDone ok)

end Sys2Proof.Machine
end

