-- ==== Sys2Proof/Machine/MasterSend.lean ====
section
/-! DEFINITION. `master_send_fsm` (`41_master_send.md`, rules R140 to R148): the start of an
`MSEND` and each of its primitives. -/

namespace Sys2Proof.Machine

/-- The step that accepts a `SEND` in Master role (R142); with the checksum leading, the payload is
summed before chip-select is activated (R148). -/
def State.beginMasterSend (s : State) (len : Half) : State :=
  let s1 := { s with txState := .selecting, txLen := len, rxEnable := false }
  match s.params.checksumPos with
  | .trailing => { s1 with txPoint := .select }
  | .leading => { s1.cksClear.cntClear with txPoint := .sum }

/-- After the exchange of field `sel` that sent `b`: a payload byte is counted, and added to the
checksum unless that was computed before; then the inter-byte delay (R142, R144, R148). -/
def State.masterFieldSent (s : State) (sel : Sel) (b : Byte) : State :=
  let s1 :=
    match sel with
    | .payload =>
      match s.params.checksumPos with
      | .trailing => (s.cksAdd b).cntInc
      | .leading => s.cntInc
    | .start | .lenHi | .lenLo | .checksum => s
  { s1 with txPoint := .delay sel }

/-- One primitive of `master_send_fsm`.  The bytes its exchanges receive are discarded (R142). -/
def State.masterMove (s : State) : State :=
  match s.txPoint with
  | .idle => s
  | .sum => if s.txCounted then { s with txPoint := .select } else s.cksStep
  | .select => { s.csWrite true with txState := .framing }.toField .start
  | .send sel b =>
    match s.busIn with
    | none => s
    | some r => (s.exchanged b r).masterFieldSent sel b
  | .delay sel => (s.log (.delay .byte)).fieldNext sel
  | .release => { s.csWrite false with txState := .done, txPoint := .finish true }
  | .finish ok => s.finishSend ok
  -- places of slave_send_fsm only (R31)
  | .request | .ack | .drop _ | .backoff => s

end Sys2Proof.Machine
end

