-- ==== Sys2Proof/Machine/SlaveSend.lean ====
section
/-! DEFINITION. `slave_send_fsm` (`42_slave_send.md`, rules R150 to R161): the start of an `SSEND`
and each of its primitives. -/

namespace Sys2Proof.Machine

/-- The step that accepts a `SEND` in Slave role: the length is latched, the dispatcher disabled, the
attempt counter cleared, and the checksum of the whole payload begun (R36, R152). -/
def State.beginSlaveSend (s : State) (len : Half) : State :=
  { s.cksClear.cntClear with
    txState := .requesting, txLen := len, rxEnable := false, attemptCnt := 0, txPoint := .sum }

/-- The start of an attempt: counted, and the aux line asserted (R152, R156). -/
def State.beginAttempt (s : State) : State :=
  { s.auxWrite true with attemptCnt := s.attemptCnt + 1, txState := .framing }.toField .start

/-- After the exchange of field `sel`: a payload byte is counted; there is no delay (R152). -/
def State.slaveFieldSent (s : State) (sel : Sel) : State :=
  match sel with
  | .payload => s.cntInc.fieldNext .payload
  | .start => s.fieldNext .start
  | .lenHi => s.fieldNext .lenHi
  | .lenLo => s.fieldNext .lenLo
  | .checksum => s.fieldNext .checksum

/-- The end of an attempt that received `r`: the aux line deasserted, then the comparison; success,
failure after attempt number `RETRIES`, or another attempt after the backoff (R151 to R156). -/
def State.endAttempt (s : State) (r : Byte) : State :=
  let s1 := s.auxWrite false
  if s.acknowledged r then { s1 with txState := .done, txPoint := .finish true }
  else if s.lastAttempt then { s1 with txState := .done, txPoint := .finish false }
  else { s1 with txState := .retry, txPoint := .backoff }

/-- One primitive of `slave_send_fsm`.  An exchange the Master does not clock changes nothing: the
FSM is held (R158). -/
def State.slaveMove (s : State) : State :=
  match s.txPoint with
  | .idle => s
  | .sum => if s.txCounted then { s with txPoint := .request } else s.cksStep
  | .request => s.beginAttempt
  | .send sel b =>
    match s.busIn with
    | none => s
    | some r => (s.exchanged b r).slaveFieldSent sel
  | .ack =>
    match s.busIn with
    | none => s
    | some r => { s.exchanged s.params.ackRequest r with txPoint := .drop r }
  | .drop r => s.endAttempt r
  | .backoff => { s.log (.delay .backoff) with txState := .requesting, txPoint := .request }
  | .finish ok => s.finishSend ok
  -- places of master_send_fsm only (R31)
  | .select | .delay _ | .release => s

end Sys2Proof.Machine
end

