-- ==== Sys2Proof/Machine/Command.lean ====
section
/-! DEFINITION. The host commands (`44_host_commands.md`, rules R200 to R212), and the two role forms
of `SEND` (R140, R150). -/

namespace Sys2Proof.Machine

/-! ## Shared parts -/

/-- The command stays offered (R57, R200). -/
def State.holdCommand (s : State) (i : Instr) : State :=
  match encodeCmd i with
  | some c => s.hold (.cmd c)
  | none => s

/-- A command other than `SEND`: held until accepted; with `fault = 1` accepted and ignored with
`ok = 0` (R200, R211). -/
def State.plainCommand (s : State) (i : Instr) (effect : State → State) : State :=
  if s.acceptsPlain then (if s.fault then s.done false else effect s) else s.holdCommand i

/-- A reserved code: no state change, `ok = 0` (R104, R209). -/
def State.reservedEffect (s : State) : State := s.done false

/-! ## START and STOP -/

/-- `aux_prev <- AuxRead()`, Master role only (R201, R278). -/
def State.loadAuxPrev (s : State) (r : Role) : State :=
  match r with
  | .master => { s.auxSampled with auxPrev := s.auxIn }
  | .slave => s

/-- What an effective `START` writes (R201, R262). -/
def State.initialise (s : State) (r : Role) (cb : Bool) : State :=
  { s.loadAuxPrev r with
    role := r, cbEnable := cb, newMessage := false, success := false, auxPending := false,
    rxCursor := .start, rxActive := false, rxPoint := .idle, rxEnable := true, started := true }

/-- Outcome `HalFault`: the sticky bit is set (R25, R227).  No rule orders the label against the
completion event of the same step: that it comes before it is the model's choice (log entry 31, DESIGN
CHOICE). -/
def State.halFault (s : State) : State := { s with fault := true }.raise .halFault

/-- `START(r, cb)` with `fault = 0` (R201). -/
def State.startEffect (r : Role) (cb : Bool) (s : State) : State :=
  if s.started then s.done true
  else
    let s1 := s.log (.halConfigure r s.halOk)
    if s.halOk then (s1.initialise r cb).done true else s1.halFault.done false

/-- The abandonment of an in-flight receive: no outcome, no commit, no callback (R202). -/
def State.abandonReceive (s : State) : State :=
  if s.rxActive then s.discard.leaveDispatcher else s

/-- `STOP` with `fault = 0` (R202). -/
def State.stopEffect (s : State) : State :=
  if s.started then
    let s1 := { s with started := false, rxEnable := false, auxPending := false }.abandonReceive
    { s1.csWrite false with inboxSize := 0 }.done true
  else s.done true

/-! ## SEND -/

/-- `SEND` of an endpoint that is not started or has failed: no line, no exchange, no Outbox read (R203). -/
def State.rejectSend (s : State) : State := { s with sendResult := false }.done false

/-- The start of the role's send path (R203). -/
def State.beginSend (s : State) (len : Half) : State :=
  match s.role with
  | .master => s.beginMasterSend len
  | .slave => s.beginSlaveSend len

/-- Whether the endpoint can send at all (R203). -/
def State.canSend (s : State) : Bool := !s.fault && s.started

/-! ## The meanings -/

/-- `RESERVED_000` (R104). -/
def execReserved000 (s : State) : Result State :=
  .next (if s.acceptsPlain then s.reservedEffect else s.holdCommand .reserved000)

/-- `RESERVED_111` (R104). -/
def execReserved111 (s : State) : Result State :=
  .next (if s.acceptsPlain then s.reservedEffect else s.holdCommand .reserved111)

/-- `START(r, cb)` (R201). -/
def execStart (r : Role) (cb : Bool) (s : State) : Result State :=
  .next (s.plainCommand (.start r cb) (State.startEffect r cb))

/-- `STOP` (R202). -/
def execStop (s : State) : Result State := .next (s.plainCommand .stop State.stopEffect)

/-- `SEND(len)` (R203). -/
def execSend (len : Half) (s : State) : Result State :=
  .next (if s.acceptsSend then (if s.canSend then s.beginSend len else s.rejectSend)
    else s.holdCommand (.send len))

/-- `ATTACH` (R204). -/
def execAttach (s : State) : Result State :=
  .next (s.plainCommand .attach fun t => { t with cbEnable := true }.done true)

/-- `DETACH` (R205). -/
def execDetach (s : State) : Result State :=
  .next (s.plainCommand .detach fun t => { t with cbEnable := false }.done true)

/-- `CLRNEW` with `fault = 0` (R206). -/
def State.clrnewEffect (s : State) : State := { s with newMessage := false }.done true

/-- `CLRNEW` (R206). -/
def execClrnew (s : State) : Result State := .next (s.plainCommand .clrnew State.clrnewEffect)

/-- `MSEND(len)`: the code of `SEND` in Master role (R103, R140).  In Slave role the same code is
`SSEND`, and `MSEND` has no effect given. -/
def execMsend (len : Half) (s : State) : Result State :=
  if s.acceptsSend then
    if s.canSend then
      match s.role with
      | .master => .next (s.beginMasterSend len)
      | .slave => .refused .wrongRole
    else .next s.rejectSend
  else .next (s.holdCommand (.msend len))

/-- `SSEND(len)`: the code of `SEND` in Slave role (R103, R150).  In Master role the same code is
`MSEND`, and `SSEND` has no effect given. -/
def execSsend (len : Half) (s : State) : Result State :=
  if s.acceptsSend then
    if s.canSend then
      match s.role with
      | .master => .refused .wrongRole
      | .slave => .next (s.beginSlaveSend len)
    else .next s.rejectSend
  else .next (s.holdCommand (.ssend len))

end Sys2Proof.Machine
end

