-- ==== Sys2Proof/Machine/HostSide.lean ====
section
/-! DEFINITION. The host-side sequences (rules R106, R207): what the source gives as one call and the
block sees as a command and reads. -/

namespace Sys2Proof.Machine

/-- `RECV`: `CLRNEW`, then the wait for `new_message` is the next thing the host's thread does (R207). -/
def execRecv (s : State) : Result State :=
  .next (if s.acceptsPlain then (s.plainCommand .clrnew State.clrnewEffect).hold .waitNew
    else s.hold .recv)

/-- `WAITNEW`: one read of `new_message`; the wait ends when it reads 1 and goes on when it reads 0
(R106). -/
def execWaitNew (s : State) : Result State :=
  .next (if s.newMessage then s.log .waitDone else s.hold .waitNew)

end Sys2Proof.Machine
end

