-- ==== Sys2Proof/Machine/Receive.lean ====
section
/-! DEFINITION. `receive_dispatcher_fsm` (`43_receive_dispatcher.md`, rules R170 to R190): the
start of `RXS` and `RXM`, each primitive of a running operation, and the ways out. -/

namespace Sys2Proof.Machine

/-! ## Starting -/

/-- `RXS(b0)`: the byte of an `RxByte` event at an endpoint whose dispatcher can start (R173).  A
first byte that is no start marker changes nothing. -/
def State.startRxs (s : State) (b0 : Byte) : Result State :=
  andThen (s.dec b0) fun tr =>
    let t := tr.1.log (.rxByte b0)
    match tr.2 with
    | .ignored => .next (t.raise .ignored)
    | .none | .lenRejected | .frame _ =>
      .next { t.enterDispatcher .pull with cbShadow := t.cbEnable }

/-- `RXS(b0)` with its start condition: an `RxByte` event that cannot start the dispatcher is dropped
without effect (R171). -/
def execRxs (b0 : Byte) (s : State) : Result State :=
  if s.rxsReady then s.startRxs b0 else .next (s.log (.lostByte b0))

/-- The first step of `RXM`: the pending request is taken, the operation in flight, chip-select
active (R177, R232). -/
def State.startRxm (s : State) : State :=
  ({ s with auxPending := false }.enterDispatcher .first).csWrite true

/-- `RXM` with its start condition; an edge that cannot be served stays pending (R171, R176). -/
def execRxm (s : State) : Result State := if s.rxmReady then .next s.startRxm else .next s

/-! ## Running -/

/-- Goes to the way out of a Master-role operation: `CsWrite(0)` is next. -/
def State.toRelease (s : State) (how : RxEnd) : State := { s with rxPoint := .release how }

/-- The next primitive of an operation whose frame continues (R173, R177). -/
def State.pullAgain (s : State) : State :=
  match s.role with
  | .master => { s with rxPoint := .sample }
  | .slave => { s with rxPoint := .pull }

/-- Outcome `LenRejected`: a Master first deactivates chip-select (R173, R177, R182). -/
def State.rejectLen (s : State) : State :=
  match s.role with
  | .master => s.toRelease .lenRejected
  | .slave => s.leaveDispatcher.raise .lenRejected

/-- The end of a frame's bytes: a Master goes on to the acknowledgement exchange, a Slave to
`Complete(ok)`, which is a step of its own (R173, R177).  So what the Master does after the last byte
may come before the Slave's `Commit` or after it (R242). -/
def State.frameEnded (s : State) (ok : Bool) : State :=
  match s.role with
  | .master => { s with rxCursor := .ack, rxPoint := .ackSample ok }
  | .slave => { s with rxPoint := .finish (.complete ok) }

/-- A byte of the frame after the first (R173, R177). -/
def State.takeByte (s : State) (b : Byte) : Result State :=
  andThen (s.dec b) fun tr =>
    match tr.2 with
    | .none | .ignored => .next tr.1.pullAgain
    | .lenRejected => .next tr.1.rejectLen
    | .frame ok => .next (tr.1.frameEnded ok)

/-- The first byte `RXM` pulls (R177). -/
def State.takeFirst (s : State) (b : Byte) : Result State :=
  andThen (s.dec b) fun tr =>
    match tr.2 with
    | .ignored => .next (tr.1.toRelease .ignored)
    | .none | .lenRejected | .frame _ =>
      .next { tr.1 with cbShadow := tr.1.cbEnable, rxPoint := .sample }

/-- An abort check: goes on to `next` if the aux line is asserted, to the abort path if not (R178). -/
def State.checkAux (s : State) (next : RxPoint) : State :=
  if s.auxIn then { s.auxSampled with rxPoint := next } else s.auxSampled.toRelease .aborted

/-- The last step of an operation: `Complete` in either role; the other ways out are a Master's, which
has chip-select inactive by then (R173, R177). -/
def State.endOperation (s : State) (how : RxEnd) : Result State :=
  match how with
  | .complete ok => s.complete ok
  | .ignored => .next (s.leaveDispatcher.raise .ignored)
  | .lenRejected => .next (s.leaveDispatcher.raise .lenRejected)
  | .aborted => .next (s.discard.leaveDispatcher.raise .aborted)

/-- One primitive of a running dispatcher operation (R173, R177).  A Slave's exchange the Master does
not clock changes nothing: the operation is held (R175). -/
def State.rxMove (s : State) : Result State :=
  match s.rxPoint with
  | .idle => .next s
  | .first =>
    match s.busIn with
    | none => .next s
    | some b => (s.exchanged s.params.fill b).takeFirst b
  | .sample => .next (s.checkAux .pull)
  | .pull =>
    match s.busIn with
    | none => .next s
    | some b => (s.exchanged s.params.fill b).takeByte b
  | .ackSample ok => .next (s.checkAux (.ackPull ok))
  | .ackPull ok =>
    match s.busIn with
    | none => .next s
    | some b => .next ((s.exchanged (s.ackAnswer ok) b).toRelease (.complete ok))
  | .release how => .next { s.csWrite false with rxPoint := .finish how }
  | .finish how => s.endOperation how

/-- A Slave is ready for the Master's byte in the step of the byte (R241, R265, U16): one that has a
whole frame publishes it before the byte meets it (log entry 32, DEDUCED). -/
def State.readyForByte (s : State) : Result State := if s.publishing then s.rxMove else .next s

end Sys2Proof.Machine
end

