-- ==== Sys2Proof/Machine/Block.lean ====
section
/-! DEFINITION. The block's own step: the send FSM or the dispatcher, whichever is in progress, goes
on by one primitive; an idle block serves a ready trigger (rules R10, R171, R229, R284). -/

namespace Sys2Proof.Machine

/-- One primitive of the send FSM of this role (R203). -/
def State.txMove (s : State) : State :=
  match s.role with
  | .master => s.masterMove
  | .slave => s.slaveMove

/-- The operation in progress goes on by one primitive. -/
def State.activeMove (s : State) : Result State :=
  if s.txBusy then .next s.txMove else s.rxMove

/-- The block's own step under the input signals of this step.  A byte on the bus completes the
outstanding exchange, or is an `RxByte` event at an armed idle Slave, one that has just published a
frame among them, or is lost (R61, R241, R265). -/
def State.blockMove (s : State) : Result State :=
  match s.now.move with
  | .quiet => .next s
  | .run => if s.busy then s.activeMove else execRxm s
  | .byte b => if s.exchangeRequest.isSome then s.activeMove else andThen s.readyForByte (execRxs b)

end Sys2Proof.Machine
end

