-- ==== Sys2Proof/Machine/Wire.lean ====
section
/-! DEFINITION. The wire rows: a symbol, a frame or a whole transaction crosses the bus at this
endpoint (rules R90, R91, R96 to R99).  Each is a sequence of steps of the block under the input
signals that the peer's half of it gives; the sequence is taken without another agent in between
(log entry 10). -/

namespace Sys2Proof.Machine

/-! ## Input signals of the steps of a transaction -/

/-- A step in which the block moves and the peer gives no byte. -/
def Turn.run : Turn := { Turn.idle with move := .run }

/-- The step of one exchange in which the peer shifts out `b`. -/
def Turn.byte (b : Byte) : Turn := { Turn.idle with move := .byte b }

/-- The step of one exchange in which the peer shifts out an unspecified byte (`none`) or a given one. -/
def Turn.exchange : Option Byte → Turn
  | none => Turn.run
  | some b => Turn.byte b

/-- Steps of the block under given input signals, the aux line's part last (R230). -/
def State.runTurns : List Turn → State → Result State
  | [], s => .next s
  | t :: rest, s => andThen { s with now := t }.blockMove fun u => State.runTurns rest u.auxPhase

/-- The steps in which a Master pulls bytes: an abort check before each (R178). -/
def sampledTurns (bytes : List Byte) : List Turn := bytes.flatMap fun b => [Turn.run, Turn.byte b]

/-- The steps in which an endpoint of this role receives a sequence of bytes: a Slave one byte a step
and its `Complete` after them, a Master with an abort check before every byte but the first (R173,
R177). -/
def receiveTurns (role : Role) (bytes : List Byte) : List Turn :=
  match role with
  | .slave => bytes.map Turn.byte ++ [Turn.run]
  | .master =>
    match bytes with
    | [] => []
    | b :: rest => Turn.byte b :: sampledTurns rest

/-- `XACT_MS` at its Slave: the Master's bytes (R96). -/
def msAtSlave (prm : Params) (p : List Byte) : List Turn :=
  receiveTurns .slave (frameBytes prm.checksumPos p)

/-- `XACT_MS` at its Master, from its first exchange to the release of chip-select: the Slave's bytes,
a delay after each exchange (R96, R142). -/
def msAtMaster (prm : Params) (p : List Byte) : List Turn :=
  (replyBytes prm false p.length).flatMap (fun b => [Turn.exchange b, Turn.run]) ++ [Turn.run]

/-- A requesting Slave's bytes at an idle Master: the aux line rises, the dispatcher starts, the bytes
are pulled, chip-select is released, and the line falls while the operation ends (R97, R177). -/
def requestTurns (bytes : List Byte) : List Turn :=
  { Turn.idle with aux := some true } :: Turn.run :: receiveTurns .master bytes ++
    [Turn.run, { Turn.run with aux := some false }]

/-- `XACT_SM` at its Master: the Slave's frame and `ACK_REQUEST_BYTE` (R97, R177). -/
def smAtMaster (prm : Params) (p : List Byte) : List Turn :=
  requestTurns (frameBytes prm.checksumPos p ++ [prm.ackRequest])

/-- `XACT_SM` at its Slave, from its first exchange to the end of the attempt: the Master's bytes
(R97, R152). -/
def smAtSlave (prm : Params) (p : List Byte) : List Turn :=
  (replyBytes prm true p.length).map Turn.exchange ++ [Turn.run]

/-- The peer shifts `b` out in one exchange with this endpoint. -/
def State.busByte (s : State) (b : Byte) : Result State :=
  { s with now := { s.now with move := .byte b } }.blockMove

/-! ## The meanings

The rows whose steps depend on the role read the role register of a stopped endpoint too, where it holds
no meaningful value (R22): which steps are taken there is the model's choice (log entry 33, DESIGN
CHOICE). -/

/-- `FRAME_TRAILING`: the bytes of the canonical frame of `p` arrive at this endpoint (R90), at a
stopped one as its leftover role has it (log entry 33, DESIGN CHOICE). -/
def execFrameTrailing (payload : List Byte) (s : State) : Result State :=
  if payloadFits payload then
    State.runTurns (receiveTurns s.role (frameBytes .trailing payload)) s
  else .refused .payloadTooLong

/-- `FRAME_LEADING`: the bytes of the legacy frame of `p` arrive at this endpoint (R99), at a stopped
one as its leftover role has it (log entry 33, DESIGN CHOICE). -/
def execFrameLeading (payload : List Byte) (s : State) : Result State :=
  if payloadFits payload then
    State.runTurns (receiveTurns s.role (frameBytes .leading payload)) s
  else .refused .payloadTooLong

/-- `XACT_MS`: the peer's half of a Master-to-Slave transaction meets this endpoint (R96).  At a stopped
endpoint the leftover role chooses which half that is (log entry 33, DESIGN CHOICE). -/
def execXactMs (payload : List Byte) (s : State) : Result State :=
  if payloadFits payload then
    match s.role with
    | .master => State.runTurns (msAtMaster s.params payload) s
    | .slave => State.runTurns (msAtSlave s.params payload) s
  else .refused .payloadTooLong

/-- `XACT_SM`: the peer's half of a Slave-to-Master transaction meets this endpoint (R97).  At a stopped
endpoint the leftover role chooses which half that is, and so whether the aux line rises and falls (log
entry 33, DESIGN CHOICE). -/
def execXactSm (payload : List Byte) (s : State) : Result State :=
  if payloadFits payload then
    match s.role with
    | .master => State.runTurns (smAtMaster s.params payload) s
    | .slave => State.runTurns (smAtSlave s.params payload) s
  else .refused .payloadTooLong

/-- `START_MARKER` crosses the bus (R91). -/
def execStartMarker (s : State) : Result State := s.busByte Config.startMarker

/-- `ACK_SENTINEL` crosses the bus (R98). -/
def execAckSentinel (s : State) : Result State := s.busByte s.params.ackSentinel

/-- `ACK_REQUEST_BYTE` crosses the bus (R98). -/
def execAckRequestByte (s : State) : Result State := s.busByte s.params.ackRequest

/-- `FILL_BYTE` crosses the bus (R98). -/
def execFillByte (s : State) : Result State := s.busByte s.params.fill

end Sys2Proof.Machine
end

