-- ==== Sys2Proof/Machine/Dispatch.lean ====
section
/-! DEFINITION. One arm per operation: each is one call of its meaning. -/

namespace Sys2Proof.Machine

/-- The meaning of an operation (rule R108). -/
def exec (i : Instr) (s : State) : Host.Outcome State Fault Refusal :=
  match i with
  -- host commands
  | .reserved000 => Sys2Proof.Machine.execReserved000 s
  | .start r cb => Sys2Proof.Machine.execStart r cb s
  | .stop => Sys2Proof.Machine.execStop s
  | .send len => Sys2Proof.Machine.execSend len s
  | .attach => Sys2Proof.Machine.execAttach s
  | .detach => Sys2Proof.Machine.execDetach s
  | .clrnew => Sys2Proof.Machine.execClrnew s
  | .reserved111 => Sys2Proof.Machine.execReserved111 s
  -- operations
  | .msend len => Sys2Proof.Machine.execMsend len s
  | .ssend len => Sys2Proof.Machine.execSsend len s
  | .rxs b0 => Sys2Proof.Machine.execRxs b0 s
  | .rxm => Sys2Proof.Machine.execRxm s
  -- host-side sequences
  | .recv => Sys2Proof.Machine.execRecv s
  | .waitNew => Sys2Proof.Machine.execWaitNew s
  -- frames, transactions and symbols on the wire
  | .frameTrailing payload => Sys2Proof.Machine.execFrameTrailing payload s
  | .frameLeading payload => Sys2Proof.Machine.execFrameLeading payload s
  | .xactMs payload => Sys2Proof.Machine.execXactMs payload s
  | .xactSm payload => Sys2Proof.Machine.execXactSm payload s
  | .startMarker => Sys2Proof.Machine.execStartMarker s
  | .ackSentinel => Sys2Proof.Machine.execAckSentinel s
  | .ackRequestByte => Sys2Proof.Machine.execAckRequestByte s
  | .fillByte => Sys2Proof.Machine.execFillByte s
  -- micro-operations
  | .cksClear => Sys2Proof.Machine.execCksClear s
  | .cksAdd b => Sys2Proof.Machine.execCksAdd b s
  | .cksBlock len => Sys2Proof.Machine.execCksBlock len s
  | .cntClear => Sys2Proof.Machine.execCntClear s
  | .cntInc => Sys2Proof.Machine.execCntInc s
  | .encode payload => Sys2Proof.Machine.execEncode payload s
  | .encByte sel => Sys2Proof.Machine.execEncByte sel s
  | .decStep b => Sys2Proof.Machine.execDecStep b s
  | .decStepLeading b => Sys2Proof.Machine.execDecStepLeading b s
  | .decode wire => Sys2Proof.Machine.execDecode wire s
  | .commit ok => Sys2Proof.Machine.execCommit ok s
  | .discard => Sys2Proof.Machine.execDiscard s
  | .complete ok => Sys2Proof.Machine.execComplete ok s

end Sys2Proof.Machine
end

