-- ==== Sys2Proof/Machine/Serve.lean ====
section
/-! DEFINITION. What one step does: which input signals it takes, which command it accepts (rule
R200), and in which order the things that fall in one step are taken (R230). -/

namespace Sys2Proof.Machine

/-- The operation an item of the host's thread stands for. -/
def hostInstr : HostItem → Instr
  | .cmd c => decodeCmd c
  | .recv => .recv
  | .waitNew => .waitNew

/-- The command this step accepts, and the state with it taken from the port (R57, R200). -/
def State.fetch (s : State) : Option (Instr × State) :=
  match s.hostQ with
  | [] => none
  | h :: rest => if s.accepts h then some (hostInstr h, { s with hostQ := rest }) else none

/-- The input signals of a step no schedule describes: the block moves on its own, unless a command
can be accepted (log entry 11). -/
def State.defaultTurn (s : State) : Turn :=
  if (s.sense Turn.idle).fetch.isSome then Turn.idle else Turn.run

/-- The state with the input signals of this step taken. -/
def State.latch (s : State) : State :=
  match s.sched with
  | t :: rest => { s with sched := rest }.sense t
  | [] => s.sense s.defaultTurn

/-- The host's part of a step: the operation of the item the step accepts, if it accepts one (R200). -/
def State.hostPart (s : State) : Result State :=
  match s.fetch with
  | some iu => exec iu.1 iu.2
  | none => .next s

/-- The block's part of a step that the host's part has taken from `s` to `t`: the block's own move,
so that a set of `new_message` wins over the clear of a `CLRNEW` (R230, item 4).  Only a `SEND` that
began in this very step makes its next move in the next; that the rest of the step comes after the
command is the model's choice (log entry 16, DESIGN CHOICE). -/
def State.moveAfter (s t : State) : Result State :=
  if s.txState = .idle ∧ t.txState ≠ .idle then .next t else t.blockMove

/-- The commands and the block in one step without reset. -/
def State.serve (s : State) : Result State := andThen s.hostPart s.moveAfter

/-- The byte the block shifts out in the exchange it is at once the input signals `t` and the command
that a step under them accepts are taken: a `STOP` withdraws the exchange of a receive (R85, R202). -/
def State.requestUnder (s : State) (t : Turn) : Option Byte :=
  match (s.sense t).hostPart with
  | .next u => u.exchangeRequest
  | .fault _ => none
  | .refused _ => none

/-- One step: hardware reset goes before everything, an edge of the aux line comes last (R230, items
1 and 5). -/
def State.oneStep (s : State) : Result State :=
  let t := s.latch
  if t.now.rst then .next t.hardReset.auxPhase
  else andThen t.serve fun u => .next u.auxPhase

end Sys2Proof.Machine
end

