-- ==== Sys2Proof/Machine/Step.lean ====
section
/-! DEFINITION. One step of the machine, and the placing of one table word where the next step
takes its operation. -/

namespace Sys2Proof.Machine

/-- One step of the endpoint (rules R10, R284): one command accepted, or one primitive of the
operation in progress, under the input signals scheduled for the step. -/
def step (s : State) : Host.Outcome State Fault Refusal := s.oneStep

/-- `s` with the operation of a table word stored where `step` takes its next operation: the host's
command port, or the bus (log entry 9). -/
def State.withFetchWord (s : State) (nbits w : Nat) : State := s.placeTableWord nbits w

end Sys2Proof.Machine
end

