-- ==== Sys2Proof/Machine/Link.lean ====
section
/-! DEFINITION. Two endpoints joined by the bus, the aux line and chip-select (rules R85, R240 to
R243): the rendezvous of `Exchange`, written over `step` of each endpoint. -/

namespace Sys2Proof.Machine

/-- Which agent of the link acts next. -/
inductive LinkTurn where
  /-- The Master's block moves; if it is at an exchange, the byte towards the Slave and the byte
  towards the Master are damaged on the wire by these masks (0 is no damage). -/
  | master (toSlave toMaster : Byte)
  /-- The Slave's block moves by itself; held at an exchange, it stays held. -/
  | slave
  /-- The Master's host goes on to an item of its thread. -/
  | masterHost (h : HostItem)
  /-- The Slave's host goes on to an item of its thread. -/
  | slaveHost (h : HostItem)
  /-- Hardware reset of the Master (R261). -/
  | masterReset
  /-- Hardware reset of the Slave (R261). -/
  | slaveReset
  /-- The aux line takes this level; of effect only while no started Slave drives it (R241, U19). -/
  | auxLevel (v : Bool)
deriving DecidableEq, Repr

/-- Exactly two endpoints, and what happens next (R240). -/
structure Link where
  master : State
  slave : State
  sched : List LinkTurn
deriving DecidableEq, Repr

/-- Both endpoints right after reset. -/
def Link.reset : Link := ⟨State.reset, State.reset, []⟩

/-- One step of an endpoint under given input signals. -/
def State.stepWith (s : State) (t : Turn) : Result State := step { s with sched := t :: s.sched }

/-- What the Slave's side of a rendezvous gives the Master in a step in which the Slave has the input
signals `ts`: the byte the Slave shifts out if it is held in an exchange that no command of this step
withdraws; otherwise nothing, and the Master receives an unspecified byte (R85, R241). -/
def Link.towardsMaster (l : Link) (ts : Turn) (mask : Byte) : Turn :=
  match l.slave.requestUnder ts with
  | some c => Turn.byte (c ^^^ mask)
  | none => Turn.run

/-- Both endpoints take their step in the same step of the link. -/
def Link.both (l : Link) (tm ts : Turn) : Result Link :=
  andThen (l.master.stepWith tm) fun m =>
    andThen (l.slave.stepWith ts) fun t => .next { l with master := m, slave := t }

/-- Only the Master takes a step. -/
def Link.onlyMaster (l : Link) (t : Turn) : Result Link :=
  andThen (l.master.stepWith t) fun m => .next { l with master := m }

/-- Only the Slave takes a step. -/
def Link.onlySlave (l : Link) (t : Turn) : Result Link :=
  andThen (l.slave.stepWith t) fun u => .next { l with slave := u }

/-- The rendezvous in which the Master shifts out `m`.  The Master's call completes; what the Slave
makes of the byte is its own rule: a held exchange completes, an armed idle Slave starts `RXS`, any
other loses it (R241). -/
def Link.rendezvous (l : Link) (m toSlave toMaster : Byte) : Result Link :=
  let ts := Turn.byte (m ^^^ toSlave)
  l.both (l.towardsMaster ts toMaster) ts

/-- The Master at an exchange that no command of this step withdraws completes it; otherwise its block
moves alone, and a Slave held in an exchange waits (R85, R241). -/
def Link.masterTurn (l : Link) (toSlave toMaster : Byte) : Result Link :=
  match l.master.requestUnder Turn.run with
  | some m => l.rendezvous m toSlave toMaster
  | none => l.onlyMaster Turn.run

/-- The aux line takes a level. -/
def Link.setAux (l : Link) (v : Bool) : Link :=
  if l.master.auxIn == v then l else { l with master := l.master.auxChange v }

/-- The level the schedule gives the aux line: an input while no started Slave drives it (R241, U19). -/
def Link.auxInput (l : Link) (v : Bool) : Link := if l.slave.drivesAux then l else l.setAux v

/-- The aux line after a step that led from `l` to `k`: what a started Slave drives.  A Slave that this
step stopped or reset has let it go inactive; from then on it is an input (R53, R240, R241, R261). -/
def Link.wire (l k : Link) : Link :=
  if l.slave.drivesAux || k.slave.drivesAux then k.setAux k.slave.auxOut else k

/-- One step of the link; a link nothing is scheduled for stays as it is. -/
def linkStep (l : Link) : Result Link :=
  match l.sched with
  | [] => .next l
  | t :: rest =>
    let k := { l with sched := rest }
    andThen
      (match t with
        | .master a b => k.masterTurn a b
        | .slave => k.onlySlave Turn.run
        | .masterHost h => k.onlyMaster { Turn.idle with offer := some h }
        | .slaveHost h => k.onlySlave { Turn.idle with offer := some h }
        | .masterReset => k.onlyMaster { Turn.idle with rst := true }
        | .slaveReset => k.onlySlave { Turn.idle with rst := true }
        | .auxLevel v => .next (k.auxInput v))
      fun k1 => .next (l.wire k1)

end Sys2Proof.Machine
end

