-- ==== Sys2Proof/Safety.lean ====
section
/-! DEFINITION. What claims about runs are stated in: mutual exclusion of the two paths (rule R79),
the invariant of a running endpoint, what counts as a stop, the events a step adds, and the events
a send or a receive puts on the wire. -/

namespace Sys2Proof.Machine

/-- The send path and the dispatcher are never both in progress (R79). -/
def State.exclusive (s : State) : Prop := s.txState ≠ .idle → s.rxActive = false

/-- The machine stops here. -/
def stops (s : State) : Prop := (∃ e, step s = .fault e) ∨ ∃ e, step s = .refused e

/-! ## Where the state machines can be -/

/-- Whether a field belongs to the header of a frame (R141, R148, R151). -/
def inHeader (pos : ChecksumPos) (sel : Sel) : Bool :=
  match sel, pos with
  | .start, _ => true
  | .lenHi, _ => true
  | .lenLo, _ => true
  | .payload, _ => false
  | .checksum, .trailing => false
  | .checksum, .leading => true

/-- The `tx_state` a place of a send FSM belongs to: the tables of R141 and R151. -/
def txStateAt (role : Role) (pos : ChecksumPos) (p : TxPoint) : TxState :=
  match p with
  | .idle => .idle
  | .sum => match role with | .master => .selecting | .slave => .requesting
  | .select => .selecting
  | .request => .requesting
  | .send sel _ => if inHeader pos sel then .framing else .transferring
  | .delay sel => if inHeader pos sel then .framing else .transferring
  | .release => .transferring
  | .ack => .awaitAck
  | .drop _ => .awaitAck
  | .backoff => .retry
  | .finish _ => .done

/-- Whether a place belongs to the send FSM of a role (R31). -/
def txPlace (role : Role) (pos : ChecksumPos) (p : TxPoint) : Bool :=
  match role, p with
  | _, .idle => true
  | _, .send _ _ => true
  | .master, .sum => pos == .leading
  | .master, .select => true
  | .master, .delay _ => true
  | .master, .release => true
  | .master, .finish ok => ok
  | .master, .request => false
  | .master, .ack => false
  | .master, .drop _ => false
  | .master, .backoff => false
  | .slave, .sum => true
  | .slave, .request => true
  | .slave, .ack => true
  | .slave, .drop _ => true
  | .slave, .backoff => true
  | .slave, .finish _ => true
  | .slave, .select => false
  | .slave, .delay _ => false
  | .slave, .release => false

/-- Whether the cursor stands inside a frame (R32). -/
def midFrame (c : Cursor) : Bool :=
  match c with
  | .lenHi | .lenLo | .payload | .checksum => true
  | .start | .ack => false

/-- Which places of the dispatcher go with which role and cursor (R173, R177). -/
def rxPlace (role : Role) (p : RxPoint) (c : Cursor) : Bool :=
  match p with
  | .idle => c == .start
  | .first => role == .master && c == .start
  | .sample => role == .master && midFrame c
  | .pull => midFrame c
  | .ackSample _ => role == .master && c == .ack
  | .ackPull _ => role == .master && c == .ack
  | .release how => role == .master && rxWayOut how c
  | .finish how => (role == .master && rxWayOut how c) ||
      (role == .slave && how.isComplete && c == .start)
where
  /-- The cursor on a way out. -/
  rxWayOut (how : RxEnd) (c : Cursor) : Bool :=
    match how with
    | .complete _ => c == .ack
    | .ignored => c == .start
    | .lenRejected => c == .start
    | .aborted => midFrame c || c == .ack

/-- Whether chip-select is active at a pair of places of a Master (R42, R81). -/
def csAt (t : TxPoint) (r : RxPoint) : Bool :=
  (match t with
    | .send _ _ | .delay _ | .release => true
    | .idle | .sum | .select | .request | .ack | .drop _ | .backoff | .finish _ => false) ||
  (match r with
    | .first | .sample | .pull | .ackSample _ | .ackPull _ | .release _ => true
    | .idle | .finish _ => false)

/-- Whether the aux line is asserted at a place of a Slave's send FSM (R42, R156). -/
def auxAt (t : TxPoint) : Bool :=
  match t with
  | .send _ _ | .ack | .drop _ => true
  | .idle | .sum | .select | .request | .delay _ | .release | .backoff | .finish _ => false

/-- What the payload counter satisfies at a place of a send FSM (R33, R123). -/
def txCount (t : TxPoint) (cnt len : Half) : Prop :=
  match t with
  | .sum => cnt ≤ len
  | .send sel _ => sel = .payload → cnt < len
  | .delay sel => sel = .payload → cnt ≤ len
  | .idle | .select | .request | .release | .ack | .drop _ | .backoff | .finish _ => True

/-- What the attempt counter satisfies at a place of a Slave's send FSM (R36, R153). -/
def attemptCount (t : TxPoint) (n retries : Nat) : Prop :=
  match t with
  | .sum | .request | .backoff => n < retries
  | .send _ _ | .ack | .drop _ => 1 ≤ n ∧ n ≤ retries
  | .idle | .select | .delay _ | .release | .finish _ => n ≤ retries

/-- What the counters of the frame being received satisfy at a cursor (R33, R37, R101). -/
def rxCount (pos : ChecksumPos) (c : Cursor) (cnt len : Half) (maxLen : Nat) : Prop :=
  match c with
  | .payload => cnt < len ∧ len.toNat ≤ maxLen
  | .checksum => pos = .trailing → len.toNat ≤ maxLen
  | .ack => len.toNat ≤ maxLen
  | .start | .lenHi | .lenLo => True

/-! ## Events, in time order (R107) -/

/-- The trace of `t` is that of `s` with these events added, given in time order. -/
def State.adds (s t : State) (es : List Event) : Prop := t.trace = es.reverse ++ s.trace

/-- Exchange after exchange: what goes out against what comes in. -/
def exchangeEvents (out inp : List Byte) : List Event :=
  (out.zip inp).map fun p => .exchange p.1 p.2

/-- What a Master's send does between its two chip-select events: an exchange and a delay for each
byte (R142, R144). -/
def masterSendEvents (out inp : List Byte) : List Event :=
  (out.zip inp).flatMap fun p => [.exchange p.1 p.2, .delay .byte]

/-- What one attempt of a Slave's send does (R152). -/
def attemptEvents (out inp : List Byte) : List Event :=
  .aux true :: exchangeEvents out inp ++ [.aux false]

/-- What a Master's dispatcher does for each byte after the first: an abort check, then an exchange
(R178). -/
def pullEvents (fill : Byte) (inp : List Byte) : List Event :=
  inp.flatMap fun b => [.auxRead true, .exchange fill b]

/-- The end of a recognized frame (R180). -/
def endEvents (ok shadow : Bool) : List Event :=
  .commit :: (if ok && shadow then [.callback] else []) ++
    [.outcome (if ok then .delivered else .checksumFail)]

/-! ## The steps a send takes under given bytes from the peer -/

/-- How many steps a sender of this role sums its payload in before the frame (R148, R152). -/
def sumSteps (role : Role) (pos : ChecksumPos) (len : Nat) : Nat :=
  match role, pos with
  | .master, .trailing => 0
  | .master, .leading => len + 1
  | .slave, _ => len + 1

/-- From the acceptance of a Master's send to its end: the checksum first if it leads the frame, then
chip-select, an exchange and a delay for each byte, chip-select again, the last step (R142, R148).  In
an exchange the peer gives a byte or none (R52). -/
def masterSendTurns (pos : ChecksumPos) (len : Nat) (inp : List (Option Byte)) : List Turn :=
  List.replicate (sumSteps .master pos len) Turn.run ++
    Turn.run :: inp.flatMap (fun b => [Turn.exchange b, Turn.run]) ++ [Turn.run, Turn.run]

/-- One attempt of a Slave's send: the aux line, an exchange for each byte, the comparison (R152). -/
def attemptTurns (inp : List Byte) : List Turn :=
  Turn.run :: inp.map Turn.byte ++ [Turn.run]

/-- A frame of `p` with `c` in the place of its checksum (R90, R99). -/
def frameWith (pos : ChecksumPos) (p : List Byte) (c : Byte) : List Byte :=
  match pos with
  | .trailing => [0x24, lenHi (payloadLen p), lenLo (payloadLen p)] ++ p ++ [c]
  | .leading => [0x24, c, lenHi (payloadLen p), lenLo (payloadLen p)] ++ p

/-- The header of a frame up to the low length byte, with `c` in the place of the legacy order's
checksum (R90, R99). -/
def headerWith (pos : ChecksumPos) (c hi lo : Byte) : List Byte :=
  match pos with
  | .trailing => [0x24, hi, lo]
  | .leading => [0x24, c, hi, lo]

/-- From the acceptance of a Slave's send to its end: the checksum, then the attempts with a backoff
between them, the last step (R152). -/
def slaveSendTurns (len : Nat) (attempts : List (List Byte)) : List Turn :=
  List.replicate (len + 1) Turn.run ++
    List.intercalate [Turn.run] (attempts.map attemptTurns) ++ [Turn.run]

/-- Several steps of a link, stopping where one stops. -/
def linkRun : Nat → Link → Result Link
  | 0, l => .next l
  | k + 1, l => andThen (linkStep l) (linkRun k)

/-! ## The invariant -/

/-- What holds of an endpoint in every state a run reaches, and is kept by every step. -/
structure Inv (s : State) : Prop where
  /-- The parameters meet R7. -/
  params : s.params.wf = true
  /-- The three buffers are in canonical form. -/
  memory : s.stage.wf = true ∧ s.inbox.wf = true ∧ s.outbox.wf = true
  /-- A failed endpoint is not started (R25). -/
  faulted : s.fault = true → s.started = false
  /-- A stopped endpoint has nothing in progress, nothing armed and an empty Inbox (R21, R28, R201). -/
  stopped : s.started = false →
    s.txPoint = .idle ∧ s.rxPoint = .idle ∧ s.rxEnable = false ∧ s.auxPending = false ∧
      s.inboxSize = 0
  /-- The two paths exclude each other (R79). -/
  alone : s.txPoint ≠ .idle → s.rxPoint = .idle
  /-- `rx_active` marks a dispatcher operation (R30). -/
  active : s.rxActive = true ↔ s.rxPoint ≠ .idle
  /-- `tx_state` is that of the place (R141, R151). -/
  txState : s.txState = txStateAt s.role s.params.checksumPos s.txPoint
  /-- The place belongs to the role's send FSM. -/
  txAt : txPlace s.role s.params.checksumPos s.txPoint = true
  /-- The place, the role and the cursor of the dispatcher go together. -/
  rxAt : rxPlace s.role s.rxPoint s.rxCursor = true
  /-- The dispatcher is armed exactly outside a send (R23). -/
  enable : s.started = true → s.rxEnable = (s.txState == .idle)
  /-- Only a Master holds a pending edge (R28). -/
  pending : s.auxPending = true → s.role = .master
  /-- The lines a role drives are active exactly at the places of R42. -/
  chipSelect : s.csOut = (s.role == .master && csAt s.txPoint s.rxPoint)
  /-- The aux line is asserted exactly inside an attempt (R156). -/
  auxLine : s.auxOut = (s.role == .slave && auxAt s.txPoint)
  /-- The payload counter of a send never passes the length (R33). -/
  sendCount : txCount s.txPoint s.byteCnt s.txLen
  /-- The attempt counter never passes `RETRIES` (R36). -/
  attempts : s.attemptCnt.toNat ≤ s.params.retries ∧
    (s.role = .slave → attemptCount s.txPoint s.attemptCnt.toNat s.params.retries)
  /-- The counters of the frame being received stay inside the buffers (R78). -/
  receiveCount :
    rxCount s.params.checksumPos s.rxCursor s.byteCnt s.rxLen s.params.maxLen
  /-- A frame about to be published fits the Inbox (R41, R101). -/
  publishFits : ∀ ok, s.rxPoint = .finish (.complete ok) → s.rxLen.toNat ≤ s.params.maxLen
  /-- The Inbox fits its buffer (R41). -/
  inboxFits : s.inboxSize.toNat ≤ s.params.maxLen

end Sys2Proof.Machine
end

