-- ==== Sys2Proof/Certificates/Slice0/Obligations.lean ====
section
/-! DEFINITION. The statements for the provers.  They are about one endpoint, `exec` and `step`, but
for the last group, which is about a link of two.  `sum8`, `lenHi`, `lenLo` and `frameBytes` are the
frame format's own functions (R90, R92, R94); the events are those of R9 and R107. -/

section

open Sys2Proof Sys2Proof.Machine

/-! ## Encodings -/

/-- R103: the command codes and their operands, taken straight from their signals; code `011` is
`MSEND` or `SSEND` according to the role.  The layout of the signals in three bytes is the model's own
choice (log entry 4, DESIGN CHOICE). -/
def Obligations.CommandCodes : Prop :=
  ∀ (prm : Params) (role cb : BitVec 1) (len : Half) (rest : List Byte),
    let word := fun op : BitVec 3 => portBytes ⟨op, role, cb, len⟩ ++ rest
    decode prm .command (word 0b000#3) = .ok (.reserved000, rest) ∧
    decode prm .command (word 0b001#3) =
      .ok (.start (if role = 0#1 then .master else .slave) (decide (cb = 1#1)), rest) ∧
    decode prm .command (word 0b010#3) = .ok (.stop, rest) ∧
    decode prm .command (word 0b011#3) = .ok (.send len, rest) ∧
    decode prm (.operation .master) (word 0b011#3) = .ok (.msend len, rest) ∧
    decode prm (.operation .slave) (word 0b011#3) = .ok (.ssend len, rest) ∧
    decode prm .command (word 0b100#3) = .ok (.attach, rest) ∧
    decode prm .command (word 0b101#3) = .ok (.detach, rest) ∧
    decode prm .command (word 0b110#3) = .ok (.clrnew, rest) ∧
    decode prm .command (word 0b111#3) = .ok (.reserved111, rest)

/-- A few words with the operations they stand for.  The frames, the transaction and the symbol are
written out from the tables of R90, R97, R98 and R99.  The command words are the model's choice: the
spec has signals and no command word, and that `cmd_role` is bit 3 and `cmd_cb` bit 4 is log entry 4
(DESIGN CHOICE); the word `0x24` read as `RXS` is log entry 26 (DEDUCED). -/
def Obligations.DecodesWrittenWords : Prop :=
  decodeTableWord 8 0b00000001 = some (.start .master false) ∧
  decodeTableWord 8 0b00011001 = some (.start .slave true) ∧
  decodeTableWord 8 0b00000110 = some .clrnew ∧
  decodeTableWord 8 0b00100100 = some (.rxs 0x24) ∧
  decode Config.reference (.frame .trailing) [0x24, 0x00, 0x03, 0x01, 0x02, 0x03, 0x06] =
    .ok (.frameTrailing [0x01, 0x02, 0x03], []) ∧
  decode Config.reference (.frame .leading) [0x24, 0xFE, 0x00, 0x02, 0xFF, 0xFF] =
    .ok (.frameLeading [0xFF, 0xFF], []) ∧
  decode Config.reference .slaveToMaster [0x24, 0x00, 0x01, 0x24, 0x24, 0x05] =
    .ok (.xactSm [0x24], []) ∧
  decode Config.reference .symbol [0x06] = .ok (.ackSentinel, [])

/-- Decoding an encoding gives the operation back, with every operand at every value, and leaves the
bytes after it alone.  Symbols are told apart only where the four values differ. -/
def Obligations.DecodeEncode : Prop :=
  ∀ (prm : Params) (i : Instr) (port : Port) (bs rest : List Byte),
    i.wellFormed = true →
    encode prm i = some (port, bs) →
    (port = .symbol →
      [Config.startMarker, prm.ackSentinel, prm.ackRequest, prm.fill].Nodup) →
    decode prm port (bs ++ rest) = .ok (i, rest)

/-- The other direction for frames: bytes a frame decoder accepts are the encoding of what it
answers, so no two byte sequences stand for one frame (R90, R95, R99). -/
def Obligations.FrameEncodeDecode : Prop :=
  ∀ (prm : Params) (pos : ChecksumPos) (bs rest : List Byte) (i : Instr),
    decode prm (.frame pos) bs = .ok (i, rest) →
    i.wellFormed = true ∧ ∃ fr, encode prm i = some (.frame pos, fr) ∧ bs = fr ++ rest

/-! ## What a step runs -/

/-- A step, its input signals taken, runs the operation its bytes decode to.  An accepted item of the
host's thread is run, and then the block's own move, unless a send has begun in this very step; a byte
clocked at an endpoint with no exchange outstanding is run as `RXS`, by a Slave that has a whole frame
only after it has published it (log entry 32, DEDUCED); the latched edge of an endpoint that is not
busy is run as `RXM`; otherwise the operation in progress goes on.  The aux line's part of the step
comes last.  R230 fixes six items and leaves every other order of what falls in one step open:
that the command comes first, then the block's move, and the line's edge last is the model's choice
(log entry 16, DESIGN CHOICE). -/
def Obligations.StepRunsDecoded : Prop :=
  ∀ (s : State), s.latch.now.rst = false →
    let rest := fun t : State =>
      andThen (if s.latch.txState = .idle ∧ t.txState ≠ .idle then .next t else t.blockMove)
        fun u => .next u.auxPhase
    (∀ (b0 b1 b2 : Byte) (q : List HostItem) (i : Instr),
      s.latch.hostQ = .cmd (portOf b0 b1 b2) :: q →
      s.latch.accepts (.cmd (portOf b0 b1 b2)) = true →
      decode s.latch.params .command [b0, b1, b2] = .ok (i, []) → i.wellFormed = true →
      step s = andThen (exec i { s.latch with hostQ := q }) rest) ∧
    (∀ (q : List HostItem), s.latch.hostQ = .recv :: q → s.latch.accepts .recv = true →
      step s = andThen (exec .recv { s.latch with hostQ := q }) rest) ∧
    (∀ (q : List HostItem), s.latch.hostQ = .waitNew :: q → s.latch.accepts .waitNew = true →
      step s = andThen (exec .waitNew { s.latch with hostQ := q }) rest) ∧
    ((∀ h q, s.latch.hostQ = h :: q → s.latch.accepts h = false) →
      (s.latch.now.move = .quiet → step s = .next s.latch.auxPhase) ∧
      (∀ (b : Byte) (i : Instr), s.latch.now.move = .byte b →
        s.latch.exchangeRequest = none → decode s.latch.params .trigger [b] = .ok (i, []) →
        step s = andThen (if s.latch.publishing then s.latch.rxMove else .next s.latch) fun t =>
          andThen (exec i t) fun u => .next u.auxPhase) ∧
      (∀ b, s.latch.now.move = .byte b → s.latch.exchangeRequest ≠ none →
        step s = andThen s.latch.activeMove fun u => .next u.auxPhase) ∧
      (s.latch.now.move = .run → s.latch.busy = false →
        step s = andThen (exec .rxm s.latch) fun u => .next u.auxPhase) ∧
      (s.latch.now.move = .run → s.latch.busy = true →
        step s = andThen s.latch.activeMove fun u => .next u.auxPhase))

/-- R260: reset, at any moment and in any state, goes before everything and leaves every register the
rule lists at its value; the mode is `Stopped`, nothing is outstanding, and nothing is reported. -/
def Obligations.ResetLeaves : Prop :=
  ∀ s : State, s.latch.now.rst = true →
    ∃ t, step s = .next t ∧
      t.started = false ∧ t.fault = false ∧ t.rxEnable = false ∧ t.cbEnable = false ∧
      t.newMessage = false ∧ t.success = false ∧ t.auxPending = false ∧ t.rxActive = false ∧
      t.txState = .idle ∧ t.rxCursor = .start ∧ t.inboxSize = 0 ∧
      t.csOut = false ∧ t.auxOut = false ∧ t.mode = .stopped ∧
      t.exchangeRequest = none ∧ t.delayRequest = none ∧ t.rxsReady = false ∧
      t.rxmReady = false ∧ t.trace = .reset :: s.latch.trace

/-! ## The invariant -/

/-- The state after reset meets the invariant. -/
def Obligations.ResetInvariant : Prop := Inv State.reset

/-- Every step keeps the invariant, whatever the host, the peer, the lines and reset do in it. -/
def Obligations.StepKeepsInvariant : Prop :=
  ∀ s t : State, Inv s → step s = .next t → Inv t

/-- No state that meets the invariant stops: there is always a next state. -/
def Obligations.NeverStops : Prop :=
  ∀ s : State, Inv s → ¬ stops s

/-- R79: a send and a dispatcher operation are never both in progress, a cursor away from `Start`
means that a dispatcher operation is, and both still hold after the next step. -/
def Obligations.PathsExclude : Prop :=
  ∀ s : State, Inv s →
    s.exclusive ∧ (s.rxCursor ≠ .start → s.rxActive = true) ∧
    ∀ t, step s = .next t → t.exclusive ∧ (t.rxCursor ≠ .start → t.rxActive = true)

/-- R42: both lines are inactive when the endpoint is not started and when nothing is in progress; a
line is driven only in its role.  With it R81: an endpoint exchanges only inside its bracket. -/
def Obligations.LinesFollowOperations : Prop :=
  ∀ s : State, Inv s →
    (s.started = false → s.csOut = false ∧ s.auxOut = false) ∧
    (s.txState = .idle → s.rxActive = false → s.csOut = false ∧ s.auxOut = false) ∧
    (s.csOut = true → s.role = .master) ∧ (s.auxOut = true → s.role = .slave) ∧
    (s.role = .master → s.exchangeRequest ≠ none → s.csOut = true) ∧
    (s.role = .slave → s.txState ≠ .idle → s.exchangeRequest ≠ none → s.auxOut = true)

/-- R282: the events a step adds contain no `Commit` if a send is in progress, and a `Commit` always
leaves the whole payload of the frame it publishes; what the host sees as the Inbox changes in a step
only by that, or by becoming empty in a step that asserts reset or accepts `STOP`. -/
def Obligations.InboxNeverTorn : Prop :=
  ∀ s t : State, Inv s → step s = .next t →
    ∃ es, s.adds t es ∧
      (s.txState ≠ .idle → Event.commit ∉ es) ∧
      (Event.commit ∈ es → t.inboxBytes = t.stage.bytes t.rxLen.toNat) ∧
      (t.inboxBytes = s.inboxBytes ∨ Event.commit ∈ es ∨
        (t.inboxBytes = [] ∧
          (s.latch.now.rst = true ∨ ∃ u, s.latch.fetch = some (.stop, u))))

/-- R22: the role changes only by an accepted `START` of a stopped endpoint; reset, which gives it no
value, is the other way (log entry 7).  The host reads it as 0 or 1. -/
def Obligations.RoleFixedWhileStarted : Prop :=
  ∀ s t : State, step s = .next t →
    (t.role ≠ s.role → s.latch.now.rst = true ∨
      (s.started = false ∧ t.started = true ∧
        ∃ cb u, s.latch.fetch = some (.start t.role cb, u))) ∧
    t.status .role = (match t.role with | .master => 0 | .slave => 1)

/-- R26 and R27: `new_message` is set only by a `Commit`, and `success` is set only by a `Commit`;
`new_message` is cleared only by reset, `START`, `CLRNEW` or `RECV`; `success` only by reset, `START`
or a `Commit`. -/
def Obligations.FlagsWrittenByCommit : Prop :=
  ∀ s t : State, step s = .next t →
    (s.newMessage = false → t.newMessage = true → ∃ es, s.adds t es ∧ Event.commit ∈ es) ∧
    (s.success = false → t.success = true → ∃ es, s.adds t es ∧ Event.commit ∈ es) ∧
    (s.newMessage = true → t.newMessage = false → s.latch.now.rst = true ∨
      ∃ i u, s.latch.fetch = some (i, u) ∧
        (i = .clrnew ∨ i = .recv ∨ ∃ r cb, i = .start r cb)) ∧
    (s.success = true → t.success = false → s.latch.now.rst = true ∨
      (∃ r cb u, s.latch.fetch = some (.start r cb, u)) ∨
      ∃ es, s.adds t es ∧ Event.commit ∈ es)

/-- A frame is published with its flags and its outcome in one step: in a step with a `Commit`
`new_message` ends as 1 (set wins over a clear in the same step), the dispatcher is idle again, and
the outcome and the callback are those of `success` (R80, R180, R230 item 4, R235).  The dispatcher is
busy again at the end of the step only if a marker that was clocked in it has started a new frame
(log entry 32, DEDUCED). -/
def Obligations.CommitStepIsWhole : Prop :=
  ∀ (s t : State) (es : List Event), step s = .next t → s.adds t es →
    (Event.callback ∈ es → Event.commit ∈ es ∧ t.success = true) ∧
    (Event.outcome .delivered ∈ es ↔ Event.commit ∈ es ∧ t.success = true) ∧
    (Event.outcome .checksumFail ∈ es ↔ Event.commit ∈ es ∧ t.success = false) ∧
    (Event.commit ∈ es → t.newMessage = true ∧
      ((t.rxActive = false ∧ t.rxCursor = .start) ∨ Event.rxByte 0x24 ∈ es))

/-- R237: which mode follows which.  There is no way from `Master` to `Slave` or back but through
`Stopped`, and none out of `Faulted` but reset. -/
def Obligations.ModeChanges : Prop :=
  ∀ s t : State, Inv s → step s = .next t →
    (s.mode = .master → t.mode = .master ∨ t.mode = .stopped) ∧
    (s.mode = .slave → t.mode = .slave ∨ t.mode = .stopped) ∧
    (s.mode = .faulted → t.mode = .faulted ∨ (s.latch.now.rst = true ∧ t.mode = .stopped)) ∧
    (s.mode = .stopped → t.mode ≠ .stopped → ∃ r cb u,
      s.latch.fetch = some (.start r cb, u) ∧
      t.mode = (if s.latch.halOk then (match r with | .master => .master | .slave => .slave)
        else .faulted))

/-- R284: the durations and the pin level are read by no rule: a machine with other values of them
takes the same steps.  No step changes a parameter (R7). -/
def Obligations.TimingParametersUnread : Prop :=
  ∀ (a b : Nat) (lv : PinLevel) (s : State),
    let other := fun u : State =>
      { u with params := { u.params with tByte := a, tBackoff := b, auxActiveLevel := lv } }
    step (other s) = andThen (step s) (fun t => .next (other t)) ∧
    ∀ t, step s = .next t → t.params = s.params

/-! ## The data path -/

/-- R120: `CKS_CLEAR` and `CKS_ADD` write the accumulator and nothing else: addition modulo 256, the
carry discarded. -/
def Obligations.ChecksumOperations : Prop :=
  ∀ (s : State) (b : Byte),
    exec .cksClear s = .next { s with cksAcc := 0x00 } ∧
    exec (.cksAdd b) s =
      .next { s with cksAcc := BitVec.ofNat 8 ((s.cksAcc.toNat + b.toNat) % 256) }

/-- R121, items 1 to 4: the value of the checksum, its independence of the order, its sensitivity to
one flipped bit, and exactly which changes it does not see. -/
def Obligations.ChecksumLaws : Prop :=
  (∀ p : List Byte, (sum8 p).toNat = (p.map BitVec.toNat).sum % 256) ∧
  sum8 [] = 0x00 ∧
  (∀ p q : List Byte, p.Perm q → sum8 p = sum8 q) ∧
  (∀ (p q : List Byte) (b : Byte) (k : Nat), k < 8 →
    sum8 (p ++ (b ^^^ (1#8 <<< k)) :: q) ≠ sum8 (p ++ b :: q)) ∧
  (∀ p q : List Byte, sum8 p = sum8 q ↔
    (((p.map BitVec.toNat).sum : Int) - ((q.map BitVec.toNat).sum : Int)) % 256 = 0)

/-- R122: `CKS_BLOCK(len)` leaves the checksum of the Outbox's first `len` bytes in the accumulator
and `len` in the counter, and changes nothing else: no exchange takes place. -/
def Obligations.ChecksumOfBlock : Prop :=
  ∀ (s : State) (len : Half),
    exec (.cksBlock len) s =
      .next { s with cksAcc := sum8 (s.outbox.bytes len.toNat), byteCnt := len }

/-- R123: `CNT_CLEAR` and `CNT_INC` write the counter and nothing else.  At `0xFFFF`, where the rule
says `CNT_INC` is never executed, the model goes on with some value (log entry 3, DESIGN CHOICE). -/
def Obligations.CounterOperations : Prop :=
  ∀ s : State,
    exec .cntClear s = .next { s with byteCnt := 0x0000 } ∧
    (s.byteCnt ≠ 0xFFFF#16 →
      exec .cntInc s = .next { s with byteCnt := BitVec.ofNat 16 (s.byteCnt.toNat + 1) }) ∧
    (s.byteCnt = 0xFFFF#16 →
      ∃ v, exec .cntInc s = .next { s with byteCnt := v, freeCtr := s.freeCtr + 1 })

/-- R124: `ENCODE(p)` answers the frame's bytes, in both field orders, and writes no state; the trace
keeps the answer. -/
def Obligations.EncodeAnswers : Prop :=
  ∀ (s : State) (p : List Byte), p.length ≤ 65535 →
    let c : Byte := BitVec.ofNat 8 ((p.map BitVec.toNat).sum % 256)
    let hi : Byte := BitVec.ofNat 8 (p.length / 256)
    let lo : Byte := BitVec.ofNat 8 (p.length % 256)
    exec (.encode p) s = .next { s with
      trace := .encoded (match s.params.checksumPos with
        | .trailing => [0x24, hi, lo] ++ p ++ [c]
        | .leading => [0x24, c, hi, lo] ++ p) :: s.trace }

/-- R125: `ENC_BYTE` answers the byte of each selection and writes no state (the trace keeps the
answer); presented in the send FSMs' order, with the payload's checksum in the accumulator, the
selections give `ENCODE` of the Outbox. -/
def Obligations.EncoderSelects : Prop :=
  (∀ (s : State) (sel : Sel), ∃ b,
    exec (.encByte sel) s = .next { s with trace := .selected b :: s.trace } ∧
    b = (match sel with
      | .start => 0x24
      | .lenHi => s.txLen.extractLsb' 8 8
      | .lenLo => s.txLen.extractLsb' 0 8
      | .payload => s.outbox.read s.byteCnt.toNat
      | .checksum => s.cksAcc)) ∧
  (∀ s : State, s.cksAcc = sum8 (s.outbox.bytes s.txLen.toNat) →
    let body := (List.range s.txLen.toNat).map fun i =>
      State.encByte { s with byteCnt := BitVec.ofNat 16 i } .payload
    frameBytes .trailing (s.outbox.bytes s.txLen.toNat) =
      [s.encByte .start, s.encByte .lenHi, s.encByte .lenLo] ++ body ++ [s.encByte .checksum] ∧
    frameBytes .leading (s.outbox.bytes s.txLen.toNat) =
      [s.encByte .start, s.encByte .checksum, s.encByte .lenHi, s.encByte .lenLo] ++ body)

/-- R126: the decode step of the canonical variant, at each place of the cursor; the trace keeps the
result.  In `Payload` the counter must be an index of `STAGE`. -/
def Obligations.DecodeStepTrailing : Prop :=
  ∀ (s : State) (b : Byte),
    let len : Half := s.rxLen.extractLsb' 8 8 ++ b
    (s.rxCursor = .start → exec (.decStep b) s = .next (if b = 0x24 then
      { s with rxCursor := .lenHi, trace := .decStep .none :: s.trace }
      else { s with trace := .decStep .ignored :: s.trace })) ∧
    (s.rxCursor = .lenHi → exec (.decStep b) s = .next { s with
      rxLen := b ++ s.rxLen.extractLsb' 0 8, rxCursor := .lenLo
      trace := .decStep .none :: s.trace }) ∧
    (s.rxCursor = .lenLo → exec (.decStep b) s = .next (if s.params.maxLen < len.toNat then
      { s with rxLen := len, rxCursor := .start, trace := .decStep .lenRejected :: s.trace }
      else { s with
        rxLen := len, byteCnt := 0x0000, cksAcc := 0x00
        rxCursor := (if len = 0 then .checksum else .payload)
        trace := .decStep .none :: s.trace })) ∧
    (s.rxCursor = .payload → s.byteCnt.toNat < s.params.maxLen → s.byteCnt ≠ 0xFFFF#16 →
      exec (.decStep b) s = .next { s with
        stage := s.stage.write s.byteCnt.toNat b, cksAcc := s.cksAcc + b
        byteCnt := s.byteCnt + 1
        rxCursor := (if s.byteCnt + 1 = s.rxLen then .checksum else .payload)
        trace := .decStep .none :: s.trace }) ∧
    (s.rxCursor = .checksum → exec (.decStep b) s = .next { s with
      rxCksField := b, rxCursor := .start
      trace := .decStep (.frame (decide (b = s.cksAcc))) :: s.trace })

/-- R127: the decode step of the legacy variant, at each place of the cursor; the trace keeps the
result. -/
def Obligations.DecodeStepLeading : Prop :=
  ∀ (s : State) (b : Byte),
    let len : Half := s.rxLen.extractLsb' 8 8 ++ b
    (s.rxCursor = .start → exec (.decStepLeading b) s = .next (if b = 0x24 then
      { s with rxCursor := .checksum, trace := .decStep .none :: s.trace }
      else { s with trace := .decStep .ignored :: s.trace })) ∧
    (s.rxCursor = .checksum → exec (.decStepLeading b) s = .next { s with
      rxCksField := b, rxCursor := .lenHi, trace := .decStep .none :: s.trace }) ∧
    (s.rxCursor = .lenHi → exec (.decStepLeading b) s = .next { s with
      rxLen := b ++ s.rxLen.extractLsb' 0 8, rxCursor := .lenLo
      trace := .decStep .none :: s.trace }) ∧
    (s.rxCursor = .lenLo → exec (.decStepLeading b) s = .next
      (if s.params.maxLen < len.toNat then
        { s with rxLen := len, rxCursor := .start, trace := .decStep .lenRejected :: s.trace }
      else if len = 0 then { s with
        rxLen := len, byteCnt := 0x0000, cksAcc := 0x00, rxCursor := .start
        trace := .decStep (.frame (decide (s.rxCksField = 0x00))) :: s.trace }
      else { s with
        rxLen := len, byteCnt := 0x0000, cksAcc := 0x00, rxCursor := .payload
        trace := .decStep .none :: s.trace })) ∧
    (s.rxCursor = .payload → s.byteCnt.toNat < s.params.maxLen → s.byteCnt ≠ 0xFFFF#16 →
      exec (.decStepLeading b) s = .next (if s.byteCnt + 1 = s.rxLen then { s with
        stage := s.stage.write s.byteCnt.toNat b, cksAcc := s.cksAcc + b
        byteCnt := s.byteCnt + 1, rxCursor := .start
        trace := .decStep (.frame (decide (s.rxCksField = s.cksAcc + b))) :: s.trace }
      else { s with
        stage := s.stage.write s.byteCnt.toNat b, cksAcc := s.cksAcc + b
        byteCnt := s.byteCnt + 1
        trace := .decStep .none :: s.trace }))

/-- R128: `DECODE(w)` answers from every state, for every byte sequence: it consumes some of `w`,
all of it when the frame is incomplete, and changes nothing outside the decoder's registers but the
trace, which keeps the answer.  Of `STAGE` it changes only cells below the length received for which a
payload byte has come. -/
def Obligations.DecodeAlwaysAnswers : Prop :=
  ∀ (s : State) (w : List Byte),
    ∃ t a, exec (.decode w) s = .next t ∧
      t = { s with
        rxCursor := t.rxCursor, rxLen := t.rxLen, rxCksField := t.rxCksField, stage := t.stage
        byteCnt := t.byteCnt, cksAcc := t.cksAcc, trace := .decoded a :: s.trace } ∧
      a.consumed ≤ w.length ∧ a.result ≠ some .none ∧ a.rxLen = t.rxLen ∧
      (a.result = none → a.consumed = w.length) ∧
      (a.result ≠ none → t.rxCursor = .start) ∧
      (∀ ok, a.result = some (.frame ok) → a.payload = t.stage.bytes t.rxLen.toNat) ∧
      (∀ i, t.rxLen.toNat ≤ i ∨ w.length ≤ i + 3 → t.stage.read i = s.stage.read i)

/-- R133: the round trip, in either field order.  A payload within `MAX_LEN` comes back whole from its
frame, every byte consumed, with a matching checksum; a longer one is rejected. -/
def Obligations.RoundTrip : Prop :=
  ∀ (s : State) (p : List Byte), s.stage.wf = true → p.length ≤ 65535 →
    ∃ t a, exec (.decode (frameBytes s.params.checksumPos p)) s = .next t ∧
      t.trace = .decoded a :: s.trace ∧ t.rxLen = BitVec.ofNat 16 p.length ∧
      (p.length ≤ s.params.maxLen →
        a = ⟨some (.frame true), p.length + 4, p, BitVec.ofNat 16 p.length⟩ ∧
        t.stage.bytes p.length = p) ∧
      (s.params.maxLen < p.length → a.result = some .lenRejected ∧ t.stage = s.stage)

/-- R131: `Commit(ok)` replaces the Inbox, its size and both flags in one step and changes nothing
else; at and beyond the new size the host reads `0x00`. -/
def Obligations.CommitPublishes : Prop :=
  ∀ (s : State) (ok : Bool), s.rxLen.toNat ≤ s.params.maxLen →
    ∃ t, exec (.commit ok) s = .next t ∧
      t = { s with
        inbox := t.inbox, inboxSize := s.rxLen, success := ok, newMessage := true
        trace := .commit :: s.trace } ∧
      (∀ i, t.inboxByte i = if i < s.rxLen.toNat then s.stage.read i else 0x00) ∧
      (s.stage.wf = true → t.inbox.wf = true)

/-- R132: `Discard` puts the cursor back to `Start` and touches nothing else. -/
def Obligations.DiscardOnlyMovesCursor : Prop :=
  ∀ s : State, exec .discard s = .next { s with rxCursor := .start }

/-- R180: `Complete(ok)` is one step: the frame published, the cursor and the dispatcher idle, then the
callback only if the frame is good and a handler was attached when it began, then the outcome. -/
def Obligations.CompleteInOneStep : Prop :=
  ∀ (s : State) (ok : Bool), s.rxLen.toNat ≤ s.params.maxLen →
    exec (.complete ok) s = .next { s with
      inbox := s.stage.below s.rxLen.toNat, inboxSize := s.rxLen
      success := ok, newMessage := true
      rxCursor := .start, rxActive := false, rxPoint := .idle
      trace := .outcome (if ok then .delivered else .checksumFail) ::
        ((if ok && s.cbShadow then [.callback] else []) ++ .commit :: s.trace) }

/-- Where operations stop, each by a name of its own: what the spec gives no cell or no effect for
(the model's choice to stop; R40, R41, R103, R124, R126). -/
def Obligations.WhereOperationsStop : Prop :=
  ∀ (s : State) (b : Byte) (ok : Bool) (len : Half) (p : List Byte),
    (s.rxCursor = .ack → exec (.decStep b) s = .fault .decStepAtAck ∧
      exec (.decStepLeading b) s = .fault .decStepAtAck) ∧
    (s.rxCursor = .payload → s.params.maxLen ≤ s.byteCnt.toNat →
      exec (.decStep b) s = .fault .stageRange ∧
      exec (.decStepLeading b) s = .fault .stageRange) ∧
    (s.params.maxLen < s.rxLen.toNat → exec (.commit ok) s = .fault .inboxRange ∧
      exec (.complete ok) s = .fault .inboxRange) ∧
    (s.acceptsSend = true → s.canSend = true → s.role = .slave →
      exec (.msend len) s = .refused .wrongRole) ∧
    (s.acceptsSend = true → s.canSend = true → s.role = .master →
      exec (.ssend len) s = .refused .wrongRole) ∧
    (65535 < p.length → exec (.encode p) s = .refused .payloadTooLong ∧
      exec (.frameTrailing p) s = .refused .payloadTooLong ∧
      exec (.frameLeading p) s = .refused .payloadTooLong ∧
      exec (.xactMs p) s = .refused .payloadTooLong ∧
      exec (.xactSm p) s = .refused .payloadTooLong)

/-! ## Host commands -/

/-- R104, R209: the reserved codes are accepted under the condition of `CLRNEW`, which is that no send
is in progress; accepted, they change no state and complete at once with `ok = 0`; until then they stay
offered, as `CLRNEW` does. -/
def Obligations.ReservedCodes : Prop :=
  ∀ s : State,
    (s.txState = .idle →
      exec .reserved000 s = .next { s with trace := .cmdDone false :: s.trace } ∧
      exec .reserved111 s = .next { s with trace := .cmdDone false :: s.trace }) ∧
    (s.txState ≠ .idle → ∀ i ∈ [Instr.clrnew, .reserved000, .reserved111],
      ∃ c, encodeCmd i = some c ∧ exec i s = .next { s with hostQ := .cmd c :: s.hostQ })

/-- R201: `START(r, cb)` of an endpoint that has failed, is started, cannot be configured, and can
be: every register it writes, and no other.  R227: the failed configuration raises `HalFault`; that this
label comes before the completion event of the same step is the model's choice (log entry 31, DESIGN
CHOICE). -/
def Obligations.StartEffects : Prop :=
  ∀ (s : State) (r : Role) (cb : Bool), s.txState = .idle →
    exec (.start r cb) s = .next (
      if s.fault = true then { s with trace := .cmdDone false :: s.trace }
      else if s.started = true then { s with trace := .cmdDone true :: s.trace }
      else if s.halOk = false then { s with
        fault := true
        trace := .cmdDone false :: .outcome .halFault :: .halConfigure r false :: s.trace }
      else { s with
        role := r, cbEnable := cb, newMessage := false, success := false, auxPending := false
        auxPrev := (match r with | .master => s.auxIn | .slave => s.auxPrev)
        rxCursor := .start, rxActive := false, rxPoint := .idle, rxEnable := true
        started := true
        trace := .cmdDone true ::
          ((match r with | .master => [.auxRead s.auxIn] | .slave => []) ++
            .halConfigure r true :: s.trace) })

/-- R202: `STOP`: a receive in flight is abandoned without an outcome, the Inbox becomes empty, and
the flags, the handler bit, the role and the last send's result are kept. -/
def Obligations.StopEffects : Prop :=
  ∀ s : State, s.txState = .idle →
    exec .stop s = .next (
      if s.fault = true then { s with trace := .cmdDone false :: s.trace }
      else if s.started = false then { s with trace := .cmdDone true :: s.trace }
      else { s with
        started := false, rxEnable := false, auxPending := false, csOut := false, inboxSize := 0
        rxCursor := (if s.rxActive then .start else s.rxCursor), rxActive := false
        rxPoint := (if s.rxActive then .idle else s.rxPoint)
        trace := .cmdDone true :: .cs false :: s.trace })

/-- R203: `SEND` of an endpoint that is not started or has failed writes only its result; otherwise it
is the role's own operation, whose first step latches the length, disables the dispatcher and leaves
`Idle`; in Slave role, and with the checksum leading, the sum of the payload is begun (R141, R148,
R151, R152). -/
def Obligations.SendBegins : Prop :=
  ∀ (s : State) (len : Half), s.acceptsSend = true →
    (s.fault = true ∨ s.started = false →
      exec (.send len) s =
        .next { s with sendResult := false, trace := .cmdDone false :: s.trace }) ∧
    (s.fault = false → s.started = true → s.role = .master →
      exec (.send len) s = exec (.msend len) s ∧
      exec (.msend len) s = .next (match s.params.checksumPos with
        | .trailing => { s with
          txState := .selecting, txLen := len, rxEnable := false, txPoint := .select }
        | .leading => { s with
          txState := .selecting, txLen := len, rxEnable := false, txPoint := .sum
          cksAcc := 0x00, byteCnt := 0x0000 })) ∧
    (s.fault = false → s.started = true → s.role = .slave →
      exec (.send len) s = exec (.ssend len) s ∧
      exec (.ssend len) s = .next { s with
        txState := .requesting, txLen := len, rxEnable := false, txPoint := .sum
        attemptCnt := 0x00, cksAcc := 0x00, byteCnt := 0x0000 })

/-- R204 and R205: `ATTACH` and `DETACH` write the handler bit and nothing else, so a frame being
received is not affected; a second `DETACH` changes no register. -/
def Obligations.HandlerCommands : Prop :=
  ∀ s : State, s.txState = .idle →
    exec .attach s = .next (if s.fault = true then { s with trace := .cmdDone false :: s.trace }
      else { s with cbEnable := true, trace := .cmdDone true :: s.trace }) ∧
    exec .detach s = .next (if s.fault = true then { s with trace := .cmdDone false :: s.trace }
      else { s with cbEnable := false, trace := .cmdDone true :: s.trace }) ∧
    (s.fault = false → s.cbEnable = false →
      exec .detach s = .next { s with trace := .cmdDone true :: s.trace })

/-- R206: `CLRNEW` clears `new_message` and nothing else; the host's `RECV` is that and then its wait. -/
def Obligations.ClearNewMessage : Prop :=
  ∀ s : State, s.txState = .idle →
    exec .clrnew s = .next (if s.fault = true then { s with trace := .cmdDone false :: s.trace }
      else { s with newMessage := false, trace := .cmdDone true :: s.trace }) ∧
    exec .recv s = .next (if s.fault = true then { s with
        hostQ := .waitNew :: s.hostQ, trace := .cmdDone false :: s.trace }
      else { s with
        newMessage := false, hostQ := .waitNew :: s.hostQ, trace := .cmdDone true :: s.trace })

/-- R106: the wait for `new_message` ends when the flag reads 1; reading it changes no register. -/
def Obligations.WaitReadsFlag : Prop :=
  ∀ s : State,
    (s.newMessage = true → exec .waitNew s = .next { s with trace := .waitDone :: s.trace }) ∧
    (s.newMessage = false → exec .waitNew s = .next { s with hostQ := .waitNew :: s.hostQ })

/-- R25 and R211: a failed endpoint accepts every command, changes no register but the result of a
`SEND`, and completes with `ok = 0`; it stays failed and not started until reset, whatever is offered
or clocked. -/
def Obligations.FaultedUntilReset : Prop :=
  ∀ (s : State) (r : Role) (cb : Bool) (len : Half),
    s.fault = true → s.started = false →
    (s.txState = .idle →
      ∀ i ∈ [Instr.start r cb, .stop, .attach, .detach, .clrnew, .reserved000, .reserved111],
        exec i s = .next { s with trace := .cmdDone false :: s.trace }) ∧
    (s.txState = .idle → s.rxActive = false →
      exec (.send len) s =
        .next { s with sendResult := false, trace := .cmdDone false :: s.trace }) ∧
    (∀ t, step s = .next t → s.latch.now.rst = true ∨ (t.fault = true ∧ t.started = false))

/-- R200: while a send is in progress no command is accepted; `SEND` moreover waits for a dispatcher
operation and for a ready trigger.  What is not accepted stays offered, with no other change. -/
def Obligations.CommandsWait : Prop :=
  ∀ (s : State) (r : Role) (cb : Bool) (len : Half),
    (s.txState ≠ .idle → ∀ i ∈ [Instr.start r cb, .stop, .attach, .detach, .clrnew,
      .reserved000, .reserved111, .send len],
      ∃ c, encodeCmd i = some c ∧ exec i s = .next { s with hostQ := .cmd c :: s.hostQ }) ∧
    (s.rxActive = true ∨ s.triggerReady = true → ∃ c, encodeCmd (.send len) = some c ∧
      exec (.send len) s = .next { s with hostQ := .cmd c :: s.hostQ })

/-! ## The receive dispatcher -/

/-- R171, R173, R181: an `RxByte` event at an endpoint that is not armed is dropped; at an armed one a
byte other than the marker changes no register; the marker starts the operation, which shadows the
handler bit. -/
def Obligations.ByteEventStartsReceive : Prop :=
  ∀ (s : State) (b : Byte),
    (s.started = false ∨ s.rxEnable = false ∨ s.txState ≠ .idle ∨ s.rxActive = true ∨
        s.role = .master →
      exec (.rxs b) s = .next { s with trace := .lostByte b :: s.trace }) ∧
    (s.started = true → s.rxEnable = true → s.txState = .idle → s.rxActive = false →
      s.role = .slave → s.rxCursor = .start →
      exec (.rxs b) s = .next (if b = 0x24 then { s with
        rxActive := true, rxPoint := .pull, cbShadow := s.cbEnable
        rxCursor := (match s.params.checksumPos with | .trailing => .lenHi | .leading => .checksum)
        trace := .rxByte b :: s.trace }
      else { s with trace := .outcome .ignored :: .rxByte b :: s.trace }))

/-- R171, R176, R232: the latched edge starts `RXM` exactly when the endpoint is armed: the request is
taken, the operation in flight, chip-select active; otherwise the edge stays pending. -/
def Obligations.EdgeStartsReceive : Prop :=
  ∀ s : State,
    (s.started = true → s.rxEnable = true → s.txState = .idle → s.rxActive = false →
      s.role = .master → s.auxPending = true →
      exec .rxm s = .next { s with
        auxPending := false, rxActive := true, rxPoint := .first, csOut := true
        trace := .cs true :: s.trace }) ∧
    (s.started = false ∨ s.rxEnable = false ∨ s.txState ≠ .idle ∨ s.rxActive = true ∨
        s.role = .slave ∨ s.auxPending = false →
      exec .rxm s = .next s)

/-- R90, R96, R99, R173, R180: a frame in the endpoint's own field order, or the Master's half of the
transaction that carries it, clocked at an armed idle Slave, is delivered: the Inbox holds the payload
and both flags are set, the Slave answers `FILL_BYTE` to every byte after the first, and there is one
callback if a handler was attached.  Nothing outside the receive path changes.  That these rows run as
the bytes arriving at this endpoint is log entry 10 (DEDUCED).  A frame in the other field order is
left out. -/
def Obligations.FrameDeliveredAtSlave : Prop :=
  ∀ (s : State) (p : List Byte),
    s.rxsReady = true → s.rxCursor = .start → s.stage.wf = true →
    p.length ≤ s.params.maxLen → s.params.maxLen ≤ 65534 →
    ∃ stage : Memory, stage.bytes p.length = p ∧
      (∀ i, p.length ≤ i → stage.read i = s.stage.read i) ∧
      ∃ t : State, t.inboxBytes = p ∧
        t = { s with
          cbShadow := s.cbEnable, rxLen := BitVec.ofNat 16 p.length
          byteCnt := BitVec.ofNat 16 p.length, cksAcc := sum8 p, rxCksField := sum8 p
          stage := stage, inbox := stage.below p.length
          inboxSize := BitVec.ofNat 16 p.length
          newMessage := true, success := true, rxActive := false, rxPoint := .idle
          now := t.now, freeCtr := s.freeCtr + (p.length + 3)
          trace := (Event.rxByte 0x24 ::
            exchangeEvents (List.replicate (p.length + 3) s.params.fill)
              (frameBytes s.params.checksumPos p).tail ++
            endEvents true s.cbEnable).reverse ++ s.trace } ∧
        (s.params.checksumPos = .trailing → exec (.frameTrailing p) s = .next t) ∧
        (s.params.checksumPos = .leading → exec (.frameLeading p) s = .next t) ∧
        exec (.xactMs p) s = .next t

/-- R183, R224: a frame in the endpoint's own field order whose checksum byte is wrong is published all
the same, with `success` 0 and no callback, in both roles and both orders: clocked at an armed idle
Slave, and pulled by an armed idle Master, which answers `FILL_BYTE` and not `ACK_SENTINEL` in the
acknowledgement exchange and releases chip-select (R179). -/
def Obligations.WrongChecksumAtSlave : Prop :=
  ∀ (s : State) (p : List Byte) (c : Byte),
    s.rxCursor = .start → s.stage.wf = true → p.length ≤ s.params.maxLen →
    s.params.maxLen ≤ 65534 → c ≠ sum8 p →
    let wire := frameWith s.params.checksumPos p c
    let published := fun (stage : Memory) (u : State) => { u with
      cbShadow := s.cbEnable, rxLen := BitVec.ofNat 16 p.length
      byteCnt := BitVec.ofNat 16 p.length, cksAcc := sum8 p, rxCksField := c
      stage := stage, inbox := stage.below p.length, inboxSize := BitVec.ofNat 16 p.length
      newMessage := true, success := false, rxActive := false, rxPoint := .idle }
    (s.rxsReady = true → ∃ (stage : Memory) (t : State),
      State.runTurns (receiveTurns .slave wire) s = .next t ∧
      t.inboxBytes = p ∧ (∀ i, p.length ≤ i → stage.read i = s.stage.read i) ∧
      t = published stage { s with
        now := Turn.run, freeCtr := s.freeCtr + (p.length + 3)
        trace := (Event.rxByte 0x24 ::
          exchangeEvents (List.replicate (p.length + 3) s.params.fill) wire.tail ++
          [Event.commit, Event.outcome .checksumFail]).reverse ++ s.trace }) ∧
    (s.armed = true → s.role = .master → s.auxPrev = false → ∃ (stage : Memory) (t : State),
      State.runTurns (requestTurns (wire ++ [s.params.ackRequest])) s = .next t ∧
      t.inboxBytes = p ∧ (∀ i, p.length ≤ i → stage.read i = s.stage.read i) ∧
      t = published stage { s with
        auxIn := false, auxPrev := false, auxPending := false, csOut := false
        now := { Turn.run with aux := some false }, freeCtr := s.freeCtr + (p.length + 5)
        trace := (Event.cs true :: Event.exchange s.params.fill 0x24 ::
          pullEvents s.params.fill wire.tail ++
          [Event.auxRead true, Event.exchange s.params.fill s.params.ackRequest, Event.cs false,
            Event.commit, Event.outcome .checksumFail]).reverse ++ s.trace })

/-- R181, R182, R222, R231: a frame in the endpoint's own field order whose length exceeds `MAX_LEN`
ends with the low length byte in both roles and both orders: nothing is stored or published, no flag
changes, and the dispatcher is armed again; a Master makes no acknowledgement exchange and releases
chip-select.  A Master that pulls a first byte other than the marker ends `Ignored` in the same way. -/
def Obligations.LongFrameAtSlave : Prop :=
  ∀ (s : State) (b c hi lo : Byte), s.rxCursor = .start →
    let wire := headerWith s.params.checksumPos c hi lo
    let kept := match s.params.checksumPos with | .trailing => s.rxCksField | .leading => c
    let rising : Turn := { Turn.idle with aux := some true }
    (s.rxsReady = true → s.params.maxLen < hi.toNat * 256 + lo.toNat →
      State.runTurns (wire.map Turn.byte) s = .next { s with
        cbShadow := s.cbEnable, rxLen := hi ++ lo, rxCksField := kept, rxPoint := .idle
        now := Turn.byte lo, freeCtr := s.freeCtr + (wire.length - 1)
        trace := (Event.rxByte 0x24 ::
          exchangeEvents (List.replicate (wire.length - 1) s.params.fill) wire.tail ++
          [Event.outcome .lenRejected]).reverse ++ s.trace }) ∧
    (s.armed = true → s.role = .master → s.auxPrev = false →
      (s.params.maxLen < hi.toNat * 256 + lo.toNat →
        State.runTurns (rising :: Turn.run :: receiveTurns .master wire ++ [Turn.run, Turn.run]) s =
          .next { s with
            auxIn := true, auxPrev := true, auxPending := false, csOut := false
            cbShadow := s.cbEnable, rxLen := hi ++ lo, rxCksField := kept, rxPoint := .idle
            now := Turn.run, freeCtr := s.freeCtr + wire.length
            trace := (Event.cs true :: .exchange s.params.fill 0x24 ::
              pullEvents s.params.fill wire.tail ++
              [Event.cs false, .outcome .lenRejected]).reverse ++ s.trace }) ∧
      (b ≠ 0x24 →
        State.runTurns (rising :: Turn.run :: receiveTurns .master [b] ++ [Turn.run, Turn.run]) s =
          .next { s with
            auxIn := true, auxPrev := true, auxPending := false, csOut := false, rxPoint := .idle
            now := Turn.run, freeCtr := s.freeCtr + 1
            trace := .outcome .ignored :: .cs false :: .exchange s.params.fill b :: .cs true ::
              s.trace }))

/-- R177, R178, R179, R190: the whole transaction of a requesting Slave at an armed idle Master: the
edge, one chip-select pulse, an abort check before every exchange but the first, `ACK_SENTINEL`
answered to a good frame, the payload delivered; the request is taken and the line low at the end.
What the row does at this endpoint, the line rising first and falling in the last step, is log entry 10
(DEDUCED). -/
def Obligations.TransactionAtMaster : Prop :=
  ∀ (s : State) (p : List Byte),
    s.started = true → s.role = .master → s.rxEnable = true → s.txState = .idle →
    s.rxActive = false → s.rxCursor = .start → s.auxPrev = false → s.stage.wf = true →
    p.length ≤ s.params.maxLen → s.params.maxLen ≤ 65534 →
    ∃ stage : Memory, stage.bytes p.length = p ∧
      (∀ i, p.length ≤ i → stage.read i = s.stage.read i) ∧
      ∃ t : State, exec (.xactSm p) s = .next t ∧ t.inboxBytes = p ∧
        t = { s with
          auxIn := false, auxPrev := false, auxPending := false, csOut := false
          cbShadow := s.cbEnable, rxLen := BitVec.ofNat 16 p.length
          byteCnt := BitVec.ofNat 16 p.length, cksAcc := sum8 p, rxCksField := sum8 p
          stage := stage, inbox := stage.below p.length
          inboxSize := BitVec.ofNat 16 p.length
          newMessage := true, success := true, rxActive := false, rxPoint := .idle
          now := t.now, freeCtr := s.freeCtr + (p.length + 5)
          trace := (Event.cs true :: Event.exchange s.params.fill 0x24 ::
            pullEvents s.params.fill (frameBytes s.params.checksumPos p).tail ++
            [Event.auxRead true, .exchange s.params.ackSentinel s.params.ackRequest, .cs false] ++
            endEvents true s.cbEnable).reverse ++ s.trace }

/-- R178, R185, R223: at a check point the line is sampled; found deasserted, the exchange does not
take place, chip-select is released and the operation ends `Aborted` with nothing published. -/
def Obligations.AbortAtCheckPoint : Prop :=
  ∀ (s : State) (ok : Bool), s.txState = .idle → s.rxActive = true → s.role = .master →
    (s.rxPoint = .sample ∨ s.rxPoint = .ackSample ok) →
    (s.auxIn = true → State.runTurns [Turn.run] s = .next { s with
      rxPoint := (if s.rxPoint = .sample then .pull else .ackPull ok)
      now := Turn.run, trace := .auxRead true :: s.trace }) ∧
    (s.auxIn = false → State.runTurns [Turn.run, Turn.run, Turn.run] s = .next { s with
      rxCursor := .start, rxActive := false, rxPoint := .idle, csOut := false, now := Turn.run
      trace := .outcome .aborted :: .cs false :: .auxRead false :: s.trace })

/-- R158, R175, U5: a Slave held in an exchange stays exactly as it is while the Master does not
clock, however long that is. -/
def Obligations.HeldWithoutClock : Prop :=
  ∀ (s : State) (n : Nat), s.role = .slave → s.exchangeRequest ≠ none →
    State.runTurns (List.replicate (n + 1) Turn.run) s = .next { s with now := Turn.run }

/-- The single-byte rows.  At an endpoint held in an exchange each byte completes it; a Slave that has a
whole frame publishes it before the byte meets it (log entry 32, DEDUCED).  With no exchange
outstanding, at an armed idle Slave the marker starts a frame and the three others, where they differ
from it, are ignored; at an endpoint that is not armed and has no frame to publish every one of them is
lost (R61, R91, R98, R171).  That such a row is the byte crossing the bus at this endpoint is log entry
10, and the event of a lost byte log entry 24 (both DEDUCED). -/
def Obligations.SymbolsOnTheBus : Prop :=
  ∀ s : State,
    (∀ ib ∈ [(Instr.startMarker, (0x24 : Byte)), (.ackSentinel, s.params.ackSentinel),
        (.ackRequestByte, s.params.ackRequest), (.fillByte, s.params.fill)],
      Inv s →
      (∀ out, s.exchangeRequest = some out →
        ∃ t es, exec ib.1 s = .next t ∧ s.adds t (.exchange out ib.2 :: es) ∧
          t.freeCtr = s.freeCtr + 1) ∧
      (s.publishing = true →
        ∃ t es fs, exec ib.1 s = .next t ∧ s.adds t (es ++ .rxByte ib.2 :: fs) ∧
          Event.commit ∈ es)) ∧
    (s.exchangeRequest = none → s.rxsReady = true → s.rxCursor = .start →
      (∃ t, exec .startMarker s = .next t ∧ t.rxActive = true ∧ t.cbShadow = s.cbEnable ∧
        t.trace = .rxByte 0x24 :: s.trace) ∧
      (s.params.ackSentinel ≠ 0x24 → exec .ackSentinel s = .next { s with
        now := { s.now with move := .byte s.params.ackSentinel }
        trace := .outcome .ignored :: .rxByte s.params.ackSentinel :: s.trace }) ∧
      (s.params.ackRequest ≠ 0x24 → exec .ackRequestByte s = .next { s with
        now := { s.now with move := .byte s.params.ackRequest }
        trace := .outcome .ignored :: .rxByte s.params.ackRequest :: s.trace }) ∧
      (s.params.fill ≠ 0x24 → exec .fillByte s = .next { s with
        now := { s.now with move := .byte s.params.fill }
        trace := .outcome .ignored :: .rxByte s.params.fill :: s.trace })) ∧
    (s.exchangeRequest = none → s.rxsReady = false → s.publishing = false →
      exec .startMarker s = .next { s with
        now := { s.now with move := .byte 0x24 }, trace := .lostByte 0x24 :: s.trace } ∧
      exec .ackSentinel s = .next { s with
        now := { s.now with move := .byte s.params.ackSentinel }
        trace := .lostByte s.params.ackSentinel :: s.trace } ∧
      exec .ackRequestByte s = .next { s with
        now := { s.now with move := .byte s.params.ackRequest }
        trace := .lostByte s.params.ackRequest :: s.trace } ∧
      exec .fillByte s = .next { s with
        now := { s.now with move := .byte s.params.fill }
        trace := .lostByte s.params.fill :: s.trace })

/-- From every state that meets the invariant the wire rows run to a next state that meets it,
whatever the endpoint is doing; a payload must fit a length field.  That the `FRAME`, `XACT` and
`WIRE8` rows are such sequences of the block's steps is log entry 10 (DEDUCED). -/
def Obligations.WireRowsComplete : Prop :=
  ∀ (s : State) (p : List Byte) (i : Instr), Inv s → p.length ≤ 65535 →
    i ∈ [Instr.frameTrailing p, .frameLeading p, .xactMs p, .xactSm p, .startMarker,
      .ackSentinel, .ackRequestByte, .fillByte] →
    ∃ t, exec i s = .next t ∧ Inv t

/-! ## The send FSMs -/

/-- R140, R142, R143, R148: a Master's send, from its acceptance to its end, whatever bytes the peer
shifts back, and where it gives none (R52): one chip-select pulse around the bytes of `ENCODE` of the
Outbox, a delay after each, and success.  Every other register keeps its value. -/
def Obligations.MasterSendOnTheWire : Prop :=
  ∀ (s : State) (len : Half) (inp : List (Option Byte)),
    s.acceptsSend = true → s.canSend = true → s.role = .master → inp.length = len.toNat + 4 →
    let p := s.outbox.bytes len.toNat
    ∃ got : List Byte, got.length = inp.length ∧
      (∀ (i : Nat) (b : Byte), inp[i]? = some (some b) → got[i]? = some b) ∧
      andThen (exec (.msend len) s)
          (State.runTurns (masterSendTurns s.params.checksumPos len.toNat inp)) =
        .next { s with
          rxEnable := true, txState := .idle, txPoint := .idle, txLen := len, byteCnt := len
          cksAcc := sum8 p, sendResult := true, csOut := false
          now := Turn.run, freeCtr := s.freeCtr + (len.toNat + 4)
          trace := (Event.cs true :: masterSendEvents (frameBytes s.params.checksumPos p) got ++
            [Event.cs false, .sendDone true]).reverse ++ s.trace }

/-- R152, R153, R156: a Slave's send, from its acceptance to its end.  If every response differs from
`ACK_SENTINEL`, it makes exactly `RETRIES` attempts with a backoff between them and fails; if the
first response that equals it is that of attempt `k`, it makes exactly `k` attempts and succeeds.
Each attempt asserts the aux line around the frame and `ACK_REQUEST_BYTE`.  That the label `SendFailed`
comes before the `send_done` event of the same step is the model's choice (log entry 31, DESIGN CHOICE). -/
def Obligations.SlaveSendAttempts : Prop :=
  ∀ (s : State) (len : Half) (fails : List (List Byte)) (good : List Byte),
    s.params.wf = true → s.acceptsSend = true → s.canSend = true → s.role = .slave →
    (∀ inp ∈ fails, inp.length = len.toNat + 5 ∧ inp.getLast? ≠ some s.params.ackSentinel) →
    good.length = len.toNat + 5 → good.getLast? = some s.params.ackSentinel →
    let p := s.outbox.bytes len.toNat
    let out := frameBytes s.params.checksumPos p ++ [s.params.ackRequest]
    let ends := fun (n : Nat) (ok : Bool) (es : List Event) =>
      { s with
        rxEnable := true, txState := .idle, txPoint := .idle, txLen := len, byteCnt := len
        cksAcc := sum8 p, sendResult := ok, auxOut := false
        attemptCnt := BitVec.ofNat 8 n
        now := Turn.run, freeCtr := s.freeCtr + n * (len.toNat + 5)
        trace := es.reverse ++ s.trace }
    (fails.length = s.params.retries →
      andThen (exec (.ssend len) s) (State.runTurns (slaveSendTurns len.toNat fails)) =
        .next (ends s.params.retries false
          (List.intercalate [Event.delay .backoff] (fails.map (attemptEvents out)) ++
            [.outcome .sendFailed, .sendDone false]))) ∧
    (fails.length < s.params.retries →
      andThen (exec (.ssend len) s)
          (State.runTurns (slaveSendTurns len.toNat (fails ++ [good]))) =
        .next (ends (fails.length + 1) true
          (List.intercalate [Event.delay .backoff] ((fails ++ [good]).map (attemptEvents out)) ++
            [.sendDone true])))

/-- R96, R97, R142, R152: the peer's half of a transaction at the endpoint that sends it, which is at
its first exchange.  A Master's bytes are those of its frame, the first one against an unspecified
byte, and chip-select is released at the end; a Slave's are its frame and `ACK_REQUEST_BYTE`, the last
answer is `ACK_SENTINEL`, and the aux line is released.  Either is then about to report success.  What
the `XACT` rows do at the sending endpoint is log entry 10 (DEDUCED). -/
def Obligations.TransactionAtSender : Prop :=
  ∀ (s : State) (p : List Byte),
    s.txState = .framing → s.txPoint = .send .start 0x24 →
    p.length = s.txLen.toNat → s.outbox.bytes p.length = p →
    (s.role = .master → (s.params.checksumPos = .leading → s.cksAcc = sum8 p) →
      ∃ free : Byte, exec (.xactMs p) s = .next { s with
        txState := .done, txPoint := .finish true, csOut := false
        byteCnt := s.txLen, cksAcc := sum8 p
        now := Turn.run, freeCtr := s.freeCtr + (p.length + 4)
        trace := (masterSendEvents (frameBytes s.params.checksumPos p)
          (free :: List.replicate (p.length + 3) s.params.fill) ++ [Event.cs false]).reverse ++
          s.trace }) ∧
    (s.role = .slave → s.cksAcc = sum8 p →
      exec (.xactSm p) s = .next { s with
        txState := .done, txPoint := .finish true, auxOut := false, byteCnt := s.txLen
        now := Turn.run, freeCtr := s.freeCtr + (p.length + 5)
        trace := (exchangeEvents (frameBytes s.params.checksumPos p ++ [s.params.ackRequest])
          (List.replicate (p.length + 4) s.params.fill ++ [s.params.ackSentinel]) ++
          [Event.aux false]).reverse ++ s.trace })

/-- R155, R226: the acknowledgement test, with the line already released: only `ACK_SENTINEL`
succeeds; any other byte fails after attempt number `RETRIES` and leads to a backoff before it. -/
def Obligations.AcknowledgementTest : Prop :=
  ∀ (s : State) (r : Byte), s.role = .slave → s.txState = .awaitAck → s.txPoint = .drop r →
    State.runTurns [Turn.run] s = .next (
      if r = s.params.ackSentinel then { s with
        auxOut := false, txState := .done, txPoint := .finish true, now := Turn.run
        trace := .aux false :: s.trace }
      else if s.attemptCnt.toNat = s.params.retries then { s with
        auxOut := false, txState := .done, txPoint := .finish false, now := Turn.run
        trace := .aux false :: s.trace }
      else { s with
        auxOut := false, txState := .retry, txPoint := .backoff, now := Turn.run
        trace := .aux false :: s.trace })

/-! ## What falls in one step -/

/-- R230 item 2, R200: a ready trigger goes before a `SEND` offered in the same step, in either role,
and so does an edge that arrives in the step itself; the `SEND` stays offered. -/
def Obligations.TriggerBeforeSend : Prop :=
  ∀ (s : State) (c : CmdPort) (q : List HostItem) (ts : List Turn),
    c.op = 0b011#3 → s.hostQ = .cmd c :: q → s.started = true → s.rxEnable = true →
    s.txState = .idle → s.rxActive = false → s.rxCursor = .start →
    (s.role = .master → s.auxPending = true → s.sched = Turn.run :: ts →
      ∃ t, step s = .next t ∧ t.rxActive = true ∧ t.csOut = true ∧ t.txState = .idle ∧
        t.hostQ = s.hostQ) ∧
    (s.role = .master → s.auxPrev = false →
      s.sched = { Turn.idle with aux := some true } :: ts →
      ∃ t, step s = .next t ∧ t.auxPending = true ∧ t.txState = .idle ∧ t.hostQ = s.hostQ) ∧
    (s.role = .slave → s.sched = Turn.byte 0x24 :: ts →
      ∃ t, step s = .next t ∧ t.rxActive = true ∧ t.txState = .idle ∧ t.hostQ = s.hostQ)

/-- R28, R278, R279: an asserting edge of the aux line in a step in which nothing else happens is
latched by a started Master, whatever `rx_enable` is, and by nobody else; a second one leaves it
latched; a level that was already seen is no edge.  R230 item 5: an edge in the step in which `RXM`
starts is newer than the request being served and stays pending. -/
def Obligations.EdgeIsLatched : Prop :=
  ∀ (s : State) (v : Bool) (ts : List Turn), s.hostQ = [] →
    (s.sched = { Turn.idle with aux := some v } :: ts →
      step s = .next (if s.started = true ∧ s.role = .master then { s with
          now := { Turn.idle with aux := some v }, sched := ts, auxIn := v, auxPrev := v
          auxPending := (s.auxPending || (v && !s.auxPrev)) }
        else { s with now := { Turn.idle with aux := some v }, sched := ts, auxIn := v })) ∧
    (s.rxmReady = true → s.auxPrev = false → s.sched = { Turn.run with aux := some true } :: ts →
      ∃ t, step s = .next t ∧ t.rxActive = true ∧ t.rxPoint = .first ∧ t.csOut = true ∧
        t.auxPending = true ∧ t.trace = .cs true :: s.trace)

/-- R59, R75, R208: what the host reads: each status bit, and the Inbox, `0x00` at and beyond its
size; `busy` is that of either path. -/
def Obligations.StatusReads : Prop :=
  ∀ (s : State) (i : Nat),
    let bit := fun b : Bool => if b then (1 : Half) else 0
    s.status .newMessage = bit s.newMessage ∧ s.status .success = bit s.success ∧
    s.status .inboxSize = s.inboxSize ∧ s.status .started = bit s.started ∧
    s.status .rxEnable = bit s.rxEnable ∧ s.status .cbEnable = bit s.cbEnable ∧
    s.status .fault = bit s.fault ∧ s.status .sendResult = bit s.sendResult ∧
    s.status .busy = bit (decide (s.txState ≠ .idle) || s.rxActive) ∧
    (s.inboxSize.toNat ≤ i → s.inboxByte i = 0x00) ∧
    (i < s.inboxSize.toNat → s.inboxByte i = s.inbox.read i)

/-! ## Two endpoints -/

/-- R241: the rendezvous.  A Master at an exchange completes it in the next link step: with a Slave
held in one, each gets the other's byte; an armed idle Slave gets an `RxByte` event; any other Slave gets
nothing, and its registers do not change.  That a Slave which has a whole frame publishes it and then
gets the event is log entry 32 (DEDUCED).  R51, R85: a Slave's exchange completes only together with one
of the Master's, each with the other's byte as the wire leaves it, and the Master's with that of a Slave
held in one.  The masks of the wire, and that a command accepted in the step of an exchange comes before
it, are the model's choice (log entry 27, DESIGN CHOICE). -/
def Obligations.Rendezvous : Prop :=
  (∀ (l : Link) (ts : List LinkTurn) (m : Byte),
    Inv l.master → Inv l.slave → l.master.role = .master → l.slave.role = .slave →
    l.master.hostQ = [] → l.slave.hostQ = [] →
    l.sched = .master 0 0 :: ts → l.master.exchangeRequest = some m →
    ∃ k, linkStep l = .next k ∧ k.sched = ts ∧
      (∀ c, l.slave.exchangeRequest = some c →
        (∃ es fs, l.master.adds k.master es ∧ l.slave.adds k.slave fs ∧
          Event.exchange m c ∈ es ∧ Event.exchange c m ∈ fs)) ∧
      (l.slave.exchangeRequest = none →
        ∃ v es, l.master.adds k.master es ∧ Event.exchange m v ∈ es) ∧
      (l.slave.exchangeRequest = none → l.slave.rxsReady = true →
        (∃ fs, l.slave.adds k.slave fs ∧ Event.rxByte m ∈ fs) ∧
        k.slave.rxActive = decide (m = 0x24)) ∧
      (∀ ok, l.slave.rxPoint = .finish (.complete ok) →
        (∃ fs gs, l.slave.adds k.slave (fs ++ .rxByte m :: gs) ∧ Event.commit ∈ fs) ∧
        k.slave.rxActive = decide (m = 0x24)) ∧
      (l.slave.exchangeRequest = none → l.slave.rxsReady = false →
        (∀ ok, l.slave.rxPoint ≠ .finish (.complete ok)) →
        k.slave = { l.slave with
          now := Turn.byte m, trace := .lostByte m :: l.slave.trace })) ∧
  (∀ (l k : Link) (es fs : List Event),
    Inv l.master → Inv l.slave → l.master.role = .master → l.slave.role = .slave →
    linkStep l = .next k → l.master.adds k.master es → l.slave.adds k.slave fs →
    (∀ x y, Event.exchange x y ∈ fs →
      ∃ a b ts, l.sched = .master a b :: ts ∧ Event.exchange (y ^^^ a) (x ^^^ b) ∈ es) ∧
    (∀ x y c, Event.exchange x y ∈ es → l.slave.exchangeRequest = some c → l.slave.hostQ = [] →
      ∃ a b ts, l.sched = .master a b :: ts ∧ y = c ^^^ b ∧ Event.exchange c (x ^^^ a) ∈ fs))

/-- R85, R240, R241: a step of the link keeps the invariant at both ends, and the Master reads what a
started Slave drives; while no started Slave drives the line, it takes whatever level its input gives
(U19).  That the level arrives at the end of each step, and that a Slave which stops being started leaves
the line released in that step, is the model's link (log entry 27, DESIGN CHOICE). -/
def Obligations.LinkKeepsInvariant : Prop :=
  ∀ l k : Link, Inv l.master → Inv l.slave → linkStep l = .next k →
    let drives := fun s : State => s.started = true ∧ s.role = .slave
    Inv k.master ∧ Inv k.slave ∧
    ((drives l.slave → l.master.auxIn = l.slave.auxOut) →
      drives k.slave → k.master.auxIn = k.slave.auxOut) ∧
    (l.sched ≠ [] → drives l.slave → ¬ drives k.slave → k.master.auxIn = false) ∧
    (∀ v ts, l.sched = .auxLevel v :: ts → ¬ drives l.slave →
      k.master.auxIn = v ∧ k.slave = l.slave)

/-- R243, first and fourth rows, in both field orders: on a clean link of two endpoints with equal
parameters a payload within `MAX_LEN` is delivered whole and the sender succeeds.  A Master's send to an
armed idle Slave: the Slave publishes before, between or after the Master's steps that follow the last
exchange (R242).  A Slave's send to an armed idle Master: one attempt, the two endpoints' last steps in
any order.  How many steps each takes is log entry 5, and that the link takes one agent a step log entry
27 (both DESIGN CHOICE). -/
def Obligations.LinkDeliversMasterSend : Prop :=
  ∀ (l : Link) (len : Half) (j : Nat) (ends : List LinkTurn),
    Inv l.master → Inv l.slave →
    l.master.role = .master → l.slave.role = .slave → l.master.params = l.slave.params →
    l.master.auxIn = l.slave.auxOut →
    l.master.hostQ = [] → l.slave.hostQ = [] → l.master.sched = [] → l.slave.sched = [] →
    len.toNat ≤ l.slave.params.maxLen →
    let send : HostItem := .cmd ⟨0b011#3, 0#1, 0#1, len⟩
    let steps := sumSteps .master l.master.params.checksumPos len.toNat + 2 * len.toNat + 11
    (l.slave.rxsReady = true → l.master.acceptsSend = true → l.master.canSend = true → j ≤ 3 →
      ∃ k, linkRun (steps + 2) { l with
          sched := .masterHost send :: List.replicate (steps - j) (.master 0 0) ++
            .slave :: List.replicate j (.master 0 0) } = .next k ∧
        k.master.sendResult = true ∧ k.master.txState = .idle ∧ k.master.rxEnable = true ∧
        k.slave.inboxBytes = l.master.outbox.bytes len.toNat ∧
        k.slave.newMessage = true ∧ k.slave.success = true ∧ k.slave.rxActive = false) ∧
    (l.master.armed = true → (l.master.auxPrev = false ∨ l.master.auxPending = true) →
      l.slave.acceptsSend = true → l.slave.canSend = true →
      ends.Perm [.master 0 0, .master 0 0, .slave, .slave] →
      ∃ k, linkRun (3 * len.toNat + 17) { l with
          sched := .slaveHost send :: List.replicate (len.toNat + 2) .slave ++
            List.replicate (2 * len.toNat + 10) (.master 0 0) ++ ends } = .next k ∧
        k.slave.sendResult = true ∧ k.slave.txState = .idle ∧ k.slave.rxEnable = true ∧
        k.slave.attemptCnt = 1 ∧ k.slave.auxOut = false ∧
        k.master.inboxBytes = l.slave.outbox.bytes len.toNat ∧
        k.master.newMessage = true ∧ k.master.success = true ∧ k.master.rxActive = false ∧
        k.master.csOut = false)

end
end

