-- ==== Sys2Proof/Laws/Memory.lean ====
section
/-! SUPPORT. The laws of byte memory: every operation keeps the canonical form, a read after a write
gives the value written, and a write leaves every other index alone. -/

namespace Sys2Proof.Machine

/-- Every index of the memory is at least `n`. -/
def Memory.from_ (n : Nat) (m : Memory) : Prop := ∀ c ∈ m, n ≤ c.1

theorem Memory.wf_cons_iff (a : Nat) (b : Byte) (m : Memory) :
    Memory.wf ((a, b) :: m) = true ↔
      b ≠ Memory.background ∧ (∀ c ∈ m, a < c.1) ∧ Memory.wf m = true := by
  simp [Memory.wf, and_assoc]

theorem Memory.wf_nil : Memory.wf [] = true := rfl

@[simp] theorem Memory.read_nil (i : Nat) : Memory.read [] i = Memory.background := rfl

theorem Memory.read_of_lt (m : Memory) (i : Nat) (h : ∀ c ∈ m, i < c.1) :
    m.read i = Memory.background := by
  induction m with
  | nil => rfl
  | cons c m ih =>
    have hc := h c (by simp)
    rw [show c = (c.1, c.2) from rfl, Memory.read, if_neg (by omega)]
    exact ih fun d hd => h d (by simp [hd])

theorem Memory.put_wf (i : Nat) (b : Byte) (m : Memory) (h : ∀ c ∈ m, i < c.1)
    (hm : m.wf = true) : (Memory.put i b m).wf = true := by
  unfold Memory.put
  split
  · exact hm
  · rename_i hb
    exact (Memory.wf_cons_iff i b m).2 ⟨hb, h, hm⟩

theorem Memory.mem_put {i : Nat} {b : Byte} {m : Memory} {c : Host.Cell}
    (h : c ∈ Memory.put i b m) : c.1 = i ∨ c ∈ m := by
  unfold Memory.put at h
  split at h
  · exact .inr h
  · rcases List.mem_cons.1 h with rfl | h
    · exact .inl rfl
    · exact .inr h

theorem Memory.mem_write {m : Memory} {i : Nat} {b : Byte} {c : Host.Cell}
    (h : c ∈ m.write i b) : c.1 = i ∨ c ∈ m := by
  induction m with
  | nil => exact Memory.mem_put h
  | cons d m ih =>
    obtain ⟨a, v⟩ := d
    unfold Memory.write at h
    split at h
    · rcases List.mem_cons.1 h with rfl | h
      · exact .inr (by simp)
      · rcases ih h with h | h
        · exact .inl h
        · exact .inr (by simp [h])
    · split at h
      · rcases Memory.mem_put h with h | h
        · exact .inl h
        · exact .inr (by simp [h])
      · exact Memory.mem_put h

/-- A write keeps the canonical form. -/
theorem Memory.write_wf (m : Memory) (i : Nat) (b : Byte) (hm : m.wf = true) :
    (m.write i b).wf = true := by
  induction m with
  | nil => exact Memory.put_wf i b [] (by simp) rfl
  | cons d m ih =>
    obtain ⟨a, v⟩ := d
    obtain ⟨hv, ha, hw⟩ := (Memory.wf_cons_iff a v m).1 hm
    unfold Memory.write
    split
    · rename_i hai
      refine (Memory.wf_cons_iff _ _ _).2 ⟨hv, fun c hc => ?_, ih hw⟩
      rcases Memory.mem_write hc with h | h
      · omega
      · exact ha c h
    · split
      · rename_i _ hai
        subst hai
        exact Memory.put_wf _ _ _ ha hw
      · refine Memory.put_wf _ _ _ (fun c hc => ?_) hm
        rcases List.mem_cons.1 hc with rfl | h
        · show i < a
          omega
        · have := ha c h
          omega

/-- Keeping the indices below a bound keeps the canonical form. -/
theorem Memory.below_wf (m : Memory) (n : Nat) (hm : m.wf = true) : (m.below n).wf = true := by
  induction m with
  | nil => rfl
  | cons d m ih =>
    obtain ⟨a, v⟩ := d
    obtain ⟨hv, ha, hw⟩ := (Memory.wf_cons_iff a v m).1 hm
    by_cases h : a < n
    · have he : Memory.below ((a, v) :: m) n = (a, v) :: Memory.below m n := by
        simp [Memory.below, h]
      rw [he]
      exact (Memory.wf_cons_iff _ _ _).2
        ⟨hv, fun c hc => ha c (List.mem_of_mem_filter hc), ih hw⟩
    · have he : Memory.below ((a, v) :: m) n = Memory.below m n := by simp [Memory.below, h]
      rw [he]
      exact ih hw

theorem Memory.read_put_same (i : Nat) (b : Byte) (m : Memory) (h : ∀ c ∈ m, i < c.1) :
    (Memory.put i b m).read i = b := by
  unfold Memory.put
  split
  · rename_i hb
    rw [Memory.read_of_lt m i h, hb]
  · simp [Memory.read]

theorem Memory.read_put_other (i j : Nat) (b : Byte) (m : Memory) (h : i ≠ j) :
    (Memory.put i b m).read j = m.read j := by
  unfold Memory.put
  split
  · rfl
  · simp [Memory.read, h]

/-- A read of the index just written gives the value written. -/
theorem Memory.read_write_same (m : Memory) (i : Nat) (b : Byte) (hm : m.wf = true) :
    (m.write i b).read i = b := by
  induction m with
  | nil => exact Memory.read_put_same i b [] (by simp)
  | cons d m ih =>
    obtain ⟨a, v⟩ := d
    obtain ⟨-, ha, hw⟩ := (Memory.wf_cons_iff a v m).1 hm
    unfold Memory.write
    split
    · rw [Memory.read, if_neg (by omega)]
      exact ih hw
    · split
      · rename_i _ hai
        subst hai
        exact Memory.read_put_same _ _ _ ha
      · refine Memory.read_put_same _ _ _ fun c hc => ?_
        rcases List.mem_cons.1 hc with rfl | h
        · show i < a
          omega
        · have := ha c h
          omega

/-- A write leaves every other index alone. -/
theorem Memory.read_write_other (m : Memory) (i j : Nat) (b : Byte) (h : i ≠ j) :
    (m.write i b).read j = m.read j := by
  induction m with
  | nil => exact Memory.read_put_other i j b [] h
  | cons d m ih =>
    obtain ⟨a, v⟩ := d
    unfold Memory.write
    split
    · simp only [Memory.read, ih]
    · split
      · rename_i _ hai
        rw [Memory.read_put_other i j b m h]
        simp [Memory.read, hai, h]
      · exact Memory.read_put_other _ _ _ _ h

/-- Below the bound the bytes are kept; at and beyond it every index reads as the background. -/
theorem Memory.read_below (m : Memory) (n i : Nat) :
    (m.below n).read i = if i < n then m.read i else Memory.background := by
  induction m with
  | nil => simp [Memory.below]
  | cons d m ih =>
    obtain ⟨a, v⟩ := d
    by_cases h : a < n
    · have he : Memory.below ((a, v) :: m) n = (a, v) :: Memory.below m n := by
        simp [Memory.below, h]
      rw [he, Memory.read, ih, Memory.read]
      by_cases hai : a = i
      · simp [hai, hai ▸ h]
      · simp [hai]
    · have he : Memory.below ((a, v) :: m) n = Memory.below m n := by simp [Memory.below, h]
      rw [he, ih, Memory.read]
      by_cases hai : a = i
      · have : ¬ i < n := hai ▸ h
        simp [this]
      · simp [hai]

/-- Reset lists nothing, and that is the canonical form. -/
theorem reset_memories_wf :
    State.reset.stage.wf = true ∧ State.reset.inbox.wf = true ∧ State.reset.outbox.wf = true :=
  ⟨rfl, rfl, rfl⟩

end Sys2Proof.Machine
end

