-- ==== Sys2Proof/Laws/State.lean ====
section
/-! SUPPORT. One lemma per field per update of the state: no proof has to unfold a record update.
First the plain updates, each lemma true by computation; then what the updates with a choice in
them leave alone. -/

namespace Sys2Proof.Machine

/-! ## `State.log` -/

@[simp] theorem State.log_params (s : State) (e : Event) : (s.log e).params = s.params := rfl
@[simp] theorem State.log_started (s : State) (e : Event) : (s.log e).started = s.started := rfl
@[simp] theorem State.log_role (s : State) (e : Event) : (s.log e).role = s.role := rfl
@[simp] theorem State.log_rxEnable (s : State) (e : Event) : (s.log e).rxEnable = s.rxEnable := rfl
@[simp] theorem State.log_cbEnable (s : State) (e : Event) : (s.log e).cbEnable = s.cbEnable := rfl
@[simp] theorem State.log_cbShadow (s : State) (e : Event) : (s.log e).cbShadow = s.cbShadow := rfl
@[simp] theorem State.log_fault (s : State) (e : Event) : (s.log e).fault = s.fault := rfl
@[simp] theorem State.log_newMessage (s : State) (e : Event) :
    (s.log e).newMessage = s.newMessage := rfl
@[simp] theorem State.log_success (s : State) (e : Event) : (s.log e).success = s.success := rfl
@[simp] theorem State.log_auxPending (s : State) (e : Event) :
    (s.log e).auxPending = s.auxPending := rfl
@[simp] theorem State.log_auxPrev (s : State) (e : Event) : (s.log e).auxPrev = s.auxPrev := rfl
@[simp] theorem State.log_sendResult (s : State) (e : Event) :
    (s.log e).sendResult = s.sendResult := rfl
@[simp] theorem State.log_rxActive (s : State) (e : Event) : (s.log e).rxActive = s.rxActive := rfl
@[simp] theorem State.log_txState (s : State) (e : Event) : (s.log e).txState = s.txState := rfl
@[simp] theorem State.log_rxCursor (s : State) (e : Event) : (s.log e).rxCursor = s.rxCursor := rfl
@[simp] theorem State.log_byteCnt (s : State) (e : Event) : (s.log e).byteCnt = s.byteCnt := rfl
@[simp] theorem State.log_cksAcc (s : State) (e : Event) : (s.log e).cksAcc = s.cksAcc := rfl
@[simp] theorem State.log_txLen (s : State) (e : Event) : (s.log e).txLen = s.txLen := rfl
@[simp] theorem State.log_attemptCnt (s : State) (e : Event) :
    (s.log e).attemptCnt = s.attemptCnt := rfl
@[simp] theorem State.log_rxLen (s : State) (e : Event) : (s.log e).rxLen = s.rxLen := rfl
@[simp] theorem State.log_rxCksField (s : State) (e : Event) :
    (s.log e).rxCksField = s.rxCksField := rfl
@[simp] theorem State.log_stage (s : State) (e : Event) : (s.log e).stage = s.stage := rfl
@[simp] theorem State.log_inbox (s : State) (e : Event) : (s.log e).inbox = s.inbox := rfl
@[simp] theorem State.log_inboxSize (s : State) (e : Event) :
    (s.log e).inboxSize = s.inboxSize := rfl
@[simp] theorem State.log_csOut (s : State) (e : Event) : (s.log e).csOut = s.csOut := rfl
@[simp] theorem State.log_auxOut (s : State) (e : Event) : (s.log e).auxOut = s.auxOut := rfl
@[simp] theorem State.log_txPoint (s : State) (e : Event) : (s.log e).txPoint = s.txPoint := rfl
@[simp] theorem State.log_rxPoint (s : State) (e : Event) : (s.log e).rxPoint = s.rxPoint := rfl
@[simp] theorem State.log_outbox (s : State) (e : Event) : (s.log e).outbox = s.outbox := rfl
@[simp] theorem State.log_auxIn (s : State) (e : Event) : (s.log e).auxIn = s.auxIn := rfl
@[simp] theorem State.log_halOk (s : State) (e : Event) : (s.log e).halOk = s.halOk := rfl
@[simp] theorem State.log_hostQ (s : State) (e : Event) : (s.log e).hostQ = s.hostQ := rfl
@[simp] theorem State.log_now (s : State) (e : Event) : (s.log e).now = s.now := rfl
@[simp] theorem State.log_sched (s : State) (e : Event) : (s.log e).sched = s.sched := rfl
@[simp] theorem State.log_freeCtr (s : State) (e : Event) : (s.log e).freeCtr = s.freeCtr := rfl
@[simp] theorem State.log_trace (s : State) (e : Event) : (s.log e).trace = e :: s.trace := rfl

/-! ## `State.raise` -/

@[simp] theorem State.raise_params (s : State) (l : Label) : (s.raise l).params = s.params := rfl
@[simp] theorem State.raise_started (s : State) (l : Label) : (s.raise l).started = s.started := rfl
@[simp] theorem State.raise_role (s : State) (l : Label) : (s.raise l).role = s.role := rfl
@[simp] theorem State.raise_rxEnable (s : State) (l : Label) :
    (s.raise l).rxEnable = s.rxEnable := rfl
@[simp] theorem State.raise_cbEnable (s : State) (l : Label) :
    (s.raise l).cbEnable = s.cbEnable := rfl
@[simp] theorem State.raise_cbShadow (s : State) (l : Label) :
    (s.raise l).cbShadow = s.cbShadow := rfl
@[simp] theorem State.raise_fault (s : State) (l : Label) : (s.raise l).fault = s.fault := rfl
@[simp] theorem State.raise_newMessage (s : State) (l : Label) :
    (s.raise l).newMessage = s.newMessage := rfl
@[simp] theorem State.raise_success (s : State) (l : Label) : (s.raise l).success = s.success := rfl
@[simp] theorem State.raise_auxPending (s : State) (l : Label) :
    (s.raise l).auxPending = s.auxPending := rfl
@[simp] theorem State.raise_auxPrev (s : State) (l : Label) : (s.raise l).auxPrev = s.auxPrev := rfl
@[simp] theorem State.raise_sendResult (s : State) (l : Label) :
    (s.raise l).sendResult = s.sendResult := rfl
@[simp] theorem State.raise_rxActive (s : State) (l : Label) :
    (s.raise l).rxActive = s.rxActive := rfl
@[simp] theorem State.raise_txState (s : State) (l : Label) : (s.raise l).txState = s.txState := rfl
@[simp] theorem State.raise_rxCursor (s : State) (l : Label) :
    (s.raise l).rxCursor = s.rxCursor := rfl
@[simp] theorem State.raise_byteCnt (s : State) (l : Label) : (s.raise l).byteCnt = s.byteCnt := rfl
@[simp] theorem State.raise_cksAcc (s : State) (l : Label) : (s.raise l).cksAcc = s.cksAcc := rfl
@[simp] theorem State.raise_txLen (s : State) (l : Label) : (s.raise l).txLen = s.txLen := rfl
@[simp] theorem State.raise_attemptCnt (s : State) (l : Label) :
    (s.raise l).attemptCnt = s.attemptCnt := rfl
@[simp] theorem State.raise_rxLen (s : State) (l : Label) : (s.raise l).rxLen = s.rxLen := rfl
@[simp] theorem State.raise_rxCksField (s : State) (l : Label) :
    (s.raise l).rxCksField = s.rxCksField := rfl
@[simp] theorem State.raise_stage (s : State) (l : Label) : (s.raise l).stage = s.stage := rfl
@[simp] theorem State.raise_inbox (s : State) (l : Label) : (s.raise l).inbox = s.inbox := rfl
@[simp] theorem State.raise_inboxSize (s : State) (l : Label) :
    (s.raise l).inboxSize = s.inboxSize := rfl
@[simp] theorem State.raise_csOut (s : State) (l : Label) : (s.raise l).csOut = s.csOut := rfl
@[simp] theorem State.raise_auxOut (s : State) (l : Label) : (s.raise l).auxOut = s.auxOut := rfl
@[simp] theorem State.raise_txPoint (s : State) (l : Label) : (s.raise l).txPoint = s.txPoint := rfl
@[simp] theorem State.raise_rxPoint (s : State) (l : Label) : (s.raise l).rxPoint = s.rxPoint := rfl
@[simp] theorem State.raise_outbox (s : State) (l : Label) : (s.raise l).outbox = s.outbox := rfl
@[simp] theorem State.raise_auxIn (s : State) (l : Label) : (s.raise l).auxIn = s.auxIn := rfl
@[simp] theorem State.raise_halOk (s : State) (l : Label) : (s.raise l).halOk = s.halOk := rfl
@[simp] theorem State.raise_hostQ (s : State) (l : Label) : (s.raise l).hostQ = s.hostQ := rfl
@[simp] theorem State.raise_now (s : State) (l : Label) : (s.raise l).now = s.now := rfl
@[simp] theorem State.raise_sched (s : State) (l : Label) : (s.raise l).sched = s.sched := rfl
@[simp] theorem State.raise_freeCtr (s : State) (l : Label) : (s.raise l).freeCtr = s.freeCtr := rfl
@[simp] theorem State.raise_trace (s : State) (l : Label) :
    (s.raise l).trace = .outcome l :: s.trace := rfl

/-! ## `State.done` -/

@[simp] theorem State.done_params (s : State) (ok : Bool) : (s.done ok).params = s.params := rfl
@[simp] theorem State.done_started (s : State) (ok : Bool) : (s.done ok).started = s.started := rfl
@[simp] theorem State.done_role (s : State) (ok : Bool) : (s.done ok).role = s.role := rfl
@[simp] theorem State.done_rxEnable (s : State) (ok : Bool) :
    (s.done ok).rxEnable = s.rxEnable := rfl
@[simp] theorem State.done_cbEnable (s : State) (ok : Bool) :
    (s.done ok).cbEnable = s.cbEnable := rfl
@[simp] theorem State.done_cbShadow (s : State) (ok : Bool) :
    (s.done ok).cbShadow = s.cbShadow := rfl
@[simp] theorem State.done_fault (s : State) (ok : Bool) : (s.done ok).fault = s.fault := rfl
@[simp] theorem State.done_newMessage (s : State) (ok : Bool) :
    (s.done ok).newMessage = s.newMessage := rfl
@[simp] theorem State.done_success (s : State) (ok : Bool) : (s.done ok).success = s.success := rfl
@[simp] theorem State.done_auxPending (s : State) (ok : Bool) :
    (s.done ok).auxPending = s.auxPending := rfl
@[simp] theorem State.done_auxPrev (s : State) (ok : Bool) : (s.done ok).auxPrev = s.auxPrev := rfl
@[simp] theorem State.done_sendResult (s : State) (ok : Bool) :
    (s.done ok).sendResult = s.sendResult := rfl
@[simp] theorem State.done_rxActive (s : State) (ok : Bool) :
    (s.done ok).rxActive = s.rxActive := rfl
@[simp] theorem State.done_txState (s : State) (ok : Bool) : (s.done ok).txState = s.txState := rfl
@[simp] theorem State.done_rxCursor (s : State) (ok : Bool) :
    (s.done ok).rxCursor = s.rxCursor := rfl
@[simp] theorem State.done_byteCnt (s : State) (ok : Bool) : (s.done ok).byteCnt = s.byteCnt := rfl
@[simp] theorem State.done_cksAcc (s : State) (ok : Bool) : (s.done ok).cksAcc = s.cksAcc := rfl
@[simp] theorem State.done_txLen (s : State) (ok : Bool) : (s.done ok).txLen = s.txLen := rfl
@[simp] theorem State.done_attemptCnt (s : State) (ok : Bool) :
    (s.done ok).attemptCnt = s.attemptCnt := rfl
@[simp] theorem State.done_rxLen (s : State) (ok : Bool) : (s.done ok).rxLen = s.rxLen := rfl
@[simp] theorem State.done_rxCksField (s : State) (ok : Bool) :
    (s.done ok).rxCksField = s.rxCksField := rfl
@[simp] theorem State.done_stage (s : State) (ok : Bool) : (s.done ok).stage = s.stage := rfl
@[simp] theorem State.done_inbox (s : State) (ok : Bool) : (s.done ok).inbox = s.inbox := rfl
@[simp] theorem State.done_inboxSize (s : State) (ok : Bool) :
    (s.done ok).inboxSize = s.inboxSize := rfl
@[simp] theorem State.done_csOut (s : State) (ok : Bool) : (s.done ok).csOut = s.csOut := rfl
@[simp] theorem State.done_auxOut (s : State) (ok : Bool) : (s.done ok).auxOut = s.auxOut := rfl
@[simp] theorem State.done_txPoint (s : State) (ok : Bool) : (s.done ok).txPoint = s.txPoint := rfl
@[simp] theorem State.done_rxPoint (s : State) (ok : Bool) : (s.done ok).rxPoint = s.rxPoint := rfl
@[simp] theorem State.done_outbox (s : State) (ok : Bool) : (s.done ok).outbox = s.outbox := rfl
@[simp] theorem State.done_auxIn (s : State) (ok : Bool) : (s.done ok).auxIn = s.auxIn := rfl
@[simp] theorem State.done_halOk (s : State) (ok : Bool) : (s.done ok).halOk = s.halOk := rfl
@[simp] theorem State.done_hostQ (s : State) (ok : Bool) : (s.done ok).hostQ = s.hostQ := rfl
@[simp] theorem State.done_now (s : State) (ok : Bool) : (s.done ok).now = s.now := rfl
@[simp] theorem State.done_sched (s : State) (ok : Bool) : (s.done ok).sched = s.sched := rfl
@[simp] theorem State.done_freeCtr (s : State) (ok : Bool) : (s.done ok).freeCtr = s.freeCtr := rfl
@[simp] theorem State.done_trace (s : State) (ok : Bool) :
    (s.done ok).trace = .cmdDone ok :: s.trace := rfl

/-! ## `State.auxSampled` -/

@[simp] theorem State.auxSampled_params (s : State) : s.auxSampled.params = s.params := rfl
@[simp] theorem State.auxSampled_started (s : State) : s.auxSampled.started = s.started := rfl
@[simp] theorem State.auxSampled_role (s : State) : s.auxSampled.role = s.role := rfl
@[simp] theorem State.auxSampled_rxEnable (s : State) : s.auxSampled.rxEnable = s.rxEnable := rfl
@[simp] theorem State.auxSampled_cbEnable (s : State) : s.auxSampled.cbEnable = s.cbEnable := rfl
@[simp] theorem State.auxSampled_cbShadow (s : State) : s.auxSampled.cbShadow = s.cbShadow := rfl
@[simp] theorem State.auxSampled_fault (s : State) : s.auxSampled.fault = s.fault := rfl
@[simp] theorem State.auxSampled_newMessage (s : State) :
    s.auxSampled.newMessage = s.newMessage := rfl
@[simp] theorem State.auxSampled_success (s : State) : s.auxSampled.success = s.success := rfl
@[simp] theorem State.auxSampled_auxPending (s : State) :
    s.auxSampled.auxPending = s.auxPending := rfl
@[simp] theorem State.auxSampled_auxPrev (s : State) : s.auxSampled.auxPrev = s.auxPrev := rfl
@[simp] theorem State.auxSampled_sendResult (s : State) :
    s.auxSampled.sendResult = s.sendResult := rfl
@[simp] theorem State.auxSampled_rxActive (s : State) : s.auxSampled.rxActive = s.rxActive := rfl
@[simp] theorem State.auxSampled_txState (s : State) : s.auxSampled.txState = s.txState := rfl
@[simp] theorem State.auxSampled_rxCursor (s : State) : s.auxSampled.rxCursor = s.rxCursor := rfl
@[simp] theorem State.auxSampled_byteCnt (s : State) : s.auxSampled.byteCnt = s.byteCnt := rfl
@[simp] theorem State.auxSampled_cksAcc (s : State) : s.auxSampled.cksAcc = s.cksAcc := rfl
@[simp] theorem State.auxSampled_txLen (s : State) : s.auxSampled.txLen = s.txLen := rfl
@[simp] theorem State.auxSampled_attemptCnt (s : State) :
    s.auxSampled.attemptCnt = s.attemptCnt := rfl
@[simp] theorem State.auxSampled_rxLen (s : State) : s.auxSampled.rxLen = s.rxLen := rfl
@[simp] theorem State.auxSampled_rxCksField (s : State) :
    s.auxSampled.rxCksField = s.rxCksField := rfl
@[simp] theorem State.auxSampled_stage (s : State) : s.auxSampled.stage = s.stage := rfl
@[simp] theorem State.auxSampled_inbox (s : State) : s.auxSampled.inbox = s.inbox := rfl
@[simp] theorem State.auxSampled_inboxSize (s : State) : s.auxSampled.inboxSize = s.inboxSize := rfl
@[simp] theorem State.auxSampled_csOut (s : State) : s.auxSampled.csOut = s.csOut := rfl
@[simp] theorem State.auxSampled_auxOut (s : State) : s.auxSampled.auxOut = s.auxOut := rfl
@[simp] theorem State.auxSampled_txPoint (s : State) : s.auxSampled.txPoint = s.txPoint := rfl
@[simp] theorem State.auxSampled_rxPoint (s : State) : s.auxSampled.rxPoint = s.rxPoint := rfl
@[simp] theorem State.auxSampled_outbox (s : State) : s.auxSampled.outbox = s.outbox := rfl
@[simp] theorem State.auxSampled_auxIn (s : State) : s.auxSampled.auxIn = s.auxIn := rfl
@[simp] theorem State.auxSampled_halOk (s : State) : s.auxSampled.halOk = s.halOk := rfl
@[simp] theorem State.auxSampled_hostQ (s : State) : s.auxSampled.hostQ = s.hostQ := rfl
@[simp] theorem State.auxSampled_now (s : State) : s.auxSampled.now = s.now := rfl
@[simp] theorem State.auxSampled_sched (s : State) : s.auxSampled.sched = s.sched := rfl
@[simp] theorem State.auxSampled_freeCtr (s : State) : s.auxSampled.freeCtr = s.freeCtr := rfl
@[simp] theorem State.auxSampled_trace (s : State) :
    s.auxSampled.trace = .auxRead s.auxIn :: s.trace := rfl

/-! ## `State.csWrite` -/

@[simp] theorem State.csWrite_params (s : State) (v : Bool) : (s.csWrite v).params = s.params := rfl
@[simp] theorem State.csWrite_started (s : State) (v : Bool) :
    (s.csWrite v).started = s.started := rfl
@[simp] theorem State.csWrite_role (s : State) (v : Bool) : (s.csWrite v).role = s.role := rfl
@[simp] theorem State.csWrite_rxEnable (s : State) (v : Bool) :
    (s.csWrite v).rxEnable = s.rxEnable := rfl
@[simp] theorem State.csWrite_cbEnable (s : State) (v : Bool) :
    (s.csWrite v).cbEnable = s.cbEnable := rfl
@[simp] theorem State.csWrite_cbShadow (s : State) (v : Bool) :
    (s.csWrite v).cbShadow = s.cbShadow := rfl
@[simp] theorem State.csWrite_fault (s : State) (v : Bool) : (s.csWrite v).fault = s.fault := rfl
@[simp] theorem State.csWrite_newMessage (s : State) (v : Bool) :
    (s.csWrite v).newMessage = s.newMessage := rfl
@[simp] theorem State.csWrite_success (s : State) (v : Bool) :
    (s.csWrite v).success = s.success := rfl
@[simp] theorem State.csWrite_auxPending (s : State) (v : Bool) :
    (s.csWrite v).auxPending = s.auxPending := rfl
@[simp] theorem State.csWrite_auxPrev (s : State) (v : Bool) :
    (s.csWrite v).auxPrev = s.auxPrev := rfl
@[simp] theorem State.csWrite_sendResult (s : State) (v : Bool) :
    (s.csWrite v).sendResult = s.sendResult := rfl
@[simp] theorem State.csWrite_rxActive (s : State) (v : Bool) :
    (s.csWrite v).rxActive = s.rxActive := rfl
@[simp] theorem State.csWrite_txState (s : State) (v : Bool) :
    (s.csWrite v).txState = s.txState := rfl
@[simp] theorem State.csWrite_rxCursor (s : State) (v : Bool) :
    (s.csWrite v).rxCursor = s.rxCursor := rfl
@[simp] theorem State.csWrite_byteCnt (s : State) (v : Bool) :
    (s.csWrite v).byteCnt = s.byteCnt := rfl
@[simp] theorem State.csWrite_cksAcc (s : State) (v : Bool) : (s.csWrite v).cksAcc = s.cksAcc := rfl
@[simp] theorem State.csWrite_txLen (s : State) (v : Bool) : (s.csWrite v).txLen = s.txLen := rfl
@[simp] theorem State.csWrite_attemptCnt (s : State) (v : Bool) :
    (s.csWrite v).attemptCnt = s.attemptCnt := rfl
@[simp] theorem State.csWrite_rxLen (s : State) (v : Bool) : (s.csWrite v).rxLen = s.rxLen := rfl
@[simp] theorem State.csWrite_rxCksField (s : State) (v : Bool) :
    (s.csWrite v).rxCksField = s.rxCksField := rfl
@[simp] theorem State.csWrite_stage (s : State) (v : Bool) : (s.csWrite v).stage = s.stage := rfl
@[simp] theorem State.csWrite_inbox (s : State) (v : Bool) : (s.csWrite v).inbox = s.inbox := rfl
@[simp] theorem State.csWrite_inboxSize (s : State) (v : Bool) :
    (s.csWrite v).inboxSize = s.inboxSize := rfl
@[simp] theorem State.csWrite_csOut (s : State) (v : Bool) : (s.csWrite v).csOut = v := rfl
@[simp] theorem State.csWrite_auxOut (s : State) (v : Bool) : (s.csWrite v).auxOut = s.auxOut := rfl
@[simp] theorem State.csWrite_txPoint (s : State) (v : Bool) :
    (s.csWrite v).txPoint = s.txPoint := rfl
@[simp] theorem State.csWrite_rxPoint (s : State) (v : Bool) :
    (s.csWrite v).rxPoint = s.rxPoint := rfl
@[simp] theorem State.csWrite_outbox (s : State) (v : Bool) : (s.csWrite v).outbox = s.outbox := rfl
@[simp] theorem State.csWrite_auxIn (s : State) (v : Bool) : (s.csWrite v).auxIn = s.auxIn := rfl
@[simp] theorem State.csWrite_halOk (s : State) (v : Bool) : (s.csWrite v).halOk = s.halOk := rfl
@[simp] theorem State.csWrite_hostQ (s : State) (v : Bool) : (s.csWrite v).hostQ = s.hostQ := rfl
@[simp] theorem State.csWrite_now (s : State) (v : Bool) : (s.csWrite v).now = s.now := rfl
@[simp] theorem State.csWrite_sched (s : State) (v : Bool) : (s.csWrite v).sched = s.sched := rfl
@[simp] theorem State.csWrite_freeCtr (s : State) (v : Bool) :
    (s.csWrite v).freeCtr = s.freeCtr := rfl
@[simp] theorem State.csWrite_trace (s : State) (v : Bool) :
    (s.csWrite v).trace = .cs v :: s.trace := rfl

/-! ## `State.auxWrite` -/

@[simp] theorem State.auxWrite_params (s : State) (v : Bool) :
    (s.auxWrite v).params = s.params := rfl
@[simp] theorem State.auxWrite_started (s : State) (v : Bool) :
    (s.auxWrite v).started = s.started := rfl
@[simp] theorem State.auxWrite_role (s : State) (v : Bool) : (s.auxWrite v).role = s.role := rfl
@[simp] theorem State.auxWrite_rxEnable (s : State) (v : Bool) :
    (s.auxWrite v).rxEnable = s.rxEnable := rfl
@[simp] theorem State.auxWrite_cbEnable (s : State) (v : Bool) :
    (s.auxWrite v).cbEnable = s.cbEnable := rfl
@[simp] theorem State.auxWrite_cbShadow (s : State) (v : Bool) :
    (s.auxWrite v).cbShadow = s.cbShadow := rfl
@[simp] theorem State.auxWrite_fault (s : State) (v : Bool) : (s.auxWrite v).fault = s.fault := rfl
@[simp] theorem State.auxWrite_newMessage (s : State) (v : Bool) :
    (s.auxWrite v).newMessage = s.newMessage := rfl
@[simp] theorem State.auxWrite_success (s : State) (v : Bool) :
    (s.auxWrite v).success = s.success := rfl
@[simp] theorem State.auxWrite_auxPending (s : State) (v : Bool) :
    (s.auxWrite v).auxPending = s.auxPending := rfl
@[simp] theorem State.auxWrite_auxPrev (s : State) (v : Bool) :
    (s.auxWrite v).auxPrev = s.auxPrev := rfl
@[simp] theorem State.auxWrite_sendResult (s : State) (v : Bool) :
    (s.auxWrite v).sendResult = s.sendResult := rfl
@[simp] theorem State.auxWrite_rxActive (s : State) (v : Bool) :
    (s.auxWrite v).rxActive = s.rxActive := rfl
@[simp] theorem State.auxWrite_txState (s : State) (v : Bool) :
    (s.auxWrite v).txState = s.txState := rfl
@[simp] theorem State.auxWrite_rxCursor (s : State) (v : Bool) :
    (s.auxWrite v).rxCursor = s.rxCursor := rfl
@[simp] theorem State.auxWrite_byteCnt (s : State) (v : Bool) :
    (s.auxWrite v).byteCnt = s.byteCnt := rfl
@[simp] theorem State.auxWrite_cksAcc (s : State) (v : Bool) :
    (s.auxWrite v).cksAcc = s.cksAcc := rfl
@[simp] theorem State.auxWrite_txLen (s : State) (v : Bool) : (s.auxWrite v).txLen = s.txLen := rfl
@[simp] theorem State.auxWrite_attemptCnt (s : State) (v : Bool) :
    (s.auxWrite v).attemptCnt = s.attemptCnt := rfl
@[simp] theorem State.auxWrite_rxLen (s : State) (v : Bool) : (s.auxWrite v).rxLen = s.rxLen := rfl
@[simp] theorem State.auxWrite_rxCksField (s : State) (v : Bool) :
    (s.auxWrite v).rxCksField = s.rxCksField := rfl
@[simp] theorem State.auxWrite_stage (s : State) (v : Bool) : (s.auxWrite v).stage = s.stage := rfl
@[simp] theorem State.auxWrite_inbox (s : State) (v : Bool) : (s.auxWrite v).inbox = s.inbox := rfl
@[simp] theorem State.auxWrite_inboxSize (s : State) (v : Bool) :
    (s.auxWrite v).inboxSize = s.inboxSize := rfl
@[simp] theorem State.auxWrite_csOut (s : State) (v : Bool) : (s.auxWrite v).csOut = s.csOut := rfl
@[simp] theorem State.auxWrite_auxOut (s : State) (v : Bool) : (s.auxWrite v).auxOut = v := rfl
@[simp] theorem State.auxWrite_txPoint (s : State) (v : Bool) :
    (s.auxWrite v).txPoint = s.txPoint := rfl
@[simp] theorem State.auxWrite_rxPoint (s : State) (v : Bool) :
    (s.auxWrite v).rxPoint = s.rxPoint := rfl
@[simp] theorem State.auxWrite_outbox (s : State) (v : Bool) :
    (s.auxWrite v).outbox = s.outbox := rfl
@[simp] theorem State.auxWrite_auxIn (s : State) (v : Bool) : (s.auxWrite v).auxIn = s.auxIn := rfl
@[simp] theorem State.auxWrite_halOk (s : State) (v : Bool) : (s.auxWrite v).halOk = s.halOk := rfl
@[simp] theorem State.auxWrite_hostQ (s : State) (v : Bool) : (s.auxWrite v).hostQ = s.hostQ := rfl
@[simp] theorem State.auxWrite_now (s : State) (v : Bool) : (s.auxWrite v).now = s.now := rfl
@[simp] theorem State.auxWrite_sched (s : State) (v : Bool) : (s.auxWrite v).sched = s.sched := rfl
@[simp] theorem State.auxWrite_freeCtr (s : State) (v : Bool) :
    (s.auxWrite v).freeCtr = s.freeCtr := rfl
@[simp] theorem State.auxWrite_trace (s : State) (v : Bool) :
    (s.auxWrite v).trace = .aux v :: s.trace := rfl

/-! ## `State.hold` -/

@[simp] theorem State.hold_params (s : State) (h : HostItem) : (s.hold h).params = s.params := rfl
@[simp] theorem State.hold_started (s : State) (h : HostItem) :
    (s.hold h).started = s.started := rfl
@[simp] theorem State.hold_role (s : State) (h : HostItem) : (s.hold h).role = s.role := rfl
@[simp] theorem State.hold_rxEnable (s : State) (h : HostItem) :
    (s.hold h).rxEnable = s.rxEnable := rfl
@[simp] theorem State.hold_cbEnable (s : State) (h : HostItem) :
    (s.hold h).cbEnable = s.cbEnable := rfl
@[simp] theorem State.hold_cbShadow (s : State) (h : HostItem) :
    (s.hold h).cbShadow = s.cbShadow := rfl
@[simp] theorem State.hold_fault (s : State) (h : HostItem) : (s.hold h).fault = s.fault := rfl
@[simp] theorem State.hold_newMessage (s : State) (h : HostItem) :
    (s.hold h).newMessage = s.newMessage := rfl
@[simp] theorem State.hold_success (s : State) (h : HostItem) :
    (s.hold h).success = s.success := rfl
@[simp] theorem State.hold_auxPending (s : State) (h : HostItem) :
    (s.hold h).auxPending = s.auxPending := rfl
@[simp] theorem State.hold_auxPrev (s : State) (h : HostItem) :
    (s.hold h).auxPrev = s.auxPrev := rfl
@[simp] theorem State.hold_sendResult (s : State) (h : HostItem) :
    (s.hold h).sendResult = s.sendResult := rfl
@[simp] theorem State.hold_rxActive (s : State) (h : HostItem) :
    (s.hold h).rxActive = s.rxActive := rfl
@[simp] theorem State.hold_txState (s : State) (h : HostItem) :
    (s.hold h).txState = s.txState := rfl
@[simp] theorem State.hold_rxCursor (s : State) (h : HostItem) :
    (s.hold h).rxCursor = s.rxCursor := rfl
@[simp] theorem State.hold_byteCnt (s : State) (h : HostItem) :
    (s.hold h).byteCnt = s.byteCnt := rfl
@[simp] theorem State.hold_cksAcc (s : State) (h : HostItem) : (s.hold h).cksAcc = s.cksAcc := rfl
@[simp] theorem State.hold_txLen (s : State) (h : HostItem) : (s.hold h).txLen = s.txLen := rfl
@[simp] theorem State.hold_attemptCnt (s : State) (h : HostItem) :
    (s.hold h).attemptCnt = s.attemptCnt := rfl
@[simp] theorem State.hold_rxLen (s : State) (h : HostItem) : (s.hold h).rxLen = s.rxLen := rfl
@[simp] theorem State.hold_rxCksField (s : State) (h : HostItem) :
    (s.hold h).rxCksField = s.rxCksField := rfl
@[simp] theorem State.hold_stage (s : State) (h : HostItem) : (s.hold h).stage = s.stage := rfl
@[simp] theorem State.hold_inbox (s : State) (h : HostItem) : (s.hold h).inbox = s.inbox := rfl
@[simp] theorem State.hold_inboxSize (s : State) (h : HostItem) :
    (s.hold h).inboxSize = s.inboxSize := rfl
@[simp] theorem State.hold_csOut (s : State) (h : HostItem) : (s.hold h).csOut = s.csOut := rfl
@[simp] theorem State.hold_auxOut (s : State) (h : HostItem) : (s.hold h).auxOut = s.auxOut := rfl
@[simp] theorem State.hold_txPoint (s : State) (h : HostItem) :
    (s.hold h).txPoint = s.txPoint := rfl
@[simp] theorem State.hold_rxPoint (s : State) (h : HostItem) :
    (s.hold h).rxPoint = s.rxPoint := rfl
@[simp] theorem State.hold_outbox (s : State) (h : HostItem) : (s.hold h).outbox = s.outbox := rfl
@[simp] theorem State.hold_auxIn (s : State) (h : HostItem) : (s.hold h).auxIn = s.auxIn := rfl
@[simp] theorem State.hold_halOk (s : State) (h : HostItem) : (s.hold h).halOk = s.halOk := rfl
@[simp] theorem State.hold_hostQ (s : State) (h : HostItem) : (s.hold h).hostQ = h :: s.hostQ := rfl
@[simp] theorem State.hold_now (s : State) (h : HostItem) : (s.hold h).now = s.now := rfl
@[simp] theorem State.hold_sched (s : State) (h : HostItem) : (s.hold h).sched = s.sched := rfl
@[simp] theorem State.hold_freeCtr (s : State) (h : HostItem) :
    (s.hold h).freeCtr = s.freeCtr := rfl
@[simp] theorem State.hold_trace (s : State) (h : HostItem) : (s.hold h).trace = s.trace := rfl

/-! ## `State.exchanged` -/

@[simp] theorem State.exchanged_params (s : State) (out inp : Byte) :
    (s.exchanged out inp).params = s.params := rfl
@[simp] theorem State.exchanged_started (s : State) (out inp : Byte) :
    (s.exchanged out inp).started = s.started := rfl
@[simp] theorem State.exchanged_role (s : State) (out inp : Byte) :
    (s.exchanged out inp).role = s.role := rfl
@[simp] theorem State.exchanged_rxEnable (s : State) (out inp : Byte) :
    (s.exchanged out inp).rxEnable = s.rxEnable := rfl
@[simp] theorem State.exchanged_cbEnable (s : State) (out inp : Byte) :
    (s.exchanged out inp).cbEnable = s.cbEnable := rfl
@[simp] theorem State.exchanged_cbShadow (s : State) (out inp : Byte) :
    (s.exchanged out inp).cbShadow = s.cbShadow := rfl
@[simp] theorem State.exchanged_fault (s : State) (out inp : Byte) :
    (s.exchanged out inp).fault = s.fault := rfl
@[simp] theorem State.exchanged_newMessage (s : State) (out inp : Byte) :
    (s.exchanged out inp).newMessage = s.newMessage := rfl
@[simp] theorem State.exchanged_success (s : State) (out inp : Byte) :
    (s.exchanged out inp).success = s.success := rfl
@[simp] theorem State.exchanged_auxPending (s : State) (out inp : Byte) :
    (s.exchanged out inp).auxPending = s.auxPending := rfl
@[simp] theorem State.exchanged_auxPrev (s : State) (out inp : Byte) :
    (s.exchanged out inp).auxPrev = s.auxPrev := rfl
@[simp] theorem State.exchanged_sendResult (s : State) (out inp : Byte) :
    (s.exchanged out inp).sendResult = s.sendResult := rfl
@[simp] theorem State.exchanged_rxActive (s : State) (out inp : Byte) :
    (s.exchanged out inp).rxActive = s.rxActive := rfl
@[simp] theorem State.exchanged_txState (s : State) (out inp : Byte) :
    (s.exchanged out inp).txState = s.txState := rfl
@[simp] theorem State.exchanged_rxCursor (s : State) (out inp : Byte) :
    (s.exchanged out inp).rxCursor = s.rxCursor := rfl
@[simp] theorem State.exchanged_byteCnt (s : State) (out inp : Byte) :
    (s.exchanged out inp).byteCnt = s.byteCnt := rfl
@[simp] theorem State.exchanged_cksAcc (s : State) (out inp : Byte) :
    (s.exchanged out inp).cksAcc = s.cksAcc := rfl
@[simp] theorem State.exchanged_txLen (s : State) (out inp : Byte) :
    (s.exchanged out inp).txLen = s.txLen := rfl
@[simp] theorem State.exchanged_attemptCnt (s : State) (out inp : Byte) :
    (s.exchanged out inp).attemptCnt = s.attemptCnt := rfl
@[simp] theorem State.exchanged_rxLen (s : State) (out inp : Byte) :
    (s.exchanged out inp).rxLen = s.rxLen := rfl
@[simp] theorem State.exchanged_rxCksField (s : State) (out inp : Byte) :
    (s.exchanged out inp).rxCksField = s.rxCksField := rfl
@[simp] theorem State.exchanged_stage (s : State) (out inp : Byte) :
    (s.exchanged out inp).stage = s.stage := rfl
@[simp] theorem State.exchanged_inbox (s : State) (out inp : Byte) :
    (s.exchanged out inp).inbox = s.inbox := rfl
@[simp] theorem State.exchanged_inboxSize (s : State) (out inp : Byte) :
    (s.exchanged out inp).inboxSize = s.inboxSize := rfl
@[simp] theorem State.exchanged_csOut (s : State) (out inp : Byte) :
    (s.exchanged out inp).csOut = s.csOut := rfl
@[simp] theorem State.exchanged_auxOut (s : State) (out inp : Byte) :
    (s.exchanged out inp).auxOut = s.auxOut := rfl
@[simp] theorem State.exchanged_txPoint (s : State) (out inp : Byte) :
    (s.exchanged out inp).txPoint = s.txPoint := rfl
@[simp] theorem State.exchanged_rxPoint (s : State) (out inp : Byte) :
    (s.exchanged out inp).rxPoint = s.rxPoint := rfl
@[simp] theorem State.exchanged_outbox (s : State) (out inp : Byte) :
    (s.exchanged out inp).outbox = s.outbox := rfl
@[simp] theorem State.exchanged_auxIn (s : State) (out inp : Byte) :
    (s.exchanged out inp).auxIn = s.auxIn := rfl
@[simp] theorem State.exchanged_halOk (s : State) (out inp : Byte) :
    (s.exchanged out inp).halOk = s.halOk := rfl
@[simp] theorem State.exchanged_hostQ (s : State) (out inp : Byte) :
    (s.exchanged out inp).hostQ = s.hostQ := rfl
@[simp] theorem State.exchanged_now (s : State) (out inp : Byte) :
    (s.exchanged out inp).now = s.now := rfl
@[simp] theorem State.exchanged_sched (s : State) (out inp : Byte) :
    (s.exchanged out inp).sched = s.sched := rfl
@[simp] theorem State.exchanged_freeCtr (s : State) (out inp : Byte) :
    (s.exchanged out inp).freeCtr = s.freeCtr + 1 := rfl
@[simp] theorem State.exchanged_trace (s : State) (out inp : Byte) :
    (s.exchanged out inp).trace = .exchange out inp :: s.trace := rfl

/-! ## `State.enterDispatcher` -/

@[simp] theorem State.enterDispatcher_params (s : State) (p : RxPoint) :
    (s.enterDispatcher p).params = s.params := rfl
@[simp] theorem State.enterDispatcher_started (s : State) (p : RxPoint) :
    (s.enterDispatcher p).started = s.started := rfl
@[simp] theorem State.enterDispatcher_role (s : State) (p : RxPoint) :
    (s.enterDispatcher p).role = s.role := rfl
@[simp] theorem State.enterDispatcher_rxEnable (s : State) (p : RxPoint) :
    (s.enterDispatcher p).rxEnable = s.rxEnable := rfl
@[simp] theorem State.enterDispatcher_cbEnable (s : State) (p : RxPoint) :
    (s.enterDispatcher p).cbEnable = s.cbEnable := rfl
@[simp] theorem State.enterDispatcher_cbShadow (s : State) (p : RxPoint) :
    (s.enterDispatcher p).cbShadow = s.cbShadow := rfl
@[simp] theorem State.enterDispatcher_fault (s : State) (p : RxPoint) :
    (s.enterDispatcher p).fault = s.fault := rfl
@[simp] theorem State.enterDispatcher_newMessage (s : State) (p : RxPoint) :
    (s.enterDispatcher p).newMessage = s.newMessage := rfl
@[simp] theorem State.enterDispatcher_success (s : State) (p : RxPoint) :
    (s.enterDispatcher p).success = s.success := rfl
@[simp] theorem State.enterDispatcher_auxPending (s : State) (p : RxPoint) :
    (s.enterDispatcher p).auxPending = s.auxPending := rfl
@[simp] theorem State.enterDispatcher_auxPrev (s : State) (p : RxPoint) :
    (s.enterDispatcher p).auxPrev = s.auxPrev := rfl
@[simp] theorem State.enterDispatcher_sendResult (s : State) (p : RxPoint) :
    (s.enterDispatcher p).sendResult = s.sendResult := rfl
@[simp] theorem State.enterDispatcher_rxActive (s : State) (p : RxPoint) :
    (s.enterDispatcher p).rxActive = true := rfl
@[simp] theorem State.enterDispatcher_txState (s : State) (p : RxPoint) :
    (s.enterDispatcher p).txState = s.txState := rfl
@[simp] theorem State.enterDispatcher_rxCursor (s : State) (p : RxPoint) :
    (s.enterDispatcher p).rxCursor = s.rxCursor := rfl
@[simp] theorem State.enterDispatcher_byteCnt (s : State) (p : RxPoint) :
    (s.enterDispatcher p).byteCnt = s.byteCnt := rfl
@[simp] theorem State.enterDispatcher_cksAcc (s : State) (p : RxPoint) :
    (s.enterDispatcher p).cksAcc = s.cksAcc := rfl
@[simp] theorem State.enterDispatcher_txLen (s : State) (p : RxPoint) :
    (s.enterDispatcher p).txLen = s.txLen := rfl
@[simp] theorem State.enterDispatcher_attemptCnt (s : State) (p : RxPoint) :
    (s.enterDispatcher p).attemptCnt = s.attemptCnt := rfl
@[simp] theorem State.enterDispatcher_rxLen (s : State) (p : RxPoint) :
    (s.enterDispatcher p).rxLen = s.rxLen := rfl
@[simp] theorem State.enterDispatcher_rxCksField (s : State) (p : RxPoint) :
    (s.enterDispatcher p).rxCksField = s.rxCksField := rfl
@[simp] theorem State.enterDispatcher_stage (s : State) (p : RxPoint) :
    (s.enterDispatcher p).stage = s.stage := rfl
@[simp] theorem State.enterDispatcher_inbox (s : State) (p : RxPoint) :
    (s.enterDispatcher p).inbox = s.inbox := rfl
@[simp] theorem State.enterDispatcher_inboxSize (s : State) (p : RxPoint) :
    (s.enterDispatcher p).inboxSize = s.inboxSize := rfl
@[simp] theorem State.enterDispatcher_csOut (s : State) (p : RxPoint) :
    (s.enterDispatcher p).csOut = s.csOut := rfl
@[simp] theorem State.enterDispatcher_auxOut (s : State) (p : RxPoint) :
    (s.enterDispatcher p).auxOut = s.auxOut := rfl
@[simp] theorem State.enterDispatcher_txPoint (s : State) (p : RxPoint) :
    (s.enterDispatcher p).txPoint = s.txPoint := rfl
@[simp] theorem State.enterDispatcher_rxPoint (s : State) (p : RxPoint) :
    (s.enterDispatcher p).rxPoint = p := rfl
@[simp] theorem State.enterDispatcher_outbox (s : State) (p : RxPoint) :
    (s.enterDispatcher p).outbox = s.outbox := rfl
@[simp] theorem State.enterDispatcher_auxIn (s : State) (p : RxPoint) :
    (s.enterDispatcher p).auxIn = s.auxIn := rfl
@[simp] theorem State.enterDispatcher_halOk (s : State) (p : RxPoint) :
    (s.enterDispatcher p).halOk = s.halOk := rfl
@[simp] theorem State.enterDispatcher_hostQ (s : State) (p : RxPoint) :
    (s.enterDispatcher p).hostQ = s.hostQ := rfl
@[simp] theorem State.enterDispatcher_now (s : State) (p : RxPoint) :
    (s.enterDispatcher p).now = s.now := rfl
@[simp] theorem State.enterDispatcher_sched (s : State) (p : RxPoint) :
    (s.enterDispatcher p).sched = s.sched := rfl
@[simp] theorem State.enterDispatcher_freeCtr (s : State) (p : RxPoint) :
    (s.enterDispatcher p).freeCtr = s.freeCtr := rfl
@[simp] theorem State.enterDispatcher_trace (s : State) (p : RxPoint) :
    (s.enterDispatcher p).trace = s.trace := rfl

/-! ## `State.leaveDispatcher` -/

@[simp] theorem State.leaveDispatcher_params (s : State) :
    s.leaveDispatcher.params = s.params := rfl
@[simp] theorem State.leaveDispatcher_started (s : State) :
    s.leaveDispatcher.started = s.started := rfl
@[simp] theorem State.leaveDispatcher_role (s : State) : s.leaveDispatcher.role = s.role := rfl
@[simp] theorem State.leaveDispatcher_rxEnable (s : State) :
    s.leaveDispatcher.rxEnable = s.rxEnable := rfl
@[simp] theorem State.leaveDispatcher_cbEnable (s : State) :
    s.leaveDispatcher.cbEnable = s.cbEnable := rfl
@[simp] theorem State.leaveDispatcher_cbShadow (s : State) :
    s.leaveDispatcher.cbShadow = s.cbShadow := rfl
@[simp] theorem State.leaveDispatcher_fault (s : State) : s.leaveDispatcher.fault = s.fault := rfl
@[simp] theorem State.leaveDispatcher_newMessage (s : State) :
    s.leaveDispatcher.newMessage = s.newMessage := rfl
@[simp] theorem State.leaveDispatcher_success (s : State) :
    s.leaveDispatcher.success = s.success := rfl
@[simp] theorem State.leaveDispatcher_auxPending (s : State) :
    s.leaveDispatcher.auxPending = s.auxPending := rfl
@[simp] theorem State.leaveDispatcher_auxPrev (s : State) :
    s.leaveDispatcher.auxPrev = s.auxPrev := rfl
@[simp] theorem State.leaveDispatcher_sendResult (s : State) :
    s.leaveDispatcher.sendResult = s.sendResult := rfl
@[simp] theorem State.leaveDispatcher_rxActive (s : State) :
    s.leaveDispatcher.rxActive = false := rfl
@[simp] theorem State.leaveDispatcher_txState (s : State) :
    s.leaveDispatcher.txState = s.txState := rfl
@[simp] theorem State.leaveDispatcher_rxCursor (s : State) :
    s.leaveDispatcher.rxCursor = s.rxCursor := rfl
@[simp] theorem State.leaveDispatcher_byteCnt (s : State) :
    s.leaveDispatcher.byteCnt = s.byteCnt := rfl
@[simp] theorem State.leaveDispatcher_cksAcc (s : State) :
    s.leaveDispatcher.cksAcc = s.cksAcc := rfl
@[simp] theorem State.leaveDispatcher_txLen (s : State) : s.leaveDispatcher.txLen = s.txLen := rfl
@[simp] theorem State.leaveDispatcher_attemptCnt (s : State) :
    s.leaveDispatcher.attemptCnt = s.attemptCnt := rfl
@[simp] theorem State.leaveDispatcher_rxLen (s : State) : s.leaveDispatcher.rxLen = s.rxLen := rfl
@[simp] theorem State.leaveDispatcher_rxCksField (s : State) :
    s.leaveDispatcher.rxCksField = s.rxCksField := rfl
@[simp] theorem State.leaveDispatcher_stage (s : State) : s.leaveDispatcher.stage = s.stage := rfl
@[simp] theorem State.leaveDispatcher_inbox (s : State) : s.leaveDispatcher.inbox = s.inbox := rfl
@[simp] theorem State.leaveDispatcher_inboxSize (s : State) :
    s.leaveDispatcher.inboxSize = s.inboxSize := rfl
@[simp] theorem State.leaveDispatcher_csOut (s : State) : s.leaveDispatcher.csOut = s.csOut := rfl
@[simp] theorem State.leaveDispatcher_auxOut (s : State) :
    s.leaveDispatcher.auxOut = s.auxOut := rfl
@[simp] theorem State.leaveDispatcher_txPoint (s : State) :
    s.leaveDispatcher.txPoint = s.txPoint := rfl
@[simp] theorem State.leaveDispatcher_rxPoint (s : State) : s.leaveDispatcher.rxPoint = .idle := rfl
@[simp] theorem State.leaveDispatcher_outbox (s : State) :
    s.leaveDispatcher.outbox = s.outbox := rfl
@[simp] theorem State.leaveDispatcher_auxIn (s : State) : s.leaveDispatcher.auxIn = s.auxIn := rfl
@[simp] theorem State.leaveDispatcher_halOk (s : State) : s.leaveDispatcher.halOk = s.halOk := rfl
@[simp] theorem State.leaveDispatcher_hostQ (s : State) : s.leaveDispatcher.hostQ = s.hostQ := rfl
@[simp] theorem State.leaveDispatcher_now (s : State) : s.leaveDispatcher.now = s.now := rfl
@[simp] theorem State.leaveDispatcher_sched (s : State) : s.leaveDispatcher.sched = s.sched := rfl
@[simp] theorem State.leaveDispatcher_freeCtr (s : State) :
    s.leaveDispatcher.freeCtr = s.freeCtr := rfl
@[simp] theorem State.leaveDispatcher_trace (s : State) : s.leaveDispatcher.trace = s.trace := rfl

/-! ## `State.sense` -/

@[simp] theorem State.sense_params (s : State) (t : Turn) : (s.sense t).params = s.params := rfl
@[simp] theorem State.sense_started (s : State) (t : Turn) : (s.sense t).started = s.started := rfl
@[simp] theorem State.sense_role (s : State) (t : Turn) : (s.sense t).role = s.role := rfl
@[simp] theorem State.sense_rxEnable (s : State) (t : Turn) :
    (s.sense t).rxEnable = s.rxEnable := rfl
@[simp] theorem State.sense_cbEnable (s : State) (t : Turn) :
    (s.sense t).cbEnable = s.cbEnable := rfl
@[simp] theorem State.sense_cbShadow (s : State) (t : Turn) :
    (s.sense t).cbShadow = s.cbShadow := rfl
@[simp] theorem State.sense_fault (s : State) (t : Turn) : (s.sense t).fault = s.fault := rfl
@[simp] theorem State.sense_newMessage (s : State) (t : Turn) :
    (s.sense t).newMessage = s.newMessage := rfl
@[simp] theorem State.sense_success (s : State) (t : Turn) : (s.sense t).success = s.success := rfl
@[simp] theorem State.sense_auxPending (s : State) (t : Turn) :
    (s.sense t).auxPending = s.auxPending := rfl
@[simp] theorem State.sense_auxPrev (s : State) (t : Turn) : (s.sense t).auxPrev = s.auxPrev := rfl
@[simp] theorem State.sense_sendResult (s : State) (t : Turn) :
    (s.sense t).sendResult = s.sendResult := rfl
@[simp] theorem State.sense_rxActive (s : State) (t : Turn) :
    (s.sense t).rxActive = s.rxActive := rfl
@[simp] theorem State.sense_txState (s : State) (t : Turn) : (s.sense t).txState = s.txState := rfl
@[simp] theorem State.sense_rxCursor (s : State) (t : Turn) :
    (s.sense t).rxCursor = s.rxCursor := rfl
@[simp] theorem State.sense_byteCnt (s : State) (t : Turn) : (s.sense t).byteCnt = s.byteCnt := rfl
@[simp] theorem State.sense_cksAcc (s : State) (t : Turn) : (s.sense t).cksAcc = s.cksAcc := rfl
@[simp] theorem State.sense_txLen (s : State) (t : Turn) : (s.sense t).txLen = s.txLen := rfl
@[simp] theorem State.sense_attemptCnt (s : State) (t : Turn) :
    (s.sense t).attemptCnt = s.attemptCnt := rfl
@[simp] theorem State.sense_rxLen (s : State) (t : Turn) : (s.sense t).rxLen = s.rxLen := rfl
@[simp] theorem State.sense_rxCksField (s : State) (t : Turn) :
    (s.sense t).rxCksField = s.rxCksField := rfl
@[simp] theorem State.sense_stage (s : State) (t : Turn) : (s.sense t).stage = s.stage := rfl
@[simp] theorem State.sense_inbox (s : State) (t : Turn) : (s.sense t).inbox = s.inbox := rfl
@[simp] theorem State.sense_inboxSize (s : State) (t : Turn) :
    (s.sense t).inboxSize = s.inboxSize := rfl
@[simp] theorem State.sense_csOut (s : State) (t : Turn) : (s.sense t).csOut = s.csOut := rfl
@[simp] theorem State.sense_auxOut (s : State) (t : Turn) : (s.sense t).auxOut = s.auxOut := rfl
@[simp] theorem State.sense_txPoint (s : State) (t : Turn) : (s.sense t).txPoint = s.txPoint := rfl
@[simp] theorem State.sense_rxPoint (s : State) (t : Turn) : (s.sense t).rxPoint = s.rxPoint := rfl
@[simp] theorem State.sense_outbox (s : State) (t : Turn) :
    (s.sense t).outbox = t.outboxAfter s.outbox := rfl
@[simp] theorem State.sense_auxIn (s : State) (t : Turn) : (s.sense t).auxIn = s.auxIn := rfl
@[simp] theorem State.sense_halOk (s : State) (t : Turn) :
    (s.sense t).halOk = t.hal.getD s.halOk := rfl
@[simp] theorem State.sense_hostQ (s : State) (t : Turn) :
    (s.sense t).hostQ = t.hostAfter s.hostQ := rfl
@[simp] theorem State.sense_now (s : State) (t : Turn) : (s.sense t).now = t := rfl
@[simp] theorem State.sense_sched (s : State) (t : Turn) : (s.sense t).sched = s.sched := rfl
@[simp] theorem State.sense_freeCtr (s : State) (t : Turn) : (s.sense t).freeCtr = s.freeCtr := rfl
@[simp] theorem State.sense_trace (s : State) (t : Turn) : (s.sense t).trace = s.trace := rfl

/-! ## `State.cksClear` -/

@[simp] theorem State.cksClear_params (s : State) : s.cksClear.params = s.params := rfl
@[simp] theorem State.cksClear_started (s : State) : s.cksClear.started = s.started := rfl
@[simp] theorem State.cksClear_role (s : State) : s.cksClear.role = s.role := rfl
@[simp] theorem State.cksClear_rxEnable (s : State) : s.cksClear.rxEnable = s.rxEnable := rfl
@[simp] theorem State.cksClear_cbEnable (s : State) : s.cksClear.cbEnable = s.cbEnable := rfl
@[simp] theorem State.cksClear_cbShadow (s : State) : s.cksClear.cbShadow = s.cbShadow := rfl
@[simp] theorem State.cksClear_fault (s : State) : s.cksClear.fault = s.fault := rfl
@[simp] theorem State.cksClear_newMessage (s : State) : s.cksClear.newMessage = s.newMessage := rfl
@[simp] theorem State.cksClear_success (s : State) : s.cksClear.success = s.success := rfl
@[simp] theorem State.cksClear_auxPending (s : State) : s.cksClear.auxPending = s.auxPending := rfl
@[simp] theorem State.cksClear_auxPrev (s : State) : s.cksClear.auxPrev = s.auxPrev := rfl
@[simp] theorem State.cksClear_sendResult (s : State) : s.cksClear.sendResult = s.sendResult := rfl
@[simp] theorem State.cksClear_rxActive (s : State) : s.cksClear.rxActive = s.rxActive := rfl
@[simp] theorem State.cksClear_txState (s : State) : s.cksClear.txState = s.txState := rfl
@[simp] theorem State.cksClear_rxCursor (s : State) : s.cksClear.rxCursor = s.rxCursor := rfl
@[simp] theorem State.cksClear_byteCnt (s : State) : s.cksClear.byteCnt = s.byteCnt := rfl
@[simp] theorem State.cksClear_cksAcc (s : State) : s.cksClear.cksAcc = 0x00 := rfl
@[simp] theorem State.cksClear_txLen (s : State) : s.cksClear.txLen = s.txLen := rfl
@[simp] theorem State.cksClear_attemptCnt (s : State) : s.cksClear.attemptCnt = s.attemptCnt := rfl
@[simp] theorem State.cksClear_rxLen (s : State) : s.cksClear.rxLen = s.rxLen := rfl
@[simp] theorem State.cksClear_rxCksField (s : State) : s.cksClear.rxCksField = s.rxCksField := rfl
@[simp] theorem State.cksClear_stage (s : State) : s.cksClear.stage = s.stage := rfl
@[simp] theorem State.cksClear_inbox (s : State) : s.cksClear.inbox = s.inbox := rfl
@[simp] theorem State.cksClear_inboxSize (s : State) : s.cksClear.inboxSize = s.inboxSize := rfl
@[simp] theorem State.cksClear_csOut (s : State) : s.cksClear.csOut = s.csOut := rfl
@[simp] theorem State.cksClear_auxOut (s : State) : s.cksClear.auxOut = s.auxOut := rfl
@[simp] theorem State.cksClear_txPoint (s : State) : s.cksClear.txPoint = s.txPoint := rfl
@[simp] theorem State.cksClear_rxPoint (s : State) : s.cksClear.rxPoint = s.rxPoint := rfl
@[simp] theorem State.cksClear_outbox (s : State) : s.cksClear.outbox = s.outbox := rfl
@[simp] theorem State.cksClear_auxIn (s : State) : s.cksClear.auxIn = s.auxIn := rfl
@[simp] theorem State.cksClear_halOk (s : State) : s.cksClear.halOk = s.halOk := rfl
@[simp] theorem State.cksClear_hostQ (s : State) : s.cksClear.hostQ = s.hostQ := rfl
@[simp] theorem State.cksClear_now (s : State) : s.cksClear.now = s.now := rfl
@[simp] theorem State.cksClear_sched (s : State) : s.cksClear.sched = s.sched := rfl
@[simp] theorem State.cksClear_freeCtr (s : State) : s.cksClear.freeCtr = s.freeCtr := rfl
@[simp] theorem State.cksClear_trace (s : State) : s.cksClear.trace = s.trace := rfl

/-! ## `State.cksAdd` -/

@[simp] theorem State.cksAdd_params (s : State) (b : Byte) : (s.cksAdd b).params = s.params := rfl
@[simp] theorem State.cksAdd_started (s : State) (b : Byte) :
    (s.cksAdd b).started = s.started := rfl
@[simp] theorem State.cksAdd_role (s : State) (b : Byte) : (s.cksAdd b).role = s.role := rfl
@[simp] theorem State.cksAdd_rxEnable (s : State) (b : Byte) :
    (s.cksAdd b).rxEnable = s.rxEnable := rfl
@[simp] theorem State.cksAdd_cbEnable (s : State) (b : Byte) :
    (s.cksAdd b).cbEnable = s.cbEnable := rfl
@[simp] theorem State.cksAdd_cbShadow (s : State) (b : Byte) :
    (s.cksAdd b).cbShadow = s.cbShadow := rfl
@[simp] theorem State.cksAdd_fault (s : State) (b : Byte) : (s.cksAdd b).fault = s.fault := rfl
@[simp] theorem State.cksAdd_newMessage (s : State) (b : Byte) :
    (s.cksAdd b).newMessage = s.newMessage := rfl
@[simp] theorem State.cksAdd_success (s : State) (b : Byte) :
    (s.cksAdd b).success = s.success := rfl
@[simp] theorem State.cksAdd_auxPending (s : State) (b : Byte) :
    (s.cksAdd b).auxPending = s.auxPending := rfl
@[simp] theorem State.cksAdd_auxPrev (s : State) (b : Byte) :
    (s.cksAdd b).auxPrev = s.auxPrev := rfl
@[simp] theorem State.cksAdd_sendResult (s : State) (b : Byte) :
    (s.cksAdd b).sendResult = s.sendResult := rfl
@[simp] theorem State.cksAdd_rxActive (s : State) (b : Byte) :
    (s.cksAdd b).rxActive = s.rxActive := rfl
@[simp] theorem State.cksAdd_txState (s : State) (b : Byte) :
    (s.cksAdd b).txState = s.txState := rfl
@[simp] theorem State.cksAdd_rxCursor (s : State) (b : Byte) :
    (s.cksAdd b).rxCursor = s.rxCursor := rfl
@[simp] theorem State.cksAdd_byteCnt (s : State) (b : Byte) :
    (s.cksAdd b).byteCnt = s.byteCnt := rfl
@[simp] theorem State.cksAdd_cksAcc (s : State) (b : Byte) :
    (s.cksAdd b).cksAcc = s.cksAcc + b := rfl
@[simp] theorem State.cksAdd_txLen (s : State) (b : Byte) : (s.cksAdd b).txLen = s.txLen := rfl
@[simp] theorem State.cksAdd_attemptCnt (s : State) (b : Byte) :
    (s.cksAdd b).attemptCnt = s.attemptCnt := rfl
@[simp] theorem State.cksAdd_rxLen (s : State) (b : Byte) : (s.cksAdd b).rxLen = s.rxLen := rfl
@[simp] theorem State.cksAdd_rxCksField (s : State) (b : Byte) :
    (s.cksAdd b).rxCksField = s.rxCksField := rfl
@[simp] theorem State.cksAdd_stage (s : State) (b : Byte) : (s.cksAdd b).stage = s.stage := rfl
@[simp] theorem State.cksAdd_inbox (s : State) (b : Byte) : (s.cksAdd b).inbox = s.inbox := rfl
@[simp] theorem State.cksAdd_inboxSize (s : State) (b : Byte) :
    (s.cksAdd b).inboxSize = s.inboxSize := rfl
@[simp] theorem State.cksAdd_csOut (s : State) (b : Byte) : (s.cksAdd b).csOut = s.csOut := rfl
@[simp] theorem State.cksAdd_auxOut (s : State) (b : Byte) : (s.cksAdd b).auxOut = s.auxOut := rfl
@[simp] theorem State.cksAdd_txPoint (s : State) (b : Byte) :
    (s.cksAdd b).txPoint = s.txPoint := rfl
@[simp] theorem State.cksAdd_rxPoint (s : State) (b : Byte) :
    (s.cksAdd b).rxPoint = s.rxPoint := rfl
@[simp] theorem State.cksAdd_outbox (s : State) (b : Byte) : (s.cksAdd b).outbox = s.outbox := rfl
@[simp] theorem State.cksAdd_auxIn (s : State) (b : Byte) : (s.cksAdd b).auxIn = s.auxIn := rfl
@[simp] theorem State.cksAdd_halOk (s : State) (b : Byte) : (s.cksAdd b).halOk = s.halOk := rfl
@[simp] theorem State.cksAdd_hostQ (s : State) (b : Byte) : (s.cksAdd b).hostQ = s.hostQ := rfl
@[simp] theorem State.cksAdd_now (s : State) (b : Byte) : (s.cksAdd b).now = s.now := rfl
@[simp] theorem State.cksAdd_sched (s : State) (b : Byte) : (s.cksAdd b).sched = s.sched := rfl
@[simp] theorem State.cksAdd_freeCtr (s : State) (b : Byte) :
    (s.cksAdd b).freeCtr = s.freeCtr := rfl
@[simp] theorem State.cksAdd_trace (s : State) (b : Byte) : (s.cksAdd b).trace = s.trace := rfl

/-! ## `State.cntClear` -/

@[simp] theorem State.cntClear_params (s : State) : s.cntClear.params = s.params := rfl
@[simp] theorem State.cntClear_started (s : State) : s.cntClear.started = s.started := rfl
@[simp] theorem State.cntClear_role (s : State) : s.cntClear.role = s.role := rfl
@[simp] theorem State.cntClear_rxEnable (s : State) : s.cntClear.rxEnable = s.rxEnable := rfl
@[simp] theorem State.cntClear_cbEnable (s : State) : s.cntClear.cbEnable = s.cbEnable := rfl
@[simp] theorem State.cntClear_cbShadow (s : State) : s.cntClear.cbShadow = s.cbShadow := rfl
@[simp] theorem State.cntClear_fault (s : State) : s.cntClear.fault = s.fault := rfl
@[simp] theorem State.cntClear_newMessage (s : State) : s.cntClear.newMessage = s.newMessage := rfl
@[simp] theorem State.cntClear_success (s : State) : s.cntClear.success = s.success := rfl
@[simp] theorem State.cntClear_auxPending (s : State) : s.cntClear.auxPending = s.auxPending := rfl
@[simp] theorem State.cntClear_auxPrev (s : State) : s.cntClear.auxPrev = s.auxPrev := rfl
@[simp] theorem State.cntClear_sendResult (s : State) : s.cntClear.sendResult = s.sendResult := rfl
@[simp] theorem State.cntClear_rxActive (s : State) : s.cntClear.rxActive = s.rxActive := rfl
@[simp] theorem State.cntClear_txState (s : State) : s.cntClear.txState = s.txState := rfl
@[simp] theorem State.cntClear_rxCursor (s : State) : s.cntClear.rxCursor = s.rxCursor := rfl
@[simp] theorem State.cntClear_byteCnt (s : State) : s.cntClear.byteCnt = 0x0000 := rfl
@[simp] theorem State.cntClear_cksAcc (s : State) : s.cntClear.cksAcc = s.cksAcc := rfl
@[simp] theorem State.cntClear_txLen (s : State) : s.cntClear.txLen = s.txLen := rfl
@[simp] theorem State.cntClear_attemptCnt (s : State) : s.cntClear.attemptCnt = s.attemptCnt := rfl
@[simp] theorem State.cntClear_rxLen (s : State) : s.cntClear.rxLen = s.rxLen := rfl
@[simp] theorem State.cntClear_rxCksField (s : State) : s.cntClear.rxCksField = s.rxCksField := rfl
@[simp] theorem State.cntClear_stage (s : State) : s.cntClear.stage = s.stage := rfl
@[simp] theorem State.cntClear_inbox (s : State) : s.cntClear.inbox = s.inbox := rfl
@[simp] theorem State.cntClear_inboxSize (s : State) : s.cntClear.inboxSize = s.inboxSize := rfl
@[simp] theorem State.cntClear_csOut (s : State) : s.cntClear.csOut = s.csOut := rfl
@[simp] theorem State.cntClear_auxOut (s : State) : s.cntClear.auxOut = s.auxOut := rfl
@[simp] theorem State.cntClear_txPoint (s : State) : s.cntClear.txPoint = s.txPoint := rfl
@[simp] theorem State.cntClear_rxPoint (s : State) : s.cntClear.rxPoint = s.rxPoint := rfl
@[simp] theorem State.cntClear_outbox (s : State) : s.cntClear.outbox = s.outbox := rfl
@[simp] theorem State.cntClear_auxIn (s : State) : s.cntClear.auxIn = s.auxIn := rfl
@[simp] theorem State.cntClear_halOk (s : State) : s.cntClear.halOk = s.halOk := rfl
@[simp] theorem State.cntClear_hostQ (s : State) : s.cntClear.hostQ = s.hostQ := rfl
@[simp] theorem State.cntClear_now (s : State) : s.cntClear.now = s.now := rfl
@[simp] theorem State.cntClear_sched (s : State) : s.cntClear.sched = s.sched := rfl
@[simp] theorem State.cntClear_freeCtr (s : State) : s.cntClear.freeCtr = s.freeCtr := rfl
@[simp] theorem State.cntClear_trace (s : State) : s.cntClear.trace = s.trace := rfl

/-! ## `State.discard` -/

@[simp] theorem State.discard_params (s : State) : s.discard.params = s.params := rfl
@[simp] theorem State.discard_started (s : State) : s.discard.started = s.started := rfl
@[simp] theorem State.discard_role (s : State) : s.discard.role = s.role := rfl
@[simp] theorem State.discard_rxEnable (s : State) : s.discard.rxEnable = s.rxEnable := rfl
@[simp] theorem State.discard_cbEnable (s : State) : s.discard.cbEnable = s.cbEnable := rfl
@[simp] theorem State.discard_cbShadow (s : State) : s.discard.cbShadow = s.cbShadow := rfl
@[simp] theorem State.discard_fault (s : State) : s.discard.fault = s.fault := rfl
@[simp] theorem State.discard_newMessage (s : State) : s.discard.newMessage = s.newMessage := rfl
@[simp] theorem State.discard_success (s : State) : s.discard.success = s.success := rfl
@[simp] theorem State.discard_auxPending (s : State) : s.discard.auxPending = s.auxPending := rfl
@[simp] theorem State.discard_auxPrev (s : State) : s.discard.auxPrev = s.auxPrev := rfl
@[simp] theorem State.discard_sendResult (s : State) : s.discard.sendResult = s.sendResult := rfl
@[simp] theorem State.discard_rxActive (s : State) : s.discard.rxActive = s.rxActive := rfl
@[simp] theorem State.discard_txState (s : State) : s.discard.txState = s.txState := rfl
@[simp] theorem State.discard_rxCursor (s : State) : s.discard.rxCursor = .start := rfl
@[simp] theorem State.discard_byteCnt (s : State) : s.discard.byteCnt = s.byteCnt := rfl
@[simp] theorem State.discard_cksAcc (s : State) : s.discard.cksAcc = s.cksAcc := rfl
@[simp] theorem State.discard_txLen (s : State) : s.discard.txLen = s.txLen := rfl
@[simp] theorem State.discard_attemptCnt (s : State) : s.discard.attemptCnt = s.attemptCnt := rfl
@[simp] theorem State.discard_rxLen (s : State) : s.discard.rxLen = s.rxLen := rfl
@[simp] theorem State.discard_rxCksField (s : State) : s.discard.rxCksField = s.rxCksField := rfl
@[simp] theorem State.discard_stage (s : State) : s.discard.stage = s.stage := rfl
@[simp] theorem State.discard_inbox (s : State) : s.discard.inbox = s.inbox := rfl
@[simp] theorem State.discard_inboxSize (s : State) : s.discard.inboxSize = s.inboxSize := rfl
@[simp] theorem State.discard_csOut (s : State) : s.discard.csOut = s.csOut := rfl
@[simp] theorem State.discard_auxOut (s : State) : s.discard.auxOut = s.auxOut := rfl
@[simp] theorem State.discard_txPoint (s : State) : s.discard.txPoint = s.txPoint := rfl
@[simp] theorem State.discard_rxPoint (s : State) : s.discard.rxPoint = s.rxPoint := rfl
@[simp] theorem State.discard_outbox (s : State) : s.discard.outbox = s.outbox := rfl
@[simp] theorem State.discard_auxIn (s : State) : s.discard.auxIn = s.auxIn := rfl
@[simp] theorem State.discard_halOk (s : State) : s.discard.halOk = s.halOk := rfl
@[simp] theorem State.discard_hostQ (s : State) : s.discard.hostQ = s.hostQ := rfl
@[simp] theorem State.discard_now (s : State) : s.discard.now = s.now := rfl
@[simp] theorem State.discard_sched (s : State) : s.discard.sched = s.sched := rfl
@[simp] theorem State.discard_freeCtr (s : State) : s.discard.freeCtr = s.freeCtr := rfl
@[simp] theorem State.discard_trace (s : State) : s.discard.trace = s.trace := rfl

/-! ## `State.setLenHi` -/

@[simp] theorem State.setLenHi_params (s : State) (b : Byte) :
    (s.setLenHi b).params = s.params := rfl
@[simp] theorem State.setLenHi_started (s : State) (b : Byte) :
    (s.setLenHi b).started = s.started := rfl
@[simp] theorem State.setLenHi_role (s : State) (b : Byte) : (s.setLenHi b).role = s.role := rfl
@[simp] theorem State.setLenHi_rxEnable (s : State) (b : Byte) :
    (s.setLenHi b).rxEnable = s.rxEnable := rfl
@[simp] theorem State.setLenHi_cbEnable (s : State) (b : Byte) :
    (s.setLenHi b).cbEnable = s.cbEnable := rfl
@[simp] theorem State.setLenHi_cbShadow (s : State) (b : Byte) :
    (s.setLenHi b).cbShadow = s.cbShadow := rfl
@[simp] theorem State.setLenHi_fault (s : State) (b : Byte) : (s.setLenHi b).fault = s.fault := rfl
@[simp] theorem State.setLenHi_newMessage (s : State) (b : Byte) :
    (s.setLenHi b).newMessage = s.newMessage := rfl
@[simp] theorem State.setLenHi_success (s : State) (b : Byte) :
    (s.setLenHi b).success = s.success := rfl
@[simp] theorem State.setLenHi_auxPending (s : State) (b : Byte) :
    (s.setLenHi b).auxPending = s.auxPending := rfl
@[simp] theorem State.setLenHi_auxPrev (s : State) (b : Byte) :
    (s.setLenHi b).auxPrev = s.auxPrev := rfl
@[simp] theorem State.setLenHi_sendResult (s : State) (b : Byte) :
    (s.setLenHi b).sendResult = s.sendResult := rfl
@[simp] theorem State.setLenHi_rxActive (s : State) (b : Byte) :
    (s.setLenHi b).rxActive = s.rxActive := rfl
@[simp] theorem State.setLenHi_txState (s : State) (b : Byte) :
    (s.setLenHi b).txState = s.txState := rfl
@[simp] theorem State.setLenHi_rxCursor (s : State) (b : Byte) :
    (s.setLenHi b).rxCursor = s.rxCursor := rfl
@[simp] theorem State.setLenHi_byteCnt (s : State) (b : Byte) :
    (s.setLenHi b).byteCnt = s.byteCnt := rfl
@[simp] theorem State.setLenHi_cksAcc (s : State) (b : Byte) :
    (s.setLenHi b).cksAcc = s.cksAcc := rfl
@[simp] theorem State.setLenHi_txLen (s : State) (b : Byte) : (s.setLenHi b).txLen = s.txLen := rfl
@[simp] theorem State.setLenHi_attemptCnt (s : State) (b : Byte) :
    (s.setLenHi b).attemptCnt = s.attemptCnt := rfl
@[simp] theorem State.setLenHi_rxLen (s : State) (b : Byte) :
    (s.setLenHi b).rxLen = lenOf b (lenLo s.rxLen) := rfl
@[simp] theorem State.setLenHi_rxCksField (s : State) (b : Byte) :
    (s.setLenHi b).rxCksField = s.rxCksField := rfl
@[simp] theorem State.setLenHi_stage (s : State) (b : Byte) : (s.setLenHi b).stage = s.stage := rfl
@[simp] theorem State.setLenHi_inbox (s : State) (b : Byte) : (s.setLenHi b).inbox = s.inbox := rfl
@[simp] theorem State.setLenHi_inboxSize (s : State) (b : Byte) :
    (s.setLenHi b).inboxSize = s.inboxSize := rfl
@[simp] theorem State.setLenHi_csOut (s : State) (b : Byte) : (s.setLenHi b).csOut = s.csOut := rfl
@[simp] theorem State.setLenHi_auxOut (s : State) (b : Byte) :
    (s.setLenHi b).auxOut = s.auxOut := rfl
@[simp] theorem State.setLenHi_txPoint (s : State) (b : Byte) :
    (s.setLenHi b).txPoint = s.txPoint := rfl
@[simp] theorem State.setLenHi_rxPoint (s : State) (b : Byte) :
    (s.setLenHi b).rxPoint = s.rxPoint := rfl
@[simp] theorem State.setLenHi_outbox (s : State) (b : Byte) :
    (s.setLenHi b).outbox = s.outbox := rfl
@[simp] theorem State.setLenHi_auxIn (s : State) (b : Byte) : (s.setLenHi b).auxIn = s.auxIn := rfl
@[simp] theorem State.setLenHi_halOk (s : State) (b : Byte) : (s.setLenHi b).halOk = s.halOk := rfl
@[simp] theorem State.setLenHi_hostQ (s : State) (b : Byte) : (s.setLenHi b).hostQ = s.hostQ := rfl
@[simp] theorem State.setLenHi_now (s : State) (b : Byte) : (s.setLenHi b).now = s.now := rfl
@[simp] theorem State.setLenHi_sched (s : State) (b : Byte) : (s.setLenHi b).sched = s.sched := rfl
@[simp] theorem State.setLenHi_freeCtr (s : State) (b : Byte) :
    (s.setLenHi b).freeCtr = s.freeCtr := rfl
@[simp] theorem State.setLenHi_trace (s : State) (b : Byte) : (s.setLenHi b).trace = s.trace := rfl

/-! ## `State.setLenLo` -/

@[simp] theorem State.setLenLo_params (s : State) (b : Byte) :
    (s.setLenLo b).params = s.params := rfl
@[simp] theorem State.setLenLo_started (s : State) (b : Byte) :
    (s.setLenLo b).started = s.started := rfl
@[simp] theorem State.setLenLo_role (s : State) (b : Byte) : (s.setLenLo b).role = s.role := rfl
@[simp] theorem State.setLenLo_rxEnable (s : State) (b : Byte) :
    (s.setLenLo b).rxEnable = s.rxEnable := rfl
@[simp] theorem State.setLenLo_cbEnable (s : State) (b : Byte) :
    (s.setLenLo b).cbEnable = s.cbEnable := rfl
@[simp] theorem State.setLenLo_cbShadow (s : State) (b : Byte) :
    (s.setLenLo b).cbShadow = s.cbShadow := rfl
@[simp] theorem State.setLenLo_fault (s : State) (b : Byte) : (s.setLenLo b).fault = s.fault := rfl
@[simp] theorem State.setLenLo_newMessage (s : State) (b : Byte) :
    (s.setLenLo b).newMessage = s.newMessage := rfl
@[simp] theorem State.setLenLo_success (s : State) (b : Byte) :
    (s.setLenLo b).success = s.success := rfl
@[simp] theorem State.setLenLo_auxPending (s : State) (b : Byte) :
    (s.setLenLo b).auxPending = s.auxPending := rfl
@[simp] theorem State.setLenLo_auxPrev (s : State) (b : Byte) :
    (s.setLenLo b).auxPrev = s.auxPrev := rfl
@[simp] theorem State.setLenLo_sendResult (s : State) (b : Byte) :
    (s.setLenLo b).sendResult = s.sendResult := rfl
@[simp] theorem State.setLenLo_rxActive (s : State) (b : Byte) :
    (s.setLenLo b).rxActive = s.rxActive := rfl
@[simp] theorem State.setLenLo_txState (s : State) (b : Byte) :
    (s.setLenLo b).txState = s.txState := rfl
@[simp] theorem State.setLenLo_rxCursor (s : State) (b : Byte) :
    (s.setLenLo b).rxCursor = s.rxCursor := rfl
@[simp] theorem State.setLenLo_byteCnt (s : State) (b : Byte) :
    (s.setLenLo b).byteCnt = s.byteCnt := rfl
@[simp] theorem State.setLenLo_cksAcc (s : State) (b : Byte) :
    (s.setLenLo b).cksAcc = s.cksAcc := rfl
@[simp] theorem State.setLenLo_txLen (s : State) (b : Byte) : (s.setLenLo b).txLen = s.txLen := rfl
@[simp] theorem State.setLenLo_attemptCnt (s : State) (b : Byte) :
    (s.setLenLo b).attemptCnt = s.attemptCnt := rfl
@[simp] theorem State.setLenLo_rxLen (s : State) (b : Byte) :
    (s.setLenLo b).rxLen = lenOf (lenHi s.rxLen) b := rfl
@[simp] theorem State.setLenLo_rxCksField (s : State) (b : Byte) :
    (s.setLenLo b).rxCksField = s.rxCksField := rfl
@[simp] theorem State.setLenLo_stage (s : State) (b : Byte) : (s.setLenLo b).stage = s.stage := rfl
@[simp] theorem State.setLenLo_inbox (s : State) (b : Byte) : (s.setLenLo b).inbox = s.inbox := rfl
@[simp] theorem State.setLenLo_inboxSize (s : State) (b : Byte) :
    (s.setLenLo b).inboxSize = s.inboxSize := rfl
@[simp] theorem State.setLenLo_csOut (s : State) (b : Byte) : (s.setLenLo b).csOut = s.csOut := rfl
@[simp] theorem State.setLenLo_auxOut (s : State) (b : Byte) :
    (s.setLenLo b).auxOut = s.auxOut := rfl
@[simp] theorem State.setLenLo_txPoint (s : State) (b : Byte) :
    (s.setLenLo b).txPoint = s.txPoint := rfl
@[simp] theorem State.setLenLo_rxPoint (s : State) (b : Byte) :
    (s.setLenLo b).rxPoint = s.rxPoint := rfl
@[simp] theorem State.setLenLo_outbox (s : State) (b : Byte) :
    (s.setLenLo b).outbox = s.outbox := rfl
@[simp] theorem State.setLenLo_auxIn (s : State) (b : Byte) : (s.setLenLo b).auxIn = s.auxIn := rfl
@[simp] theorem State.setLenLo_halOk (s : State) (b : Byte) : (s.setLenLo b).halOk = s.halOk := rfl
@[simp] theorem State.setLenLo_hostQ (s : State) (b : Byte) : (s.setLenLo b).hostQ = s.hostQ := rfl
@[simp] theorem State.setLenLo_now (s : State) (b : Byte) : (s.setLenLo b).now = s.now := rfl
@[simp] theorem State.setLenLo_sched (s : State) (b : Byte) : (s.setLenLo b).sched = s.sched := rfl
@[simp] theorem State.setLenLo_freeCtr (s : State) (b : Byte) :
    (s.setLenLo b).freeCtr = s.freeCtr := rfl
@[simp] theorem State.setLenLo_trace (s : State) (b : Byte) : (s.setLenLo b).trace = s.trace := rfl

/-! ## `State.toField` -/

@[simp] theorem State.toField_params (s : State) (sel : Sel) :
    (s.toField sel).params = s.params := rfl
@[simp] theorem State.toField_started (s : State) (sel : Sel) :
    (s.toField sel).started = s.started := rfl
@[simp] theorem State.toField_role (s : State) (sel : Sel) : (s.toField sel).role = s.role := rfl
@[simp] theorem State.toField_rxEnable (s : State) (sel : Sel) :
    (s.toField sel).rxEnable = s.rxEnable := rfl
@[simp] theorem State.toField_cbEnable (s : State) (sel : Sel) :
    (s.toField sel).cbEnable = s.cbEnable := rfl
@[simp] theorem State.toField_cbShadow (s : State) (sel : Sel) :
    (s.toField sel).cbShadow = s.cbShadow := rfl
@[simp] theorem State.toField_fault (s : State) (sel : Sel) : (s.toField sel).fault = s.fault := rfl
@[simp] theorem State.toField_newMessage (s : State) (sel : Sel) :
    (s.toField sel).newMessage = s.newMessage := rfl
@[simp] theorem State.toField_success (s : State) (sel : Sel) :
    (s.toField sel).success = s.success := rfl
@[simp] theorem State.toField_auxPending (s : State) (sel : Sel) :
    (s.toField sel).auxPending = s.auxPending := rfl
@[simp] theorem State.toField_auxPrev (s : State) (sel : Sel) :
    (s.toField sel).auxPrev = s.auxPrev := rfl
@[simp] theorem State.toField_sendResult (s : State) (sel : Sel) :
    (s.toField sel).sendResult = s.sendResult := rfl
@[simp] theorem State.toField_rxActive (s : State) (sel : Sel) :
    (s.toField sel).rxActive = s.rxActive := rfl
@[simp] theorem State.toField_txState (s : State) (sel : Sel) :
    (s.toField sel).txState = s.txState := rfl
@[simp] theorem State.toField_rxCursor (s : State) (sel : Sel) :
    (s.toField sel).rxCursor = s.rxCursor := rfl
@[simp] theorem State.toField_byteCnt (s : State) (sel : Sel) :
    (s.toField sel).byteCnt = s.byteCnt := rfl
@[simp] theorem State.toField_cksAcc (s : State) (sel : Sel) :
    (s.toField sel).cksAcc = s.cksAcc := rfl
@[simp] theorem State.toField_txLen (s : State) (sel : Sel) : (s.toField sel).txLen = s.txLen := rfl
@[simp] theorem State.toField_attemptCnt (s : State) (sel : Sel) :
    (s.toField sel).attemptCnt = s.attemptCnt := rfl
@[simp] theorem State.toField_rxLen (s : State) (sel : Sel) : (s.toField sel).rxLen = s.rxLen := rfl
@[simp] theorem State.toField_rxCksField (s : State) (sel : Sel) :
    (s.toField sel).rxCksField = s.rxCksField := rfl
@[simp] theorem State.toField_stage (s : State) (sel : Sel) : (s.toField sel).stage = s.stage := rfl
@[simp] theorem State.toField_inbox (s : State) (sel : Sel) : (s.toField sel).inbox = s.inbox := rfl
@[simp] theorem State.toField_inboxSize (s : State) (sel : Sel) :
    (s.toField sel).inboxSize = s.inboxSize := rfl
@[simp] theorem State.toField_csOut (s : State) (sel : Sel) : (s.toField sel).csOut = s.csOut := rfl
@[simp] theorem State.toField_auxOut (s : State) (sel : Sel) :
    (s.toField sel).auxOut = s.auxOut := rfl
@[simp] theorem State.toField_txPoint (s : State) (sel : Sel) :
    (s.toField sel).txPoint = .send sel (s.encByte sel) := rfl
@[simp] theorem State.toField_rxPoint (s : State) (sel : Sel) :
    (s.toField sel).rxPoint = s.rxPoint := rfl
@[simp] theorem State.toField_outbox (s : State) (sel : Sel) :
    (s.toField sel).outbox = s.outbox := rfl
@[simp] theorem State.toField_auxIn (s : State) (sel : Sel) : (s.toField sel).auxIn = s.auxIn := rfl
@[simp] theorem State.toField_halOk (s : State) (sel : Sel) : (s.toField sel).halOk = s.halOk := rfl
@[simp] theorem State.toField_hostQ (s : State) (sel : Sel) : (s.toField sel).hostQ = s.hostQ := rfl
@[simp] theorem State.toField_now (s : State) (sel : Sel) : (s.toField sel).now = s.now := rfl
@[simp] theorem State.toField_sched (s : State) (sel : Sel) : (s.toField sel).sched = s.sched := rfl
@[simp] theorem State.toField_freeCtr (s : State) (sel : Sel) :
    (s.toField sel).freeCtr = s.freeCtr := rfl
@[simp] theorem State.toField_trace (s : State) (sel : Sel) : (s.toField sel).trace = s.trace := rfl

/-! ## `State.toRelease` -/

@[simp] theorem State.toRelease_params (s : State) (how : RxEnd) :
    (s.toRelease how).params = s.params := rfl
@[simp] theorem State.toRelease_started (s : State) (how : RxEnd) :
    (s.toRelease how).started = s.started := rfl
@[simp] theorem State.toRelease_role (s : State) (how : RxEnd) :
    (s.toRelease how).role = s.role := rfl
@[simp] theorem State.toRelease_rxEnable (s : State) (how : RxEnd) :
    (s.toRelease how).rxEnable = s.rxEnable := rfl
@[simp] theorem State.toRelease_cbEnable (s : State) (how : RxEnd) :
    (s.toRelease how).cbEnable = s.cbEnable := rfl
@[simp] theorem State.toRelease_cbShadow (s : State) (how : RxEnd) :
    (s.toRelease how).cbShadow = s.cbShadow := rfl
@[simp] theorem State.toRelease_fault (s : State) (how : RxEnd) :
    (s.toRelease how).fault = s.fault := rfl
@[simp] theorem State.toRelease_newMessage (s : State) (how : RxEnd) :
    (s.toRelease how).newMessage = s.newMessage := rfl
@[simp] theorem State.toRelease_success (s : State) (how : RxEnd) :
    (s.toRelease how).success = s.success := rfl
@[simp] theorem State.toRelease_auxPending (s : State) (how : RxEnd) :
    (s.toRelease how).auxPending = s.auxPending := rfl
@[simp] theorem State.toRelease_auxPrev (s : State) (how : RxEnd) :
    (s.toRelease how).auxPrev = s.auxPrev := rfl
@[simp] theorem State.toRelease_sendResult (s : State) (how : RxEnd) :
    (s.toRelease how).sendResult = s.sendResult := rfl
@[simp] theorem State.toRelease_rxActive (s : State) (how : RxEnd) :
    (s.toRelease how).rxActive = s.rxActive := rfl
@[simp] theorem State.toRelease_txState (s : State) (how : RxEnd) :
    (s.toRelease how).txState = s.txState := rfl
@[simp] theorem State.toRelease_rxCursor (s : State) (how : RxEnd) :
    (s.toRelease how).rxCursor = s.rxCursor := rfl
@[simp] theorem State.toRelease_byteCnt (s : State) (how : RxEnd) :
    (s.toRelease how).byteCnt = s.byteCnt := rfl
@[simp] theorem State.toRelease_cksAcc (s : State) (how : RxEnd) :
    (s.toRelease how).cksAcc = s.cksAcc := rfl
@[simp] theorem State.toRelease_txLen (s : State) (how : RxEnd) :
    (s.toRelease how).txLen = s.txLen := rfl
@[simp] theorem State.toRelease_attemptCnt (s : State) (how : RxEnd) :
    (s.toRelease how).attemptCnt = s.attemptCnt := rfl
@[simp] theorem State.toRelease_rxLen (s : State) (how : RxEnd) :
    (s.toRelease how).rxLen = s.rxLen := rfl
@[simp] theorem State.toRelease_rxCksField (s : State) (how : RxEnd) :
    (s.toRelease how).rxCksField = s.rxCksField := rfl
@[simp] theorem State.toRelease_stage (s : State) (how : RxEnd) :
    (s.toRelease how).stage = s.stage := rfl
@[simp] theorem State.toRelease_inbox (s : State) (how : RxEnd) :
    (s.toRelease how).inbox = s.inbox := rfl
@[simp] theorem State.toRelease_inboxSize (s : State) (how : RxEnd) :
    (s.toRelease how).inboxSize = s.inboxSize := rfl
@[simp] theorem State.toRelease_csOut (s : State) (how : RxEnd) :
    (s.toRelease how).csOut = s.csOut := rfl
@[simp] theorem State.toRelease_auxOut (s : State) (how : RxEnd) :
    (s.toRelease how).auxOut = s.auxOut := rfl
@[simp] theorem State.toRelease_txPoint (s : State) (how : RxEnd) :
    (s.toRelease how).txPoint = s.txPoint := rfl
@[simp] theorem State.toRelease_rxPoint (s : State) (how : RxEnd) :
    (s.toRelease how).rxPoint = .release how := rfl
@[simp] theorem State.toRelease_outbox (s : State) (how : RxEnd) :
    (s.toRelease how).outbox = s.outbox := rfl
@[simp] theorem State.toRelease_auxIn (s : State) (how : RxEnd) :
    (s.toRelease how).auxIn = s.auxIn := rfl
@[simp] theorem State.toRelease_halOk (s : State) (how : RxEnd) :
    (s.toRelease how).halOk = s.halOk := rfl
@[simp] theorem State.toRelease_hostQ (s : State) (how : RxEnd) :
    (s.toRelease how).hostQ = s.hostQ := rfl
@[simp] theorem State.toRelease_now (s : State) (how : RxEnd) : (s.toRelease how).now = s.now := rfl
@[simp] theorem State.toRelease_sched (s : State) (how : RxEnd) :
    (s.toRelease how).sched = s.sched := rfl
@[simp] theorem State.toRelease_freeCtr (s : State) (how : RxEnd) :
    (s.toRelease how).freeCtr = s.freeCtr := rfl
@[simp] theorem State.toRelease_trace (s : State) (how : RxEnd) :
    (s.toRelease how).trace = s.trace := rfl

/-! ## What `State.cntInc` leaves alone -/

@[simp] theorem State.cntInc_params (s : State) : s.cntInc.params = s.params := by
  unfold State.cntInc; split <;> rfl
@[simp] theorem State.cntInc_started (s : State) : s.cntInc.started = s.started := by
  unfold State.cntInc; split <;> rfl
@[simp] theorem State.cntInc_role (s : State) : s.cntInc.role = s.role := by
  unfold State.cntInc; split <;> rfl
@[simp] theorem State.cntInc_rxEnable (s : State) : s.cntInc.rxEnable = s.rxEnable := by
  unfold State.cntInc; split <;> rfl
@[simp] theorem State.cntInc_cbEnable (s : State) : s.cntInc.cbEnable = s.cbEnable := by
  unfold State.cntInc; split <;> rfl
@[simp] theorem State.cntInc_cbShadow (s : State) : s.cntInc.cbShadow = s.cbShadow := by
  unfold State.cntInc; split <;> rfl
@[simp] theorem State.cntInc_fault (s : State) : s.cntInc.fault = s.fault := by
  unfold State.cntInc; split <;> rfl
@[simp] theorem State.cntInc_newMessage (s : State) : s.cntInc.newMessage = s.newMessage := by
  unfold State.cntInc; split <;> rfl
@[simp] theorem State.cntInc_success (s : State) : s.cntInc.success = s.success := by
  unfold State.cntInc; split <;> rfl
@[simp] theorem State.cntInc_auxPending (s : State) : s.cntInc.auxPending = s.auxPending := by
  unfold State.cntInc; split <;> rfl
@[simp] theorem State.cntInc_auxPrev (s : State) : s.cntInc.auxPrev = s.auxPrev := by
  unfold State.cntInc; split <;> rfl
@[simp] theorem State.cntInc_sendResult (s : State) : s.cntInc.sendResult = s.sendResult := by
  unfold State.cntInc; split <;> rfl
@[simp] theorem State.cntInc_rxActive (s : State) : s.cntInc.rxActive = s.rxActive := by
  unfold State.cntInc; split <;> rfl
@[simp] theorem State.cntInc_txState (s : State) : s.cntInc.txState = s.txState := by
  unfold State.cntInc; split <;> rfl
@[simp] theorem State.cntInc_rxCursor (s : State) : s.cntInc.rxCursor = s.rxCursor := by
  unfold State.cntInc; split <;> rfl
@[simp] theorem State.cntInc_cksAcc (s : State) : s.cntInc.cksAcc = s.cksAcc := by
  unfold State.cntInc; split <;> rfl
@[simp] theorem State.cntInc_txLen (s : State) : s.cntInc.txLen = s.txLen := by
  unfold State.cntInc; split <;> rfl
@[simp] theorem State.cntInc_attemptCnt (s : State) : s.cntInc.attemptCnt = s.attemptCnt := by
  unfold State.cntInc; split <;> rfl
@[simp] theorem State.cntInc_rxLen (s : State) : s.cntInc.rxLen = s.rxLen := by
  unfold State.cntInc; split <;> rfl
@[simp] theorem State.cntInc_rxCksField (s : State) : s.cntInc.rxCksField = s.rxCksField := by
  unfold State.cntInc; split <;> rfl
@[simp] theorem State.cntInc_stage (s : State) : s.cntInc.stage = s.stage := by
  unfold State.cntInc; split <;> rfl
@[simp] theorem State.cntInc_inbox (s : State) : s.cntInc.inbox = s.inbox := by
  unfold State.cntInc; split <;> rfl
@[simp] theorem State.cntInc_inboxSize (s : State) : s.cntInc.inboxSize = s.inboxSize := by
  unfold State.cntInc; split <;> rfl
@[simp] theorem State.cntInc_csOut (s : State) : s.cntInc.csOut = s.csOut := by
  unfold State.cntInc; split <;> rfl
@[simp] theorem State.cntInc_auxOut (s : State) : s.cntInc.auxOut = s.auxOut := by
  unfold State.cntInc; split <;> rfl
@[simp] theorem State.cntInc_txPoint (s : State) : s.cntInc.txPoint = s.txPoint := by
  unfold State.cntInc; split <;> rfl
@[simp] theorem State.cntInc_rxPoint (s : State) : s.cntInc.rxPoint = s.rxPoint := by
  unfold State.cntInc; split <;> rfl
@[simp] theorem State.cntInc_outbox (s : State) : s.cntInc.outbox = s.outbox := by
  unfold State.cntInc; split <;> rfl
@[simp] theorem State.cntInc_auxIn (s : State) : s.cntInc.auxIn = s.auxIn := by
  unfold State.cntInc; split <;> rfl
@[simp] theorem State.cntInc_halOk (s : State) : s.cntInc.halOk = s.halOk := by
  unfold State.cntInc; split <;> rfl
@[simp] theorem State.cntInc_hostQ (s : State) : s.cntInc.hostQ = s.hostQ := by
  unfold State.cntInc; split <;> rfl
@[simp] theorem State.cntInc_now (s : State) : s.cntInc.now = s.now := by
  unfold State.cntInc; split <;> rfl
@[simp] theorem State.cntInc_sched (s : State) : s.cntInc.sched = s.sched := by
  unfold State.cntInc; split <;> rfl
@[simp] theorem State.cntInc_trace (s : State) : s.cntInc.trace = s.trace := by
  unfold State.cntInc; split <;> rfl

/-! ## What `State.auxChange` leaves alone -/

@[simp] theorem State.auxChange_params (s : State) (v : Bool) : (s.auxChange v).params = s.params := by
  unfold State.auxChange; split <;> rfl
@[simp] theorem State.auxChange_started (s : State) (v : Bool) : (s.auxChange v).started = s.started := by
  unfold State.auxChange; split <;> rfl
@[simp] theorem State.auxChange_role (s : State) (v : Bool) : (s.auxChange v).role = s.role := by
  unfold State.auxChange; split <;> rfl
@[simp] theorem State.auxChange_rxEnable (s : State) (v : Bool) : (s.auxChange v).rxEnable = s.rxEnable := by
  unfold State.auxChange; split <;> rfl
@[simp] theorem State.auxChange_cbEnable (s : State) (v : Bool) : (s.auxChange v).cbEnable = s.cbEnable := by
  unfold State.auxChange; split <;> rfl
@[simp] theorem State.auxChange_cbShadow (s : State) (v : Bool) : (s.auxChange v).cbShadow = s.cbShadow := by
  unfold State.auxChange; split <;> rfl
@[simp] theorem State.auxChange_fault (s : State) (v : Bool) : (s.auxChange v).fault = s.fault := by
  unfold State.auxChange; split <;> rfl
@[simp] theorem State.auxChange_newMessage (s : State) (v : Bool) : (s.auxChange v).newMessage = s.newMessage := by
  unfold State.auxChange; split <;> rfl
@[simp] theorem State.auxChange_success (s : State) (v : Bool) : (s.auxChange v).success = s.success := by
  unfold State.auxChange; split <;> rfl
@[simp] theorem State.auxChange_sendResult (s : State) (v : Bool) : (s.auxChange v).sendResult = s.sendResult := by
  unfold State.auxChange; split <;> rfl
@[simp] theorem State.auxChange_rxActive (s : State) (v : Bool) : (s.auxChange v).rxActive = s.rxActive := by
  unfold State.auxChange; split <;> rfl
@[simp] theorem State.auxChange_txState (s : State) (v : Bool) : (s.auxChange v).txState = s.txState := by
  unfold State.auxChange; split <;> rfl
@[simp] theorem State.auxChange_rxCursor (s : State) (v : Bool) : (s.auxChange v).rxCursor = s.rxCursor := by
  unfold State.auxChange; split <;> rfl
@[simp] theorem State.auxChange_byteCnt (s : State) (v : Bool) : (s.auxChange v).byteCnt = s.byteCnt := by
  unfold State.auxChange; split <;> rfl
@[simp] theorem State.auxChange_cksAcc (s : State) (v : Bool) : (s.auxChange v).cksAcc = s.cksAcc := by
  unfold State.auxChange; split <;> rfl
@[simp] theorem State.auxChange_txLen (s : State) (v : Bool) : (s.auxChange v).txLen = s.txLen := by
  unfold State.auxChange; split <;> rfl
@[simp] theorem State.auxChange_attemptCnt (s : State) (v : Bool) : (s.auxChange v).attemptCnt = s.attemptCnt := by
  unfold State.auxChange; split <;> rfl
@[simp] theorem State.auxChange_rxLen (s : State) (v : Bool) : (s.auxChange v).rxLen = s.rxLen := by
  unfold State.auxChange; split <;> rfl
@[simp] theorem State.auxChange_rxCksField (s : State) (v : Bool) : (s.auxChange v).rxCksField = s.rxCksField := by
  unfold State.auxChange; split <;> rfl
@[simp] theorem State.auxChange_stage (s : State) (v : Bool) : (s.auxChange v).stage = s.stage := by
  unfold State.auxChange; split <;> rfl
@[simp] theorem State.auxChange_inbox (s : State) (v : Bool) : (s.auxChange v).inbox = s.inbox := by
  unfold State.auxChange; split <;> rfl
@[simp] theorem State.auxChange_inboxSize (s : State) (v : Bool) : (s.auxChange v).inboxSize = s.inboxSize := by
  unfold State.auxChange; split <;> rfl
@[simp] theorem State.auxChange_csOut (s : State) (v : Bool) : (s.auxChange v).csOut = s.csOut := by
  unfold State.auxChange; split <;> rfl
@[simp] theorem State.auxChange_auxOut (s : State) (v : Bool) : (s.auxChange v).auxOut = s.auxOut := by
  unfold State.auxChange; split <;> rfl
@[simp] theorem State.auxChange_txPoint (s : State) (v : Bool) : (s.auxChange v).txPoint = s.txPoint := by
  unfold State.auxChange; split <;> rfl
@[simp] theorem State.auxChange_rxPoint (s : State) (v : Bool) : (s.auxChange v).rxPoint = s.rxPoint := by
  unfold State.auxChange; split <;> rfl
@[simp] theorem State.auxChange_outbox (s : State) (v : Bool) : (s.auxChange v).outbox = s.outbox := by
  unfold State.auxChange; split <;> rfl
@[simp] theorem State.auxChange_halOk (s : State) (v : Bool) : (s.auxChange v).halOk = s.halOk := by
  unfold State.auxChange; split <;> rfl
@[simp] theorem State.auxChange_hostQ (s : State) (v : Bool) : (s.auxChange v).hostQ = s.hostQ := by
  unfold State.auxChange; split <;> rfl
@[simp] theorem State.auxChange_now (s : State) (v : Bool) : (s.auxChange v).now = s.now := by
  unfold State.auxChange; split <;> rfl
@[simp] theorem State.auxChange_sched (s : State) (v : Bool) : (s.auxChange v).sched = s.sched := by
  unfold State.auxChange; split <;> rfl
@[simp] theorem State.auxChange_freeCtr (s : State) (v : Bool) : (s.auxChange v).freeCtr = s.freeCtr := by
  unfold State.auxChange; split <;> rfl
@[simp] theorem State.auxChange_trace (s : State) (v : Bool) : (s.auxChange v).trace = s.trace := by
  unfold State.auxChange; split <;> rfl

/-! ## What `State.auxPhase` leaves alone -/

@[simp] theorem State.auxPhase_params (s : State) : s.auxPhase.params = s.params := by
  unfold State.auxPhase; split <;> simp
@[simp] theorem State.auxPhase_started (s : State) : s.auxPhase.started = s.started := by
  unfold State.auxPhase; split <;> simp
@[simp] theorem State.auxPhase_role (s : State) : s.auxPhase.role = s.role := by
  unfold State.auxPhase; split <;> simp
@[simp] theorem State.auxPhase_rxEnable (s : State) : s.auxPhase.rxEnable = s.rxEnable := by
  unfold State.auxPhase; split <;> simp
@[simp] theorem State.auxPhase_cbEnable (s : State) : s.auxPhase.cbEnable = s.cbEnable := by
  unfold State.auxPhase; split <;> simp
@[simp] theorem State.auxPhase_cbShadow (s : State) : s.auxPhase.cbShadow = s.cbShadow := by
  unfold State.auxPhase; split <;> simp
@[simp] theorem State.auxPhase_fault (s : State) : s.auxPhase.fault = s.fault := by
  unfold State.auxPhase; split <;> simp
@[simp] theorem State.auxPhase_newMessage (s : State) : s.auxPhase.newMessage = s.newMessage := by
  unfold State.auxPhase; split <;> simp
@[simp] theorem State.auxPhase_success (s : State) : s.auxPhase.success = s.success := by
  unfold State.auxPhase; split <;> simp
@[simp] theorem State.auxPhase_sendResult (s : State) : s.auxPhase.sendResult = s.sendResult := by
  unfold State.auxPhase; split <;> simp
@[simp] theorem State.auxPhase_rxActive (s : State) : s.auxPhase.rxActive = s.rxActive := by
  unfold State.auxPhase; split <;> simp
@[simp] theorem State.auxPhase_txState (s : State) : s.auxPhase.txState = s.txState := by
  unfold State.auxPhase; split <;> simp
@[simp] theorem State.auxPhase_rxCursor (s : State) : s.auxPhase.rxCursor = s.rxCursor := by
  unfold State.auxPhase; split <;> simp
@[simp] theorem State.auxPhase_byteCnt (s : State) : s.auxPhase.byteCnt = s.byteCnt := by
  unfold State.auxPhase; split <;> simp
@[simp] theorem State.auxPhase_cksAcc (s : State) : s.auxPhase.cksAcc = s.cksAcc := by
  unfold State.auxPhase; split <;> simp
@[simp] theorem State.auxPhase_txLen (s : State) : s.auxPhase.txLen = s.txLen := by
  unfold State.auxPhase; split <;> simp
@[simp] theorem State.auxPhase_attemptCnt (s : State) : s.auxPhase.attemptCnt = s.attemptCnt := by
  unfold State.auxPhase; split <;> simp
@[simp] theorem State.auxPhase_rxLen (s : State) : s.auxPhase.rxLen = s.rxLen := by
  unfold State.auxPhase; split <;> simp
@[simp] theorem State.auxPhase_rxCksField (s : State) : s.auxPhase.rxCksField = s.rxCksField := by
  unfold State.auxPhase; split <;> simp
@[simp] theorem State.auxPhase_stage (s : State) : s.auxPhase.stage = s.stage := by
  unfold State.auxPhase; split <;> simp
@[simp] theorem State.auxPhase_inbox (s : State) : s.auxPhase.inbox = s.inbox := by
  unfold State.auxPhase; split <;> simp
@[simp] theorem State.auxPhase_inboxSize (s : State) : s.auxPhase.inboxSize = s.inboxSize := by
  unfold State.auxPhase; split <;> simp
@[simp] theorem State.auxPhase_csOut (s : State) : s.auxPhase.csOut = s.csOut := by
  unfold State.auxPhase; split <;> simp
@[simp] theorem State.auxPhase_auxOut (s : State) : s.auxPhase.auxOut = s.auxOut := by
  unfold State.auxPhase; split <;> simp
@[simp] theorem State.auxPhase_txPoint (s : State) : s.auxPhase.txPoint = s.txPoint := by
  unfold State.auxPhase; split <;> simp
@[simp] theorem State.auxPhase_rxPoint (s : State) : s.auxPhase.rxPoint = s.rxPoint := by
  unfold State.auxPhase; split <;> simp
@[simp] theorem State.auxPhase_outbox (s : State) : s.auxPhase.outbox = s.outbox := by
  unfold State.auxPhase; split <;> simp
@[simp] theorem State.auxPhase_halOk (s : State) : s.auxPhase.halOk = s.halOk := by
  unfold State.auxPhase; split <;> simp
@[simp] theorem State.auxPhase_hostQ (s : State) : s.auxPhase.hostQ = s.hostQ := by
  unfold State.auxPhase; split <;> simp
@[simp] theorem State.auxPhase_now (s : State) : s.auxPhase.now = s.now := by
  unfold State.auxPhase; split <;> simp
@[simp] theorem State.auxPhase_sched (s : State) : s.auxPhase.sched = s.sched := by
  unfold State.auxPhase; split <;> simp
@[simp] theorem State.auxPhase_freeCtr (s : State) : s.auxPhase.freeCtr = s.freeCtr := by
  unfold State.auxPhase; split <;> simp
@[simp] theorem State.auxPhase_trace (s : State) : s.auxPhase.trace = s.trace := by
  unfold State.auxPhase; split <;> simp

/-! ## What `State.frameSent` leaves alone -/

@[simp] theorem State.frameSent_params (s : State) : s.frameSent.params = s.params := by
  unfold State.frameSent; split <;> rfl
@[simp] theorem State.frameSent_started (s : State) : s.frameSent.started = s.started := by
  unfold State.frameSent; split <;> rfl
@[simp] theorem State.frameSent_role (s : State) : s.frameSent.role = s.role := by
  unfold State.frameSent; split <;> rfl
@[simp] theorem State.frameSent_rxEnable (s : State) : s.frameSent.rxEnable = s.rxEnable := by
  unfold State.frameSent; split <;> rfl
@[simp] theorem State.frameSent_cbEnable (s : State) : s.frameSent.cbEnable = s.cbEnable := by
  unfold State.frameSent; split <;> rfl
@[simp] theorem State.frameSent_cbShadow (s : State) : s.frameSent.cbShadow = s.cbShadow := by
  unfold State.frameSent; split <;> rfl
@[simp] theorem State.frameSent_fault (s : State) : s.frameSent.fault = s.fault := by
  unfold State.frameSent; split <;> rfl
@[simp] theorem State.frameSent_newMessage (s : State) : s.frameSent.newMessage = s.newMessage := by
  unfold State.frameSent; split <;> rfl
@[simp] theorem State.frameSent_success (s : State) : s.frameSent.success = s.success := by
  unfold State.frameSent; split <;> rfl
@[simp] theorem State.frameSent_auxPending (s : State) : s.frameSent.auxPending = s.auxPending := by
  unfold State.frameSent; split <;> rfl
@[simp] theorem State.frameSent_auxPrev (s : State) : s.frameSent.auxPrev = s.auxPrev := by
  unfold State.frameSent; split <;> rfl
@[simp] theorem State.frameSent_sendResult (s : State) : s.frameSent.sendResult = s.sendResult := by
  unfold State.frameSent; split <;> rfl
@[simp] theorem State.frameSent_rxActive (s : State) : s.frameSent.rxActive = s.rxActive := by
  unfold State.frameSent; split <;> rfl
@[simp] theorem State.frameSent_rxCursor (s : State) : s.frameSent.rxCursor = s.rxCursor := by
  unfold State.frameSent; split <;> rfl
@[simp] theorem State.frameSent_byteCnt (s : State) : s.frameSent.byteCnt = s.byteCnt := by
  unfold State.frameSent; split <;> rfl
@[simp] theorem State.frameSent_cksAcc (s : State) : s.frameSent.cksAcc = s.cksAcc := by
  unfold State.frameSent; split <;> rfl
@[simp] theorem State.frameSent_txLen (s : State) : s.frameSent.txLen = s.txLen := by
  unfold State.frameSent; split <;> rfl
@[simp] theorem State.frameSent_attemptCnt (s : State) : s.frameSent.attemptCnt = s.attemptCnt := by
  unfold State.frameSent; split <;> rfl
@[simp] theorem State.frameSent_rxLen (s : State) : s.frameSent.rxLen = s.rxLen := by
  unfold State.frameSent; split <;> rfl
@[simp] theorem State.frameSent_rxCksField (s : State) : s.frameSent.rxCksField = s.rxCksField := by
  unfold State.frameSent; split <;> rfl
@[simp] theorem State.frameSent_stage (s : State) : s.frameSent.stage = s.stage := by
  unfold State.frameSent; split <;> rfl
@[simp] theorem State.frameSent_inbox (s : State) : s.frameSent.inbox = s.inbox := by
  unfold State.frameSent; split <;> rfl
@[simp] theorem State.frameSent_inboxSize (s : State) : s.frameSent.inboxSize = s.inboxSize := by
  unfold State.frameSent; split <;> rfl
@[simp] theorem State.frameSent_csOut (s : State) : s.frameSent.csOut = s.csOut := by
  unfold State.frameSent; split <;> rfl
@[simp] theorem State.frameSent_auxOut (s : State) : s.frameSent.auxOut = s.auxOut := by
  unfold State.frameSent; split <;> rfl
@[simp] theorem State.frameSent_rxPoint (s : State) : s.frameSent.rxPoint = s.rxPoint := by
  unfold State.frameSent; split <;> rfl
@[simp] theorem State.frameSent_outbox (s : State) : s.frameSent.outbox = s.outbox := by
  unfold State.frameSent; split <;> rfl
@[simp] theorem State.frameSent_auxIn (s : State) : s.frameSent.auxIn = s.auxIn := by
  unfold State.frameSent; split <;> rfl
@[simp] theorem State.frameSent_halOk (s : State) : s.frameSent.halOk = s.halOk := by
  unfold State.frameSent; split <;> rfl
@[simp] theorem State.frameSent_hostQ (s : State) : s.frameSent.hostQ = s.hostQ := by
  unfold State.frameSent; split <;> rfl
@[simp] theorem State.frameSent_now (s : State) : s.frameSent.now = s.now := by
  unfold State.frameSent; split <;> rfl
@[simp] theorem State.frameSent_sched (s : State) : s.frameSent.sched = s.sched := by
  unfold State.frameSent; split <;> rfl
@[simp] theorem State.frameSent_freeCtr (s : State) : s.frameSent.freeCtr = s.freeCtr := by
  unfold State.frameSent; split <;> rfl
@[simp] theorem State.frameSent_trace (s : State) : s.frameSent.trace = s.trace := by
  unfold State.frameSent; split <;> rfl

/-! ## What `State.bodyNext` leaves alone -/

@[simp] theorem State.bodyNext_params (s : State) : s.bodyNext.params = s.params := by
  unfold State.bodyNext; repeat' (first | rfl | simp | split)
@[simp] theorem State.bodyNext_started (s : State) : s.bodyNext.started = s.started := by
  unfold State.bodyNext; repeat' (first | rfl | simp | split)
@[simp] theorem State.bodyNext_role (s : State) : s.bodyNext.role = s.role := by
  unfold State.bodyNext; repeat' (first | rfl | simp | split)
@[simp] theorem State.bodyNext_rxEnable (s : State) : s.bodyNext.rxEnable = s.rxEnable := by
  unfold State.bodyNext; repeat' (first | rfl | simp | split)
@[simp] theorem State.bodyNext_cbEnable (s : State) : s.bodyNext.cbEnable = s.cbEnable := by
  unfold State.bodyNext; repeat' (first | rfl | simp | split)
@[simp] theorem State.bodyNext_cbShadow (s : State) : s.bodyNext.cbShadow = s.cbShadow := by
  unfold State.bodyNext; repeat' (first | rfl | simp | split)
@[simp] theorem State.bodyNext_fault (s : State) : s.bodyNext.fault = s.fault := by
  unfold State.bodyNext; repeat' (first | rfl | simp | split)
@[simp] theorem State.bodyNext_newMessage (s : State) : s.bodyNext.newMessage = s.newMessage := by
  unfold State.bodyNext; repeat' (first | rfl | simp | split)
@[simp] theorem State.bodyNext_success (s : State) : s.bodyNext.success = s.success := by
  unfold State.bodyNext; repeat' (first | rfl | simp | split)
@[simp] theorem State.bodyNext_auxPending (s : State) : s.bodyNext.auxPending = s.auxPending := by
  unfold State.bodyNext; repeat' (first | rfl | simp | split)
@[simp] theorem State.bodyNext_auxPrev (s : State) : s.bodyNext.auxPrev = s.auxPrev := by
  unfold State.bodyNext; repeat' (first | rfl | simp | split)
@[simp] theorem State.bodyNext_sendResult (s : State) : s.bodyNext.sendResult = s.sendResult := by
  unfold State.bodyNext; repeat' (first | rfl | simp | split)
@[simp] theorem State.bodyNext_rxActive (s : State) : s.bodyNext.rxActive = s.rxActive := by
  unfold State.bodyNext; repeat' (first | rfl | simp | split)
@[simp] theorem State.bodyNext_rxCursor (s : State) : s.bodyNext.rxCursor = s.rxCursor := by
  unfold State.bodyNext; repeat' (first | rfl | simp | split)
@[simp] theorem State.bodyNext_byteCnt (s : State) : s.bodyNext.byteCnt = s.byteCnt := by
  unfold State.bodyNext; repeat' (first | rfl | simp | split)
@[simp] theorem State.bodyNext_cksAcc (s : State) : s.bodyNext.cksAcc = s.cksAcc := by
  unfold State.bodyNext; repeat' (first | rfl | simp | split)
@[simp] theorem State.bodyNext_txLen (s : State) : s.bodyNext.txLen = s.txLen := by
  unfold State.bodyNext; repeat' (first | rfl | simp | split)
@[simp] theorem State.bodyNext_attemptCnt (s : State) : s.bodyNext.attemptCnt = s.attemptCnt := by
  unfold State.bodyNext; repeat' (first | rfl | simp | split)
@[simp] theorem State.bodyNext_rxLen (s : State) : s.bodyNext.rxLen = s.rxLen := by
  unfold State.bodyNext; repeat' (first | rfl | simp | split)
@[simp] theorem State.bodyNext_rxCksField (s : State) : s.bodyNext.rxCksField = s.rxCksField := by
  unfold State.bodyNext; repeat' (first | rfl | simp | split)
@[simp] theorem State.bodyNext_stage (s : State) : s.bodyNext.stage = s.stage := by
  unfold State.bodyNext; repeat' (first | rfl | simp | split)
@[simp] theorem State.bodyNext_inbox (s : State) : s.bodyNext.inbox = s.inbox := by
  unfold State.bodyNext; repeat' (first | rfl | simp | split)
@[simp] theorem State.bodyNext_inboxSize (s : State) : s.bodyNext.inboxSize = s.inboxSize := by
  unfold State.bodyNext; repeat' (first | rfl | simp | split)
@[simp] theorem State.bodyNext_csOut (s : State) : s.bodyNext.csOut = s.csOut := by
  unfold State.bodyNext; repeat' (first | rfl | simp | split)
@[simp] theorem State.bodyNext_auxOut (s : State) : s.bodyNext.auxOut = s.auxOut := by
  unfold State.bodyNext; repeat' (first | rfl | simp | split)
@[simp] theorem State.bodyNext_rxPoint (s : State) : s.bodyNext.rxPoint = s.rxPoint := by
  unfold State.bodyNext; repeat' (first | rfl | simp | split)
@[simp] theorem State.bodyNext_outbox (s : State) : s.bodyNext.outbox = s.outbox := by
  unfold State.bodyNext; repeat' (first | rfl | simp | split)
@[simp] theorem State.bodyNext_auxIn (s : State) : s.bodyNext.auxIn = s.auxIn := by
  unfold State.bodyNext; repeat' (first | rfl | simp | split)
@[simp] theorem State.bodyNext_halOk (s : State) : s.bodyNext.halOk = s.halOk := by
  unfold State.bodyNext; repeat' (first | rfl | simp | split)
@[simp] theorem State.bodyNext_hostQ (s : State) : s.bodyNext.hostQ = s.hostQ := by
  unfold State.bodyNext; repeat' (first | rfl | simp | split)
@[simp] theorem State.bodyNext_now (s : State) : s.bodyNext.now = s.now := by
  unfold State.bodyNext; repeat' (first | rfl | simp | split)
@[simp] theorem State.bodyNext_sched (s : State) : s.bodyNext.sched = s.sched := by
  unfold State.bodyNext; repeat' (first | rfl | simp | split)
@[simp] theorem State.bodyNext_freeCtr (s : State) : s.bodyNext.freeCtr = s.freeCtr := by
  unfold State.bodyNext; repeat' (first | rfl | simp | split)
@[simp] theorem State.bodyNext_trace (s : State) : s.bodyNext.trace = s.trace := by
  unfold State.bodyNext; repeat' (first | rfl | simp | split)

/-! ## What `State.checkAux` leaves alone -/

@[simp] theorem State.checkAux_params (s : State) (p : RxPoint) : (s.checkAux p).params = s.params := by
  unfold State.checkAux; split <;> rfl
@[simp] theorem State.checkAux_started (s : State) (p : RxPoint) : (s.checkAux p).started = s.started := by
  unfold State.checkAux; split <;> rfl
@[simp] theorem State.checkAux_role (s : State) (p : RxPoint) : (s.checkAux p).role = s.role := by
  unfold State.checkAux; split <;> rfl
@[simp] theorem State.checkAux_rxEnable (s : State) (p : RxPoint) : (s.checkAux p).rxEnable = s.rxEnable := by
  unfold State.checkAux; split <;> rfl
@[simp] theorem State.checkAux_cbEnable (s : State) (p : RxPoint) : (s.checkAux p).cbEnable = s.cbEnable := by
  unfold State.checkAux; split <;> rfl
@[simp] theorem State.checkAux_cbShadow (s : State) (p : RxPoint) : (s.checkAux p).cbShadow = s.cbShadow := by
  unfold State.checkAux; split <;> rfl
@[simp] theorem State.checkAux_fault (s : State) (p : RxPoint) : (s.checkAux p).fault = s.fault := by
  unfold State.checkAux; split <;> rfl
@[simp] theorem State.checkAux_newMessage (s : State) (p : RxPoint) : (s.checkAux p).newMessage = s.newMessage := by
  unfold State.checkAux; split <;> rfl
@[simp] theorem State.checkAux_success (s : State) (p : RxPoint) : (s.checkAux p).success = s.success := by
  unfold State.checkAux; split <;> rfl
@[simp] theorem State.checkAux_auxPending (s : State) (p : RxPoint) : (s.checkAux p).auxPending = s.auxPending := by
  unfold State.checkAux; split <;> rfl
@[simp] theorem State.checkAux_auxPrev (s : State) (p : RxPoint) : (s.checkAux p).auxPrev = s.auxPrev := by
  unfold State.checkAux; split <;> rfl
@[simp] theorem State.checkAux_sendResult (s : State) (p : RxPoint) : (s.checkAux p).sendResult = s.sendResult := by
  unfold State.checkAux; split <;> rfl
@[simp] theorem State.checkAux_rxActive (s : State) (p : RxPoint) : (s.checkAux p).rxActive = s.rxActive := by
  unfold State.checkAux; split <;> rfl
@[simp] theorem State.checkAux_txState (s : State) (p : RxPoint) : (s.checkAux p).txState = s.txState := by
  unfold State.checkAux; split <;> rfl
@[simp] theorem State.checkAux_rxCursor (s : State) (p : RxPoint) : (s.checkAux p).rxCursor = s.rxCursor := by
  unfold State.checkAux; split <;> rfl
@[simp] theorem State.checkAux_byteCnt (s : State) (p : RxPoint) : (s.checkAux p).byteCnt = s.byteCnt := by
  unfold State.checkAux; split <;> rfl
@[simp] theorem State.checkAux_cksAcc (s : State) (p : RxPoint) : (s.checkAux p).cksAcc = s.cksAcc := by
  unfold State.checkAux; split <;> rfl
@[simp] theorem State.checkAux_txLen (s : State) (p : RxPoint) : (s.checkAux p).txLen = s.txLen := by
  unfold State.checkAux; split <;> rfl
@[simp] theorem State.checkAux_attemptCnt (s : State) (p : RxPoint) : (s.checkAux p).attemptCnt = s.attemptCnt := by
  unfold State.checkAux; split <;> rfl
@[simp] theorem State.checkAux_rxLen (s : State) (p : RxPoint) : (s.checkAux p).rxLen = s.rxLen := by
  unfold State.checkAux; split <;> rfl
@[simp] theorem State.checkAux_rxCksField (s : State) (p : RxPoint) : (s.checkAux p).rxCksField = s.rxCksField := by
  unfold State.checkAux; split <;> rfl
@[simp] theorem State.checkAux_stage (s : State) (p : RxPoint) : (s.checkAux p).stage = s.stage := by
  unfold State.checkAux; split <;> rfl
@[simp] theorem State.checkAux_inbox (s : State) (p : RxPoint) : (s.checkAux p).inbox = s.inbox := by
  unfold State.checkAux; split <;> rfl
@[simp] theorem State.checkAux_inboxSize (s : State) (p : RxPoint) : (s.checkAux p).inboxSize = s.inboxSize := by
  unfold State.checkAux; split <;> rfl
@[simp] theorem State.checkAux_csOut (s : State) (p : RxPoint) : (s.checkAux p).csOut = s.csOut := by
  unfold State.checkAux; split <;> rfl
@[simp] theorem State.checkAux_auxOut (s : State) (p : RxPoint) : (s.checkAux p).auxOut = s.auxOut := by
  unfold State.checkAux; split <;> rfl
@[simp] theorem State.checkAux_txPoint (s : State) (p : RxPoint) : (s.checkAux p).txPoint = s.txPoint := by
  unfold State.checkAux; split <;> rfl
@[simp] theorem State.checkAux_outbox (s : State) (p : RxPoint) : (s.checkAux p).outbox = s.outbox := by
  unfold State.checkAux; split <;> rfl
@[simp] theorem State.checkAux_auxIn (s : State) (p : RxPoint) : (s.checkAux p).auxIn = s.auxIn := by
  unfold State.checkAux; split <;> rfl
@[simp] theorem State.checkAux_halOk (s : State) (p : RxPoint) : (s.checkAux p).halOk = s.halOk := by
  unfold State.checkAux; split <;> rfl
@[simp] theorem State.checkAux_hostQ (s : State) (p : RxPoint) : (s.checkAux p).hostQ = s.hostQ := by
  unfold State.checkAux; split <;> rfl
@[simp] theorem State.checkAux_now (s : State) (p : RxPoint) : (s.checkAux p).now = s.now := by
  unfold State.checkAux; split <;> rfl
@[simp] theorem State.checkAux_sched (s : State) (p : RxPoint) : (s.checkAux p).sched = s.sched := by
  unfold State.checkAux; split <;> rfl
@[simp] theorem State.checkAux_freeCtr (s : State) (p : RxPoint) : (s.checkAux p).freeCtr = s.freeCtr := by
  unfold State.checkAux; split <;> rfl

/-! ## What `State.pullAgain` leaves alone -/

@[simp] theorem State.pullAgain_params (s : State) : s.pullAgain.params = s.params := by
  unfold State.pullAgain; split <;> rfl
@[simp] theorem State.pullAgain_started (s : State) : s.pullAgain.started = s.started := by
  unfold State.pullAgain; split <;> rfl
@[simp] theorem State.pullAgain_role (s : State) : s.pullAgain.role = s.role := by
  unfold State.pullAgain; split <;> rfl
@[simp] theorem State.pullAgain_rxEnable (s : State) : s.pullAgain.rxEnable = s.rxEnable := by
  unfold State.pullAgain; split <;> rfl
@[simp] theorem State.pullAgain_cbEnable (s : State) : s.pullAgain.cbEnable = s.cbEnable := by
  unfold State.pullAgain; split <;> rfl
@[simp] theorem State.pullAgain_cbShadow (s : State) : s.pullAgain.cbShadow = s.cbShadow := by
  unfold State.pullAgain; split <;> rfl
@[simp] theorem State.pullAgain_fault (s : State) : s.pullAgain.fault = s.fault := by
  unfold State.pullAgain; split <;> rfl
@[simp] theorem State.pullAgain_newMessage (s : State) : s.pullAgain.newMessage = s.newMessage := by
  unfold State.pullAgain; split <;> rfl
@[simp] theorem State.pullAgain_success (s : State) : s.pullAgain.success = s.success := by
  unfold State.pullAgain; split <;> rfl
@[simp] theorem State.pullAgain_auxPending (s : State) : s.pullAgain.auxPending = s.auxPending := by
  unfold State.pullAgain; split <;> rfl
@[simp] theorem State.pullAgain_auxPrev (s : State) : s.pullAgain.auxPrev = s.auxPrev := by
  unfold State.pullAgain; split <;> rfl
@[simp] theorem State.pullAgain_sendResult (s : State) : s.pullAgain.sendResult = s.sendResult := by
  unfold State.pullAgain; split <;> rfl
@[simp] theorem State.pullAgain_rxActive (s : State) : s.pullAgain.rxActive = s.rxActive := by
  unfold State.pullAgain; split <;> rfl
@[simp] theorem State.pullAgain_txState (s : State) : s.pullAgain.txState = s.txState := by
  unfold State.pullAgain; split <;> rfl
@[simp] theorem State.pullAgain_rxCursor (s : State) : s.pullAgain.rxCursor = s.rxCursor := by
  unfold State.pullAgain; split <;> rfl
@[simp] theorem State.pullAgain_byteCnt (s : State) : s.pullAgain.byteCnt = s.byteCnt := by
  unfold State.pullAgain; split <;> rfl
@[simp] theorem State.pullAgain_cksAcc (s : State) : s.pullAgain.cksAcc = s.cksAcc := by
  unfold State.pullAgain; split <;> rfl
@[simp] theorem State.pullAgain_txLen (s : State) : s.pullAgain.txLen = s.txLen := by
  unfold State.pullAgain; split <;> rfl
@[simp] theorem State.pullAgain_attemptCnt (s : State) : s.pullAgain.attemptCnt = s.attemptCnt := by
  unfold State.pullAgain; split <;> rfl
@[simp] theorem State.pullAgain_rxLen (s : State) : s.pullAgain.rxLen = s.rxLen := by
  unfold State.pullAgain; split <;> rfl
@[simp] theorem State.pullAgain_rxCksField (s : State) : s.pullAgain.rxCksField = s.rxCksField := by
  unfold State.pullAgain; split <;> rfl
@[simp] theorem State.pullAgain_stage (s : State) : s.pullAgain.stage = s.stage := by
  unfold State.pullAgain; split <;> rfl
@[simp] theorem State.pullAgain_inbox (s : State) : s.pullAgain.inbox = s.inbox := by
  unfold State.pullAgain; split <;> rfl
@[simp] theorem State.pullAgain_inboxSize (s : State) : s.pullAgain.inboxSize = s.inboxSize := by
  unfold State.pullAgain; split <;> rfl
@[simp] theorem State.pullAgain_csOut (s : State) : s.pullAgain.csOut = s.csOut := by
  unfold State.pullAgain; split <;> rfl
@[simp] theorem State.pullAgain_auxOut (s : State) : s.pullAgain.auxOut = s.auxOut := by
  unfold State.pullAgain; split <;> rfl
@[simp] theorem State.pullAgain_txPoint (s : State) : s.pullAgain.txPoint = s.txPoint := by
  unfold State.pullAgain; split <;> rfl
@[simp] theorem State.pullAgain_outbox (s : State) : s.pullAgain.outbox = s.outbox := by
  unfold State.pullAgain; split <;> rfl
@[simp] theorem State.pullAgain_auxIn (s : State) : s.pullAgain.auxIn = s.auxIn := by
  unfold State.pullAgain; split <;> rfl
@[simp] theorem State.pullAgain_halOk (s : State) : s.pullAgain.halOk = s.halOk := by
  unfold State.pullAgain; split <;> rfl
@[simp] theorem State.pullAgain_hostQ (s : State) : s.pullAgain.hostQ = s.hostQ := by
  unfold State.pullAgain; split <;> rfl
@[simp] theorem State.pullAgain_now (s : State) : s.pullAgain.now = s.now := by
  unfold State.pullAgain; split <;> rfl
@[simp] theorem State.pullAgain_sched (s : State) : s.pullAgain.sched = s.sched := by
  unfold State.pullAgain; split <;> rfl
@[simp] theorem State.pullAgain_freeCtr (s : State) : s.pullAgain.freeCtr = s.freeCtr := by
  unfold State.pullAgain; split <;> rfl
@[simp] theorem State.pullAgain_trace (s : State) : s.pullAgain.trace = s.trace := by
  unfold State.pullAgain; split <;> rfl

end Sys2Proof.Machine
end

