-- ==== Sys2Proof/Laws/Codec.lean ====
section
/-! SUPPORT. What the operations of the frame codec do, said once: the decoder step field by field,
the counter inside a payload, and the publication of a frame. -/

namespace Sys2Proof.Machine

/-! ## Sequencing -/

@[simp] theorem andThen_next {α β : Type} (a : α) (f : α → Result β) :
    andThen (.next a) f = f a := rfl

@[simp] theorem andThen_fault {α β : Type} (e : Fault) (f : α → Result β) :
    andThen (.fault e) f = .fault e := rfl

@[simp] theorem andThen_refused {α β : Type} (e : Refusal) (f : α → Result β) :
    andThen (.refused e) f = .refused e := rfl

/-- A sequence answers a next state exactly when both parts do. -/
theorem andThen_eq_next {α β : Type} {r : Result α} {f : α → Result β} {c : β} :
    andThen r f = .next c ↔ ∃ a, r = .next a ∧ f a = .next c := by
  cases r <;> simp

/-! ## The counter -/

/-- Below a length the counter counts, and no free value is used (R123). -/
theorem cntInc_of_lt (s : State) (n : Half) (h : s.byteCnt < n) :
    s.cntInc = { s with byteCnt := s.byteCnt + 1 } := by
  unfold State.cntInc
  rw [if_neg]
  intro h2
  rw [h2] at h
  bv_omega

/-- Away from its largest value the counter counts (R123). -/
theorem cntInc_of_ne (s : State) (h : s.byteCnt ≠ 0xFFFF#16) :
    s.cntInc = { s with byteCnt := s.byteCnt + 1 } := by
  unfold State.cntInc
  rw [if_neg h]

/-! ## `DEC_STEP`, field by field -/

theorem decTrailing_start (s : State) (b : Byte) (h : s.rxCursor = .start) :
    s.decTrailing b =
      if isMarker b then .next ({ s with rxCursor := .lenHi }, .none) else .next (s, .ignored) := by
  simp [State.decTrailing, h]

theorem decTrailing_lenHi (s : State) (b : Byte) (h : s.rxCursor = .lenHi) :
    s.decTrailing b = .next ({ s.setLenHi b with rxCursor := .lenLo }, .none) := by
  simp [State.decTrailing, h]

/-- The low length byte: over the limit the frame is rejected, otherwise the payload begins, or the
checksum when the length is 0 (R126). -/
theorem decTrailing_lenLo (s : State) (b : Byte) (h : s.rxCursor = .lenLo) :
    s.decTrailing b =
      if s.params.maxLen < (lenOf (lenHi s.rxLen) b).toNat then
        .next ({ s.setLenLo b with rxCursor := .start }, .lenRejected)
      else
        .next ({ s.setLenLo b with
          byteCnt := 0, cksAcc := 0
          rxCursor := if lenOf (lenHi s.rxLen) b = 0#16 then .checksum else .payload }, .none) := by
  by_cases hl : s.params.maxLen < (lenOf (lenHi s.rxLen) b).toNat <;>
    simp [State.decTrailing, h, State.takeLenLo, State.overLong, hl, State.cksClear, State.cntClear,
      State.setLenLo]

/-- A payload byte inside the length: stored, added, counted, and the cursor goes on after the last
one (R126). -/
theorem decTrailing_payload (s : State) (b : Byte) (h : s.rxCursor = .payload)
    (hc : s.byteCnt < s.rxLen) (hl : s.rxLen.toNat ≤ s.params.maxLen) :
    s.decTrailing b =
      .next ({ s with
        stage := s.stage.write s.byteCnt.toNat b
        cksAcc := s.cksAcc + b
        byteCnt := s.byteCnt + 1
        rxCursor := if s.byteCnt + 1 = s.rxLen then .checksum else .payload }, .none) := by
  have hm : s.byteCnt.toNat < s.params.maxLen := by bv_omega
  rw [State.decTrailing, h]
  simp only [State.takePayload, State.stageByte, hm, if_true, andThen_next]
  rw [cntInc_of_lt _ s.rxLen (by simpa using hc)]
  by_cases he : s.byteCnt + 1#16 = s.rxLen <;> simp [State.rxCounted, State.cksAdd, he, h]

theorem decTrailing_checksum (s : State) (b : Byte) (h : s.rxCursor = .checksum) :
    s.decTrailing b =
      .next ({ s with rxCksField := b, rxCursor := .start }, .frame (b == s.cksAcc)) := by
  simp [State.decTrailing, h, State.checksumOk]

theorem decLeading_start (s : State) (b : Byte) (h : s.rxCursor = .start) :
    s.decLeading b =
      if isMarker b then .next ({ s with rxCursor := .checksum }, .none)
      else .next (s, .ignored) := by
  simp [State.decLeading, h]

theorem decLeading_checksum (s : State) (b : Byte) (h : s.rxCursor = .checksum) :
    s.decLeading b = .next ({ s with rxCksField := b, rxCursor := .lenHi }, .none) := by
  simp [State.decLeading, h]

theorem decLeading_lenHi (s : State) (b : Byte) (h : s.rxCursor = .lenHi) :
    s.decLeading b = .next ({ s.setLenHi b with rxCursor := .lenLo }, .none) := by
  simp [State.decLeading, h]

/-- The low length byte of the legacy variant: a frame of length 0 ends with it (R127). -/
theorem decLeading_lenLo (s : State) (b : Byte) (h : s.rxCursor = .lenLo) :
    s.decLeading b =
      if s.params.maxLen < (lenOf (lenHi s.rxLen) b).toNat then
        .next ({ s.setLenLo b with rxCursor := .start }, .lenRejected)
      else if lenOf (lenHi s.rxLen) b = 0#16 then
        .next ({ s.setLenLo b with byteCnt := 0, cksAcc := 0, rxCursor := .start },
          .frame (s.rxCksField == 0x00#8))
      else
        .next ({ s.setLenLo b with byteCnt := 0, cksAcc := 0, rxCursor := .payload }, .none) := by
  by_cases hl : s.params.maxLen < (lenOf (lenHi s.rxLen) b).toNat <;>
    by_cases h0 : lenOf (lenHi s.rxLen) b = 0#16 <;>
    simp [State.decLeading, h, State.takeLenLo, State.overLong, hl, h0, State.cksClear,
      State.cntClear, State.setLenLo]

/-- A payload byte of the legacy variant: the last one ends the frame (R127). -/
theorem decLeading_payload (s : State) (b : Byte) (h : s.rxCursor = .payload)
    (hc : s.byteCnt < s.rxLen) (hl : s.rxLen.toNat ≤ s.params.maxLen) :
    s.decLeading b =
      if s.byteCnt + 1 = s.rxLen then
        .next ({ s with
          stage := s.stage.write s.byteCnt.toNat b
          cksAcc := s.cksAcc + b
          byteCnt := s.byteCnt + 1
          rxCursor := .start }, .frame (s.rxCksField == s.cksAcc + b))
      else
        .next ({ s with
          stage := s.stage.write s.byteCnt.toNat b
          cksAcc := s.cksAcc + b
          byteCnt := s.byteCnt + 1 }, .none) := by
  have hm : s.byteCnt.toNat < s.params.maxLen := by bv_omega
  rw [State.decLeading, h]
  simp only [State.takePayload, State.stageByte, hm, if_true, andThen_next]
  rw [cntInc_of_lt _ s.rxLen (by simpa using hc)]
  by_cases he : s.byteCnt + 1#16 = s.rxLen <;>
    simp [State.rxCounted, State.checksumOk, State.cksAdd, he, h]

/-! ## Publication -/

/-- A frame whose length the Inbox can hold is published whole (R131). -/
theorem commit_eq (s : State) (ok : Bool) (h : s.rxLen.toNat ≤ s.params.maxLen) :
    s.commit ok = .next { s with
      inboxSize := s.rxLen
      inbox := s.stage.below s.rxLen.toNat
      success := ok
      newMessage := true
      trace := .commit :: s.trace } := by
  rw [State.commit, if_neg]
  simp [State.overLong]
  omega

/-- The common end of a recognized frame, in one step (R180). -/
theorem complete_eq (s : State) (ok : Bool) (h : s.rxLen.toNat ≤ s.params.maxLen) :
    s.complete ok = .next { s with
      inboxSize := s.rxLen
      inbox := s.stage.below s.rxLen.toNat
      success := ok
      newMessage := true
      rxCursor := .start
      rxActive := false
      rxPoint := .idle
      trace := .outcome (if ok then .delivered else .checksumFail) ::
        ((if ok && s.cbShadow then [.callback] else []) ++ .commit :: s.trace) } := by
  rw [State.complete, commit_eq s ok h]
  cases ok <;> cases s.cbShadow <;>
    simp [State.announce, State.discard, State.leaveDispatcher, State.log, State.raise]

/-- Both operations stop on the same condition and no other (R41). -/
theorem complete_fault (s : State) (ok : Bool) (h : s.params.maxLen < s.rxLen.toNat) :
    s.complete ok = .fault .inboxRange := by
  simp [State.complete, State.commit, State.overLong, h]

end Sys2Proof.Machine
end

