-- ==== Sys2Proof/Laws/Decode.lean ====
section
/-! SUPPORT. The laws of the length field and of the frames' bytes: what the encoder writes, how long it
is, and that the receiver's assembly of the two length bytes undoes the sender's split. -/

namespace Sys2Proof

/-- The receiver's assembly of the length undoes the sender's split (R92). -/
theorem lenOf_lenHi_lenLo (n : Half) : lenOf (lenHi n) (lenLo n) = n := by
  apply BitVec.eq_of_getLsbD_eq
  intro i hi
  simp only [lenOf, lenHi, lenLo, BitVec.getLsbD_append, BitVec.getLsbD_extractLsb']
  by_cases h : i < 8
  · simp [h]
  · have h8 : i - 8 < 8 := by omega
    simp [h, h8]
    congr 1
    omega

/-- A payload that fits has its own length in the length field (R92). -/
theorem payloadLen_toNat (p : List Byte) (h : p.length ≤ 65535) :
    (payloadLen p).toNat = p.length := by
  simp only [payloadLen, BitVec.toNat_ofNat]
  omega

/-- A frame has four bytes besides the payload, in either field order (R95). -/
theorem frameBytes_length (pos : ChecksumPos) (p : List Byte) :
    (frameBytes pos p).length = p.length + 4 := by
  cases pos <;> simp [frameBytes]

/-- The checksum of one byte more. -/
theorem sum8_append_singleton (p : List Byte) (b : Byte) : sum8 (p ++ [b]) = sum8 p + b := by
  simp [sum8]

@[simp] theorem sum8_nil : sum8 [] = 0 := rfl

/-- The payload bytes split off are the first `n`, and the rest follows them. -/
theorem takePayload_of_le (n : Nat) (bs : List Byte) (h : n ≤ bs.length) :
    takePayload n bs = .ok (bs.take n, bs.drop n) := by
  simp [takePayload, Nat.not_lt.2 h]

theorem takePayload_append (p rest : List Byte) :
    takePayload p.length (p ++ rest) = .ok (p, rest) := by
  simp [takePayload]

end Sys2Proof
end

