-- ==== Sys2Proof/Laws/Move.lean ====
section
/-! SUPPORT. One primitive of each state machine, place by place, and the block's own step: what each
can answer, said once, so that no later proof unfolds a state machine. -/

namespace Sys2Proof.Machine

/-! ## The byte an exchange receives (R51, R52) -/

theorem busIn_byte (s : State) (b : Byte) (h : s.now.move = .byte b) : s.busIn = some b := by
  simp [State.busIn, h]

theorem busIn_quiet (s : State) (h : s.now.move = .quiet) : s.busIn = none := by
  simp [State.busIn, h]

/-- A Slave's exchange waits for the Master's clock. -/
theorem busIn_run_slave (s : State) (h : s.now.move = .run) (hr : s.role = .slave) :
    s.busIn = none := by
  simp [State.busIn, h, hr]

/-- A Master's exchange completes without a peer. -/
theorem busIn_run_master (s : State) (h : s.now.move = .run) (hr : s.role = .master) :
    s.busIn = some (Config.freeByte s.freeCtr) := by
  simp [State.busIn, h, hr]

/-! ## What the two send FSMs share -/

theorem fieldNext_start (s : State) :
    s.fieldNext .start = s.toField (match s.params.checksumPos with
      | .trailing => .lenHi | .leading => .checksum) := by
  unfold State.fieldNext
  cases s.params.checksumPos <;> rfl

theorem fieldNext_lenHi (s : State) : s.fieldNext .lenHi = s.toField .lenLo := by
  unfold State.fieldNext
  cases s.params.checksumPos <;> rfl

theorem fieldNext_lenLo (s : State) : s.fieldNext .lenLo = s.enterTransfer.bodyNext := by
  unfold State.fieldNext
  cases s.params.checksumPos <;> rfl

theorem fieldNext_payload (s : State) : s.fieldNext .payload = s.bodyNext := by
  unfold State.fieldNext
  cases s.params.checksumPos <;> rfl

theorem fieldNext_checksum (s : State) :
    s.fieldNext .checksum = (match s.params.checksumPos with
      | .trailing => s.frameSent | .leading => s.toField .lenHi) := by
  unfold State.fieldNext
  cases s.params.checksumPos <;> rfl

/-- The loop test before the last payload byte: another byte. -/
theorem bodyNext_of_lt (s : State) (h : s.byteCnt < s.txLen) :
    s.bodyNext = s.toField .payload := by
  unfold State.bodyNext
  rw [if_neg]
  simp only [State.txCounted, beq_iff_eq]
  intro he
  rw [he] at h
  bv_omega

/-- The loop test after the last payload byte. -/
theorem bodyNext_of_eq (s : State) (h : s.byteCnt = s.txLen) :
    s.bodyNext = (match s.params.checksumPos with
      | .trailing => s.toField .checksum | .leading => s.frameSent) := by
  have hc : s.txCounted = true := by simpa [State.txCounted] using h
  cases hp : s.params.checksumPos <;> simp [State.bodyNext, hc, hp]

/-- The last step of a send, written out (R142, R152). -/
theorem finishSend_eq (s : State) (ok : Bool) :
    s.finishSend ok = { s with
      sendResult := ok, rxEnable := true, txState := .idle, txPoint := .idle
      trace := .sendDone ok :: ((if ok then [] else [.outcome .sendFailed]) ++ s.trace) } := by
  cases ok <;> rfl

/-! ## `master_send_fsm`, place by place -/

theorem masterMove_sum (s : State) (h : s.txPoint = .sum) :
    s.masterMove = if s.txCounted then { s with txPoint := .select } else s.cksStep := by
  simp [State.masterMove, h]

theorem masterMove_select (s : State) (h : s.txPoint = .select) :
    s.masterMove = { s.csWrite true with txState := .framing }.toField .start := by
  simp [State.masterMove, h]

/-- An exchange of a field: held without a byte, otherwise the field is sent (R142). -/
theorem masterMove_send (s : State) (sel : Sel) (b : Byte) (h : s.txPoint = .send sel b) :
    s.masterMove = (match s.busIn with
      | none => s
      | some r => (s.exchanged b r).masterFieldSent sel b) := by
  cases hb : s.busIn <;> simp [State.masterMove, h, hb]

theorem masterMove_delay (s : State) (sel : Sel) (h : s.txPoint = .delay sel) :
    s.masterMove = (s.log (.delay .byte)).fieldNext sel := by
  simp [State.masterMove, h]

theorem masterMove_release (s : State) (h : s.txPoint = .release) :
    s.masterMove = { s.csWrite false with txState := .done, txPoint := .finish true } := by
  simp [State.masterMove, h]

theorem masterMove_finish (s : State) (ok : Bool) (h : s.txPoint = .finish ok) :
    s.masterMove = s.finishSend ok := by
  simp [State.masterMove, h]

/-- A place of the other FSM, or none: nothing happens. -/
theorem masterMove_other (s : State)
    (h : s.txPoint = .idle ∨ s.txPoint = .request ∨ s.txPoint = .ack ∨
      (∃ r, s.txPoint = .drop r) ∨ s.txPoint = .backoff) : s.masterMove = s := by
  rcases h with h | h | h | ⟨r, h⟩ | h <;> simp [State.masterMove, h]

/-! ## `slave_send_fsm`, place by place -/

theorem slaveMove_sum (s : State) (h : s.txPoint = .sum) :
    s.slaveMove = if s.txCounted then { s with txPoint := .request } else s.cksStep := by
  simp [State.slaveMove, h]

theorem slaveMove_request (s : State) (h : s.txPoint = .request) :
    s.slaveMove = s.beginAttempt := by
  simp [State.slaveMove, h]

/-- An exchange of a field: held until the Master clocks, otherwise the field is sent (R152, R158). -/
theorem slaveMove_send (s : State) (sel : Sel) (b : Byte) (h : s.txPoint = .send sel b) :
    s.slaveMove = (match s.busIn with
      | none => s
      | some r => (s.exchanged b r).slaveFieldSent sel) := by
  cases hb : s.busIn <;> simp [State.slaveMove, h, hb]

/-- The acknowledgement exchange (R155). -/
theorem slaveMove_ack (s : State) (h : s.txPoint = .ack) :
    s.slaveMove = (match s.busIn with
      | none => s
      | some r => { s.exchanged s.params.ackRequest r with txPoint := .drop r }) := by
  cases hb : s.busIn <;> simp [State.slaveMove, h, hb]

theorem slaveMove_drop (s : State) (r : Byte) (h : s.txPoint = .drop r) :
    s.slaveMove = s.endAttempt r := by
  simp [State.slaveMove, h]

theorem slaveMove_backoff (s : State) (h : s.txPoint = .backoff) :
    s.slaveMove = { s.log (.delay .backoff) with txState := .requesting, txPoint := .request } := by
  simp [State.slaveMove, h]

theorem slaveMove_finish (s : State) (ok : Bool) (h : s.txPoint = .finish ok) :
    s.slaveMove = s.finishSend ok := by
  simp [State.slaveMove, h]

/-- A place of the other FSM, or none: nothing happens. -/
theorem slaveMove_other (s : State)
    (h : s.txPoint = .idle ∨ s.txPoint = .select ∨ (∃ sel, s.txPoint = .delay sel) ∨
      s.txPoint = .release) : s.slaveMove = s := by
  rcases h with h | h | ⟨sel, h⟩ | h <;> simp [State.slaveMove, h]

/-! ## `receive_dispatcher_fsm`, place by place -/

theorem rxMove_idle (s : State) (h : s.rxPoint = .idle) : s.rxMove = .next s := by
  simp [State.rxMove, h]

theorem rxMove_first (s : State) (h : s.rxPoint = .first) :
    s.rxMove = (match s.busIn with
      | none => .next s
      | some b => (s.exchanged s.params.fill b).takeFirst b) := by
  cases hb : s.busIn <;> simp [State.rxMove, h, hb]

theorem rxMove_sample (s : State) (h : s.rxPoint = .sample) :
    s.rxMove = .next (s.checkAux .pull) := by
  simp [State.rxMove, h]

theorem rxMove_pull (s : State) (h : s.rxPoint = .pull) :
    s.rxMove = (match s.busIn with
      | none => .next s
      | some b => (s.exchanged s.params.fill b).takeByte b) := by
  cases hb : s.busIn <;> simp [State.rxMove, h, hb]

theorem rxMove_ackSample (s : State) (ok : Bool) (h : s.rxPoint = .ackSample ok) :
    s.rxMove = .next (s.checkAux (.ackPull ok)) := by
  simp [State.rxMove, h]

theorem rxMove_ackPull (s : State) (ok : Bool) (h : s.rxPoint = .ackPull ok) :
    s.rxMove = (match s.busIn with
      | none => .next s
      | some b => .next ((s.exchanged (s.ackAnswer ok) b).toRelease (.complete ok))) := by
  cases hb : s.busIn <;> simp [State.rxMove, h, hb]

theorem rxMove_release (s : State) (how : RxEnd) (h : s.rxPoint = .release how) :
    s.rxMove = .next { s.csWrite false with rxPoint := .finish how } := by
  simp [State.rxMove, h]

theorem rxMove_finish (s : State) (how : RxEnd) (h : s.rxPoint = .finish how) :
    s.rxMove = s.endOperation how := by
  simp [State.rxMove, h]

/-- The end of a frame's bytes: the acknowledgement exchange is next, or `Complete` (R173, R177). -/
theorem frameEnded_master (s : State) (ok : Bool) (h : s.role = .master) :
    s.frameEnded ok = { s with rxCursor := .ack, rxPoint := .ackSample ok } := by
  simp [State.frameEnded, h]

theorem frameEnded_slave (s : State) (ok : Bool) (h : s.role = .slave) :
    s.frameEnded ok = { s with rxPoint := .finish (.complete ok) } := by
  simp [State.frameEnded, h]

/-- A Slave is about to publish exactly at the end of its operation. -/
theorem publishing_iff (s : State) :
    s.publishing = true ↔
      s.rxActive = true ∧ s.role = .slave ∧ ∃ ok, s.rxPoint = .finish (.complete ok) := by
  unfold State.publishing
  cases hp : s.rxPoint with
  | finish how => cases how <;> simp [RxEnd.isComplete]
  | _ => simp

/-- A Slave that has no frame to publish meets the byte as it is. -/
theorem readyForByte_of_not (s : State) (h : s.publishing = false) : s.readyForByte = .next s := by
  simp [State.readyForByte, h]

/-- One that has publishes it first (R180, R265). -/
theorem readyForByte_of_complete (s : State) (ok : Bool) (ha : s.rxActive = true)
    (hr : s.role = .slave) (hp : s.rxPoint = .finish (.complete ok)) :
    s.readyForByte = s.complete ok := by
  rw [State.readyForByte, if_pos ((publishing_iff s).2 ⟨ha, hr, ok, hp⟩), rxMove_finish s _ hp]
  rfl

/-- An abort check keeps the operation going while the line is asserted (R178). -/
theorem checkAux_of_high (s : State) (p : RxPoint) (h : s.auxIn = true) :
    s.checkAux p = { s with rxPoint := p, trace := .auxRead true :: s.trace } := by
  simp [State.checkAux, h, State.auxSampled, State.log]

/-- An abort check that finds the line released takes the abort path (R178). -/
theorem checkAux_of_low (s : State) (p : RxPoint) (h : s.auxIn = false) :
    s.checkAux p = { s with rxPoint := .release .aborted, trace := .auxRead false :: s.trace } := by
  simp [State.checkAux, h, State.auxSampled, State.log, State.toRelease]

/-! ## The block's own step -/

theorem activeMove_of_idle (s : State) (h : s.txState = .idle) : s.activeMove = s.rxMove := by
  simp [State.activeMove, State.txBusy, h]

theorem activeMove_of_busy (s : State) (h : s.txState ≠ .idle) :
    s.activeMove = .next s.txMove := by
  simp [State.activeMove, State.txBusy, h]

/-- Everything the block's own step can do: rest, go on with the operation in progress, serve the
latched edge, or meet a byte no exchange is outstanding for. -/
theorem blockMove_cases (s : State) :
    (s.now.move = .quiet ∧ s.blockMove = .next s) ∨
    (s.now.move = .run ∧ s.busy = true ∧ s.blockMove = s.activeMove) ∨
    (s.now.move = .run ∧ s.busy = false ∧ s.blockMove = execRxm s) ∨
    (∃ b, s.now.move = .byte b ∧ s.exchangeRequest ≠ none ∧ s.blockMove = s.activeMove) ∨
    (∃ b, s.now.move = .byte b ∧ s.exchangeRequest = none ∧
      s.blockMove = andThen s.readyForByte (execRxs b)) := by
  unfold State.blockMove
  cases hm : s.now.move with
  | quiet => simp
  | run => cases hb : s.busy <;> simp
  | byte b => cases he : s.exchangeRequest <;> simp

end Sys2Proof.Machine
end

