-- ==== Sys2Proof/Laws/Step.lean ====
section
/-! SUPPORT. What a command does when it is not accepted or the endpoint has failed, which item a step
takes from the host's thread, and the two forms a step has. -/

namespace Sys2Proof.Machine

/-! ## Commands -/

/-- Everything the shared frame of a command can do: wait, be ignored by a failed endpoint, or have its
effect (R200, R211). -/
theorem plainCommand_cases (s : State) (i : Instr) (f : State → State) :
    (s.txState ≠ .idle ∧ s.plainCommand i f = s.holdCommand i) ∨
    (s.txState = .idle ∧ s.fault = true ∧ s.plainCommand i f = s.done false) ∨
    (s.txState = .idle ∧ s.fault = false ∧ s.plainCommand i f = f s) := by
  unfold State.plainCommand State.acceptsPlain State.txBusy
  by_cases ht : s.txState = .idle <;> cases hf : s.fault <;> simp [ht]

theorem plainCommand_of_idle (s : State) (i : Instr) (f : State → State) (ht : s.txState = .idle)
    (hf : s.fault = false) : s.plainCommand i f = f s := by
  simp [State.plainCommand, State.acceptsPlain, State.txBusy, ht, hf]

theorem plainCommand_of_fault (s : State) (i : Instr) (f : State → State) (ht : s.txState = .idle)
    (hf : s.fault = true) : s.plainCommand i f = s.done false := by
  simp [State.plainCommand, State.acceptsPlain, State.txBusy, ht, hf]

/-- An accepted `SEND` finds the block idle and no trigger ready (R200). -/
theorem acceptsSend_iff (s : State) :
    s.acceptsSend = true ↔ s.txState = .idle ∧ s.rxActive = false ∧ s.triggerReady = false := by
  simp [State.acceptsSend, State.txBusy, and_assoc]

theorem canSend_iff (s : State) : s.canSend = true ↔ s.fault = false ∧ s.started = true := by
  simp [State.canSend]

/-! ## The item a step takes -/

/-- A step takes the item at the head of the host's thread if it can go on, and nothing else. -/
theorem fetch_eq_some {s u : State} {i : Instr} :
    s.fetch = some (i, u) ↔
      ∃ h q, s.hostQ = h :: q ∧ s.accepts h = true ∧ i = hostInstr h ∧ u = { s with hostQ := q } := by
  unfold State.fetch
  cases hq : s.hostQ with
  | nil => simp
  | cons h q =>
    by_cases ha : s.accepts h = true
    · simp only [ha, if_true, Option.some.injEq, Prod.mk.injEq]
      constructor
      · rintro ⟨rfl, rfl⟩
        exact ⟨h, q, rfl, ha, rfl, rfl⟩
      · rintro ⟨h', q', he, -, rfl, rfl⟩
        simp only [List.cons.injEq] at he
        rw [he.1, he.2]
        exact ⟨rfl, rfl⟩
    · simp only [if_neg ha]
      constructor
      · intro h'
        cases h'
      · rintro ⟨h', q', he, ha', -, -⟩
        simp only [List.cons.injEq] at he
        exact absurd (he.1 ▸ ha') ha

theorem fetch_nil (s : State) (h : s.hostQ = []) : s.fetch = none := by
  simp [State.fetch, h]

/-- The operation of a host's item is a host command or one of the two sequences. -/
theorem hostInstr_cases (h : HostItem) :
    hostInstr h = .reserved000 ∨ (∃ r cb, hostInstr h = .start r cb) ∨ hostInstr h = .stop ∨
    (∃ len, hostInstr h = .send len) ∨ hostInstr h = .attach ∨ hostInstr h = .detach ∨
    hostInstr h = .clrnew ∨ hostInstr h = .reserved111 ∨ hostInstr h = .recv ∨
    hostInstr h = .waitNew := by
  cases h with
  | recv => simp [hostInstr]
  | waitNew => simp [hostInstr]
  | cmd c =>
    simp only [hostInstr, decodeCmd]
    repeat' split
    all_goals simp

/-! ## One step -/

theorem latch_cons (s : State) (t : Turn) (ts : List Turn) (h : s.sched = t :: ts) :
    s.latch = { s with sched := ts }.sense t := by
  simp [State.latch, h]

theorem latch_nil (s : State) (h : s.sched = []) : s.latch = s.sense s.defaultTurn := by
  simp [State.latch, h]

/-- A step in which reset is asserted is reset (R260). -/
theorem step_of_rst (s : State) (h : s.latch.now.rst = true) :
    step s = .next s.latch.hardReset.auxPhase := by
  simp [step, State.oneStep, h]

/-- Any other step serves the host and the block, and the aux line's part comes last (R230). -/
theorem step_of_not_rst (s : State) (h : s.latch.now.rst = false) :
    step s = andThen s.latch.serve fun u => .next u.auxPhase := by
  simp [step, State.oneStep, h]

/-- Without an acceptable item the host's part of a step does nothing. -/
theorem hostPart_of_none (s : State) (h : s.fetch = none) : s.hostPart = .next s := by
  simp [State.hostPart, h]

/-- With one it is the item's operation. -/
theorem hostPart_of_some (s u : State) (i : Instr) (h : s.fetch = some (i, u)) :
    s.hostPart = exec i u := by
  simp [State.hostPart, h]

/-- The block moves in every step in which no send begins. -/
theorem moveAfter_of_busy (s t : State) (h : s.txState ≠ .idle) : s.moveAfter t = t.blockMove := by
  simp [State.moveAfter, h]

theorem moveAfter_of_idle (s t : State) (h : t.txState = .idle) : s.moveAfter t = t.blockMove := by
  simp [State.moveAfter, h]

theorem moveAfter_self (s : State) : s.moveAfter s = s.blockMove := by
  by_cases h : s.txState = .idle
  · exact moveAfter_of_idle s s h
  · exact moveAfter_of_busy s s h

/-- A send that has begun in this step waits for the next. -/
theorem moveAfter_of_begun (s t : State) (h : s.txState = .idle) (ht : t.txState ≠ .idle) :
    s.moveAfter t = .next t := by
  simp [State.moveAfter, h, ht]

/-- Everything a step that answers a next state can have done: reset, or the block's own move, or an
accepted item and then, unless a send began in it, the block's own move. -/
theorem step_cases {s t : State} (h : step s = .next t) :
    (s.latch.now.rst = true ∧ t = s.latch.hardReset.auxPhase) ∨
    (s.latch.now.rst = false ∧ s.latch.fetch = none ∧
      ∃ u, s.latch.blockMove = .next u ∧ t = u.auxPhase) ∨
    (s.latch.now.rst = false ∧ ∃ i v w, s.latch.fetch = some (i, v) ∧ exec i v = .next w ∧
      ((s.latch.txState = .idle ∧ w.txState ≠ .idle ∧ t = w.auxPhase) ∨
        ((s.latch.txState ≠ .idle ∨ w.txState = .idle) ∧
          ∃ u, w.blockMove = .next u ∧ t = u.auxPhase))) := by
  cases hr : s.latch.now.rst with
  | true =>
    rw [step_of_rst s hr] at h
    cases h
    exact .inl ⟨rfl, rfl⟩
  | false =>
    rw [step_of_not_rst s hr] at h
    obtain ⟨u, hu, he⟩ := andThen_eq_next.1 h
    cases he
    obtain ⟨w, hw, hm⟩ := andThen_eq_next.1 hu
    cases hf : s.latch.fetch with
    | none =>
      rw [hostPart_of_none _ hf] at hw
      cases hw
      rw [moveAfter_self] at hm
      exact .inr (.inl ⟨rfl, rfl, u, hm, rfl⟩)
    | some iv =>
      rw [hostPart_of_some _ iv.2 iv.1 hf] at hw
      refine .inr (.inr ⟨rfl, iv.1, iv.2, w, rfl, hw, ?_⟩)
      by_cases hb : s.latch.txState = .idle ∧ w.txState ≠ .idle
      · rw [moveAfter_of_begun _ _ hb.1 hb.2] at hm
        cases hm
        exact .inl ⟨hb.1, hb.2, rfl⟩
      · rw [State.moveAfter, if_neg hb] at hm
        refine .inr ⟨?_, u, hm, rfl⟩
        by_cases hi : s.latch.txState = .idle
        · exact .inr (by_contra fun hw' => hb ⟨hi, hw'⟩)
        · exact .inl hi

/-- The aux line's part of a step: nothing, or the line takes a level (R28, R53). -/
theorem auxPhase_cases (s : State) :
    (s.now.aux = none ∧ s.auxPhase = s) ∨ ∃ v, s.now.aux = some v ∧ s.auxPhase = s.auxChange v := by
  unfold State.auxPhase
  cases s.now.aux <;> simp

end Sys2Proof.Machine
end

