-- ==== Sys2Proof/Laws/Link.lean ====
section
/-! SUPPORT. The link: the exchange an endpoint is at in a step, the aux line, and one step of the link
agent by agent, each said once. -/

namespace Sys2Proof.Machine

/-! ## The exchange of a step (R85, R241) -/

/-- The input signals of a step do not touch the exchange the block is at. -/
@[simp] theorem exchangeRequest_sense (s : State) (t : Turn) :
    (s.sense t).exchangeRequest = s.exchangeRequest := rfl

/-- Without an acceptable command it is the exchange the block is at. -/
theorem requestUnder_of_none (s : State) (t : Turn) (h : (s.sense t).fetch = none) :
    s.requestUnder t = s.exchangeRequest := by
  simp [State.requestUnder, hostPart_of_none _ h]

/-- With a host that does nothing, whatever crosses the bus. -/
theorem requestUnder_of_idle_host (s : State) (t : Turn) (hq : s.hostQ = []) (ht : t.offer = none) :
    s.requestUnder t = s.exchangeRequest := by
  apply requestUnder_of_none
  apply fetch_nil
  simp [State.sense, Turn.hostAfter, hq, ht]

/-- With an accepted command it is the exchange the command leaves. -/
theorem requestUnder_of_some (s u v : State) (t : Turn) (i : Instr)
    (h : (s.sense t).fetch = some (i, u)) (hv : exec i u = .next v) :
    s.requestUnder t = v.exchangeRequest := by
  simp [State.requestUnder, hostPart_of_some _ u i h, hv]

/-! ## The aux line (R53, R241) -/

theorem drivesAux_iff (s : State) :
    s.drivesAux = true ↔ s.started = true ∧ s.role = .slave := by
  simp [State.drivesAux]

/-- Whoever follows the line, it takes the level (R53). -/
@[simp] theorem auxChange_auxIn (s : State) (v : Bool) : (s.auxChange v).auxIn = v := by
  unfold State.auxChange
  split <;> rfl

@[simp] theorem setAux_auxIn (l : Link) (v : Bool) : (l.setAux v).master.auxIn = v := by
  unfold Link.setAux
  split
  · rename_i h
    simpa using h
  · simp

@[simp] theorem setAux_slave (l : Link) (v : Bool) : (l.setAux v).slave = l.slave := by
  unfold Link.setAux
  split <;> rfl

@[simp] theorem setAux_sched (l : Link) (v : Bool) : (l.setAux v).sched = l.sched := by
  unfold Link.setAux
  split <;> rfl

@[simp] theorem setAux_trace (l : Link) (v : Bool) :
    (l.setAux v).master.trace = l.master.trace := by
  unfold Link.setAux
  split <;> simp

@[simp] theorem wire_slave (l k : Link) : (l.wire k).slave = k.slave := by
  unfold Link.wire
  split <;> simp

@[simp] theorem wire_sched (l k : Link) : (l.wire k).sched = k.sched := by
  unfold Link.wire
  split <;> simp

@[simp] theorem wire_trace (l k : Link) : (l.wire k).master.trace = k.master.trace := by
  unfold Link.wire
  split <;> simp

/-- What a Slave drives after the step, or drove before it, reaches the Master. -/
theorem wire_auxIn_of_drives (l k : Link)
    (h : l.slave.drivesAux = true ∨ k.slave.drivesAux = true) :
    (l.wire k).master.auxIn = k.slave.auxOut := by
  unfold Link.wire
  rw [if_pos (by simpa using h), setAux_auxIn]

/-- While no started Slave drives it the line keeps its level (U19). -/
theorem wire_of_not_drives (l k : Link) (hl : l.slave.drivesAux = false)
    (hk : k.slave.drivesAux = false) : l.wire k = k := by
  simp [Link.wire, hl, hk]

/-! ## One step of the link (R240, R241) -/

/-- A Master at an exchange: both endpoints step, each under the other's byte. -/
theorem masterTurn_of_some (l : Link) (m a b : Byte) (h : l.master.requestUnder Turn.run = some m) :
    l.masterTurn a b =
      l.both (l.towardsMaster (Turn.byte (m ^^^ a)) b) (Turn.byte (m ^^^ a)) := by
  simp [Link.masterTurn, h, Link.rendezvous]

/-- A Master at none: its block moves alone. -/
theorem masterTurn_of_none (l : Link) (a b : Byte) (h : l.master.requestUnder Turn.run = none) :
    l.masterTurn a b = l.onlyMaster Turn.run := by
  simp [Link.masterTurn, h]

/-- The byte of a Slave held in an exchange, as the wire leaves it. -/
theorem towardsMaster_of_some (l : Link) (ts : Turn) (b c : Byte)
    (h : l.slave.requestUnder ts = some c) : l.towardsMaster ts b = Turn.byte (c ^^^ b) := by
  simp [Link.towardsMaster, h]

/-- No byte from any other Slave (U3, U4). -/
theorem towardsMaster_of_none (l : Link) (ts : Turn) (b : Byte)
    (h : l.slave.requestUnder ts = none) : l.towardsMaster ts b = Turn.run := by
  simp [Link.towardsMaster, h]

/-- Both endpoints step, and nothing else of the link changes. -/
theorem both_eq_next (l k : Link) (tm ts : Turn) :
    l.both tm ts = .next k ↔
      ∃ m s, l.master.stepWith tm = .next m ∧ l.slave.stepWith ts = .next s ∧
        k = { l with master := m, slave := s } := by
  unfold Link.both
  constructor
  · intro h
    obtain ⟨m, hm, h⟩ := andThen_eq_next.1 h
    obtain ⟨s, hs, h⟩ := andThen_eq_next.1 h
    cases h
    exact ⟨m, s, hm, hs, rfl⟩
  · rintro ⟨m, s, hm, hs, rfl⟩
    simp [hm, hs]

theorem onlyMaster_eq_next (l k : Link) (t : Turn) :
    l.onlyMaster t = .next k ↔
      ∃ m, l.master.stepWith t = .next m ∧ k = { l with master := m } := by
  unfold Link.onlyMaster
  constructor
  · intro h
    obtain ⟨m, hm, h⟩ := andThen_eq_next.1 h
    cases h
    exact ⟨m, hm, rfl⟩
  · rintro ⟨m, hm, rfl⟩
    simp [hm]

theorem onlySlave_eq_next (l k : Link) (t : Turn) :
    l.onlySlave t = .next k ↔
      ∃ s, l.slave.stepWith t = .next s ∧ k = { l with slave := s } := by
  unfold Link.onlySlave
  constructor
  · intro h
    obtain ⟨s, hs, h⟩ := andThen_eq_next.1 h
    cases h
    exact ⟨s, hs, rfl⟩
  · rintro ⟨s, hs, rfl⟩
    simp [hs]

end Sys2Proof.Machine
end

