-- ==== Sys2Proof/Laws/PerInstr.lean ====
section
/-! SUPPORT. The law stated per operation: how many bytes its encoding has (rules R90, R95, R96, R97,
R99, R103), one lemma for each constructor. -/

/-- The number of bytes of an encoding: three for a command, one for a symbol or a trigger byte, four
besides the payload for a frame and for the Master's half of a transaction, five for the Slave's half
(R95, R97, R103); none for what has no encoding. -/
def Sys2Proof.Laws.EncodedLength.bytes : Sys2Proof.Instr → Nat
  | .reserved000 => 3
  | .start _ _ => 3
  | .stop => 3
  | .send _ => 3
  | .attach => 3
  | .detach => 3
  | .clrnew => 3
  | .reserved111 => 3
  | .msend _ => 3
  | .ssend _ => 3
  | .rxs _ => 1
  | .rxm => 0
  | .recv => 0
  | .waitNew => 0
  | .frameTrailing payload => payload.length + 4
  | .frameLeading payload => payload.length + 4
  | .xactMs payload => payload.length + 4
  | .xactSm payload => payload.length + 5
  | .startMarker => 1
  | .ackSentinel => 1
  | .ackRequestByte => 1
  | .fillByte => 1
  | .cksClear => 0
  | .cksAdd _ => 0
  | .cksBlock _ => 0
  | .cntClear => 0
  | .cntInc => 0
  | .encode _ => 0
  | .encByte _ => 0
  | .decStep _ => 0
  | .decStepLeading _ => 0
  | .decode _ => 0
  | .commit _ => 0
  | .discard => 0
  | .complete _ => 0

/-- An encoded operation has the number of bytes its row gives. -/
def Sys2Proof.Laws.EncodedLength.Statement (i : Sys2Proof.Instr) : Prop :=
  ∀ (prm : Sys2Proof.Params) (port : Sys2Proof.Port) (bs : List Sys2Proof.Byte),
    Sys2Proof.encode prm i = some (port, bs) → bs.length = Sys2Proof.Laws.EncodedLength.bytes i

namespace Sys2Proof.Laws

/-- From the bytes that stand in the encoder to the statement. -/
theorem EncodedLength.of_bytes {i : Instr}
    (h : ∀ prm, (encode prm i).all fun pb => pb.2.length = EncodedLength.bytes i) :
    EncodedLength.Statement i := by
  intro prm port bs he
  have := h prm
  rw [he] at this
  simpa using this

theorem EncodedLength.reserved000 :
    EncodedLength.Statement .reserved000 := EncodedLength.of_bytes fun _ => rfl

theorem EncodedLength.start (role : Role) (cb : Bool) :
    EncodedLength.Statement (.start role cb) := EncodedLength.of_bytes fun _ => rfl

theorem EncodedLength.stop :
    EncodedLength.Statement .stop := EncodedLength.of_bytes fun _ => rfl

theorem EncodedLength.send (len : Half) :
    EncodedLength.Statement (.send len) := EncodedLength.of_bytes fun _ => rfl

theorem EncodedLength.attach :
    EncodedLength.Statement .attach := EncodedLength.of_bytes fun _ => rfl

theorem EncodedLength.detach :
    EncodedLength.Statement .detach := EncodedLength.of_bytes fun _ => rfl

theorem EncodedLength.clrnew :
    EncodedLength.Statement .clrnew := EncodedLength.of_bytes fun _ => rfl

theorem EncodedLength.reserved111 :
    EncodedLength.Statement .reserved111 := EncodedLength.of_bytes fun _ => rfl

theorem EncodedLength.msend (len : Half) :
    EncodedLength.Statement (.msend len) := EncodedLength.of_bytes fun _ => rfl

theorem EncodedLength.ssend (len : Half) :
    EncodedLength.Statement (.ssend len) := EncodedLength.of_bytes fun _ => rfl

theorem EncodedLength.rxs (b0 : Byte) :
    EncodedLength.Statement (.rxs b0) := EncodedLength.of_bytes fun _ => rfl

theorem EncodedLength.rxm :
    EncodedLength.Statement .rxm := EncodedLength.of_bytes fun _ => rfl

theorem EncodedLength.recv :
    EncodedLength.Statement .recv := EncodedLength.of_bytes fun _ => rfl

theorem EncodedLength.waitNew :
    EncodedLength.Statement .waitNew := EncodedLength.of_bytes fun _ => rfl

theorem EncodedLength.frameTrailing (payload : List Byte) :
    EncodedLength.Statement (.frameTrailing payload) := by
  apply EncodedLength.of_bytes
  intro prm
  simp [encode, frameBytes_length, EncodedLength.bytes]

theorem EncodedLength.frameLeading (payload : List Byte) :
    EncodedLength.Statement (.frameLeading payload) := by
  apply EncodedLength.of_bytes
  intro prm
  simp [encode, frameBytes_length, EncodedLength.bytes]

theorem EncodedLength.xactMs (payload : List Byte) :
    EncodedLength.Statement (.xactMs payload) := by
  apply EncodedLength.of_bytes
  intro prm
  simp [encode, frameBytes_length, EncodedLength.bytes]

theorem EncodedLength.xactSm (payload : List Byte) :
    EncodedLength.Statement (.xactSm payload) := by
  apply EncodedLength.of_bytes
  intro prm
  simp [encode, frameBytes_length, EncodedLength.bytes]

theorem EncodedLength.startMarker :
    EncodedLength.Statement .startMarker := EncodedLength.of_bytes fun _ => rfl

theorem EncodedLength.ackSentinel :
    EncodedLength.Statement .ackSentinel := EncodedLength.of_bytes fun _ => rfl

theorem EncodedLength.ackRequestByte :
    EncodedLength.Statement .ackRequestByte := EncodedLength.of_bytes fun _ => rfl

theorem EncodedLength.fillByte :
    EncodedLength.Statement .fillByte := EncodedLength.of_bytes fun _ => rfl

theorem EncodedLength.cksClear :
    EncodedLength.Statement .cksClear := EncodedLength.of_bytes fun _ => rfl

theorem EncodedLength.cksAdd (b : Byte) :
    EncodedLength.Statement (.cksAdd b) := EncodedLength.of_bytes fun _ => rfl

theorem EncodedLength.cksBlock (len : Half) :
    EncodedLength.Statement (.cksBlock len) := EncodedLength.of_bytes fun _ => rfl

theorem EncodedLength.cntClear :
    EncodedLength.Statement .cntClear := EncodedLength.of_bytes fun _ => rfl

theorem EncodedLength.cntInc :
    EncodedLength.Statement .cntInc := EncodedLength.of_bytes fun _ => rfl

theorem EncodedLength.encode (payload : List Byte) :
    EncodedLength.Statement (.encode payload) := EncodedLength.of_bytes fun _ => rfl

theorem EncodedLength.encByte (sel : Sel) :
    EncodedLength.Statement (.encByte sel) := EncodedLength.of_bytes fun _ => rfl

theorem EncodedLength.decStep (b : Byte) :
    EncodedLength.Statement (.decStep b) := EncodedLength.of_bytes fun _ => rfl

theorem EncodedLength.decStepLeading (b : Byte) :
    EncodedLength.Statement (.decStepLeading b) := EncodedLength.of_bytes fun _ => rfl

theorem EncodedLength.decode (wire : List Byte) :
    EncodedLength.Statement (.decode wire) := EncodedLength.of_bytes fun _ => rfl

theorem EncodedLength.commit (ok : Bool) :
    EncodedLength.Statement (.commit ok) := EncodedLength.of_bytes fun _ => rfl

theorem EncodedLength.discard :
    EncodedLength.Statement .discard := EncodedLength.of_bytes fun _ => rfl

theorem EncodedLength.complete (ok : Bool) :
    EncodedLength.Statement (.complete ok) := EncodedLength.of_bytes fun _ => rfl

end Sys2Proof.Laws
end

