-- ==== Sys2Proof/Laws/Run.lean ====
section
/-! SUPPORT. The loops: several steps under given input signals, the loop of `CKS_BLOCK`, the loop of
`DECODE`, and the cell a payload byte goes to, each said once. -/

namespace Sys2Proof.Machine

/-- Sequencing is associative. -/
theorem andThen_assoc {α β γ : Type} (r : Result α) (f : α → Result β) (g : β → Result γ) :
    andThen (andThen r f) g = andThen r fun a => andThen (f a) g := by
  cases r <;> rfl

/-! ## Several steps -/

@[simp] theorem runTurns_nil (s : State) : State.runTurns [] s = .next s := rfl

/-- The first step under its signals, the aux line's part last, then the others. -/
theorem runTurns_cons (t : Turn) (ts : List Turn) (s : State) :
    State.runTurns (t :: ts) s =
      andThen { s with now := t }.blockMove fun u => State.runTurns ts u.auxPhase := rfl

/-- A run may be cut anywhere. -/
theorem runTurns_append (ts us : List Turn) (s : State) :
    State.runTurns (ts ++ us) s = andThen (State.runTurns ts s) (State.runTurns us) := by
  induction ts generalizing s with
  | nil => rfl
  | cons t ts ih =>
    simp only [List.cons_append, runTurns_cons, andThen_assoc]
    cases { s with now := t }.blockMove with
    | next u => simp only [andThen_next, ih]
    | fault e => rfl
    | refused e => rfl

/-- A step in which the aux line keeps its level ends with the block's own move. -/
theorem runTurns_cons_of_move (t : Turn) (ts : List Turn) (s u : State)
    (hm : { s with now := t }.blockMove = .next u) (ha : u.now.aux = none) :
    State.runTurns (t :: ts) s = State.runTurns ts u := by
  rw [runTurns_cons, hm, andThen_next]
  simp [State.auxPhase, ha]

/-! ## `CKS_BLOCK` -/

/-- The loop ends when the counter equals the length (R122). -/
theorem cksLoop_of_eq (len : Half) (n : Nat) (s : State) (h : s.byteCnt = len) :
    State.cksLoop len n s = s := by
  cases n <;> simp [State.cksLoop, h]

/-- Before that it adds one Outbox byte (R122). -/
theorem cksLoop_of_ne (len : Half) (n : Nat) (s : State) (h : s.byteCnt ≠ len) :
    State.cksLoop len (n + 1) s = State.cksLoop len n s.cksStep := by
  simp [State.cksLoop, h]

/-- One turn of the loop below the length: an Outbox byte added and counted. -/
theorem cksStep_of_lt (s : State) (len : Half) (h : s.byteCnt < len) :
    s.cksStep = { s with cksAcc := s.cksAcc + s.outboxByte, byteCnt := s.byteCnt + 1 } := by
  rw [State.cksStep, cntInc_of_lt _ len (by simpa [State.cksAdd] using h)]
  rfl

/-! ## `DECODE` -/

/-- While the decode step returns `None` the loop goes on (R128). -/
theorem decodeLoop_of_none (b : Byte) (w : List Byte) (n : Nat) (s t : State)
    (h : s.dec b = .next (t, .none)) :
    State.decodeLoop (b :: w) n s = State.decodeLoop w (n + 1) t := by
  rw [State.decodeLoop, h]
  rfl

/-- At the end of a frame the loop answers with the payload (R128). -/
theorem decodeLoop_of_frame (b : Byte) (w : List Byte) (n : Nat) (s t : State) (ok : Bool)
    (h : s.dec b = .next (t, .frame ok)) :
    State.decodeLoop (b :: w) n s = .next (t, t.decodeAnswer (n + 1) (.frame ok)) := by
  rw [State.decodeLoop, h]
  rfl

/-- At a length over the limit the loop answers at once (R128). -/
theorem decodeLoop_of_lenRejected (b : Byte) (w : List Byte) (n : Nat) (s t : State)
    (h : s.dec b = .next (t, .lenRejected)) :
    State.decodeLoop (b :: w) n s = .next (t, t.decodeAnswer (n + 1) .lenRejected) := by
  rw [State.decodeLoop, h]
  rfl

/-- At a first byte that is no marker the loop answers at once (R128). -/
theorem decodeLoop_of_ignored (b : Byte) (w : List Byte) (n : Nat) (s t : State)
    (h : s.dec b = .next (t, .ignored)) :
    State.decodeLoop (b :: w) n s = .next (t, t.decodeAnswer (n + 1) .ignored) := by
  rw [State.decodeLoop, h]
  rfl

/-! ## The cell of a payload byte (R40, R78) -/

theorem stageByte_of_lt (s : State) (b : Byte) (h : s.byteCnt.toNat < s.params.maxLen) :
    s.stageByte b = .next { s with stage := s.stage.write s.byteCnt.toNat b } := by
  simp [State.stageByte, h]

theorem stageByte_of_le (s : State) (b : Byte) (h : s.params.maxLen ≤ s.byteCnt.toNat) :
    s.stageByte b = .fault .stageRange := by
  simp [State.stageByte, Nat.not_lt.2 h]

end Sys2Proof.Machine
end

