-- ==== Sys2Proof/Tests/Slice0.lean ====
section
/-! SUPPORT. Tests: the well-formedness checks refuse, the words written out from the spec's tables
decode, each operation does on a small state what its rule says, and the hypotheses of every statement
can be met together, clause by clause, at the ends of their ranges. -/

namespace Sys2Proof.Tests

open Sys2Proof Sys2Proof.Machine

set_option Elab.async false

/-! ## Small states -/

/-- Whether an operation answers a next state with a property. -/
def answers {α : Type} (r : Result α) (f : α → Bool) : Bool :=
  match r with
  | .next t => f t
  | .fault _ => false
  | .refused _ => false

/-- Whether an operation stops by this fault. -/
def faults (r : Result State) (e : Fault) : Bool :=
  match r with
  | .next _ => false
  | .fault f => decide (f = e)
  | .refused _ => false

/-- Whether an operation is refused for this reason. -/
def refuses (r : Result State) (e : Refusal) : Bool :=
  match r with
  | .next _ => false
  | .fault _ => false
  | .refused f => decide (f = e)

/-- The reference parameters with a short payload limit. -/
def small : Params := { Config.reference with maxLen := 3 }

/-- A started Slave, armed and idle, with a three-byte Outbox. -/
def slave0 : State :=
  { State.reset with
    params := small, started := true, role := .slave, rxEnable := true, cbEnable := true
    outbox := [(0, 0x01), (1, 0x02), (2, 0x03)] }

/-- A started Master, armed and idle, with a three-byte Outbox. -/
def master0 : State := { slave0 with role := .master }

/-- The same endpoint with the checksum leading. -/
def leading (s : State) : State := { s with params := { s.params with checksumPos := .leading } }

/-- A stopped endpoint. -/
def stopped0 : State := { slave0 with started := false, rxEnable := false }

/-- A failed endpoint. -/
def faulted0 : State := { stopped0 with fault := true }

/-- A Master at the first exchange of a send of one byte. -/
def masterSending : State :=
  { master0 with
    txState := .framing, txPoint := .send .start 0x24, txLen := 1, rxEnable := false, csOut := true }

/-- A Slave at the first exchange of its first attempt to send one byte. -/
def slaveSending : State :=
  { slave0 with
    txState := .framing, txPoint := .send .start 0x24, txLen := 1, rxEnable := false, auxOut := true
    attemptCnt := 1, byteCnt := 1, cksAcc := 0x01 }

/-- A Slave in the checksum field of a frame of three bytes. -/
def slaveReceiving : State :=
  { slave0 with
    rxActive := true, rxPoint := .pull, rxCursor := .checksum, rxLen := 3, byteCnt := 3
    cksAcc := 0x06, stage := [(0, 0x01), (1, 0x02), (2, 0x03)], cbShadow := true }

/-- A Slave that has a whole frame of three bytes and publishes it next. -/
def slavePublishing (ok : Bool) : State :=
  { slaveReceiving with rxPoint := .finish (.complete ok), rxCursor := .start, rxCksField := 0x06 }

/-- A Master at an abort check inside a frame. -/
def masterReceiving : State :=
  { master0 with
    rxActive := true, rxPoint := .sample, rxCursor := .lenHi, csOut := true, auxIn := true
    auxPrev := true }

/-! ## Well-formedness: each check refuses an ill-formed operation (R90, R124) -/

/-- A payload one byte too long for a 16-bit length field. -/
def tooLong : List Byte := List.replicate 65536 0x00

theorem tooLong_length : tooLong.length = 65536 := List.length_replicate

theorem test_frameTrailing_too_long : (Instr.frameTrailing tooLong).wellFormed = false := by
  simp [Instr.wellFormed, payloadFits, tooLong_length]

theorem test_frameLeading_too_long : (Instr.frameLeading tooLong).wellFormed = false := by
  simp [Instr.wellFormed, payloadFits, tooLong_length]

theorem test_xactMs_too_long : (Instr.xactMs tooLong).wellFormed = false := by
  simp [Instr.wellFormed, payloadFits, tooLong_length]

theorem test_xactSm_too_long : (Instr.xactSm tooLong).wellFormed = false := by
  simp [Instr.wellFormed, payloadFits, tooLong_length]

theorem test_encode_too_long : (Instr.encode tooLong).wellFormed = false := by
  simp [Instr.wellFormed, payloadFits, tooLong_length]

/-- The longest payload passes (65535 bytes). -/
theorem test_longest_payload : (Instr.encode (List.replicate 65535 0x00)).wellFormed = true := by
  simp only [Instr.wellFormed, payloadFits, List.length_replicate, decide_eq_true_eq, Nat.le_refl]

/-! ## Words written out from the tables (R90, R91, R96 to R99, R103)

A command word has `cmd_op` in bits 2:0, `cmd_role` in bit 3 and `cmd_cb` in bit 4. -/

theorem test_word_reserved000 : decodeTableWord 8 0b00000_000 = some .reserved000 := by decide +kernel
theorem test_word_start : decodeTableWord 8 0b00001_001 = some (.start .slave false) := by
  decide +kernel
theorem test_word_start_cb : decodeTableWord 8 0b00010_001 = some (.start .master true) := by
  decide +kernel
theorem test_word_stop : decodeTableWord 8 0b00000_010 = some .stop := by decide +kernel
theorem test_word_send : decodeTableWord 24 0x1234_03 = some (.send 0x1234) := by decide +kernel
theorem test_word_attach : decodeTableWord 8 0b00000_100 = some .attach := by decide +kernel
theorem test_word_detach : decodeTableWord 8 0b00000_101 = some .detach := by decide +kernel
theorem test_word_clrnew : decodeTableWord 8 0b00000_110 = some .clrnew := by decide +kernel
theorem test_word_reserved111 : decodeTableWord 8 0b00000_111 = some .reserved111 := by decide +kernel
theorem test_word_rxs : decodeTableWord 8 0x24 = some (.rxs 0x24) := by decide +kernel

theorem test_word_msend :
    decode Config.reference (.operation .master) [0x03, 0x34, 0x12] = .ok (.msend 0x1234, []) := by
  decide +kernel
theorem test_word_ssend :
    decode Config.reference (.operation .slave) [0x03, 0x34, 0x12] = .ok (.ssend 0x1234, []) := by
  decide +kernel
theorem test_word_frameTrailing :
    decode Config.reference (.frame .trailing) [0x24, 0x00, 0x01, 0x41, 0x41] =
      .ok (.frameTrailing [0x41], []) := by decide +kernel
theorem test_word_frameLeading :
    decode Config.reference (.frame .leading) [0x24, 0x41, 0x00, 0x01, 0x41] =
      .ok (.frameLeading [0x41], []) := by decide +kernel
theorem test_word_xactMs :
    decode Config.reference .masterToSlave [0x24, 0x00, 0x00, 0x00] = .ok (.xactMs [], []) := by
  decide +kernel
theorem test_word_xactSm :
    decode Config.reference .slaveToMaster [0x24, 0x00, 0x00, 0x00, 0x05] = .ok (.xactSm [], []) := by
  decide +kernel
theorem test_word_startMarker :
    decode Config.reference .symbol [0x24] = .ok (.startMarker, []) := by decide +kernel
theorem test_word_ackSentinel :
    decode Config.reference .symbol [0x06] = .ok (.ackSentinel, []) := by decide +kernel
theorem test_word_ackRequestByte :
    decode Config.reference .symbol [0x05] = .ok (.ackRequestByte, []) := by decide +kernel
theorem test_word_fillByte :
    decode Config.reference .symbol [0x00] = .ok (.fillByte, []) := by decide +kernel

/-- Bytes that are no operation are refused by name. -/
theorem test_decoders_refuse :
    decode Config.reference (.frame .trailing) [0x24, 0x00, 0x01, 0x41, 0x42] = .error .badChecksum ∧
    decode Config.reference (.frame .trailing) [0x25, 0x00, 0x00, 0x00] = .error .badMarker ∧
    decode Config.reference (.frame .leading) [0x24, 0x41, 0x00, 0x02, 0x41] = .error .truncated ∧
    decode Config.reference .slaveToMaster [0x24, 0x00, 0x00, 0x00, 0x06] = .error .badAckRequest ∧
    decode Config.reference .symbol [0x77] = .error .unknownSymbol ∧
    decode Config.reference .command [0x20, 0x00, 0x00] = .error .noSuchSignal ∧
    decode Config.reference (.operation .master) [0x02, 0x00, 0x00] = .error .notSend := by
  decide +kernel

/-! ## One step of each operation -/

/-- A step runs the operation of a table word placed where it fetches (log entry 9). -/
theorem test_step_runs_placed_start :
    answers (step (State.reset.withFetchWord 8 0b00001_001)) (fun t =>
      t.started && t.rxEnable && t.role == .slave && t.trace.head? == some (.cmdDone true)) = true := by
  decide +kernel

theorem test_step_runs_placed_byte :
    answers (step (State.reset.withFetchWord 8 0x24)) (fun t =>
      t.rxActive && t.rxCursor == .lenHi && t.trace == [.rxByte 0x24]) = true := by
  decide +kernel

theorem test_reserved000 :
    answers (exec .reserved000 slave0) (fun t => t == { slave0 with trace := [.cmdDone false] }) = true := by
  decide +kernel

theorem test_reserved111 :
    answers (exec .reserved111 slave0) (fun t => t == { slave0 with trace := [.cmdDone false] }) = true := by
  decide +kernel

/-- A failed configuration leaves the endpoint failed and not started (R201, R227). -/
theorem test_start_fails :
    answers (exec (.start .slave false) { State.reset with halOk := false }) (fun t =>
      t.fault && !t.started && !t.rxEnable && t.trace.head? == some (.cmdDone false)) = true := by
  decide +kernel

/-- `START` while started completes with `ok = 1` and changes nothing (R201). -/
theorem test_start_twice :
    answers (exec (.start .master false) slave0) (fun t =>
      t == { slave0 with trace := [.cmdDone true] }) = true := by decide +kernel

/-- `STOP` in the middle of a receive abandons it and empties the Inbox, keeping the flags (R202). -/
theorem test_stop_abandons :
    answers (exec .stop { slaveReceiving with inboxSize := 2, newMessage := true }) (fun t =>
      !t.started && !t.rxActive && t.rxCursor == .start && t.inboxSize == 0 && t.newMessage &&
        t.rxsReady == false) = true := by decide +kernel

/-- `SEND` of a stopped endpoint completes with `ok = 0` (R203). -/
theorem test_send_stopped :
    answers (exec (.send 1) stopped0) (fun t => t == { stopped0 with trace := [.cmdDone false] }) =
      true := by decide +kernel

theorem test_send_in_slave_role :
    answers (exec (.send 1) slave0) (fun t =>
      t.txState == .requesting && !t.rxEnable && t.txLen == 1 && !t.auxOut) = true := by
  decide +kernel

theorem test_msend :
    answers (exec (.msend 3) master0) (fun t =>
      t.txState == .selecting && t.txLen == 3 && !t.rxEnable && !t.csOut) = true := by decide +kernel

theorem test_ssend_clears_attempts :
    answers (exec (.ssend 3) { slave0 with attemptCnt := 2 }) (fun t => t.attemptCnt == 0) = true := by
  decide +kernel

theorem test_attach_detach :
    answers (exec .detach slave0) (fun t => t == { slave0 with cbEnable := false, trace := [.cmdDone true] }) &&
    answers (exec .attach { slave0 with cbEnable := false }) (fun t =>
      t == { slave0 with trace := [.cmdDone true] }) = true := by decide +kernel

theorem test_clrnew :
    answers (exec .clrnew { slave0 with newMessage := true, success := true }) (fun t =>
      t == { slave0 with success := true, trace := [.cmdDone true] }) = true := by decide +kernel

theorem test_recv_then_waits :
    answers (exec .recv { slave0 with newMessage := true }) (fun t =>
      !t.newMessage && t.hostQ == [.waitNew]) = true := by decide +kernel

theorem test_waitNew_ends :
    answers (exec .waitNew { slave0 with newMessage := true }) (fun t => t.hostQ == []) = true := by
  decide +kernel

/-- A host that waits offers no command; one that offers `CLRNEW` to an idle block sees it ready (R62,
R106, log entry 30). -/
theorem test_commandReady :
    { slave0 with newMessage := true, hostQ := [.waitNew] }.pins.cmdReady = false ∧
    { slave0 with hostQ := [.cmd ⟨0b110#3, 0#1, 0#1, 0⟩] }.pins.cmdReady = true := by decide +kernel

/-- A wait that ends in the middle of a send leaves the send its exchange of the same step (R61, R157). -/
theorem test_waitNew_in_send :
    answers (step { slaveSending with
      newMessage := true, hostQ := [.waitNew], sched := [Turn.byte 0x00] }) (fun t =>
      t.trace == [.exchange 0x24 0x00, .waitDone] && t.txPoint == .send .lenHi 0x00) = true := by
  decide +kernel

/-- A first byte that is no marker is ignored (R173, R221). -/
theorem test_rxs_ignores :
    answers (exec (.rxs 0x25) slave0) (fun t =>
      !t.rxActive && t.trace == [.outcome .ignored, .rxByte 0x25]) = true := by decide +kernel

theorem test_rxm :
    answers (exec .rxm { master0 with auxPending := true }) (fun t =>
      t.csOut && t.rxActive && !t.auxPending) = true := by decide +kernel

/-- The frame of `01 02 03` is delivered at a Slave (sum `06`), with one callback. -/
theorem test_frameTrailing_delivered :
    answers (exec (.frameTrailing [0x01, 0x02, 0x03]) slave0) (fun t =>
      t.inboxBytes == [0x01, 0x02, 0x03] && t.newMessage && t.success &&
        t.trace.take 2 == [.outcome .delivered, .callback]) = true := by decide +kernel

/-- The carry of the checksum is discarded: `FF FF` sums to `FE` (R94). -/
theorem test_frameLeading_delivered :
    answers (exec (.frameLeading [0xFF, 0xFF]) (leading slave0)) (fun t =>
      t.inboxBytes == [0xFF, 0xFF] && t.success && t.rxCksField == 0xFE) = true := by decide +kernel

/-- At the Master that sends one byte, a transaction ends with chip-select released. -/
theorem test_xactMs_at_master :
    answers (exec (.xactMs [0x01]) masterSending) (fun t =>
      !t.csOut && t.txState == .done && t.cksAcc == 0x01) = true := by decide +kernel

/-- At an idle Master, a transaction of a requesting Slave ends with the payload delivered and the
last exchange answering `ACK_SENTINEL`. -/
theorem test_xactSm_at_master :
    answers (exec (.xactSm [0x01, 0x02]) master0) (fun t =>
      t.inboxBytes == [0x01, 0x02] && t.success && !t.csOut &&
        t.trace.contains (.exchange 0x06 0x05)) = true := by decide +kernel

theorem test_startMarker :
    answers (exec .startMarker slave0) (fun t => t.rxActive && t.rxCursor == .lenHi) = true := by
  decide +kernel

/-- The three other symbols start nothing. -/
theorem test_other_symbols :
    (answers (exec .ackSentinel slave0) (fun t => !t.rxActive) &&
    answers (exec .ackRequestByte slave0) (fun t => !t.rxActive) &&
    answers (exec .fillByte slave0) (fun t => !t.rxActive)) = true := by decide +kernel

theorem test_checksum_wraps :
    answers (exec (.cksAdd 0x02) { slave0 with cksAcc := 0xFF }) (fun t => t.cksAcc == 0x01) = true := by
  decide +kernel

theorem test_cksClear :
    answers (exec .cksClear { slave0 with cksAcc := 0xFF }) (fun t => t.cksAcc == 0x00) = true := by
  decide +kernel

theorem test_cksBlock :
    answers (exec (.cksBlock 3) slave0) (fun t => t.cksAcc == 0x06 && t.byteCnt == 3) = true := by
  decide +kernel

theorem test_counter :
    (answers (exec .cntInc { slave0 with byteCnt := 0x00FF }) (fun t => t.byteCnt == 0x0100) &&
    answers (exec .cntClear { slave0 with byteCnt := 0x00FF }) (fun t => t.byteCnt == 0)) = true := by
  decide +kernel

theorem test_encode :
    answers (exec (.encode [0x01, 0x02, 0x03]) slave0) (fun t =>
      t.trace == [.encoded [0x24, 0x00, 0x03, 0x01, 0x02, 0x03, 0x06]]) = true := by decide +kernel

theorem test_encByte_selects_halves :
    (answers (exec (.encByte .lenHi) { slave0 with txLen := 0x1234 }) (fun t =>
      t.trace == [.selected 0x12]) &&
    answers (exec (.encByte .lenLo) { slave0 with txLen := 0x1234 }) (fun t =>
      t.trace == [.selected 0x34])) = true := by decide +kernel

/-- The last byte of a good frame (R126). -/
theorem test_decStep_last :
    answers (exec (.decStep 0x06) slaveReceiving) (fun t =>
      t.rxCursor == .start && t.trace == [.decStep (.frame true)]) = true := by decide +kernel

/-- One byte over `MAX_LEN` (R101). -/
theorem test_decStepLeading_rejects :
    answers (exec (.decStepLeading 0x04) { leading slave0 with rxCursor := .lenLo }) (fun t =>
      t.rxCursor == .start && t.rxLen == 4 && t.trace == [.decStep .lenRejected]) = true := by
  decide +kernel

theorem test_decode :
    answers (exec (.decode [0x24, 0x00, 0x02, 0x01, 0x02, 0x03, 0x99]) slave0) (fun t =>
      t.trace == [.decoded ⟨some (.frame true), 6, [0x01, 0x02], 2⟩]) = true := by decide +kernel

theorem test_decode_incomplete :
    answers (exec (.decode [0x24, 0x00]) slave0) (fun t =>
      t.trace == [.decoded ⟨none, 2, [], 0⟩]) = true := by decide +kernel

/-- A shorter message leaves nothing of a longer one behind (R75, R131). -/
theorem test_commit_zero_fills :
    answers (exec (.commit false) { slaveReceiving with
      rxLen := 1, inboxSize := 3, inbox := [(0, 0x0A), (1, 0x0B), (2, 0x0C)] }) (fun t =>
      t.inboxBytes == [0x01] && t.inboxByte 1 == 0x00 && t.newMessage && !t.success) = true := by
  decide +kernel

theorem test_discard :
    answers (exec .discard slaveReceiving) (fun t =>
      t == { slaveReceiving with rxCursor := .start }) = true := by decide +kernel

/-- A bad frame calls no handler (R180). -/
theorem test_complete_bad :
    answers (exec (.complete false) slaveReceiving) (fun t =>
      t.trace == [.outcome .checksumFail, .commit] && !t.rxActive) = true := by decide +kernel

/-! ## The hypotheses of the statements can be met

One theorem for each statement that has hypotheses, named after it, with one state for each clause and
the ends of the ranges a clause has.  The states of the first group meet the invariant. -/

theorem witness_inv_slave0 : Inv slave0 := by
  constructor <;> first
    | decide
    | simp [slave0, State.reset, txCount, attemptCount, rxCount, small, Config.reference]

theorem witness_inv_master0 : Inv master0 := by
  constructor <;> first
    | decide
    | simp [master0, slave0, State.reset, txCount, attemptCount, rxCount, small, Config.reference]

theorem witness_inv_stopped0 : Inv stopped0 := by
  constructor <;> first
    | decide
    | simp [stopped0, slave0, State.reset, txCount, attemptCount, rxCount, small, Config.reference]

theorem witness_inv_faulted0 : Inv faulted0 := by
  constructor <;> first
    | decide
    | simp [faulted0, stopped0, slave0, State.reset, txCount, attemptCount, rxCount, small,
        Config.reference]

theorem witness_inv_masterSending : Inv masterSending := by
  constructor <;> first
    | decide
    | simp [masterSending, master0, slave0, State.reset, txCount, attemptCount, rxCount, small,
        Config.reference]

theorem witness_inv_slaveSending : Inv slaveSending := by
  constructor <;> first
    | decide
    | simp [slaveSending, slave0, State.reset, txCount, attemptCount, rxCount, small,
        Config.reference]

theorem witness_inv_slaveReceiving : Inv slaveReceiving := by
  constructor <;> first
    | decide
    | simp [slaveReceiving, slave0, State.reset, txCount, attemptCount, rxCount, small,
        Config.reference]

theorem witness_inv_slavePublishing : Inv (slavePublishing true) := by
  constructor <;> first
    | decide
    | simp [slavePublishing, slaveReceiving, slave0, State.reset, txCount, attemptCount, rxCount, small,
        Config.reference]

theorem witness_inv_masterReceiving : Inv masterReceiving := by
  constructor <;> first
    | decide
    | simp [masterReceiving, master0, slave0, State.reset, txCount, attemptCount, rxCount, small,
        Config.reference]

/-- The state in which the next step has these input signals. -/
def under (s : State) (t : Turn) : State := { s with sched := [t] }

/-- The input signals of a step in which reset is asserted. -/
def Turn.resetNow : Turn := { Turn.idle with rst := true }

/-- The input signals of a step in which the host offers a command. -/
def Turn.offers (op : BitVec 3) (role cb : BitVec 1) (len : Half) : Turn :=
  { Turn.idle with offer := some (.cmd ⟨op, role, cb, len⟩) }

/-- A witness for a statement about a step: the step answers. -/
def goesOn (s : State) : Bool := answers (step s) fun _ => true

theorem witness_DecodeEncode :
    (Instr.send 0xFFFF).wellFormed = true ∧
    encode Config.reference (.send 0xFFFF) = some (.command, [0x03, 0xFF, 0xFF]) ∧
    (Instr.fillByte).wellFormed = true ∧
    encode Config.reference .fillByte = some (.symbol, [0x00]) ∧
    [Config.startMarker, Config.reference.ackSentinel, Config.reference.ackRequest,
      Config.reference.fill].Nodup := by decide +kernel

theorem witness_FrameEncodeDecode :
    decode small (.frame .trailing) [0x24, 0x00, 0x00, 0x00, 0x77] = .ok (.frameTrailing [], [0x77]) ∧
    decode small (.frame .leading) [0x24, 0x01, 0x00, 0x01, 0x01] = .ok (.frameLeading [0x01], []) := by
  decide +kernel

/-- Each clause: the three kinds of host item, a wait also in the middle of a send; nothing to accept and a quiet block, a byte with and
without an exchange outstanding, a block that runs idle and busy. -/
theorem witness_StepRunsDecoded :
    let a := { slave0 with hostQ := [.cmd (portOf 0x06 0x00 0x00)] }
    let b := { slave0 with hostQ := [.recv] }
    let c := { slave0 with hostQ := [.waitNew], newMessage := true }
    let d := { slaveSending with hostQ := [.waitNew], newMessage := true }
    (a.latch.now.rst = false ∧ a.latch.hostQ = [.cmd (portOf 0x06 0x00 0x00)] ∧
      a.latch.accepts (.cmd (portOf 0x06 0x00 0x00)) = true ∧
      decode a.latch.params .command [0x06, 0x00, 0x00] = .ok (.clrnew, []) ∧
      Instr.clrnew.wellFormed = true) ∧
    (b.latch.now.rst = false ∧ b.latch.hostQ = [.recv] ∧ b.latch.accepts .recv = true) ∧
    (c.latch.now.rst = false ∧ c.latch.hostQ = [.waitNew] ∧ c.latch.accepts .waitNew = true) ∧
    (d.latch.now.rst = false ∧ d.latch.accepts .waitNew = true ∧ d.latch.txState ≠ .idle) ∧
    ((under slave0 Turn.idle).latch.now.move = .quiet ∧ (under slave0 Turn.idle).latch.hostQ = []) ∧
    ((under slave0 (Turn.byte 0xFF)).latch.now.move = .byte 0xFF ∧
      (under slave0 (Turn.byte 0xFF)).latch.exchangeRequest = none ∧
      decode small .trigger [0xFF] = .ok (.rxs 0xFF, [])) ∧
    ((under (slavePublishing true) (Turn.byte 0x24)).latch.exchangeRequest = none ∧
      (under (slavePublishing true) (Turn.byte 0x24)).latch.publishing = true) ∧
    ((under slaveSending (Turn.byte 0x00)).latch.now.move = .byte 0x00 ∧
      (under slaveSending (Turn.byte 0x00)).latch.exchangeRequest ≠ none) ∧
    (slave0.latch.now.move = .run ∧ slave0.latch.busy = false) ∧
    (slaveSending.latch.now.move = .run ∧ slaveSending.latch.busy = true) := by decide +kernel

theorem witness_ResetLeaves : (under slaveReceiving Turn.resetNow).latch.now.rst = true := by
  decide +kernel

/-- `StepKeepsInvariant`, `NeverStops`, `PathsExclude`, `LinesFollowOperations`, `InboxNeverTorn`: from
each of the nine states above, which meet the invariant, a step is taken. -/
theorem witness_invariant_steps :
    (goesOn slave0 && goesOn master0 && goesOn stopped0 && goesOn faulted0 && goesOn masterSending &&
      goesOn slaveSending && goesOn slaveReceiving && goesOn (slavePublishing true) &&
      goesOn masterReceiving) = true := by
  decide +kernel

/-- The clauses of `PathsExclude` and `LinesFollowOperations`. -/
theorem witness_LinesFollowOperations :
    (slaveReceiving.rxCursor ≠ .start) ∧ (slaveSending.txState ≠ .idle) ∧
    stopped0.started = false ∧ (master0.txState = .idle ∧ master0.rxActive = false) ∧
    masterSending.csOut = true ∧ slaveSending.auxOut = true ∧
    (masterSending.role = .master ∧ masterSending.exchangeRequest ≠ none) ∧
    (slaveSending.role = .slave ∧ slaveSending.txState ≠ .idle ∧
      slaveSending.exchangeRequest ≠ none) := by decide +kernel

/-- The ways the Inbox goes through a step of `InboxNeverTorn`: a frame published, one of no bytes,
`STOP`, reset, a step of a send, and a step of nothing. -/
theorem witness_InboxNeverTorn :
    (answers (step (under (slavePublishing true) Turn.run)) (fun t =>
      t.inboxBytes == [0x01, 0x02, 0x03] && t.trace.contains .commit) &&
    answers (step (under { slavePublishing true with rxLen := 0, inboxSize := 3 } Turn.run)) (fun t =>
      t.inboxBytes == [] && t.trace.contains .commit) &&
    answers (step (under { slave0 with inboxSize := 3 } (Turn.offers 0b010#3 0#1 0#1 0))) (fun t =>
      t.inboxBytes == []) &&
    answers (step (under { slave0 with inboxSize := 3 } Turn.resetNow)) (fun t =>
      t.inboxBytes == []) &&
    answers (step (under { slaveSending with inboxSize := 3 } (Turn.byte 0x00))) (fun t =>
      t.inboxBytes.length == 3 && !t.trace.contains .commit) &&
    answers (step { slave0 with inboxSize := 3 }) (fun t => t.inboxBytes.length == 3)) = true := by
  decide +kernel

/-- A role that changes by `START` and by reset. -/
theorem witness_RoleFixedWhileStarted :
    (answers (step (under { stopped0 with role := .master } (Turn.offers 0b001#3 1#1 0#1 0)))
      (fun t => t.role == .slave) &&
    answers (step (under slave0 Turn.resetNow)) (fun t => t.role == .master)) = true := by
  decide +kernel

/-- Each clause: set by a good frame; `new_message` cleared by a command; `success` cleared by a bad
frame, by `START` and by reset. -/
theorem witness_FlagsWrittenByCommit :
    (answers (step (under (slavePublishing true) Turn.run)) (fun t => t.newMessage && t.success) &&
    answers (step (under { slave0 with newMessage := true } (Turn.offers 0b110#3 0#1 0#1 0)))
      (fun t => !t.newMessage) &&
    answers (step (under { slavePublishing false with success := true } Turn.run))
      (fun t => !t.success) &&
    answers (step (under { stopped0 with success := true, newMessage := true }
      (Turn.offers 0b001#3 1#1 0#1 0))) (fun t => !t.success && !t.newMessage) &&
    answers (step (under { slave0 with success := true } Turn.resetNow)) (fun t => !t.success)) =
      true := by decide +kernel

/-- A step with a callback and a delivery, and one with a checksum failure; a `CLRNEW` in the step of a
`Commit` loses against it; the marker of the next frame in the same step. -/
theorem witness_CommitStepIsWhole :
    (answers (step (under (slavePublishing true) Turn.run)) (fun t =>
      t.trace == [.outcome .delivered, .callback, .commit]) &&
    answers (step (under (slavePublishing false) Turn.run)) (fun t =>
      t.trace == [.outcome .checksumFail, .commit]) &&
    answers (step (under (slavePublishing true)
      { Turn.offers 0b110#3 0#1 0#1 0 with move := .run })) (fun t => t.newMessage) &&
    answers (step (under (slavePublishing true) (Turn.byte 0x24))) (fun t =>
      t.newMessage && t.rxActive && t.trace.contains .commit && t.trace.contains (.rxByte 0x24))) =
      true := by
  decide +kernel

/-- An endpoint in each of the four modes, and a stopped one that leaves its mode both ways. -/
theorem witness_ModeChanges :
    master0.mode = .master ∧ slave0.mode = .slave ∧ faulted0.mode = .faulted ∧
    stopped0.mode = .stopped ∧
    answers (step (under stopped0 (Turn.offers 0b001#3 0#1 0#1 0))) (fun t => t.mode == .master) ∧
    answers (step (under stopped0 { Turn.offers 0b001#3 0#1 0#1 0 with hal := some false }))
      (fun t => t.mode == .faulted) ∧
    answers (step (under faulted0 Turn.resetNow)) (fun t => t.mode == .stopped) := by decide +kernel

theorem witness_TimingParametersUnread : goesOn slaveReceiving = true := by decide +kernel

/-- The highest bit of a byte. -/
theorem witness_ChecksumLaws : (7 : Nat) < 8 ∧ [0x01#8, 0x02#8].Perm [0x02#8, 0x01#8] :=
  ⟨by decide, List.Perm.swap _ _ _⟩

/-- Both clauses, the first at the largest value it holds for. -/
theorem witness_CounterOperations :
    { slave0 with byteCnt := 0xFFFE }.byteCnt ≠ 0xFFFF#16 ∧
    { slave0 with byteCnt := 0xFFFF }.byteCnt = 0xFFFF#16 := by decide +kernel

theorem witness_EncodeAnswers :
    ([] : List Byte).length ≤ 65535 ∧ (List.replicate 65535 (0 : Byte)).length ≤ 65535 := by
  simp only [List.length_nil, List.length_replicate]
  decide

theorem witness_EncoderSelects :
    let s := { slave0 with txLen := 3, cksAcc := 0x06 }
    s.cksAcc = sum8 (s.outbox.bytes s.txLen.toNat) := by decide +kernel

/-- `DecodeStepTrailing` and `DecodeStepLeading`: each cursor; the last cell of `STAGE`. -/
theorem witness_DecodeSteps :
    let p := { slaveReceiving with rxCursor := .payload, byteCnt := 2 }
    slave0.rxCursor = .start ∧ { slave0 with rxCursor := .lenHi }.rxCursor = .lenHi ∧
    { slave0 with rxCursor := .lenLo }.rxCursor = .lenLo ∧
    (p.rxCursor = .payload ∧ p.byteCnt.toNat < p.params.maxLen ∧ p.byteCnt ≠ 0xFFFF#16) ∧
    slaveReceiving.rxCursor = .checksum := by decide +kernel

/-- A payload of exactly `MAX_LEN` bytes, and one byte more. -/
theorem witness_RoundTrip :
    slave0.stage.wf = true ∧ [0x01#8, 0x02#8, 0x03#8].length ≤ slave0.params.maxLen ∧
    slave0.params.maxLen < [0x01#8, 0x02#8, 0x03#8, 0x04#8].length ∧
    [0x01#8, 0x02#8, 0x03#8, 0x04#8].length ≤ 65535 := by decide +kernel

/-- `CommitPublishes` and `CompleteInOneStep`: a length of exactly `MAX_LEN`. -/
theorem witness_CommitPublishes :
    slaveReceiving.rxLen.toNat ≤ slaveReceiving.params.maxLen ∧
    slaveReceiving.params.maxLen ≤ slaveReceiving.rxLen.toNat ∧ slaveReceiving.stage.wf = true := by
  decide +kernel

theorem witness_WhereOperationsStop :
    (faults (exec (.decStep 0x00) { slave0 with rxCursor := .ack }) .decStepAtAck &&
    faults (exec (.decStepLeading 0x00) { slave0 with rxCursor := .payload, byteCnt := 3 })
      .stageRange &&
    faults (exec (.complete true) { slave0 with rxLen := 4 }) .inboxRange &&
    refuses (exec (.msend 0) slave0) .wrongRole && refuses (exec (.ssend 0) master0) .wrongRole) =
      true := by decide +kernel

theorem witness_payload_too_long : 65535 < tooLong.length := by
  rw [tooLong_length]
  decide

/-- `ReservedCodes`, `StartEffects`, `StopEffects`, `HandlerCommands`, `ClearNewMessage`: an endpoint
that is not sending, and each case of the answers; one that is sending. -/
theorem witness_commands_accepted :
    slaveSending.txState ≠ .idle ∧
    (slave0.txState = .idle ∧ slave0.started = true ∧ slave0.fault = false) ∧
    (stopped0.txState = .idle ∧ stopped0.started = false ∧ stopped0.halOk = true) ∧
    (faulted0.txState = .idle ∧ faulted0.fault = true) ∧
    { slave0 with cbEnable := false }.cbEnable = false := by decide +kernel

/-- `SendBegins`: each clause. -/
theorem witness_SendBegins :
    (faulted0.acceptsSend = true ∧ faulted0.fault = true) ∧
    (stopped0.acceptsSend = true ∧ stopped0.started = false) ∧
    (master0.acceptsSend = true ∧ master0.fault = false ∧ master0.started = true ∧
      master0.role = .master) ∧
    (slave0.acceptsSend = true ∧ slave0.fault = false ∧ slave0.started = true ∧
      slave0.role = .slave) := by decide +kernel

theorem witness_WaitReadsFlag :
    { slave0 with newMessage := true }.newMessage = true ∧ slave0.newMessage = false := by
  decide +kernel

theorem witness_FaultedUntilReset :
    faulted0.fault = true ∧ faulted0.started = false ∧ faulted0.txState = .idle ∧
    faulted0.rxActive = false ∧ goesOn faulted0 = true ∧
    goesOn (under faulted0 Turn.resetNow) = true := by decide +kernel

/-- A send in progress; a receive in flight; a ready trigger in each role. -/
theorem witness_CommandsWait :
    slaveSending.txState ≠ .idle ∧ slaveReceiving.rxActive = true ∧
    { master0 with auxPending := true }.triggerReady = true ∧
    { slave0 with now := Turn.byte 0x24 }.triggerReady = true := by decide +kernel

/-- Each way not to be armed, and an armed Slave. -/
theorem witness_ByteEventStartsReceive :
    stopped0.started = false ∧ slaveSending.rxEnable = false ∧ slaveSending.txState ≠ .idle ∧
    slaveReceiving.rxActive = true ∧ master0.role = .master ∧
    (slave0.started = true ∧ slave0.rxEnable = true ∧ slave0.txState = .idle ∧
      slave0.rxActive = false ∧ slave0.role = .slave ∧ slave0.rxCursor = .start) := by decide +kernel

/-- An armed Master with an edge, and one without. -/
theorem witness_EdgeStartsReceive :
    let s := { master0 with auxPending := true }
    (s.started = true ∧ s.rxEnable = true ∧ s.txState = .idle ∧ s.rxActive = false ∧
      s.role = .master ∧ s.auxPending = true) ∧
    master0.auxPending = false := by decide +kernel

/-- The empty payload and one of exactly `MAX_LEN` bytes, in both field orders. -/
theorem witness_FrameDeliveredAtSlave :
    slave0.rxsReady = true ∧ slave0.rxCursor = .start ∧ slave0.stage.wf = true ∧
    [0x01#8, 0x02#8, 0x03#8].length = slave0.params.maxLen ∧
    ([] : List Byte).length ≤ slave0.params.maxLen ∧ slave0.params.maxLen ≤ 65534 ∧
    slave0.params.checksumPos = .trailing ∧ (leading slave0).params.checksumPos = .leading ∧
    (leading slave0).rxsReady = true := by decide +kernel

/-- Both roles and both field orders, a payload of exactly `MAX_LEN` bytes and the empty one, each with
a checksum that is off by one. -/
theorem witness_WrongChecksumAtSlave :
    (∀ s ∈ [slave0, leading slave0, master0, leading master0], s.rxCursor = .start ∧
      s.stage.wf = true ∧ [0x01#8, 0x02#8, 0x03#8].length = s.params.maxLen ∧
      ([] : List Byte).length ≤ s.params.maxLen ∧ s.params.maxLen ≤ 65534) ∧
    (0x07 : Byte) ≠ sum8 [0x01, 0x02, 0x03] ∧ (0x01 : Byte) ≠ sum8 [] ∧
    (∀ s ∈ [slave0, leading slave0], s.rxsReady = true) ∧
    (∀ s ∈ [master0, leading master0], s.armed = true ∧ s.role = .master ∧ s.auxPrev = false) := by
  decide +kernel

/-- One byte over the limit, and the largest length, in both roles and both field orders; a first byte
that differs from the marker in one bit. -/
theorem witness_LongFrameAtSlave :
    (∀ s ∈ [slave0, leading slave0, master0, leading master0], s.rxCursor = .start ∧
      s.params.maxLen < (0x00 : Byte).toNat * 256 + (0x04 : Byte).toNat ∧
      s.params.maxLen < (0xFF : Byte).toNat * 256 + (0xFF : Byte).toNat) ∧
    (∀ s ∈ [slave0, leading slave0], s.rxsReady = true) ∧
    (∀ s ∈ [master0, leading master0], s.armed = true ∧ s.role = .master ∧ s.auxPrev = false) ∧
    (0x25 : Byte) ≠ 0x24 := by decide +kernel

theorem witness_TransactionAtMaster :
    master0.started = true ∧ master0.role = .master ∧ master0.rxEnable = true ∧
    master0.txState = .idle ∧ master0.rxActive = false ∧ master0.rxCursor = .start ∧
    master0.auxPrev = false ∧ master0.stage.wf = true ∧
    [0x01#8, 0x02#8, 0x03#8].length = master0.params.maxLen ∧ master0.params.maxLen ≤ 65534 := by
  decide +kernel

/-- Both check points, with the line asserted and released. -/
theorem witness_AbortAtCheckPoint :
    let a := masterReceiving
    let b := { masterReceiving with rxPoint := .ackSample true, rxCursor := .ack, auxIn := false }
    (a.txState = .idle ∧ a.rxActive = true ∧ a.role = .master ∧ a.rxPoint = .sample ∧
      a.auxIn = true) ∧
    (b.txState = .idle ∧ b.rxActive = true ∧ b.role = .master ∧ b.rxPoint = .ackSample true ∧
      b.auxIn = false) := by decide +kernel

/-- A send and a receive held in an exchange. -/
theorem witness_HeldWithoutClock :
    (slaveSending.role = .slave ∧ slaveSending.exchangeRequest ≠ none) ∧
    (slaveReceiving.role = .slave ∧ slaveReceiving.exchangeRequest ≠ none) := by decide +kernel

/-- An endpoint of each role held in an exchange, a Slave about to publish, an armed idle one, and one
that is not armed. -/
theorem witness_SymbolsOnTheBus :
    (masterSending.exchangeRequest = some 0x24 ∧ slaveReceiving.exchangeRequest = some 0x00) ∧
    (slavePublishing true).publishing = true ∧
    (slave0.exchangeRequest = none ∧ slave0.rxsReady = true ∧ slave0.rxCursor = .start ∧
      slave0.params.ackSentinel ≠ 0x24 ∧ slave0.params.ackRequest ≠ 0x24 ∧
      slave0.params.fill ≠ 0x24) ∧
    (stopped0.exchangeRequest = none ∧ stopped0.rxsReady = false ∧ stopped0.publishing = false) := by
  decide +kernel

/-- With `witness_inv_slaveReceiving`: a wire row in the middle of something else. -/
theorem witness_WireRowsComplete :
    ([] : List Byte).length ≤ 65535 ∧
    answers (exec (.xactSm []) slaveReceiving) (fun _ => true) = true := by decide +kernel

theorem witness_MasterSendOnTheWire :
    (master0.acceptsSend = true ∧ master0.canSend = true ∧ master0.role = .master ∧
      [some 0xFF#8, none, some 0x00#8, none].length = (0 : Half).toNat + 4) ∧
    (leading master0).acceptsSend = true := by decide +kernel

/-- As many failing attempts as `RETRIES`, none, and the good one. -/
theorem witness_SlaveSendAttempts :
    let bad : List Byte := [0x00, 0x00, 0x00, 0x00, 0x05]
    let good : List Byte := [0x00, 0x00, 0x00, 0x00, 0x06]
    slave0.params.wf = true ∧ slave0.acceptsSend = true ∧ slave0.canSend = true ∧
    slave0.role = .slave ∧
    (∀ inp ∈ [bad, bad, bad], inp.length = (0 : Half).toNat + 5 ∧
      inp.getLast? ≠ some slave0.params.ackSentinel) ∧
    good.length = (0 : Half).toNat + 5 ∧ good.getLast? = some slave0.params.ackSentinel ∧
    [bad, bad, bad].length = slave0.params.retries ∧
    [bad, bad].length < slave0.params.retries ∧ ([] : List (List Byte)).length < slave0.params.retries := by
  decide +kernel

theorem witness_TransactionAtSender :
    let m := leading { masterSending with cksAcc := 0x01 }
    (masterSending.txState = .framing ∧ masterSending.txPoint = .send .start 0x24 ∧
      masterSending.role = .master ∧ [0x01#8].length = masterSending.txLen.toNat ∧
      masterSending.outbox.bytes 1 = [0x01] ∧ masterSending.params.checksumPos ≠ .leading) ∧
    (m.txState = .framing ∧ m.txPoint = .send .start 0x24 ∧ m.role = .master ∧
      m.params.checksumPos = .leading ∧ m.cksAcc = sum8 [0x01]) ∧
    (slaveSending.txState = .framing ∧ slaveSending.txPoint = .send .start 0x24 ∧
      slaveSending.role = .slave ∧ [0x01#8].length = slaveSending.txLen.toNat ∧
      slaveSending.outbox.bytes 1 = [0x01] ∧ slaveSending.cksAcc = sum8 [0x01]) := by decide +kernel

/-- The sentinel, another byte at the last attempt, and another byte before it. -/
theorem witness_AcknowledgementTest :
    let s := fun r n => { slaveSending with txState := .awaitAck, txPoint := .drop r, attemptCnt := n }
    ((s 0x06 1).role = .slave ∧ (s 0x06 1).txState = .awaitAck ∧ (s 0x06 1).txPoint = .drop 0x06 ∧
      (0x06 : Byte) = (s 0x06 1).params.ackSentinel) ∧
    ((s 0x05 3).attemptCnt.toNat = (s 0x05 3).params.retries ∧
      (0x05 : Byte) ≠ (s 0x05 3).params.ackSentinel) ∧
    (s 0x05 2).attemptCnt.toNat ≠ (s 0x05 2).params.retries := by decide +kernel

theorem witness_TriggerBeforeSend :
    let c : CmdPort := ⟨0b011#3, 0#1, 0#1, 1⟩
    let m := { master0 with hostQ := [.cmd c], auxPending := true }
    let e := { master0 with hostQ := [.cmd c] }
    let sl := { slave0 with hostQ := [.cmd c] }
    c.op = 0b011#3 ∧
    (m.started = true ∧ m.rxEnable = true ∧ m.txState = .idle ∧ m.rxActive = false ∧
      m.rxCursor = .start ∧ m.role = .master ∧ (under m Turn.run).sched = [Turn.run]) ∧
    (e.auxPrev = false ∧ e.role = .master) ∧
    (sl.started = true ∧ sl.rxEnable = true ∧ sl.txState = .idle ∧ sl.rxActive = false ∧
      sl.rxCursor = .start ∧ sl.role = .slave) := by decide +kernel

theorem witness_EdgeIsLatched :
    let s := { master0 with auxPending := true }
    master0.hostQ = [] ∧ s.rxmReady = true ∧ s.auxPrev = false := by decide +kernel

/-- `StatusReads`: inside the Inbox, and at its size. -/
theorem witness_StatusReads :
    let s := { slave0 with inboxSize := 3 }
    (2 : Nat) < s.inboxSize.toNat ∧ s.inboxSize.toNat ≤ 3 := by decide +kernel

/-- `Rendezvous`: a Master at an exchange with a Slave held in one, an armed one, one about to publish,
and another; their invariants are those of the states above. -/
theorem witness_Rendezvous :
    (masterSending.role = .master ∧ masterSending.hostQ = [] ∧
      masterSending.exchangeRequest = some 0x24) ∧
    (slaveSending.role = .slave ∧ slaveSending.hostQ = [] ∧ slaveSending.exchangeRequest ≠ none) ∧
    (slave0.role = .slave ∧ slave0.exchangeRequest = none ∧ slave0.rxsReady = true) ∧
    ((slavePublishing true).role = .slave ∧ (slavePublishing true).hostQ = [] ∧
      (slavePublishing true).rxPoint = .finish (.complete true)) ∧
    (stopped0.role = .slave ∧ stopped0.exchangeRequest = none ∧ stopped0.rxsReady = false ∧
      stopped0.rxPoint = .idle) := by decide +kernel

/-- The second part of `Rendezvous`: an exchange of both endpoints; a `STOP` at the Master in the step of
an exchange withdraws it, and the Slave stays held. -/
theorem witness_Rendezvous_events :
    let stopping := { masterReceiving with rxPoint := .pull, hostQ := [.cmd ⟨0b010#3, 0#1, 0#1, 0⟩] }
    (answers (linkStep ⟨masterSending, slaveReceiving, [.master 0x00 0x00]⟩) (fun k =>
      k.master.trace == [.exchange 0x24 0x00] && k.slave.trace == [.exchange 0x00 0x24]) &&
    answers (linkStep ⟨stopping, slaveSending, [.master 0x00 0x00]⟩) (fun k =>
      !k.master.started && k.slave.trace == [] &&
        k.slave.exchangeRequest == some 0x24)) = true := by decide +kernel

/-- `LinkKeepsInvariant`: an exchange; a Slave reset while it drives the line; the line as an input. -/
theorem witness_LinkKeepsInvariant :
    (masterSending.auxIn = slave0.auxOut ∧ slave0.started = true ∧ slave0.role = .slave) ∧
    (answers (linkStep ⟨masterSending, slave0, [.master 0x00 0x00]⟩) (fun k =>
      k.slave.rxActive && k.master.txState == .framing) &&
    answers (linkStep ⟨masterReceiving, slaveSending, [.slaveReset]⟩) (fun k =>
      !k.slave.started && !k.master.auxIn) &&
    answers (linkStep ⟨master0, stopped0, [.auxLevel true]⟩) (fun k =>
      k.master.auxIn && k.master.auxPending)) = true := by decide +kernel

/-- `LinkDeliversMasterSend`: both parts, both field orders, a payload of exactly `MAX_LEN` bytes. -/
theorem witness_LinkDeliversMasterSend :
    (∀ ms ∈ [(master0, slave0), (leading master0, leading slave0)],
      ms.1.role = .master ∧ ms.2.role = .slave ∧ ms.1.params = ms.2.params ∧
      ms.1.auxIn = ms.2.auxOut ∧ ms.1.hostQ = [] ∧ ms.2.hostQ = [] ∧ ms.1.sched = [] ∧
      ms.2.sched = [] ∧ (3 : Half).toNat = ms.2.params.maxLen ∧
      ms.2.rxsReady = true ∧ ms.1.acceptsSend = true ∧ ms.1.canSend = true ∧
      ms.1.armed = true ∧ ms.1.auxPrev = false ∧
      ms.2.acceptsSend = true ∧ ms.2.canSend = true) ∧ (3 : Nat) ≤ 3 ∧
    [LinkTurn.slave, .master 0 0, .master 0 0, .slave].Perm
      [.master 0 0, .master 0 0, .slave, .slave] := by decide +kernel

/-- The invariant with the checksum leading. -/
theorem witness_inv_leading_master0 : Inv (leading master0) := by
  constructor <;> first
    | decide
    | simp [leading, master0, slave0, State.reset, txCount, attemptCount, rxCount, small,
        Config.reference]

theorem witness_inv_leading_slave0 : Inv (leading slave0) := by
  constructor <;> first
    | decide
    | simp [leading, slave0, State.reset, txCount, attemptCount, rxCount, small, Config.reference]

end Sys2Proof.Tests
end

section
/-! What a step runs: the two forms of a step without reset, and the block's own move for each kind of
input signals (R10, R61, R171, R200, R230). -/

namespace Sys2Proof.Machine

variable {s : State}

/-- With an accepted item a step is the item's operation, the block's move, the aux line's part. -/
theorem step_of_fetch_some {u : State} {i : Instr} (hr : s.latch.now.rst = false)
    (hf : s.latch.fetch = some (i, u)) :
    step s = andThen (exec i u) fun t =>
      andThen (s.latch.moveAfter t) fun v => .next v.auxPhase := by
  rw [step_of_not_rst s hr, State.serve, hostPart_of_some _ u i hf, andThen_assoc]

/-- Without one it is the block's move and the aux line's part. -/
theorem step_of_fetch_none (hr : s.latch.now.rst = false) (hf : s.latch.fetch = none) :
    step s = andThen s.latch.blockMove fun v => .next v.auxPhase := by
  rw [step_of_not_rst s hr, State.serve, hostPart_of_none _ hf, andThen_next, moveAfter_self]

/-- An item that is accepted leaves the thread as it is run. -/
theorem fetch_of_accepts {h : HostItem} {q : List HostItem} (hq : s.hostQ = h :: q)
    (ha : s.accepts h = true) : s.fetch = some (hostInstr h, { s with hostQ := q }) :=
  fetch_eq_some.2 ⟨h, q, hq, ha, rfl, rfl⟩

/-- A step takes nothing from the thread when its head is not accepted. -/
theorem fetch_of_not_accepts (h : ∀ i q, s.hostQ = i :: q → s.accepts i = false) :
    s.fetch = none := by
  cases hq : s.hostQ with
  | nil => exact fetch_nil s hq
  | cons i q => simp [State.fetch, hq, h i q hq]

theorem blockMove_quiet (h : s.now.move = .quiet) : s.blockMove = .next s := by
  simp [State.blockMove, h]

theorem blockMove_run_busy (h : s.now.move = .run) (hb : s.busy = true) :
    s.blockMove = s.activeMove := by
  simp [State.blockMove, h, hb]

theorem blockMove_run_idle (h : s.now.move = .run) (hb : s.busy = false) :
    s.blockMove = execRxm s := by
  simp [State.blockMove, h, hb]

theorem blockMove_byte_exchange {b : Byte} (h : s.now.move = .byte b)
    (he : s.exchangeRequest ≠ none) : s.blockMove = s.activeMove := by
  simp [State.blockMove, h, Option.isSome_iff_ne_none.2 he]

theorem blockMove_byte_trigger {b : Byte} (h : s.now.move = .byte b)
    (he : s.exchangeRequest = none) : s.blockMove = andThen s.readyForByte (execRxs b) := by
  simp [State.blockMove, h, he]

end Sys2Proof.Machine

namespace Sys2Proof

/-- Three bytes at the command port stand for the operation of the signals they carry. -/
theorem decode_command_eq_ok {prm : Params} {b0 b1 b2 : Byte} {i : Instr}
    (h : decode prm .command [b0, b1, b2] = .ok (i, [])) : i = decodeCmd (portOf b0 b1 b2) := by
  simp only [decode, decodeCommand] at h
  split at h
  · injection h with h
    exact (congrArg Prod.fst h).symm
  · cases h

/-- A byte at the trigger port stands for `RXS`. -/
theorem decode_trigger_eq_ok {prm : Params} {b : Byte} {i : Instr}
    (h : decode prm .trigger [b] = .ok (i, [])) : i = .rxs b := by
  injection h with h
  exact (congrArg Prod.fst h).symm

end Sys2Proof

section

open Sys2Proof Sys2Proof.Machine

/-- Settles O5, clause by clause: an accepted item, then each kind of move of the block. -/
theorem stepRunsDecoded : Obligations.StepRunsDecoded := by
  intro s hr rest
  refine ⟨fun b0 b1 b2 q i hq ha hd _ => ?_, fun q hq ha => ?_, fun q hq ha => ?_, fun hn => ?_⟩
  · rw [decode_command_eq_ok hd]
    exact step_of_fetch_some hr (fetch_of_accepts hq ha)
  · exact step_of_fetch_some hr (fetch_of_accepts hq ha)
  · exact step_of_fetch_some hr (fetch_of_accepts hq ha)
  · rw [step_of_fetch_none hr (fetch_of_not_accepts hn)]
    refine ⟨fun hm => ?_, fun b i hm he hd => ?_, fun b hm he => ?_, fun hm hb => ?_,
      fun hm hb => ?_⟩
    · rw [blockMove_quiet hm, andThen_next]
    · rw [blockMove_byte_trigger hm he, andThen_assoc, decode_trigger_eq_ok hd]
      rfl
    · rw [blockMove_byte_exchange hm he]
    · rw [blockMove_run_idle hm hb]
      rfl
    · rw [blockMove_run_busy hm hb]

end
end

section
/-! Changing the parameters of an endpoint (R6, R7): what a step answers when the durations and the
pin level have other values.

`s.withParams p` is `s` with the parameters `p`.  An operation `f` commutes with it when
`f (s.withParams p)` is `(f s).withParams p`, for every `p` the rules cannot tell from `s.params`
(`Params.SameRules`).  This says both that `f` does not read the durations and the level, and, with
`p = s.params`, that it does not write a parameter.  An operation that commutes without that
hypothesis reads no parameter at all. -/

namespace Sys2Proof

/-- The parameters that some rule reads have the same values (R53, R55, R284). -/
structure Params.SameRules (p q : Params) : Prop where
  checksumPos : p.checksumPos = q.checksumPos
  ackSentinel : p.ackSentinel = q.ackSentinel
  ackRequest : p.ackRequest = q.ackRequest
  fill : p.fill = q.fill
  retries : p.retries = q.retries
  maxLen : p.maxLen = q.maxLen

theorem Params.SameRules.refl (p : Params) : p.SameRules p := ⟨rfl, rfl, rfl, rfl, rfl, rfl⟩

namespace Machine

/-- The endpoint with the parameters `p`. -/
def State.withParams (s : State) (p : Params) : State := { s with params := p }

/-- What an operation answers, with the parameters `p` in the state it answers. -/
def withParamsAfter (p : Params) (r : Result State) : Result State :=
  andThen r fun t => .next (t.withParams p)

/-- The same for an operation that answers a result beside the state. -/
def withParamsAfterDec (p : Params) (r : Result (State × DecResult)) :
    Result (State × DecResult) :=
  andThen r fun tr => .next (tr.1.withParams p, tr.2)

@[simp] theorem withParamsAfter_next (p : Params) (s : State) :
    withParamsAfter p (.next s) = .next (s.withParams p) := rfl

@[simp] theorem withParamsAfterDec_next (p : Params) (s : State) (r : DecResult) :
    withParamsAfterDec p (.next (s, r)) = .next (s.withParams p, r) := rfl

@[simp] theorem withParamsAfterDec_fault (p : Params) (e : Fault) :
    withParamsAfterDec p (.fault e) = .fault e := rfl

/-- A sequence commutes when its second part does on every state the first part answers. -/
theorem andThen_withParamsAfter {p : Params} {r : Result State} {f : State → Result State}
    (h : ∀ t, r = .next t → f (t.withParams p) = withParamsAfter p (f t)) :
    andThen (withParamsAfter p r) f = withParamsAfter p (andThen r f) := by
  cases r with
  | next t => exact h t rfl
  | fault e => rfl
  | refused e => rfl

theorem andThen_withParamsAfterDec {p : Params} {r : Result (State × DecResult)}
    {f : State × DecResult → Result State}
    (h : ∀ t d, f (t.withParams p, d) = withParamsAfter p (f (t, d))) :
    andThen (withParamsAfterDec p r) f = withParamsAfter p (andThen r f) := by
  cases r with
  | next td => exact h td.1 td.2
  | fault e => rfl
  | refused e => rfl

variable {p : Params} {s : State}

/-- What answers a state with the parameters `p` whatever it answers keeps `p`. -/
theorem params_of_withParamsAfter {r : Result State} {t : State} (h : r = withParamsAfter p r)
    (ht : r = .next t) : t.params = p := by
  rw [ht, withParamsAfter_next] at h
  injection h with h
  rw [h]
  rfl

/-! ## What the parameters leave alone -/

@[simp] theorem withParams_params : (s.withParams p).params = p := rfl
@[simp] theorem withParams_started : (s.withParams p).started = s.started := rfl
@[simp] theorem withParams_role : (s.withParams p).role = s.role := rfl
@[simp] theorem withParams_fault : (s.withParams p).fault = s.fault := rfl
@[simp] theorem withParams_newMessage : (s.withParams p).newMessage = s.newMessage := rfl
@[simp] theorem withParams_rxActive : (s.withParams p).rxActive = s.rxActive := rfl
@[simp] theorem withParams_txState : (s.withParams p).txState = s.txState := rfl
@[simp] theorem withParams_rxCursor : (s.withParams p).rxCursor = s.rxCursor := rfl
@[simp] theorem withParams_txPoint : (s.withParams p).txPoint = s.txPoint := rfl
@[simp] theorem withParams_rxPoint : (s.withParams p).rxPoint = s.rxPoint := rfl
@[simp] theorem withParams_rxLen : (s.withParams p).rxLen = s.rxLen := rfl
@[simp] theorem withParams_halOk : (s.withParams p).halOk = s.halOk := rfl
@[simp] theorem withParams_hostQ : (s.withParams p).hostQ = s.hostQ := rfl
@[simp] theorem withParams_now : (s.withParams p).now = s.now := rfl
@[simp] theorem withParams_sched : (s.withParams p).sched = s.sched := rfl
@[simp] theorem withParams_txBusy : (s.withParams p).txBusy = s.txBusy := rfl
@[simp] theorem withParams_busy : (s.withParams p).busy = s.busy := rfl
@[simp] theorem withParams_publishing : (s.withParams p).publishing = s.publishing := rfl
@[simp] theorem withParams_rxsReady : (s.withParams p).rxsReady = s.rxsReady := rfl
@[simp] theorem withParams_rxmReady : (s.withParams p).rxmReady = s.rxmReady := rfl
@[simp] theorem withParams_acceptsPlain : (s.withParams p).acceptsPlain = s.acceptsPlain := rfl
@[simp] theorem withParams_acceptsSend : (s.withParams p).acceptsSend = s.acceptsSend := rfl
@[simp] theorem withParams_canSend : (s.withParams p).canSend = s.canSend := rfl
@[simp] theorem withParams_txCounted : (s.withParams p).txCounted = s.txCounted := rfl
@[simp] theorem withParams_rxCounted : (s.withParams p).rxCounted = s.rxCounted := rfl
@[simp] theorem withParams_busIn : (s.withParams p).busIn = s.busIn := rfl

/-! ## Shared operations -/

@[simp] theorem log_withParams (e : Event) : (s.withParams p).log e = (s.log e).withParams p := rfl

@[simp] theorem raise_withParams (l : Label) :
    (s.withParams p).raise l = (s.raise l).withParams p := rfl

@[simp] theorem done_withParams (ok : Bool) :
    (s.withParams p).done ok = (s.done ok).withParams p := rfl

@[simp] theorem hold_withParams (h : HostItem) :
    (s.withParams p).hold h = (s.hold h).withParams p := rfl

theorem sense_withParams (t : Turn) : (s.withParams p).sense t = (s.sense t).withParams p := rfl

@[simp] theorem exchanged_withParams (out inp : Byte) :
    (s.withParams p).exchanged out inp = (s.exchanged out inp).withParams p := rfl

@[simp] theorem cksAdd_withParams (b : Byte) :
    (s.withParams p).cksAdd b = (s.cksAdd b).withParams p := rfl

@[simp] theorem cntInc_withParams : (s.withParams p).cntInc = s.cntInc.withParams p := by
  by_cases h : s.byteCnt = 0xFFFF#16 <;> simp [State.cntInc, State.withParams, h]

@[simp] theorem cksStep_withParams : (s.withParams p).cksStep = s.cksStep.withParams p :=
  cntInc_withParams (s := s.cksAdd s.outboxByte)

@[simp] theorem toField_withParams (sel : Sel) :
    (s.withParams p).toField sel = (s.toField sel).withParams p := by
  cases sel <;> rfl

@[simp] theorem frameSent_withParams : (s.withParams p).frameSent = s.frameSent.withParams p := by
  cases hr : s.role <;> simp [State.frameSent, State.withParams, hr]

@[simp] theorem toRelease_withParams (how : RxEnd) :
    (s.withParams p).toRelease how = (s.toRelease how).withParams p := rfl

@[simp] theorem leaveDispatcher_withParams :
    (s.withParams p).leaveDispatcher = s.leaveDispatcher.withParams p := rfl

/-! ## The send FSMs -/

theorem bodyNext_withParams (hp : p.SameRules s.params) :
    (s.withParams p).bodyNext = s.bodyNext.withParams p := by
  cases hc : s.txCounted <;> cases hk : s.params.checksumPos <;>
    simp [State.bodyNext, hc, hk, hp.checksumPos]

theorem enterTransfer_withParams (hp : p.SameRules s.params) :
    (s.withParams p).enterTransfer = s.enterTransfer.withParams p := by
  cases hr : s.role <;> cases hk : s.params.checksumPos <;>
    simp [State.enterTransfer, hr, hk, hp.checksumPos] <;> rfl

theorem fieldNext_withParams (hp : p.SameRules s.params) (sel : Sel) :
    (s.withParams p).fieldNext sel = (s.fieldNext sel).withParams p := by
  cases sel with
  | start => cases hk : s.params.checksumPos <;> simp [fieldNext_start, hk, hp.checksumPos]
  | lenHi => simp [fieldNext_lenHi]
  | lenLo =>
    have he : s.enterTransfer.params = s.params :=
      (congrArg State.params (enterTransfer_withParams (s := s) (.refl s.params)) :)
    rw [fieldNext_lenLo, fieldNext_lenLo, enterTransfer_withParams hp,
      bodyNext_withParams (he ▸ hp)]
  | payload => rw [fieldNext_payload, fieldNext_payload, bodyNext_withParams hp]
  | checksum => cases hk : s.params.checksumPos <;> simp [fieldNext_checksum, hk, hp.checksumPos]

@[simp] theorem finishSend_withParams (ok : Bool) :
    (s.withParams p).finishSend ok = (s.finishSend ok).withParams p := by
  cases ok <;> rfl

theorem masterFieldSent_withParams (hp : p.SameRules s.params) (sel : Sel) (b : Byte) :
    (s.withParams p).masterFieldSent sel b = (s.masterFieldSent sel b).withParams p := by
  cases sel with
  | payload =>
    cases hk : s.params.checksumPos <;>
      simp only [State.masterFieldSent, withParams_params, hp.checksumPos, hk, cksAdd_withParams,
        cntInc_withParams] <;> rfl
  | start | lenHi | lenLo | checksum => rfl

theorem slaveFieldSent_withParams (hp : p.SameRules s.params) (sel : Sel) :
    (s.withParams p).slaveFieldSent sel = (s.slaveFieldSent sel).withParams p := by
  cases sel with
  | payload =>
    simp only [State.slaveFieldSent, cntInc_withParams]
    exact fieldNext_withParams (by simpa using hp) .payload
  | start | lenHi | lenLo | checksum => simp only [State.slaveFieldSent, fieldNext_withParams hp]

theorem endAttempt_withParams (hp : p.SameRules s.params) (r : Byte) :
    (s.withParams p).endAttempt r = (s.endAttempt r).withParams p := by
  have ha : (s.withParams p).acknowledged r = s.acknowledged r := by
    simp [State.acknowledged, hp.ackSentinel]
  have hl : (s.withParams p).lastAttempt = s.lastAttempt := by
    simp only [State.lastAttempt, withParams_params, hp.retries]
    rfl
  unfold State.endAttempt
  rw [ha, hl]
  cases s.acknowledged r <;> cases s.lastAttempt <;> rfl

theorem masterMove_withParams (hp : p.SameRules s.params) :
    (s.withParams p).masterMove = s.masterMove.withParams p := by
  cases h : s.txPoint with
  | sum =>
    rw [masterMove_sum s h, masterMove_sum (s.withParams p) h]
    cases hc : s.txCounted <;> simp [hc]; rfl
  | select =>
    rw [masterMove_select s h, masterMove_select (s.withParams p) h]
    rfl
  | send sel b =>
    rw [masterMove_send s sel b h, masterMove_send (s.withParams p) sel b h]
    cases hb : s.busIn with
    | none => simp [hb]
    | some r => simpa [hb] using masterFieldSent_withParams (s := s.exchanged b r) hp sel b
  | delay sel =>
    rw [masterMove_delay s sel h, masterMove_delay (s.withParams p) sel h]
    exact fieldNext_withParams (s := s.log (.delay .byte)) hp sel
  | release => rw [masterMove_release s h, masterMove_release (s.withParams p) h]; rfl
  | finish ok =>
    rw [masterMove_finish s ok h, masterMove_finish (s.withParams p) ok h, finishSend_withParams]
  | idle | request | ack | drop | backoff =>
    rw [masterMove_other s (by simp [h]), masterMove_other (s.withParams p) (by simp [h])]

theorem slaveMove_withParams (hp : p.SameRules s.params) :
    (s.withParams p).slaveMove = s.slaveMove.withParams p := by
  cases h : s.txPoint with
  | sum =>
    rw [slaveMove_sum s h, slaveMove_sum (s.withParams p) h]
    cases hc : s.txCounted <;> simp [hc]; rfl
  | request => rw [slaveMove_request s h, slaveMove_request (s.withParams p) h]; rfl
  | send sel b =>
    rw [slaveMove_send s sel b h, slaveMove_send (s.withParams p) sel b h]
    cases hb : s.busIn with
    | none => simp [hb]
    | some r => simpa [hb] using slaveFieldSent_withParams (s := s.exchanged b r) hp sel
  | ack =>
    rw [slaveMove_ack s h, slaveMove_ack (s.withParams p) h]
    cases hb : s.busIn with
    | none => simp [hb]
    | some r => simp [hb, hp.ackRequest]; rfl
  | drop r =>
    rw [slaveMove_drop s r h, slaveMove_drop (s.withParams p) r h, endAttempt_withParams hp]
  | backoff => rw [slaveMove_backoff s h, slaveMove_backoff (s.withParams p) h]; rfl
  | finish ok =>
    rw [slaveMove_finish s ok h, slaveMove_finish (s.withParams p) ok h, finishSend_withParams]
  | idle | select | delay | release =>
    rw [slaveMove_other s (by simp [h]), slaveMove_other (s.withParams p) (by simp [h])]

theorem txMove_withParams (hp : p.SameRules s.params) :
    (s.withParams p).txMove = s.txMove.withParams p := by
  cases hr : s.role <;>
    simp [State.txMove, hr, masterMove_withParams hp, slaveMove_withParams hp]

/-! ## The decoder and the end of a frame -/

theorem takePayload_withParams (hp : p.SameRules s.params) (b : Byte) :
    (s.withParams p).takePayload b = withParamsAfter p (s.takePayload b) := by
  by_cases h : s.byteCnt.toNat < s.params.maxLen
  · have h' : (s.withParams p).byteCnt.toNat < (s.withParams p).params.maxLen := hp.maxLen ▸ h
    rw [State.takePayload, State.takePayload, stageByte_of_lt _ b h, stageByte_of_lt _ b h']
    exact congrArg Host.Outcome.next
      (cntInc_withParams (s := State.cksAdd { s with stage := s.stage.write s.byteCnt.toNat b } b))
  · have h' : (s.withParams p).params.maxLen ≤ (s.withParams p).byteCnt.toNat :=
      hp.maxLen ▸ Nat.not_lt.1 h
    rw [State.takePayload, State.takePayload, stageByte_of_le _ b h',
      stageByte_of_le _ b (Nat.not_lt.1 h)]
    rfl

theorem decTrailing_withParams (hp : p.SameRules s.params) (b : Byte) :
    (s.withParams p).decTrailing b = withParamsAfterDec p (s.decTrailing b) := by
  cases h : s.rxCursor with
  | start =>
    rw [decTrailing_start s b h, decTrailing_start (s.withParams p) b h]
    cases isMarker b <;> rfl
  | lenHi => rw [decTrailing_lenHi s b h, decTrailing_lenHi (s.withParams p) b h]; rfl
  | lenLo =>
    simp only [decTrailing_lenLo s b h, decTrailing_lenLo (s.withParams p) b h, withParams_params,
      withParams_rxLen, hp.maxLen]
    split <;> rfl
  | payload =>
    simp only [State.decTrailing, withParams_rxCursor, h, takePayload_withParams hp]
    cases s.takePayload b with
    | next t => cases hc : t.rxCounted <;> simp [hc]; rfl
    | fault e => rfl
    | refused e => rfl
  | checksum => rw [decTrailing_checksum s b h, decTrailing_checksum (s.withParams p) b h]; rfl
  | ack => simp [State.decTrailing, h]

theorem decLeading_withParams (hp : p.SameRules s.params) (b : Byte) :
    (s.withParams p).decLeading b = withParamsAfterDec p (s.decLeading b) := by
  cases h : s.rxCursor with
  | start =>
    rw [decLeading_start s b h, decLeading_start (s.withParams p) b h]
    cases isMarker b <;> rfl
  | lenHi => rw [decLeading_lenHi s b h, decLeading_lenHi (s.withParams p) b h]; rfl
  | lenLo =>
    simp only [decLeading_lenLo s b h, decLeading_lenLo (s.withParams p) b h, withParams_params,
      withParams_rxLen, hp.maxLen]
    by_cases hl : s.params.maxLen < (lenOf (lenHi s.rxLen) b).toNat <;>
      by_cases h0 : lenOf (lenHi s.rxLen) b = 0#16 <;> simp only [hl, h0, if_true, if_false] <;> rfl
  | payload =>
    simp only [State.decLeading, withParams_rxCursor, h, takePayload_withParams hp]
    cases s.takePayload b with
    | next t => cases hc : t.rxCounted <;> simp [hc]; exact ⟨rfl, rfl⟩
    | fault e => rfl
    | refused e => rfl
  | checksum => rw [decLeading_checksum s b h, decLeading_checksum (s.withParams p) b h]; rfl
  | ack => simp [State.decLeading, h]

theorem dec_withParams (hp : p.SameRules s.params) (b : Byte) :
    (s.withParams p).dec b = withParamsAfterDec p (s.dec b) := by
  cases hk : s.params.checksumPos <;>
    simp [State.dec, hk, hp.checksumPos, decTrailing_withParams hp, decLeading_withParams hp]

theorem complete_withParams (hp : p.SameRules s.params) (ok : Bool) :
    (s.withParams p).complete ok = withParamsAfter p (s.complete ok) := by
  by_cases h : s.params.maxLen < s.rxLen.toNat
  · rw [complete_fault s ok h, complete_fault _ ok (hp.maxLen ▸ h)]
    rfl
  · rw [complete_eq s ok (Nat.not_lt.1 h), complete_eq _ ok (hp.maxLen ▸ Nat.not_lt.1 h)]
    rfl

/-! ## The dispatcher -/

@[simp] theorem pullAgain_withParams : (s.withParams p).pullAgain = s.pullAgain.withParams p := by
  cases hr : s.role <;> simp [State.pullAgain, State.withParams, hr]

@[simp] theorem rejectLen_withParams : (s.withParams p).rejectLen = s.rejectLen.withParams p := by
  cases hr : s.role <;> simp [State.rejectLen, hr]

@[simp] theorem frameEnded_withParams (ok : Bool) :
    (s.withParams p).frameEnded ok = (s.frameEnded ok).withParams p := by
  cases hr : s.role <;> simp [State.frameEnded, State.withParams, hr]

@[simp] theorem checkAux_withParams (q : RxPoint) :
    (s.withParams p).checkAux q = (s.checkAux q).withParams p := by
  cases h : s.auxIn with
  | true => rw [checkAux_of_high s q h, checkAux_of_high (s.withParams p) q h]; rfl
  | false => rw [checkAux_of_low s q h, checkAux_of_low (s.withParams p) q h]; rfl

theorem takeByte_withParams (hp : p.SameRules s.params) (b : Byte) :
    (s.withParams p).takeByte b = withParamsAfter p (s.takeByte b) := by
  rw [State.takeByte, dec_withParams hp, State.takeByte]
  refine andThen_withParamsAfterDec fun t d => ?_
  cases d <;> simp

theorem takeFirst_withParams (hp : p.SameRules s.params) (b : Byte) :
    (s.withParams p).takeFirst b = withParamsAfter p (s.takeFirst b) := by
  rw [State.takeFirst, dec_withParams hp, State.takeFirst]
  refine andThen_withParamsAfterDec fun t d => ?_
  cases d <;> rfl

theorem startRxs_withParams (hp : p.SameRules s.params) (b : Byte) :
    (s.withParams p).startRxs b = withParamsAfter p (s.startRxs b) := by
  rw [State.startRxs, dec_withParams hp, State.startRxs]
  refine andThen_withParamsAfterDec fun t d => ?_
  cases d <;> rfl

theorem endOperation_withParams (hp : p.SameRules s.params) (how : RxEnd) :
    (s.withParams p).endOperation how = withParamsAfter p (s.endOperation how) := by
  cases how with
  | complete ok => exact complete_withParams hp ok
  | ignored | lenRejected | aborted => rfl

theorem ackAnswer_withParams (hp : p.SameRules s.params) (ok : Bool) :
    (s.withParams p).ackAnswer ok = s.ackAnswer ok := by
  simp [State.ackAnswer, hp.ackSentinel, hp.fill]

theorem rxMove_withParams (hp : p.SameRules s.params) :
    (s.withParams p).rxMove = withParamsAfter p s.rxMove := by
  cases h : s.rxPoint with
  | idle => rw [rxMove_idle s h, rxMove_idle (s.withParams p) h]; rfl
  | first =>
    rw [rxMove_first s h, rxMove_first (s.withParams p) h]
    cases hb : s.busIn with
    | none => simp [hb]
    | some b =>
      simpa [hb, hp.fill] using takeFirst_withParams (s := s.exchanged s.params.fill b) hp b
  | sample => simp [rxMove_sample s h, rxMove_sample (s.withParams p) h]
  | pull =>
    rw [rxMove_pull s h, rxMove_pull (s.withParams p) h]
    cases hb : s.busIn with
    | none => simp [hb]
    | some b =>
      simpa [hb, hp.fill] using takeByte_withParams (s := s.exchanged s.params.fill b) hp b
  | ackSample ok => simp [rxMove_ackSample s ok h, rxMove_ackSample (s.withParams p) ok h]
  | ackPull ok =>
    rw [rxMove_ackPull s ok h, rxMove_ackPull (s.withParams p) ok h, ackAnswer_withParams hp]
    cases hb : s.busIn <;> simp [hb]
  | release how => rw [rxMove_release s how h, rxMove_release (s.withParams p) how h]; rfl
  | finish how =>
    rw [rxMove_finish s how h, rxMove_finish (s.withParams p) how h, endOperation_withParams hp]

/-! ## The block -/

/-- Only the bytes that are parameters reach an exchange (R155, R177, R179). -/
theorem exchangeRequest_withParams (hp : p.SameRules s.params) :
    (s.withParams p).exchangeRequest = s.exchangeRequest := by
  have ht : (s.withParams p).txRequest = s.txRequest := by
    cases h : s.txPoint <;> simp [State.txRequest, h, hp.ackRequest]
  have hr : (s.withParams p).rxRequest = s.rxRequest := by
    cases h : s.rxPoint <;> simp [State.rxRequest, h, hp.fill, ackAnswer_withParams hp]
  simp only [State.exchangeRequest, ht, hr, withParams_txBusy, withParams_rxActive]

theorem activeMove_withParams (hp : p.SameRules s.params) :
    (s.withParams p).activeMove = withParamsAfter p s.activeMove := by
  cases h : s.txBusy <;>
    simp [State.activeMove, h, txMove_withParams hp, rxMove_withParams hp]

theorem execRxm_withParams : execRxm (s.withParams p) = withParamsAfter p (execRxm s) := by
  cases h : s.rxmReady <;> simp [execRxm, h]
  rfl

theorem execRxs_withParams (hp : p.SameRules s.params) (b : Byte) :
    execRxs b (s.withParams p) = withParamsAfter p (execRxs b s) := by
  cases h : s.rxsReady <;> simp [execRxs, h, startRxs_withParams hp]

theorem readyForByte_withParams (hp : p.SameRules s.params) :
    (s.withParams p).readyForByte = withParamsAfter p s.readyForByte := by
  cases h : s.publishing <;> simp [State.readyForByte, h, rxMove_withParams hp]

/-- Publishing a frame writes no parameter. -/
theorem readyForByte_params {t : State} (h : s.readyForByte = .next t) : t.params = s.params :=
  params_of_withParamsAfter (readyForByte_withParams (.refl s.params)) h

theorem blockMove_withParams (hp : p.SameRules s.params) :
    (s.withParams p).blockMove = withParamsAfter p s.blockMove := by
  cases hm : s.now.move with
  | quiet => simp [State.blockMove, hm]
  | run =>
    cases hb : s.busy <;>
      simp [State.blockMove, hm, hb, activeMove_withParams hp, execRxm_withParams]
  | byte b =>
    simp only [State.blockMove, withParams_now, hm, exchangeRequest_withParams hp,
      activeMove_withParams hp, readyForByte_withParams hp]
    cases s.exchangeRequest.isSome with
    | true => rfl
    | false =>
      exact andThen_withParamsAfter fun t ht =>
        execRxs_withParams (readyForByte_params ht ▸ hp) b

/-! ## The host's commands -/

@[simp] theorem holdCommand_withParams (i : Instr) :
    (s.withParams p).holdCommand i = (s.holdCommand i).withParams p := by
  unfold State.holdCommand
  cases encodeCmd i <;> rfl

theorem plainCommand_withParams (i : Instr) {f : State → State}
    (hf : ∀ t : State, f (t.withParams p) = (f t).withParams p) :
    (s.withParams p).plainCommand i f = (s.plainCommand i f).withParams p := by
  cases ha : s.acceptsPlain <;> cases hs : s.fault <;> simp [State.plainCommand, ha, hs, hf]

theorem startEffect_withParams (r : Role) (cb : Bool) :
    (s.withParams p).startEffect r cb = (s.startEffect r cb).withParams p := by
  cases hs : s.started <;> cases hh : s.halOk <;> cases r <;>
    simp [State.startEffect, hs, hh] <;> rfl

theorem stopEffect_withParams : (s.withParams p).stopEffect = s.stopEffect.withParams p := by
  cases hs : s.started <;> cases ha : s.rxActive <;>
    simp [State.stopEffect, State.abandonReceive, hs, ha] <;> rfl

theorem beginSend_withParams (hp : p.SameRules s.params) (len : Half) :
    (s.withParams p).beginSend len = (s.beginSend len).withParams p := by
  cases hr : s.role with
  | master =>
    cases hk : s.params.checksumPos <;>
      simp only [State.beginSend, State.beginMasterSend, withParams_role, withParams_params, hr, hk,
        hp.checksumPos] <;> rfl
  | slave => simp only [State.beginSend, withParams_role, hr]; rfl

theorem execSend_withParams (hp : p.SameRules s.params) (len : Half) :
    execSend len (s.withParams p) = withParamsAfter p (execSend len s) := by
  cases ha : s.acceptsSend <;> cases hc : s.canSend <;>
    simp [execSend, ha, hc, beginSend_withParams hp]
  rfl

theorem execRecv_withParams : execRecv (s.withParams p) = withParamsAfter p (execRecv s) := by
  have hc : (s.withParams p).plainCommand .clrnew State.clrnewEffect =
      (s.plainCommand .clrnew State.clrnewEffect).withParams p :=
    plainCommand_withParams _ fun _ => rfl
  cases ha : s.acceptsPlain <;> simp [execRecv, ha, hc]

theorem execWaitNew_withParams :
    execWaitNew (s.withParams p) = withParamsAfter p (execWaitNew s) := by
  cases hn : s.newMessage <;> simp [execWaitNew, hn]

/-- What both reserved codes do (R104). -/
theorem reserved_withParams (i : Instr) :
    (if (s.withParams p).acceptsPlain then (s.withParams p).reservedEffect
      else (s.withParams p).holdCommand i) =
    (if s.acceptsPlain then s.reservedEffect else s.holdCommand i).withParams p := by
  cases ha : s.acceptsPlain <;> simp [ha, State.reservedEffect]

/-- The operation of an item of the host's thread. -/
theorem exec_hostInstr_withParams (hp : p.SameRules s.params) (h : HostItem) :
    exec (hostInstr h) (s.withParams p) = withParamsAfter p (exec (hostInstr h) s) := by
  obtain hi | ⟨r, cb, hi⟩ | hi | ⟨len, hi⟩ | hi | hi | hi | hi | hi | hi := hostInstr_cases h <;>
    rw [hi]
  · exact congrArg Host.Outcome.next (reserved_withParams .reserved000)
  · exact congrArg Host.Outcome.next
      (plainCommand_withParams (.start r cb) fun _ => startEffect_withParams r cb)
  · exact congrArg Host.Outcome.next (plainCommand_withParams .stop fun _ => stopEffect_withParams)
  · exact execSend_withParams hp len
  · exact congrArg Host.Outcome.next (plainCommand_withParams .attach fun _ => rfl)
  · exact congrArg Host.Outcome.next (plainCommand_withParams .detach fun _ => rfl)
  · exact congrArg Host.Outcome.next (plainCommand_withParams .clrnew fun _ => rfl)
  · exact congrArg Host.Outcome.next (reserved_withParams .reserved111)
  · exact execRecv_withParams
  · exact execWaitNew_withParams

/-! ## The step -/

theorem accepts_withParams (h : HostItem) : (s.withParams p).accepts h = s.accepts h := by
  cases h <;> rfl

theorem fetch_withParams :
    (s.withParams p).fetch = s.fetch.map fun iu => (iu.1, iu.2.withParams p) := by
  cases hq : s.hostQ with
  | nil => rw [fetch_nil s hq, fetch_nil (s.withParams p) hq]; rfl
  | cons h q =>
    cases ha : s.accepts h <;> simp [State.fetch, hq, accepts_withParams, ha]
    rfl

theorem defaultTurn_withParams : (s.withParams p).defaultTurn = s.defaultTurn := by
  rw [State.defaultTurn, State.defaultTurn, sense_withParams, fetch_withParams, Option.isSome_map]

theorem latch_withParams : (s.withParams p).latch = s.latch.withParams p := by
  cases hq : s.sched with
  | cons t ts => rw [latch_cons s t ts hq, latch_cons (s.withParams p) t ts hq]; rfl
  | nil =>
    rw [latch_nil s hq, latch_nil (s.withParams p) hq, defaultTurn_withParams, sense_withParams]

/-- Taking the input signals writes no parameter. -/
theorem latch_params (s : State) : s.latch.params = s.params := by
  cases hq : s.sched with
  | nil => rw [latch_nil s hq, State.sense_params]
  | cons t ts => rw [latch_cons s t ts hq, State.sense_params]

theorem hostPart_withParams (hp : p.SameRules s.params) :
    (s.withParams p).hostPart = withParamsAfter p s.hostPart := by
  cases hf : s.fetch with
  | none => simp [State.hostPart, fetch_withParams, hf]
  | some iu =>
    obtain ⟨h, q, -, -, hi, hu⟩ := fetch_eq_some.1 (show s.fetch = some (iu.1, iu.2) from hf)
    have he := exec_hostInstr_withParams (s := iu.2) (by rw [hu]; exact hp) h
    simpa [State.hostPart, fetch_withParams, hf, hi] using he

theorem moveAfter_withParams {t : State} (hp : p.SameRules t.params) :
    (s.withParams p).moveAfter (t.withParams p) = withParamsAfter p (s.moveAfter t) := by
  by_cases hb : s.txState = .idle ∧ t.txState ≠ .idle
  · obtain ⟨hs, ht⟩ := hb
    rw [moveAfter_of_begun s t hs ht, moveAfter_of_begun (s.withParams p) (t.withParams p) hs ht]
    rfl
  · rw [State.moveAfter, State.moveAfter, if_neg hb]
    exact (if_neg hb).trans (blockMove_withParams hp)

theorem serve_withParams (hp : p.SameRules s.params) :
    (s.withParams p).serve = withParamsAfter p s.serve := by
  rw [State.serve, hostPart_withParams hp]
  exact andThen_withParamsAfter fun t ht => moveAfter_withParams
    (params_of_withParamsAfter (hostPart_withParams (.refl s.params)) ht ▸ hp)

@[simp] theorem auxPhase_withParams : (s.withParams p).auxPhase = s.auxPhase.withParams p := by
  unfold State.auxPhase
  rw [withParams_now]
  cases s.now.aux with
  | none => rfl
  | some v =>
    cases hm : s.started && s.role == .master <;>
      simp only [State.auxChange, withParams_started, withParams_role, hm] <;> rfl

/-- A step under parameters that the rules cannot tell apart is the same step. -/
theorem step_withParams (hp : p.SameRules s.params) :
    step (s.withParams p) = withParamsAfter p (step s) := by
  cases hr : s.latch.now.rst with
  | true =>
    rw [step_of_rst s hr, step_of_rst (s.withParams p) (by rw [latch_withParams]; exact hr),
      latch_withParams]
    exact congrArg Host.Outcome.next (auxPhase_withParams (s := s.latch.hardReset))
  | false =>
    rw [step_of_not_rst s hr, step_of_not_rst (s.withParams p) (by rw [latch_withParams]; exact hr),
      latch_withParams, serve_withParams (latch_params s ▸ hp)]
    exact andThen_withParamsAfter fun t _ => congrArg Host.Outcome.next auxPhase_withParams

/-- No step changes a parameter (R7). -/
theorem step_params {t : State} (h : step s = .next t) : t.params = s.params :=
  params_of_withParamsAfter (step_withParams (.refl s.params)) h

end Machine
end Sys2Proof

section

open Sys2Proof Sys2Proof.Machine

/-- Settles O17: other durations and another pin level are parameters that no rule tells apart. -/
theorem timingParametersUnread : Obligations.TimingParametersUnread := by
  intro a b lv s other
  refine ⟨?_, fun t => step_params⟩
  have hp : Params.SameRules { s.params with tByte := a, tBackoff := b, auxActiveLevel := lv }
      s.params := ⟨rfl, rfl, rfl, rfl, rfl, rfl⟩
  change step (s.withParams _) = _
  rw [step_withParams hp]
  cases hs : step s with
  | next t =>
    simp only [withParamsAfter_next, andThen_next, other, step_params hs]
    rfl
  | fault e => rfl
  | refused e => rfl

end
end

section
/-! Which states go on.  A step can only stop in the receive path: in `DEC_STEP` and in `Complete`
(R40, R41, R78).  `State.ReceiveSound` is the part of the invariant that excludes this; a host command
keeps it or begins a send, and under it the block's own move answers a next state. -/

namespace Sys2Proof.Machine

/-- The operation answers, and does not stop. -/
def Answers {α : Type} (r : Result α) : Prop := ∃ a, r = .next a

theorem answers_next {α : Type} (a : α) : Answers (.next a : Result α) := ⟨a, rfl⟩

theorem answers_andThen {α β : Type} {r : Result α} {f : α → Result β} (hr : Answers r)
    (hf : ∀ a, r = .next a → Answers (f a)) : Answers (andThen r f) := by
  obtain ⟨a, rfl⟩ := hr
  exact hf a rfl

theorem not_stops_of_answers {s : State} (h : Answers (step s)) : ¬ stops s := by
  obtain ⟨t, ht⟩ := h
  rintro (⟨e, he⟩ | ⟨e, he⟩)
  · rw [ht] at he
    cases he
  · rw [ht] at he
    cases he

/-- The place, the cursor and the counters of the dispatcher fit together and fit the buffers: the
clauses of `Inv` about a receive. -/
structure State.ReceiveSound (s : State) : Prop where
  active : s.rxActive = true ↔ s.rxPoint ≠ .idle
  rxAt : rxPlace s.role s.rxPoint s.rxCursor = true
  receiveCount :
    rxCount s.params.checksumPos s.rxCursor s.byteCnt s.rxLen s.params.maxLen
  publishFits : ∀ ok, s.rxPoint = .finish (.complete ok) → s.rxLen.toNat ≤ s.params.maxLen

/-- The two states agree in everything `State.ReceiveSound` speaks of.  A field left out is one the
update in question does not touch. -/
structure State.SameReceive (s t : State) : Prop where
  params : t.params = s.params := by rfl
  role : t.role = s.role := by rfl
  rxActive : t.rxActive = s.rxActive := by rfl
  rxPoint : t.rxPoint = s.rxPoint := by rfl
  rxCursor : t.rxCursor = s.rxCursor := by rfl
  byteCnt : t.byteCnt = s.byteCnt := by rfl
  rxLen : t.rxLen = s.rxLen := by rfl

variable {s t : State}

theorem Inv.receiveSound (h : Inv s) : s.ReceiveSound :=
  ⟨h.active, h.rxAt, h.receiveCount, h.publishFits⟩

theorem State.ReceiveSound.of_same (h : s.ReceiveSound) (e : s.SameReceive t) : t.ReceiveSound := by
  constructor
  · rw [e.rxActive, e.rxPoint]; exact h.active
  · rw [e.role, e.rxPoint, e.rxCursor]; exact h.rxAt
  · rw [e.params, e.rxCursor, e.byteCnt, e.rxLen]; exact h.receiveCount
  · rw [e.params, e.rxPoint, e.rxLen]; exact h.publishFits

/-- With no dispatcher operation in flight nothing can go wrong. -/
theorem State.ReceiveSound.of_idle (ha : s.rxActive = false) (hp : s.rxPoint = .idle)
    (hc : s.rxCursor = .start) : s.ReceiveSound := by
  constructor <;> simp [ha, hp, hc, rxPlace, rxCount]

/-- Outside an operation the cursor is at `Start`. -/
theorem State.ReceiveSound.cursor_of_inactive (h : s.ReceiveSound) (ha : s.rxActive = false) :
    s.rxCursor = .start := by
  have hp : s.rxPoint = .idle := by_contra fun hp => by simp [h.active.2 hp] at ha
  simpa [rxPlace, hp] using h.rxAt

/-! ## The host's commands -/

theorem sameReceive_holdCommand (i : Instr) : s.SameReceive (s.holdCommand i) := by
  unfold State.holdCommand
  cases encodeCmd i <;> exact {}

theorem sameReceive_done (ok : Bool) : s.SameReceive (s.done ok) := {}

theorem State.ReceiveSound.plainCommand (h : s.ReceiveSound) (i : Instr) {f : State → State}
    (hf : (f s).ReceiveSound) : (s.plainCommand i f).ReceiveSound := by
  obtain ⟨-, he⟩ | ⟨-, -, he⟩ | ⟨-, -, he⟩ := plainCommand_cases s i f <;> rw [he]
  · exact h.of_same (sameReceive_holdCommand i)
  · exact h.of_same (sameReceive_done false)
  · exact hf

theorem State.ReceiveSound.reserved (h : s.ReceiveSound) (i : Instr) :
    (if s.acceptsPlain then s.reservedEffect else s.holdCommand i).ReceiveSound := by
  split
  · exact h.of_same (sameReceive_done false)
  · exact h.of_same (sameReceive_holdCommand i)

theorem State.ReceiveSound.startEffect (h : s.ReceiveSound) (r : Role) (cb : Bool) :
    (s.startEffect r cb).ReceiveSound := by
  unfold State.startEffect
  split
  · exact h.of_same (sameReceive_done true)
  · dsimp only
    split
    · exact .of_idle rfl rfl rfl
    · exact h.of_same {}

theorem State.ReceiveSound.stopEffect (h : s.ReceiveSound) : s.stopEffect.ReceiveSound := by
  cases hs : s.started with
  | false =>
    rw [State.stopEffect, hs]
    exact h.of_same (sameReceive_done true)
  | true =>
    cases ha : s.rxActive with
    | true =>
      simp only [State.stopEffect, State.abandonReceive, hs, ha, if_true]
      exact .of_idle rfl rfl rfl
    | false =>
      simp only [State.stopEffect, State.abandonReceive, hs, ha, if_true]
      exact h.of_same { rxActive := ha.symm }

theorem beginSend_txState (s : State) (len : Half) : (s.beginSend len).txState ≠ .idle := by
  cases hr : s.role <;> cases hk : s.params.checksumPos <;>
    simp [State.beginSend, State.beginMasterSend, State.beginSlaveSend, hr, hk]

/-- What an item of the host's thread does to a receive: nothing that matters, unless a send begins,
which the block accepts only outside a receive. -/
theorem exec_hostInstr_receiveSound (hs : s.ReceiveSound) (h : HostItem) :
    ∃ t, exec (hostInstr h) s = .next t ∧
      (t.ReceiveSound ∨ s.txState = .idle ∧ t.txState ≠ .idle) := by
  obtain hi | ⟨r, cb, hi⟩ | hi | ⟨len, hi⟩ | hi | hi | hi | hi | hi | hi := hostInstr_cases h <;>
    rw [hi] <;> refine ⟨_, rfl, ?_⟩
  · exact .inl (hs.reserved _)
  · exact .inl (hs.plainCommand _ (hs.startEffect r cb))
  · exact .inl (hs.plainCommand _ hs.stopEffect)
  · split
    next ha =>
      split
      · exact .inr ⟨((acceptsSend_iff s).1 ha).1, beginSend_txState s len⟩
      · exact .inl (hs.of_same {})
    next => exact .inl (hs.of_same (sameReceive_holdCommand _))
  · exact .inl (hs.plainCommand _ (hs.of_same {}))
  · exact .inl (hs.plainCommand _ (hs.of_same {}))
  · exact .inl (hs.plainCommand _ (hs.of_same {}))
  · exact .inl (hs.reserved _)
  · left
    split
    · exact (hs.plainCommand .clrnew (f := State.clrnewEffect) (hs.of_same {})).of_same {}
    · exact hs.of_same {}
  · left
    split <;> exact hs.of_same {}

/-! ## The decoder -/

theorem answers_decTrailing (b : Byte) (hc : s.rxCursor ≠ .ack)
    (hn : s.rxCursor = .payload → s.byteCnt < s.rxLen ∧ s.rxLen.toNat ≤ s.params.maxLen) :
    Answers (s.decTrailing b) := by
  cases h : s.rxCursor with
  | start =>
    rw [decTrailing_start s b h]
    split <;> exact answers_next _
  | lenHi => exact ⟨_, decTrailing_lenHi s b h⟩
  | lenLo =>
    rw [decTrailing_lenLo s b h]
    split <;> exact answers_next _
  | payload =>
    obtain ⟨hlt, hle⟩ := hn h
    exact ⟨_, decTrailing_payload s b h hlt hle⟩
  | checksum => exact ⟨_, decTrailing_checksum s b h⟩
  | ack => exact absurd h hc

theorem answers_decLeading (b : Byte) (hc : s.rxCursor ≠ .ack)
    (hn : s.rxCursor = .payload → s.byteCnt < s.rxLen ∧ s.rxLen.toNat ≤ s.params.maxLen) :
    Answers (s.decLeading b) := by
  cases h : s.rxCursor with
  | start =>
    rw [decLeading_start s b h]
    split <;> exact answers_next _
  | lenHi => exact ⟨_, decLeading_lenHi s b h⟩
  | lenLo =>
    rw [decLeading_lenLo s b h]
    repeat' split
    all_goals exact answers_next _
  | payload =>
    obtain ⟨hlt, hle⟩ := hn h
    rw [decLeading_payload s b h hlt hle]
    split <;> exact answers_next _
  | checksum => exact ⟨_, decLeading_checksum s b h⟩
  | ack => exact absurd h hc

/-- A decoder step answers at every cursor but `Ack`, the counters inside the buffers (R126, R127). -/
theorem answers_dec (b : Byte) (hc : s.rxCursor ≠ .ack)
    (hn : rxCount s.params.checksumPos s.rxCursor s.byteCnt s.rxLen s.params.maxLen) :
    Answers (s.dec b) := by
  have hp : s.rxCursor = .payload → s.byteCnt < s.rxLen ∧ s.rxLen.toNat ≤ s.params.maxLen :=
    fun h => by simpa [rxCount, h] using hn
  unfold State.dec
  split
  · exact answers_decTrailing b hc hp
  · exact answers_decLeading b hc hp

/-! ## The block -/

theorem answers_takeFirst (b : Byte) (h : Answers (s.dec b)) : Answers (s.takeFirst b) := by
  refine answers_andThen h fun tr _ => ?_
  cases tr.2 <;> exact answers_next _

theorem answers_takeByte (b : Byte) (h : Answers (s.dec b)) : Answers (s.takeByte b) := by
  refine answers_andThen h fun tr _ => ?_
  cases tr.2 <;> exact answers_next _

theorem answers_startRxs (b : Byte) (h : Answers (s.dec b)) : Answers (s.startRxs b) := by
  refine answers_andThen h fun tr _ => ?_
  dsimp only
  cases tr.2 <;> exact answers_next _

theorem answers_endOperation (how : RxEnd)
    (hl : ∀ ok, how = .complete ok → s.rxLen.toNat ≤ s.params.maxLen) :
    Answers (s.endOperation how) := by
  cases how with
  | complete ok => exact ⟨_, complete_eq s ok (hl ok rfl)⟩
  | ignored | lenRejected | aborted => exact answers_next _

theorem answers_rxMove (hs : s.ReceiveSound) : Answers s.rxMove := by
  have hat := hs.rxAt
  cases h : s.rxPoint with
  | idle => exact ⟨_, rxMove_idle s h⟩
  | first =>
    obtain ⟨-, hc⟩ : s.role = .master ∧ s.rxCursor = .start := by simpa [rxPlace, h] using hat
    rw [rxMove_first s h]
    cases s.busIn with
    | none => exact answers_next _
    | some b => exact answers_takeFirst b (answers_dec b (by simp [hc]) hs.receiveCount)
  | sample => exact ⟨_, rxMove_sample s h⟩
  | pull =>
    have hc : s.rxCursor ≠ .ack := fun hc => by simp [rxPlace, h, hc, midFrame] at hat
    rw [rxMove_pull s h]
    cases s.busIn with
    | none => exact answers_next _
    | some b => exact answers_takeByte b (answers_dec b hc hs.receiveCount)
  | ackSample ok => exact ⟨_, rxMove_ackSample s ok h⟩
  | ackPull ok =>
    rw [rxMove_ackPull s ok h]
    cases s.busIn <;> exact answers_next _
  | release how => exact ⟨_, rxMove_release s how h⟩
  | finish how =>
    rw [rxMove_finish s how h]
    exact answers_endOperation how fun ok he => hs.publishFits ok (he ▸ h)

theorem answers_activeMove (hs : s.ReceiveSound) : Answers s.activeMove := by
  by_cases h : s.txState = .idle
  · rw [activeMove_of_idle s h]
    exact answers_rxMove hs
  · exact ⟨_, activeMove_of_busy s h⟩

/-- Outside an operation the byte meets the decoder at `Start`. -/
theorem answers_execRxs (b : Byte) (hc : s.rxActive = false → s.rxCursor = .start) :
    Answers (execRxs b s) := by
  unfold execRxs
  split
  next hr =>
    have hc : s.rxCursor = .start := hc (by simp_all [State.rxsReady, State.armed])
    exact answers_startRxs b (answers_dec b (by simp [hc]) (by simp [hc, rxCount]))
  next => exact answers_next _

theorem answers_byteTrigger (hs : s.ReceiveSound) (b : Byte) :
    Answers (andThen s.readyForByte (execRxs b)) := by
  cases hp : s.publishing with
  | false =>
    rw [readyForByte_of_not s hp]
    exact answers_execRxs b hs.cursor_of_inactive
  | true =>
    obtain ⟨ha, hr, ok, hf⟩ := (publishing_iff s).1 hp
    rw [readyForByte_of_complete s ok ha hr hf, complete_eq s ok (hs.publishFits ok hf)]
    exact answers_execRxs b fun _ => rfl

theorem answers_blockMove (hs : s.ReceiveSound) : Answers s.blockMove := by
  obtain ⟨-, he⟩ | ⟨-, -, he⟩ | ⟨-, -, he⟩ | ⟨b, -, -, he⟩ | ⟨b, -, -, he⟩ := blockMove_cases s <;>
    rw [he]
  · exact answers_next s
  · exact answers_activeMove hs
  · unfold execRxm
    split <;> exact answers_next _
  · exact answers_activeMove hs
  · exact answers_byteTrigger hs b

/-! ## The step -/

theorem State.ReceiveSound.latch (hs : s.ReceiveSound) : s.latch.ReceiveSound := by
  cases hq : s.sched with
  | nil => rw [latch_nil s hq]; exact hs.of_same {}
  | cons t ts => rw [latch_cons s t ts hq]; exact hs.of_same {}

theorem answers_serve (hs : s.ReceiveSound) : Answers s.serve := by
  cases hf : s.fetch with
  | none =>
    rw [State.serve, hostPart_of_none s hf, andThen_next, moveAfter_self]
    exact answers_blockMove hs
  | some iu =>
    obtain ⟨i, u⟩ := iu
    obtain ⟨h, q, -, -, rfl, rfl⟩ := fetch_eq_some.1 hf
    have hu : State.ReceiveSound { s with hostQ := q } :=
      hs.of_same {}
    obtain ⟨t, ht, hc⟩ := exec_hostInstr_receiveSound hu h
    rw [State.serve, hostPart_of_some s _ _ hf, ht, andThen_next]
    by_cases hb : s.txState = .idle ∧ t.txState ≠ .idle
    · rw [moveAfter_of_begun s t hb.1 hb.2]
      exact answers_next t
    · rw [State.moveAfter, if_neg hb]
      exact answers_blockMove (hc.resolve_right hb)

theorem answers_step (hs : s.ReceiveSound) : Answers (step s) := by
  cases hr : s.latch.now.rst with
  | true => exact ⟨_, step_of_rst s hr⟩
  | false =>
    rw [step_of_not_rst s hr]
    exact answers_andThen (answers_serve hs.latch) fun u _ => answers_next _

end Sys2Proof.Machine

section

open Sys2Proof Sys2Proof.Machine

/-- Settles O9: the invariant contains `State.ReceiveSound`, under which a step answers. -/
theorem neverStops : Obligations.NeverStops := fun _ hi =>
  not_stops_of_answers (answers_step hi.receiveSound)

end
end

section
/-! Every step keeps the invariant.  The two paths exclude each other, so each is treated alone:
while no receive is in flight only the clauses of `State.SendSound` have to be shown again, while no
send is in progress only those of `State.DispatchSound`. -/

namespace Sys2Proof.Machine

variable {s t : State}

/-! ## Reading the invariant -/

@[simp] theorem master_beq_slave : (Role.master == Role.slave) = false := rfl

@[simp] theorem slave_beq_master : (Role.slave == Role.master) = false := rfl

theorem txStateAt_eq_idle {role : Role} {pos : ChecksumPos} {p : TxPoint} :
    txStateAt role pos p = .idle ↔ p = .idle := by
  cases p with
  | sum => cases role <;> simp [txStateAt]
  | send sel b => cases h : inHeader pos sel <;> simp [txStateAt, h]
  | delay sel => cases h : inHeader pos sel <;> simp [txStateAt, h]
  | _ => simp [txStateAt]

theorem Inv.txState_idle_iff (h : Inv s) : s.txState = .idle ↔ s.txPoint = .idle := by
  rw [h.txState, txStateAt_eq_idle]

theorem Inv.rxPoint_of_inactive (h : Inv s) (ha : s.rxActive = false) : s.rxPoint = .idle :=
  by_contra fun hp => by simp [h.active.2 hp] at ha

theorem Inv.started_of_txPoint (h : Inv s) (hp : s.txPoint ≠ .idle) : s.started = true := by
  cases hs : s.started with
  | true => rfl
  | false => exact absurd (h.stopped hs).1 hp

theorem Inv.started_of_rxPoint (h : Inv s) (hp : s.rxPoint ≠ .idle) : s.started = true := by
  cases hs : s.started with
  | true => rfl
  | false => exact absurd (h.stopped hs).2.1 hp

theorem Inv.txPoint_of_rxPoint (h : Inv s) (hp : s.rxPoint ≠ .idle) : s.txPoint = .idle :=
  by_contra fun ht => hp (h.alone ht)

/-! ## Updates the invariant does not see -/

theorem Inv.log (h : Inv s) (e : Event) : Inv (s.log e) := { h with }

theorem Inv.exchanged (h : Inv s) (out inp : Byte) : Inv (s.exchanged out inp) := { h with }

theorem Inv.withNow (h : Inv s) (t : Turn) : Inv { s with now := t } := { h with }

theorem Inv.withSched (h : Inv s) (ts : List Turn) : Inv { s with sched := ts } := { h with }

theorem Inv.withHostQ (h : Inv s) (q : List HostItem) : Inv { s with hostQ := q } := { h with }

/-! ## What the two send FSMs share, written out -/

theorem frameSent_master (hr : s.role = .master) :
    s.frameSent = { s with txPoint := .release } := by
  simp [State.frameSent, hr]

theorem frameSent_slave (hr : s.role = .slave) :
    s.frameSent = { s with txPoint := .ack, txState := .awaitAck } := by
  simp [State.frameSent, hr]

/-- Only a Master that sums while it sends clears the accumulator (R142, R148, R152). -/
theorem enterTransfer_eq (s : State) :
    s.enterTransfer = { s with
      byteCnt := 0, txState := .transferring
      cksAcc := if s.role = .master ∧ s.params.checksumPos = .trailing then 0 else s.cksAcc } := by
  cases hr : s.role <;> cases hp : s.params.checksumPos <;>
    simp [State.enterTransfer, hr, hp] <;> rfl

/-- Outside the payload a field exchanged changes nothing but the place (R142). -/
theorem masterFieldSent_of_ne (s : State) {sel : Sel} (b : Byte) (h : sel ≠ .payload) :
    s.masterFieldSent sel b = { s with txPoint := .delay sel } := by
  cases sel with
  | payload => exact absurd rfl h
  | start | lenHi | lenLo | checksum => rfl

/-- A payload byte is counted, and added by a Master that sums while it sends (R142, R148). -/
theorem masterFieldSent_payload (s : State) (b : Byte) (h : s.byteCnt < s.txLen) :
    s.masterFieldSent .payload b = { s with
      cksAcc := if s.params.checksumPos = .trailing then s.cksAcc + b else s.cksAcc
      byteCnt := s.byteCnt + 1
      txPoint := .delay .payload } := by
  cases hp : s.params.checksumPos with
  | trailing =>
    simp only [State.masterFieldSent, hp]
    rw [cntInc_of_lt (s.cksAdd b) s.txLen h]
    simp [State.cksAdd]
  | leading =>
    simp only [State.masterFieldSent, hp]
    rw [cntInc_of_lt s s.txLen h]
    simp

/-! ## A send -/

/-- The clauses of `Inv` that a send has to keep, with no receive in flight. -/
structure State.SendSound (s : State) : Prop where
  txState : s.txState = txStateAt s.role s.params.checksumPos s.txPoint
  txAt : txPlace s.role s.params.checksumPos s.txPoint = true
  enable : s.rxEnable = (s.txState == .idle)
  chipSelect : s.csOut = (s.role == .master && csAt s.txPoint .idle)
  auxLine : s.auxOut = (s.role == .slave && auxAt s.txPoint)
  sendCount : txCount s.txPoint s.byteCnt s.txLen
  attempts : s.attemptCnt.toNat ≤ s.params.retries ∧
    (s.role = .slave → attemptCount s.txPoint s.attemptCnt.toNat s.params.retries)

/-- The two states agree in what `Inv` speaks of and no send writes. -/
structure State.SameButSend (s t : State) : Prop where
  params : t.params = s.params := by rfl
  role : t.role = s.role := by rfl
  stage : t.stage = s.stage := by rfl
  inbox : t.inbox = s.inbox := by rfl
  outbox : t.outbox = s.outbox := by rfl
  inboxSize : t.inboxSize = s.inboxSize := by rfl
  fault : t.fault = s.fault := by rfl
  started : t.started = s.started := by rfl
  auxPending : t.auxPending = s.auxPending := by rfl
  rxActive : t.rxActive = s.rxActive := by rfl
  rxPoint : t.rxPoint = s.rxPoint := by rfl
  rxCursor : t.rxCursor = s.rxCursor := by rfl

theorem Inv.sendSound (h : Inv s) (hs : s.started = true) (hr : s.rxPoint = .idle) :
    s.SendSound :=
  { h with enable := h.enable hs, chipSelect := hr ▸ h.chipSelect }

/-- What a send does to a started endpoint with no receive in flight keeps the invariant if it keeps
the clauses about the send. -/
theorem Inv.of_send (h : Inv s) (hs : s.started = true) (hr : s.rxPoint = .idle)
    (e : s.SameButSend t) (ht : t.SendSound) : Inv t where
  params := e.params ▸ h.params
  memory := by rw [e.stage, e.inbox, e.outbox]; exact h.memory
  faulted := by rw [e.fault, e.started]; exact h.faulted
  stopped := by simp [e.started, hs]
  alone := fun _ => e.rxPoint.trans hr
  active := by rw [e.rxActive, e.rxPoint]; exact h.active
  txState := ht.txState
  txAt := ht.txAt
  rxAt := by rw [e.role, e.rxPoint, e.rxCursor]; exact h.rxAt
  enable := fun _ => ht.enable
  pending := by rw [e.auxPending, e.role]; exact h.pending
  chipSelect := by rw [e.rxPoint, hr]; exact ht.chipSelect
  auxLine := ht.auxLine
  sendCount := ht.sendCount
  attempts := ht.attempts
  receiveCount := by
    have hc : s.rxCursor = .start := by simpa [rxPlace, hr] using h.rxAt
    simp [e.rxCursor, hc, rxCount]
  publishFits := by simp [e.rxPoint, hr]
  inboxFits := by rw [e.inboxSize, e.params]; exact h.inboxFits

theorem State.SendSound.rxEnable_of_busy (h : s.SendSound) (hp : s.txPoint ≠ .idle) :
    s.rxEnable = false := by
  have hb : s.txState ≠ .idle := by rwa [h.txState, Ne, txStateAt_eq_idle]
  simpa [hb] using h.enable.trans (beq_eq_false_iff_ne.2 hb)

/-- What holds between the two ends of a frame being sent: chip-select or the aux line is active,
and a Slave has begun an attempt (R42, R156). -/
structure State.MidSend (s : State) : Prop where
  enable : s.rxEnable = false
  chipSelect : s.csOut = (s.role == .master)
  auxLine : s.auxOut = (s.role == .slave)
  attempts : s.attemptCnt.toNat ≤ s.params.retries
  attempted : s.role = .slave → 1 ≤ s.attemptCnt.toNat

/-- The send FSM state in which field `sel` goes out (R141, R151). -/
def fieldState (pos : ChecksumPos) (sel : Sel) : TxState :=
  if inHeader pos sel then .framing else .transferring

theorem fieldState_ne_idle (pos : ChecksumPos) (sel : Sel) : fieldState pos sel ≠ .idle := by
  unfold fieldState
  split <;> simp

/-- Inside the bracket of a Master's send, between two events of chip-select. -/
theorem State.SendSound.midSend_master (h : s.SendSound) (hr : s.role = .master)
    (hc : csAt s.txPoint .idle = true) : s.MidSend where
  enable := h.rxEnable_of_busy fun hp => by simp [hp, csAt] at hc
  chipSelect := by rw [h.chipSelect, hc, Bool.and_true]
  auxLine := by simp [h.auxLine, hr]
  attempts := h.attempts.1
  attempted := by simp [hr]

/-- Inside an attempt of a Slave's send. -/
theorem State.SendSound.midSend_slave (h : s.SendSound) (hr : s.role = .slave)
    (ha : auxAt s.txPoint = true) : s.MidSend where
  enable := h.rxEnable_of_busy fun hp => by simp [hp, auxAt] at ha
  chipSelect := by simp [h.chipSelect, hr]
  auxLine := by rw [h.auxLine, ha, Bool.and_true]
  attempts := h.attempts.1
  attempted := fun _ => by
    have hn := h.attempts.2 hr
    cases hp : s.txPoint <;> simp [hp, auxAt] at ha <;> exact (hp ▸ hn).1

theorem State.MidSend.toField (h : s.MidSend) (sel : Sel)
    (ht : s.txState = fieldState s.params.checksumPos sel)
    (hc : sel = .payload → s.byteCnt < s.txLen) : (s.toField sel).SendSound where
  txState := ht
  txAt := by cases hr : s.role <;> simp [State.toField, txPlace, hr]
  enable := by simp [State.toField, h.enable, ht, fieldState_ne_idle]
  chipSelect := by simpa [State.toField, csAt] using h.chipSelect
  auxLine := by simpa [State.toField, auxAt] using h.auxLine
  sendCount := hc
  attempts := ⟨h.attempts, fun hr => ⟨h.attempted hr, h.attempts⟩⟩

theorem State.MidSend.frameSent (h : s.MidSend) (ht : s.txState = .transferring) :
    s.frameSent.SendSound := by
  cases hr : s.role with
  | master =>
    rw [frameSent_master hr]
    exact { txState := ht, txAt := by simp [hr, txPlace], enable := by simp [h.enable, ht],
            chipSelect := by simp [h.chipSelect, csAt], auxLine := by simp [h.auxLine, hr, auxAt],
            sendCount := trivial, attempts := ⟨h.attempts, fun _ => h.attempts⟩ }
  | slave =>
    rw [frameSent_slave hr]
    exact { txState := rfl, txAt := by simp [hr, txPlace], enable := by simp [h.enable],
            chipSelect := by simp [h.chipSelect, hr, csAt], auxLine := by simp [h.auxLine, auxAt],
            sendCount := trivial, attempts := ⟨h.attempts, fun hs => ⟨h.attempted hs, h.attempts⟩⟩ }

/-- The loop test, with the counter inside the payload. -/
theorem State.MidSend.bodyNext (h : s.MidSend) (ht : s.txState = .transferring)
    (hc : s.byteCnt ≤ s.txLen) : s.bodyNext.SendSound := by
  by_cases he : s.byteCnt = s.txLen
  · rw [bodyNext_of_eq s he]
    cases hp : s.params.checksumPos with
    | trailing => exact h.toField .checksum (by rw [ht, hp]; rfl) (by simp)
    | leading => exact h.frameSent ht
  · have hlt : s.byteCnt < s.txLen := by bv_omega
    rw [bodyNext_of_lt s hlt]
    exact h.toField .payload (by rw [ht]; cases s.params.checksumPos <;> rfl) fun _ => hlt

theorem State.MidSend.enterTransfer (h : s.MidSend) : s.enterTransfer.MidSend := by
  rw [enterTransfer_eq]
  exact { h with }

/-- Whatever field has gone out, what comes next is sound (R125). -/
theorem State.MidSend.fieldNext (h : s.MidSend) (sel : Sel)
    (ht : s.txState = fieldState s.params.checksumPos sel)
    (hc : sel = .payload → s.byteCnt ≤ s.txLen) : (s.fieldNext sel).SendSound := by
  cases sel with
  | start =>
    rw [fieldNext_start]
    cases hp : s.params.checksumPos <;> exact h.toField _ (by rw [ht, hp]; rfl) (by simp)
  | lenHi =>
    rw [fieldNext_lenHi]
    exact h.toField .lenLo (by rw [ht]; cases s.params.checksumPos <;> rfl) (by simp)
  | lenLo =>
    rw [fieldNext_lenLo]
    refine h.enterTransfer.bodyNext ?_ ?_ <;> rw [enterTransfer_eq]
    simp [BitVec.le_def]
  | payload =>
    rw [fieldNext_payload]
    exact h.bodyNext (by rw [ht]; cases s.params.checksumPos <;> rfl) (hc rfl)
  | checksum =>
    rw [fieldNext_checksum]
    cases hp : s.params.checksumPos with
    | trailing => exact h.frameSent (by rw [ht, hp]; rfl)
    | leading => exact h.toField .lenHi (by rw [ht, hp]; rfl) (by simp)

theorem sameButSend_bodyNext (s : State) : s.SameButSend s.bodyNext := by
  constructor <;> simp

theorem State.SameButSend.trans {u : State} (h : s.SameButSend t) (k : t.SameButSend u) :
    s.SameButSend u where
  params := k.params.trans h.params
  role := k.role.trans h.role
  stage := k.stage.trans h.stage
  inbox := k.inbox.trans h.inbox
  outbox := k.outbox.trans h.outbox
  inboxSize := k.inboxSize.trans h.inboxSize
  fault := k.fault.trans h.fault
  started := k.started.trans h.started
  auxPending := k.auxPending.trans h.auxPending
  rxActive := k.rxActive.trans h.rxActive
  rxPoint := k.rxPoint.trans h.rxPoint
  rxCursor := k.rxCursor.trans h.rxCursor

theorem sameButSend_fieldNext (s : State) (sel : Sel) : s.SameButSend (s.fieldNext sel) := by
  cases sel with
  | start => rw [fieldNext_start]; exact {}
  | lenHi => rw [fieldNext_lenHi]; exact {}
  | lenLo =>
    rw [fieldNext_lenLo, enterTransfer_eq]
    exact .trans {} (sameButSend_bodyNext _)
  | payload => rw [fieldNext_payload]; exact sameButSend_bodyNext s
  | checksum =>
    rw [fieldNext_checksum]
    cases s.params.checksumPos with
    | trailing => constructor <;> simp
    | leading => exact {}

/-- One payload byte summed before the frame, in either role (R122). -/
theorem State.SendSound.cksStep (h : s.SendSound) (hp : s.txPoint = .sum)
    (hn : s.txCounted = false) : s.cksStep.SendSound ∧ s.SameButSend s.cksStep := by
  have hle : s.byteCnt ≤ s.txLen := by simpa [hp, txCount] using h.sendCount
  have hne : s.byteCnt ≠ s.txLen := by simpa [State.txCounted] using hn
  have hlt : s.byteCnt < s.txLen := by bv_omega
  rw [cksStep_of_lt s s.txLen hlt]
  refine ⟨{ h with sendCount := ?_ }, {}⟩
  simp only [hp, txCount]
  bv_omega

theorem State.SendSound.finishSend (h : s.SendSound) (ok : Bool) (hp : s.txPoint = .finish ok) :
    (s.finishSend ok).SendSound := by
  have hc := h.chipSelect
  have ha := h.auxLine
  rw [finishSend_eq]
  exact
    { txState := rfl, txAt := by cases hr : s.role <;> rfl, enable := rfl,
      chipSelect := by simpa [hp, csAt] using hc, auxLine := by simpa [hp, auxAt] using ha,
      sendCount := trivial, attempts := ⟨h.attempts.1, fun _ => h.attempts.1⟩ }

/-! ## `master_send_fsm` -/

/-- A field exchanged and, in the payload, counted (R142, R148). -/
theorem masterFieldSent_sound (h : s.SendSound) (hr : s.role = .master) (sel : Sel) (b : Byte)
    (hp : s.txPoint = .send sel b) :
    (s.masterFieldSent sel b).SendSound ∧ s.SameButSend (s.masterFieldSent sel b) := by
  have hst : s.txState = fieldState s.params.checksumPos sel := by rw [h.txState, hp]; rfl
  have hcs : s.csOut = (s.role == .master) := by simpa [hp, csAt] using h.chipSelect
  have hax : s.auxOut = false := by simpa [hp, hr] using h.auxLine
  have hsound : ∀ (n : Half) (c : Byte), (sel = .payload → n ≤ s.txLen) →
      State.SendSound { s with byteCnt := n, cksAcc := c, txPoint := .delay sel } := fun n c hn =>
    { h with
      txState := hst, txAt := by simp [hr, txPlace], chipSelect := by simpa [csAt] using hcs,
      auxLine := by simpa [auxAt] using hax, sendCount := hn,
      attempts := ⟨h.attempts.1, by simp [hr]⟩ }
  by_cases hsel : sel = .payload
  · subst hsel
    have hlt : s.byteCnt < s.txLen := by simpa [hp, txCount] using h.sendCount
    rw [masterFieldSent_payload s b hlt]
    exact ⟨hsound _ _ fun _ => by bv_omega, {}⟩
  · rw [masterFieldSent_of_ne s b hsel]
    exact ⟨hsound _ _ (absurd · hsel), {}⟩

theorem Inv.masterMove (h : Inv s) (hr : s.role = .master) (hb : s.txPoint ≠ .idle) :
    Inv s.masterMove := by
  have hs := h.started_of_txPoint hb
  have hx := h.alone hb
  have hsend := h.sendSound hs hx
  cases hp : s.txPoint with
  | sum =>
    rw [masterMove_sum s hp]
    cases hc : s.txCounted with
    | true =>
      exact h.of_send hs hx {}
        { hsend with
          txState := h.txState.trans (by rw [hp, hr]; rfl), txAt := by simp [hr, txPlace],
          chipSelect := by simpa [hp, csAt] using hsend.chipSelect,
          auxLine := by simpa [hr] using h.auxLine, sendCount := trivial,
          attempts := ⟨h.attempts.1, by simp [hr]⟩ }
    | false =>
      obtain ⟨hn, he⟩ := hsend.cksStep hp hc
      exact h.of_send hs hx he hn
  | select =>
    rw [masterMove_select s hp]
    refine h.of_send hs hx {} (State.MidSend.toField ?_ .start ?_ (by simp))
    · exact
        { enable := hsend.rxEnable_of_busy hb, chipSelect := by simp [State.csWrite, hr],
          auxLine := by simpa [hr] using h.auxLine, attempts := h.attempts.1,
          attempted := by simp [hr] }
    · cases s.params.checksumPos <;> rfl
  | send sel b =>
    rw [masterMove_send s sel b hp]
    cases s.busIn with
    | none => exact h
    | some r =>
      obtain ⟨hn, he⟩ := masterFieldSent_sound ((h.exchanged b r).sendSound hs hx) hr sel b hp
      exact (h.exchanged b r).of_send hs hx he hn
  | delay sel =>
    rw [masterMove_delay s sel hp]
    have hm := ((h.log (.delay .byte)).sendSound hs hx).midSend_master hr (by simp [hp, csAt])
    refine (h.log (.delay .byte)).of_send hs hx (sameButSend_fieldNext _ sel)
      (hm.fieldNext sel ?_ ?_)
    · exact h.txState.trans (by rw [hp]; rfl)
    · simpa [hp, txCount] using h.sendCount
  | release =>
    rw [masterMove_release s hp]
    exact h.of_send hs hx {}
      { txState := rfl, txAt := by simp [hr, txPlace], enable := hsend.rxEnable_of_busy hb,
        chipSelect := by simp [csAt], auxLine := by simpa [hr] using h.auxLine,
        sendCount := trivial, attempts := ⟨h.attempts.1, by simp [hr]⟩ }
  | finish ok =>
    rw [masterMove_finish s ok hp]
    exact h.of_send hs hx (by rw [finishSend_eq]; exact {}) (hsend.finishSend ok hp)
  | idle | request | ack | drop _ | backoff => rwa [masterMove_other s (by simp [hp])]

/-! ## `slave_send_fsm` -/

/-- A field exchanged in an attempt and, in the payload, counted; then the next (R152). -/
theorem slaveFieldSent_eq (s : State) (sel : Sel) :
    s.slaveFieldSent sel = (if sel = .payload then s.cntInc else s).fieldNext sel := by
  cases sel <;> rfl

theorem slaveFieldSent_sound (h : s.SendSound) (hr : s.role = .slave) (sel : Sel) (b : Byte)
    (hp : s.txPoint = .send sel b) :
    (s.slaveFieldSent sel).SendSound ∧ s.SameButSend (s.slaveFieldSent sel) := by
  have hm : s.MidSend := h.midSend_slave hr (by simp [hp, auxAt])
  have hst : s.txState = fieldState s.params.checksumPos sel := by rw [h.txState, hp]; rfl
  rw [slaveFieldSent_eq]
  split
  next hsel =>
    subst hsel
    have hlt : s.byteCnt < s.txLen := by simpa [hp, txCount] using h.sendCount
    rw [cntInc_of_lt s s.txLen hlt]
    have hm' : State.MidSend { s with byteCnt := s.byteCnt + 1 } := { hm with }
    refine ⟨hm'.fieldNext .payload hst fun _ => ?_, .trans {} (sameButSend_fieldNext _ _)⟩
    show s.byteCnt + 1 ≤ s.txLen
    bv_omega
  next hsel => exact ⟨hm.fieldNext sel hst (absurd · hsel), sameButSend_fieldNext s sel⟩

theorem beginAttempt_midSend (h : s.SendSound) (hr : s.role = .slave) (hp : s.txPoint = .request)
    (hw : s.params.wf = true) :
    State.MidSend { s.auxWrite true with attemptCnt := s.attemptCnt + 1, txState := .framing } := by
  have hn : s.attemptCnt.toNat < s.params.retries := by
    simpa [hp, attemptCount] using h.attempts.2 hr
  have hle : s.params.retries ≤ 255 := by simp [Params.wf] at hw; omega
  have hadd : (s.attemptCnt + 1).toNat = s.attemptCnt.toNat + 1 := by bv_omega
  exact
    { enable := h.rxEnable_of_busy (by simp [hp]), chipSelect := by simpa [hr] using h.chipSelect,
      auxLine := by simp [State.auxWrite, hr],
      attempts := (by omega : (s.attemptCnt + 1).toNat ≤ s.params.retries),
      attempted := fun _ => (by omega : 1 ≤ (s.attemptCnt + 1).toNat) }

/-- Where an attempt that has ended goes on: another only while `RETRIES` allows it (R153). -/
theorem endAttempt_sound (h : s.SendSound) (hr : s.role = .slave) (r : Byte)
    (hp : s.txPoint = .drop r) :
    (s.endAttempt r).SendSound ∧ s.SameButSend (s.endAttempt r) := by
  have hcs : s.csOut = false := by simpa [hr] using h.chipSelect
  have hen : s.rxEnable = false := h.rxEnable_of_busy (by simp [hp])
  have hle := h.attempts.1
  have hfinish : ∀ ok, State.SendSound
      { s.auxWrite false with txState := .done, txPoint := .finish ok } := fun ok =>
    { txState := rfl, txAt := by simp [hr, txPlace], enable := hen, chipSelect := by simp [hr, hcs],
      auxLine := by simp [auxAt], sendCount := trivial, attempts := ⟨hle, fun _ => hle⟩ }
  unfold State.endAttempt
  dsimp only
  split
  next => exact ⟨hfinish true, {}⟩
  next =>
    split
    next => exact ⟨hfinish false, {}⟩
    next hl =>
      have hne : s.attemptCnt.toNat ≠ s.params.retries := by simpa [State.lastAttempt] using hl
      refine ⟨?_, {}⟩
      exact
        { txState := rfl, txAt := by simp [hr, txPlace], enable := hen,
          chipSelect := by simp [hr, hcs], auxLine := by simp [auxAt], sendCount := trivial,
          attempts := ⟨hle, fun _ => lt_of_le_of_ne hle hne⟩ }

theorem Inv.slaveMove (h : Inv s) (hr : s.role = .slave) (hb : s.txPoint ≠ .idle) :
    Inv s.slaveMove := by
  have hs := h.started_of_txPoint hb
  have hx := h.alone hb
  have hsend := h.sendSound hs hx
  have hcs : s.csOut = false := by simpa [hr] using h.chipSelect
  have hen := hsend.rxEnable_of_busy hb
  have hat := hsend.attempts.2 hr
  cases hp : s.txPoint with
  | sum =>
    rw [slaveMove_sum s hp]
    cases hc : s.txCounted with
    | true =>
      exact h.of_send hs hx {}
        { hsend with
          txState := h.txState.trans (by rw [hp, hr]; rfl), txAt := by simp [hr, txPlace],
          chipSelect := by simp [hr, hcs],
          auxLine := by simpa [hp, auxAt] using hsend.auxLine, sendCount := trivial,
          attempts := ⟨hsend.attempts.1, fun _ => by simpa [hp, attemptCount] using hat⟩ }
    | false =>
      obtain ⟨hn, he⟩ := hsend.cksStep hp hc
      exact h.of_send hs hx he hn
  | request =>
    rw [slaveMove_request s hp]
    have hm := beginAttempt_midSend hsend hr hp h.params
    refine h.of_send hs hx {} (hm.toField .start ?_ (by simp))
    cases s.params.checksumPos <;> rfl
  | send sel b =>
    rw [slaveMove_send s sel b hp]
    cases s.busIn with
    | none => exact h
    | some r =>
      obtain ⟨hn, he⟩ := slaveFieldSent_sound ((h.exchanged b r).sendSound hs hx) hr sel b hp
      exact (h.exchanged b r).of_send hs hx he hn
  | ack =>
    rw [slaveMove_ack s hp]
    cases s.busIn with
    | none => exact h
    | some r =>
      exact h.of_send hs hx {}
        { txState := h.txState.trans (by rw [hp]; rfl), txAt := by simp [hr, txPlace],
          enable := hsend.enable, chipSelect := by simp [hr, hcs],
          auxLine := by simpa [hp, auxAt] using hsend.auxLine, sendCount := trivial,
          attempts := ⟨hsend.attempts.1, fun _ => by simpa [hp, attemptCount] using hat⟩ }
  | drop r =>
    rw [slaveMove_drop s r hp]
    obtain ⟨hn, he⟩ := endAttempt_sound hsend hr r hp
    exact h.of_send hs hx he hn
  | backoff =>
    rw [slaveMove_backoff s hp]
    exact h.of_send hs hx {}
      { txState := rfl, txAt := by simp [hr, txPlace], enable := hen,
        chipSelect := by simp [hr, hcs], auxLine := by simpa [hp, auxAt] using hsend.auxLine,
        sendCount := trivial,
        attempts := ⟨hsend.attempts.1, fun _ => by simpa [hp, attemptCount] using hat⟩ }
  | finish ok =>
    rw [slaveMove_finish s ok hp]
    exact h.of_send hs hx (by rw [finishSend_eq]; exact {}) (hsend.finishSend ok hp)
  | idle | select | delay _ | release => rwa [slaveMove_other s (by simp [hp])]

theorem Inv.txMove (h : Inv s) (hb : s.txPoint ≠ .idle) : Inv s.txMove := by
  unfold State.txMove
  cases hr : s.role with
  | master => exact h.masterMove hr hb
  | slave => exact h.slaveMove hr hb

/-! ## The start of a send -/

/-- The first step of a send, of an endpoint with nothing in progress (R142, R152, R203). -/
theorem Inv.beginSend (h : Inv s) (hs : s.started = true) (ht : s.txPoint = .idle)
    (hr : s.rxPoint = .idle) (len : Half) : Inv (s.beginSend len) := by
  have hcs : s.csOut = false := by simpa [ht, hr, csAt] using h.chipSelect
  have hax : s.auxOut = false := by simpa [ht, auxAt] using h.auxLine
  have hretries : 0 < s.params.retries := by
    have := h.params
    simp [Params.wf] at this
    omega
  unfold State.beginSend
  cases hrole : s.role with
  | master =>
    unfold State.beginMasterSend
    cases hpos : s.params.checksumPos with
    | trailing =>
      exact h.of_send hs hr {}
        { txState := rfl, txAt := by simp [hrole, txPlace], enable := rfl,
          chipSelect := by simp [hcs, csAt], auxLine := by simp [hax, auxAt], sendCount := trivial,
          attempts := ⟨h.attempts.1, by simp [hrole]⟩ }
    | leading =>
      exact h.of_send hs hr {}
        { txState := by simp [hrole, txStateAt], txAt := by simp [hrole, hpos, txPlace],
          enable := rfl, chipSelect := by simp [hcs, csAt], auxLine := by simp [hax, auxAt],
          sendCount := BitVec.le_def.2 (Nat.zero_le _),
          attempts := ⟨h.attempts.1, by simp [hrole]⟩ }
  | slave =>
    exact h.of_send hs hr {}
      { txState := by simp [State.beginSlaveSend, hrole, txStateAt],
        txAt := by simp [State.beginSlaveSend, hrole, txPlace], enable := rfl,
        chipSelect := by simp [State.beginSlaveSend, hcs, csAt],
        auxLine := by simp [State.beginSlaveSend, hax, auxAt],
        sendCount := BitVec.le_def.2 (Nat.zero_le _),
        attempts := ⟨Nat.zero_le _, fun _ => hretries⟩ }

/-! ## A receive -/

/-- The clauses of `Inv` that a receive has to keep, with no send in progress. -/
structure State.DispatchSound (s : State) : Prop extends s.ReceiveSound where
  chipSelect : s.csOut = (s.role == .master && csAt .idle s.rxPoint)
  stage : s.stage.wf = true
  inbox : s.inbox.wf = true
  inboxFits : s.inboxSize.toNat ≤ s.params.maxLen

/-- The two states agree in what `Inv` speaks of and no primitive of a receive writes. -/
structure State.SameButReceive (s t : State) : Prop where
  params : t.params = s.params := by rfl
  role : t.role = s.role := by rfl
  outbox : t.outbox = s.outbox := by rfl
  fault : t.fault = s.fault := by rfl
  started : t.started = s.started := by rfl
  rxEnable : t.rxEnable = s.rxEnable := by rfl
  auxPending : t.auxPending = s.auxPending := by rfl
  auxOut : t.auxOut = s.auxOut := by rfl
  txState : t.txState = s.txState := by rfl
  txPoint : t.txPoint = s.txPoint := by rfl
  attemptCnt : t.attemptCnt = s.attemptCnt := by rfl

theorem Inv.dispatchSound (h : Inv s) (ht : s.txPoint = .idle) : s.DispatchSound :=
  { h.receiveSound with
    chipSelect := ht ▸ h.chipSelect, stage := h.memory.1, inbox := h.memory.2.1,
    inboxFits := h.inboxFits }

/-- What a receive does to a started endpoint with no send in progress keeps the invariant if it
keeps the clauses about the receive. -/
theorem Inv.of_receive (h : Inv s) (hs : s.started = true) (hp : s.txPoint = .idle)
    (e : s.SameButReceive t) (ht : t.DispatchSound) : Inv t where
  params := e.params ▸ h.params
  memory := ⟨ht.stage, ht.inbox, e.outbox ▸ h.memory.2.2⟩
  faulted := by rw [e.fault, e.started]; exact h.faulted
  stopped := by simp [e.started, hs]
  alone := fun hb => absurd (e.txPoint.trans hp) hb
  active := ht.active
  txState := by rw [e.txState, e.role, e.params, e.txPoint]; exact h.txState
  txAt := by rw [e.role, e.params, e.txPoint]; exact h.txAt
  rxAt := ht.rxAt
  enable := by rw [e.started, e.rxEnable, e.txState]; exact h.enable
  pending := by rw [e.auxPending, e.role]; exact h.pending
  chipSelect := by rw [e.txPoint, hp]; exact ht.chipSelect
  auxLine := by rw [e.auxOut, e.role, e.txPoint]; exact h.auxLine
  sendCount := by rw [e.txPoint, hp]; trivial
  attempts := by rw [e.attemptCnt, e.params, e.role, e.txPoint]; exact h.attempts
  receiveCount := ht.receiveCount
  publishFits := ht.publishFits
  inboxFits := ht.inboxFits

/-- What a decoder step has to answer for `Inv`: inside a frame the counters fit; only a first byte
is ignored; the way out of a frame leaves the cursor at `Start`, a whole one with a length that
fits. -/
def DecSound (prm : Params) (before after : Cursor) (cnt len : Half) : DecResult → Prop
  | .none => midFrame after = true ∧ rxCount prm.checksumPos after cnt len prm.maxLen
  | .ignored => before = .start ∧ after = .start
  | .lenRejected => before ≠ .start ∧ after = .start
  | .frame _ => before ≠ .start ∧ after = .start ∧ len.toNat ≤ prm.maxLen

/-- What a decoder step writes, and what its result says about it. -/
structure State.DecStep (s : State) (tr : State × DecResult) : Prop where
  frame : ∃ c n k l f m, tr.1 = { s with
    rxCursor := c, byteCnt := n, cksAcc := k, rxLen := l, rxCksField := f, stage := m }
  stage : s.stage.wf = true → tr.1.stage.wf = true
  sound : DecSound s.params s.rxCursor tr.1.rxCursor tr.1.byteCnt tr.1.rxLen tr.2

theorem decTrailing_decStep (b : Byte) (hc : s.rxCursor ≠ .ack)
    (hpos : s.params.checksumPos = .trailing)
    (hn : rxCount s.params.checksumPos s.rxCursor s.byteCnt s.rxLen s.params.maxLen) :
    ∃ tr, s.decTrailing b = .next tr ∧ s.DecStep tr := by
  cases h : s.rxCursor with
  | start =>
    rw [decTrailing_start s b h]
    split <;> refine ⟨_, rfl, ⟨_, _, _, _, _, _, rfl⟩, id, ?_⟩ <;>
      simp [DecSound, h, midFrame, rxCount]
  | lenHi =>
    rw [decTrailing_lenHi s b h]
    exact ⟨_, rfl, ⟨_, _, _, _, _, _, rfl⟩, id, by simp [DecSound, midFrame, rxCount]⟩
  | lenLo =>
    rw [decTrailing_lenLo s b h]
    split
    next => exact ⟨_, rfl, ⟨_, _, _, _, _, _, rfl⟩, id, by simp [DecSound, h]⟩
    next hl =>
      refine ⟨_, rfl, ⟨_, _, _, _, _, _, rfl⟩, id, ?_⟩
      by_cases h0 : lenOf (lenHi s.rxLen) b = 0#16
      · simp [DecSound, midFrame, rxCount, State.setLenLo, h0]
      · simpa [DecSound, midFrame, rxCount, State.setLenLo, h0] using ⟨by bv_omega, by omega⟩
  | payload =>
    obtain ⟨hlt, hle⟩ : s.byteCnt < s.rxLen ∧ s.rxLen.toNat ≤ s.params.maxLen := by
      simpa [rxCount, h] using hn
    rw [decTrailing_payload s b h hlt hle]
    refine ⟨_, rfl, ⟨_, _, _, _, _, _, rfl⟩, Memory.write_wf _ _ _, ?_⟩
    by_cases he : s.byteCnt + 1#16 = s.rxLen
    · simp [DecSound, midFrame, rxCount, he, hle]
    · simpa [DecSound, midFrame, rxCount, he, hle] using (by bv_omega : s.byteCnt + 1#16 < s.rxLen)
  | checksum =>
    rw [decTrailing_checksum s b h]
    have hle : s.rxLen.toNat ≤ s.params.maxLen := by simpa [rxCount, h, hpos] using hn
    exact ⟨_, rfl, ⟨_, _, _, _, _, _, rfl⟩, id, by simp [DecSound, h, hle]⟩
  | ack => exact absurd h hc

theorem decLeading_decStep (b : Byte) (hc : s.rxCursor ≠ .ack)
    (hpos : s.params.checksumPos = .leading)
    (hn : rxCount s.params.checksumPos s.rxCursor s.byteCnt s.rxLen s.params.maxLen) :
    ∃ tr, s.decLeading b = .next tr ∧ s.DecStep tr := by
  cases h : s.rxCursor with
  | start =>
    rw [decLeading_start s b h]
    split <;> refine ⟨_, rfl, ⟨_, _, _, _, _, _, rfl⟩, id, ?_⟩ <;>
      simp [DecSound, h, midFrame, rxCount, hpos]
  | checksum =>
    rw [decLeading_checksum s b h]
    exact ⟨_, rfl, ⟨_, _, _, _, _, _, rfl⟩, id, by simp [DecSound, midFrame, rxCount]⟩
  | lenHi =>
    rw [decLeading_lenHi s b h]
    exact ⟨_, rfl, ⟨_, _, _, _, _, _, rfl⟩, id, by simp [DecSound, midFrame, rxCount]⟩
  | lenLo =>
    rw [decLeading_lenLo s b h]
    split
    next => exact ⟨_, rfl, ⟨_, _, _, _, _, _, rfl⟩, id, by simp [DecSound, h]⟩
    next hl =>
      split
      next h0 =>
        exact ⟨_, rfl, ⟨_, _, _, _, _, _, rfl⟩, id, by simp [DecSound, h, State.setLenLo, h0]⟩
      next h0 =>
        refine ⟨_, rfl, ⟨_, _, _, _, _, _, rfl⟩, id, ?_⟩
        simpa [DecSound, midFrame, rxCount, State.setLenLo] using ⟨by bv_omega, by omega⟩
  | payload =>
    obtain ⟨hlt, hle⟩ : s.byteCnt < s.rxLen ∧ s.rxLen.toNat ≤ s.params.maxLen := by
      simpa [rxCount, h] using hn
    rw [decLeading_payload s b h hlt hle]
    split
    next =>
      exact ⟨_, rfl, ⟨_, _, _, _, _, _, rfl⟩, Memory.write_wf _ _ _, by simp [DecSound, h, hle]⟩
    next he =>
      refine ⟨_, rfl, ⟨_, _, _, _, _, _, rfl⟩, Memory.write_wf _ _ _, ?_⟩
      simpa [DecSound, midFrame, rxCount, h, hle] using (by bv_omega : s.byteCnt + 1#16 < s.rxLen)
  | ack => exact absurd h hc

/-- A decoder step with the counters inside the buffers, in either field order (R126, R127). -/
theorem dec_decStep (b : Byte) (hc : s.rxCursor ≠ .ack)
    (hn : rxCount s.params.checksumPos s.rxCursor s.byteCnt s.rxLen s.params.maxLen) :
    ∃ tr, s.dec b = .next tr ∧ s.DecStep tr := by
  unfold State.dec
  cases hpos : s.params.checksumPos with
  | trailing => exact decTrailing_decStep b hc hpos hn
  | leading => exact decLeading_decStep b hc hpos hn

/-- The decoder step of an exchange or of a first byte, written out (R126, R127). -/
theorem Inv.dec (h : Inv s) (b : Byte) (hc : s.rxCursor ≠ .ack) :
    ∃ c n k l f m r, s.dec b = .next ({ s with
        rxCursor := c, byteCnt := n, cksAcc := k, rxLen := l, rxCksField := f, stage := m }, r) ∧
      m.wf = true ∧ DecSound s.params s.rxCursor c n l r := by
  obtain ⟨⟨t, r⟩, he, ⟨⟨c, n, k, l, f, m, rfl⟩, hm, hr⟩⟩ := dec_decStep b hc h.receiveCount
  exact ⟨c, n, k, l, f, m, r, he, hm h.memory.1, hr⟩

/-! ## `receive_dispatcher_fsm` -/

/-- A receive in flight goes to another place, with what a decoder step writes. -/
theorem Inv.receive_goes (h : Inv s) (hp : s.rxPoint ≠ .idle) (p : RxPoint) {c : Cursor}
    {n l : Half} {m : Memory} (k f : Byte) (sh : Bool) (tr : List Event) (hm : m.wf = true)
    (hpi : p ≠ .idle) (hat : rxPlace s.role p c = true)
    (hn : rxCount s.params.checksumPos c n l s.params.maxLen)
    (hfit : ∀ ok, p = .finish (.complete ok) → l.toNat ≤ s.params.maxLen)
    (hcs : s.role = .master → csAt .idle p = csAt .idle s.rxPoint) :
    Inv { s with rxCursor := c, byteCnt := n, cksAcc := k, rxLen := l, rxCksField := f, stage := m
                 rxPoint := p, cbShadow := sh, trace := tr } := by
  have ht := h.txPoint_of_rxPoint hp
  have hds := h.dispatchSound ht
  refine h.of_receive (h.started_of_rxPoint hp) ht {}
    { active := by simp [h.active.2 hp, hpi], rxAt := hat, receiveCount := hn, publishFits := hfit,
      chipSelect := hds.chipSelect.trans ?_, stage := hm, inbox := hds.inbox,
      inboxFits := hds.inboxFits }
  cases hr : s.role with
  | master => rw [hcs hr]
  | slave => rfl

/-- The same when only the place changes. -/
theorem Inv.receive_moves (h : Inv s) (hp : s.rxPoint ≠ .idle) (p : RxPoint) (tr : List Event)
    (hpi : p ≠ .idle) (hat : rxPlace s.role p s.rxCursor = true)
    (hfit : ∀ ok, p = .finish (.complete ok) → s.rxLen.toNat ≤ s.params.maxLen)
    (hcs : s.role = .master → csAt .idle p = csAt .idle s.rxPoint) :
    Inv { s with rxPoint := p, trace := tr } :=
  h.receive_goes hp p s.cksAcc s.rxCksField s.cbShadow tr h.memory.1 hpi hat h.receiveCount hfit hcs

/-- A receive that ends without publishing leaves the cursor at `Start` and chip-select inactive. -/
theorem Inv.receive_leaves (h : Inv s) (hp : s.rxPoint ≠ .idle) (hcs : s.csOut = false)
    {c : Cursor} (hc : c = .start) {n l : Half} {m : Memory} (k f : Byte) (tr : List Event)
    (hm : m.wf = true) :
    Inv { s with rxActive := false, rxPoint := .idle, rxCursor := c, byteCnt := n, cksAcc := k
                 rxLen := l, rxCksField := f, stage := m, trace := tr } := by
  have ht := h.txPoint_of_rxPoint hp
  have hds := h.dispatchSound ht
  exact h.of_receive (h.started_of_rxPoint hp) ht {}
    { State.ReceiveSound.of_idle rfl rfl hc with
      chipSelect := by simp [hcs, csAt], stage := hm, inbox := hds.inbox,
      inboxFits := hds.inboxFits }

/-- A frame that fits is published (R180). -/
theorem Inv.complete (h : Inv s) (hp : s.rxPoint ≠ .idle) (hcs : s.csOut = false)
    (hl : s.rxLen.toNat ≤ s.params.maxLen) (ok : Bool) :
    ∃ t, s.complete ok = .next t ∧ Inv t := by
  have ht := h.txPoint_of_rxPoint hp
  refine ⟨_, complete_eq s ok hl, h.of_receive (h.started_of_rxPoint hp) ht {}
    { State.ReceiveSound.of_idle rfl rfl rfl with
      chipSelect := by simp [hcs, csAt], stage := h.memory.1,
      inbox := Memory.below_wf _ _ h.memory.1, inboxFits := hl }⟩

theorem role_cases (r : Role) : r = .master ∨ r = .slave := by cases r <;> simp

theorem pullAgain_master (hr : s.role = .master) : s.pullAgain = { s with rxPoint := .sample } := by
  simp [State.pullAgain, hr]

theorem pullAgain_slave (hr : s.role = .slave) : s.pullAgain = { s with rxPoint := .pull } := by
  simp [State.pullAgain, hr]

theorem rejectLen_master (hr : s.role = .master) : s.rejectLen = s.toRelease .lenRejected := by
  simp [State.rejectLen, hr]

theorem rejectLen_slave (hr : s.role = .slave) :
    s.rejectLen = s.leaveDispatcher.raise .lenRejected := by
  simp [State.rejectLen, hr]

/-- A byte of the frame after the first (R173, R177). -/
theorem Inv.takeByte (h : Inv s) (hp : s.rxPoint = .pull) (b : Byte) :
    ∃ t, s.takeByte b = .next t ∧ Inv t := by
  have hne : s.rxPoint ≠ .idle := by simp [hp]
  have hcs : csAt .idle s.rxPoint = true := by simp [hp, csAt]
  have hmid : midFrame s.rxCursor = true := by simpa [rxPlace, hp] using h.rxAt
  have hack : s.rxCursor ≠ .ack := fun hc => by simp [hc, midFrame] at hmid
  obtain ⟨c, n, k, l, f, m, r, he, hm, hr⟩ := h.dec b hack
  rw [State.takeByte, he]
  cases r with
  | none =>
    obtain ⟨hc, hn⟩ := hr
    refine ⟨_, rfl, ?_⟩
    obtain hrole | hrole := role_cases s.role
    · rw [pullAgain_master]
      · exact h.receive_goes hne .sample k f _ _ hm (by simp) (by simp [rxPlace, hrole, hc]) hn
          (by simp) fun _ => hcs.symm
      · exact hrole
    · rw [pullAgain_slave]
      · exact h.receive_goes hne .pull k f _ _ hm (by simp) hc hn (by simp) fun _ => hcs.symm
      · exact hrole
  | ignored =>
    obtain ⟨hc, -⟩ := hr
    simp [hc, midFrame] at hmid
  | lenRejected =>
    obtain ⟨-, rfl⟩ := hr
    refine ⟨_, rfl, ?_⟩
    obtain hrole | hrole := role_cases s.role
    · rw [rejectLen_master]
      · exact h.receive_goes hne (.release .lenRejected) k f _ _ hm (by simp)
          (by simp [rxPlace, rxPlace.rxWayOut, hrole]) trivial (by simp) fun _ => hcs.symm
      · exact hrole
    · rw [rejectLen_slave]
      · exact h.receive_leaves hne (by simp [h.chipSelect, hrole]) rfl k f _ hm
      · exact hrole
  | frame ok =>
    obtain ⟨-, rfl, hl⟩ := hr
    refine ⟨_, rfl, ?_⟩
    obtain hrole | hrole := role_cases s.role
    · rw [frameEnded_master]
      · exact h.receive_goes hne (.ackSample ok) k f _ _ hm (by simp) (by simp [rxPlace, hrole]) hl
          (by simp) fun _ => hcs.symm
      · exact hrole
    · rw [frameEnded_slave]
      · exact h.receive_goes hne (.finish (.complete ok)) k f _ _ hm (by simp)
          (by simp [rxPlace, hrole, RxEnd.isComplete]) trivial (fun _ _ => hl) (by simp [hrole])
      · exact hrole

/-- The first byte a Master pulls (R177). -/
theorem Inv.takeFirst (h : Inv s) (hp : s.rxPoint = .first) (b : Byte) :
    ∃ t, s.takeFirst b = .next t ∧ Inv t := by
  have hne : s.rxPoint ≠ .idle := by simp [hp]
  obtain ⟨hrole, hstart⟩ : s.role = .master ∧ s.rxCursor = .start := by
    simpa [rxPlace, hp] using h.rxAt
  obtain ⟨c, n, k, l, f, m, r, he, hm, hr⟩ := h.dec b (by simp [hstart])
  rw [State.takeFirst, he]
  cases r with
  | none =>
    obtain ⟨hc, hn⟩ := hr
    exact ⟨_, rfl, h.receive_goes hne .sample k f _ _ hm (by simp) (by simp [rxPlace, hrole, hc]) hn
      (by simp) (by simp [hp, csAt])⟩
  | ignored =>
    obtain ⟨-, rfl⟩ := hr
    exact ⟨_, rfl, h.receive_goes hne (.release .ignored) k f _ _ hm (by simp)
      (by simp [rxPlace, rxPlace.rxWayOut, hrole]) trivial (by simp) (by simp [hp, csAt])⟩
  | lenRejected => exact absurd hstart hr.1
  | frame ok => exact absurd hstart hr.1

/-- An abort check in a frame goes on, or to the abort path (R178). -/
theorem Inv.checkAux (h : Inv s) (p : RxPoint) (hne : s.rxPoint ≠ .idle) (hpi : p ≠ .idle)
    (hat : rxPlace s.role p s.rxCursor = true) (hfit : ∀ ok, p ≠ .finish (.complete ok))
    (hcs : s.role = .master → csAt .idle p = csAt .idle s.rxPoint ∧ csAt .idle s.rxPoint = true)
    (habort : rxPlace s.role (.release .aborted) s.rxCursor = true) : Inv (s.checkAux p) := by
  cases haux : s.auxIn with
  | true =>
    rw [checkAux_of_high s p haux]
    exact h.receive_moves hne p _ hpi hat (fun ok he => absurd he (hfit ok)) fun hr => (hcs hr).1
  | false =>
    rw [checkAux_of_low s p haux]
    exact h.receive_moves hne (.release .aborted) _ (by simp) habort (by simp) fun hr =>
      (hcs hr).2.symm

theorem Inv.endOperation (h : Inv s) (how : RxEnd) (hp : s.rxPoint = .finish how) :
    ∃ t, s.endOperation how = .next t ∧ Inv t := by
  have hne : s.rxPoint ≠ .idle := by simp [hp]
  have hcs : s.csOut = false := by
    simpa [h.txPoint_of_rxPoint hne, hp, csAt] using h.chipSelect
  have hat := h.rxAt
  cases how with
  | complete ok => exact h.complete hne hcs (h.publishFits ok hp) ok
  | ignored | lenRejected =>
    have hc : s.rxCursor = .start := by
      cases hr : s.role with
      | master => simpa [rxPlace, rxPlace.rxWayOut, hp, hr] using hat
      | slave => simp [rxPlace, hp, hr, RxEnd.isComplete] at hat
    exact ⟨_, rfl, h.receive_leaves hne hcs hc _ _ _ h.memory.1⟩
  | aborted => exact ⟨_, rfl, h.receive_leaves hne hcs rfl _ _ _ h.memory.1⟩

/-- Chip-select is released on a Master's way out; a frame to be published fits the Inbox (R101). -/
theorem Inv.release (h : Inv s) (how : RxEnd) (hp : s.rxPoint = .release how)
    (hr : s.role = .master) (hc : rxPlace.rxWayOut how s.rxCursor = true) :
    Inv { s.csWrite false with rxPoint := .finish how } := by
  have hne : s.rxPoint ≠ .idle := by simp [hp]
  have ht := h.txPoint_of_rxPoint hne
  have hfit : ∀ ok, how = .complete ok → s.rxLen.toNat ≤ s.params.maxLen := by
    rintro ok rfl
    have hack : s.rxCursor = .ack := by simpa [rxPlace.rxWayOut] using hc
    simpa [hack, rxCount] using h.receiveCount
  exact h.of_receive (h.started_of_rxPoint hne) ht {}
    { h.dispatchSound ht with
      active := by simp [State.csWrite, h.active.2 hne], rxAt := by simp [rxPlace, hr, hc],
      publishFits := fun ok he => hfit ok (by simpa using he), chipSelect := by simp [csAt] }

theorem Inv.rxMove (h : Inv s) : ∃ t, s.rxMove = .next t ∧ Inv t := by
  have hat := h.rxAt
  cases hp : s.rxPoint with
  | idle => exact ⟨s, rxMove_idle s hp, h⟩
  | first =>
    rw [rxMove_first s hp]
    cases s.busIn with
    | none => exact ⟨s, rfl, h⟩
    | some b => exact (h.exchanged s.params.fill b).takeFirst hp b
  | sample =>
    obtain ⟨hr, hc⟩ : s.role = .master ∧ midFrame s.rxCursor = true := by
      simpa [rxPlace, hp] using hat
    exact ⟨_, rxMove_sample s hp, h.checkAux .pull (by simp [hp]) (by simp) hc (by simp)
      (by simp [hp, csAt]) (by simp [rxPlace, rxPlace.rxWayOut, hr, hc])⟩
  | pull =>
    rw [rxMove_pull s hp]
    cases s.busIn with
    | none => exact ⟨s, rfl, h⟩
    | some b => exact (h.exchanged s.params.fill b).takeByte hp b
  | ackSample ok =>
    obtain ⟨hr, hc⟩ : s.role = .master ∧ s.rxCursor = .ack := by simpa [rxPlace, hp] using hat
    exact ⟨_, rxMove_ackSample s ok hp, h.checkAux (.ackPull ok) (by simp [hp]) (by simp)
      (by simp [rxPlace, hr, hc]) (by simp) (by simp [hp, csAt])
      (by simp [rxPlace, rxPlace.rxWayOut, hr, hc])⟩
  | ackPull ok =>
    obtain ⟨hr, hc⟩ : s.role = .master ∧ s.rxCursor = .ack := by simpa [rxPlace, hp] using hat
    rw [rxMove_ackPull s ok hp]
    cases s.busIn with
    | none => exact ⟨s, rfl, h⟩
    | some b =>
      exact ⟨_, rfl, (h.exchanged (s.ackAnswer ok) b).receive_moves (by simp [hp])
        (.release (.complete ok)) _ (by simp) (by simp [rxPlace, rxPlace.rxWayOut, hr, hc])
        (by simp) (by simp [hp, csAt])⟩
  | release how =>
    obtain ⟨hr, hc⟩ : s.role = .master ∧ rxPlace.rxWayOut how s.rxCursor = true := by
      simpa [rxPlace, hp] using hat
    exact ⟨_, rxMove_release s how hp, h.release how hp hr hc⟩
  | finish how =>
    rw [rxMove_finish s how hp]
    exact h.endOperation how hp

/-! ## The block -/

theorem Inv.activeMove (h : Inv s) : ∃ t, s.activeMove = .next t ∧ Inv t := by
  by_cases ht : s.txState = .idle
  · rw [activeMove_of_idle s ht]
    exact h.rxMove
  · exact ⟨_, activeMove_of_busy s ht, h.txMove (mt h.txState_idle_iff.2 ht)⟩

/-- An armed endpoint is started, with nothing in progress (R171). -/
theorem armed_iff (s : State) :
    s.armed = true ↔
      s.started = true ∧ s.rxEnable = true ∧ s.txState = .idle ∧ s.rxActive = false := by
  simp [State.armed, State.txBusy, and_assoc]

theorem Inv.startRxs (h : Inv s) (hready : s.rxsReady = true) (b : Byte) :
    ∃ t, s.startRxs b = .next t ∧ Inv t := by
  obtain ⟨ha, hrole⟩ : s.armed = true ∧ s.role = .slave := by simpa [State.rxsReady] using hready
  obtain ⟨hs, -, ht, hx⟩ := (armed_iff s).1 ha
  have htp := h.txState_idle_iff.1 ht
  have hstart : s.rxCursor = .start := h.receiveSound.cursor_of_inactive hx
  obtain ⟨c, n, k, l, f, m, r, he, hm, hr⟩ := h.dec b (by simp [hstart])
  have hds := h.dispatchSound htp
  rw [State.startRxs, he]
  cases r with
  | none =>
    obtain ⟨hc, hn⟩ := hr
    exact ⟨_, rfl, h.of_receive hs htp {}
      { active := by simp [State.enterDispatcher], rxAt := hc, receiveCount := hn,
        publishFits := by simp [State.enterDispatcher],
        chipSelect := by simp [State.enterDispatcher, State.log, h.chipSelect, hrole],
        stage := hm, inbox := hds.inbox, inboxFits := hds.inboxFits }⟩
  | ignored =>
    obtain ⟨-, rfl⟩ := hr
    exact ⟨_, rfl, h.of_receive hs htp {}
      { toReceiveSound := .of_idle hx (h.rxPoint_of_inactive hx) rfl
        chipSelect := hds.chipSelect, stage := hm, inbox := hds.inbox, inboxFits := hds.inboxFits }⟩
  | lenRejected => exact absurd hstart hr.1
  | frame ok => exact absurd hstart hr.1

theorem Inv.execRxs (h : Inv s) (b : Byte) : ∃ t, execRxs b s = .next t ∧ Inv t := by
  unfold Machine.execRxs
  split
  next hr => exact h.startRxs hr b
  next => exact ⟨_, rfl, h.log _⟩

/-- The first step of `RXM`, written out (R177, R232). -/
theorem startRxm_eq (s : State) :
    s.startRxm = { s with
      auxPending := false, rxActive := true, rxPoint := .first, csOut := true
      trace := .cs true :: s.trace } := rfl

theorem Inv.execRxm (h : Inv s) : ∃ t, execRxm s = .next t ∧ Inv t := by
  unfold Machine.execRxm
  split
  next hready =>
    obtain ⟨⟨ha, hrole⟩, -⟩ : (s.armed = true ∧ s.role = .master) ∧ s.auxPending = true := by
      simpa [State.rxmReady] using hready
    obtain ⟨hs, -, ht, hx⟩ := (armed_iff s).1 ha
    have htp := h.txState_idle_iff.1 ht
    have hstart : s.rxCursor = .start := h.receiveSound.cursor_of_inactive hx
    have h' : Inv { s with auxPending := false } :=
      { h with stopped := by simp [hs], pending := by simp }
    rw [startRxm_eq]
    exact ⟨_, rfl, h'.of_receive hs htp {}
      { h'.dispatchSound htp with
        active := by simp, rxAt := by simp [rxPlace, hrole, hstart], publishFits := by simp
        chipSelect := by simp [csAt, hrole] }⟩
  next => exact ⟨s, rfl, h⟩

theorem Inv.readyForByte (h : Inv s) : ∃ t, s.readyForByte = .next t ∧ Inv t := by
  unfold State.readyForByte
  split
  · exact h.rxMove
  · exact ⟨s, rfl, h⟩

/-- The block's own move answers and keeps the invariant. -/
theorem Inv.blockMove (h : Inv s) : ∃ t, s.blockMove = .next t ∧ Inv t := by
  obtain ⟨-, he⟩ | ⟨-, -, he⟩ | ⟨-, -, he⟩ | ⟨b, -, -, he⟩ | ⟨b, -, -, he⟩ := blockMove_cases s <;>
    rw [he]
  · exact ⟨s, rfl, h⟩
  · exact h.activeMove
  · exact h.execRxm
  · exact h.activeMove
  · obtain ⟨u, hu, hi⟩ := h.readyForByte
    rw [hu]
    exact hi.execRxs b

/-! ## The host's commands -/

theorem Inv.holdCommand (h : Inv s) (i : Instr) : Inv (s.holdCommand i) := by
  unfold State.holdCommand
  cases encodeCmd i with
  | some c => exact { h with }
  | none => exact h

theorem Inv.hold (h : Inv s) (i : HostItem) : Inv (s.hold i) := { h with }

/-- An effect that keeps the invariant where it can happen keeps it within the shared frame of a
command (R200, R211). -/
theorem Inv.plainCommand (h : Inv s) (i : Instr) {f : State → State}
    (hf : s.txState = .idle → s.fault = false → Inv (f s)) : Inv (s.plainCommand i f) := by
  obtain ⟨-, he⟩ | ⟨-, -, he⟩ | ⟨ht, hfault, he⟩ := plainCommand_cases s i f <;> rw [he]
  · exact h.holdCommand i
  · exact h.log _
  · exact hf ht hfault

/-- What an effective `START` writes, in either role (R201, R278). -/
theorem initialise_eq (s : State) (r : Role) (cb : Bool) :
    s.initialise r cb = { s with
      auxPrev := if r = .master then s.auxIn else s.auxPrev
      trace := (if r = .master then [.auxRead s.auxIn] else []) ++ s.trace
      role := r, cbEnable := cb, newMessage := false, success := false, auxPending := false
      rxCursor := .start, rxActive := false, rxPoint := .idle, rxEnable := true
      started := true } := by
  cases r <;> rfl

theorem Inv.initialise (h : Inv s) (hs : s.started = false) (hf : s.fault = false) (r : Role)
    (cb : Bool) : Inv (s.initialise r cb) := by
  obtain ⟨htp, hrp, -, -, -⟩ := h.stopped hs
  have ht : s.txState = .idle := h.txState_idle_iff.2 htp
  have hcs : s.csOut = false := by simpa [htp, hrp, csAt] using h.chipSelect
  have hax : s.auxOut = false := by simpa [htp, auxAt] using h.auxLine
  rw [initialise_eq]
  exact
    { h with
      faulted := by simp [hf], stopped := by simp, alone := fun _ => rfl, active := by simp
      txState := by simp [ht, htp, txStateAt], txAt := by cases r <;> simp [htp, txPlace]
      rxAt := rfl, enable := by simp [ht], pending := by simp
      chipSelect := by simp [hcs, htp, csAt]
      auxLine := by simp [hax, htp, auxAt], receiveCount := trivial, publishFits := by simp
      attempts := ⟨h.attempts.1, fun _ => by simpa [htp, attemptCount] using h.attempts.1⟩ }

theorem Inv.startEffect (h : Inv s) (hf : s.fault = false) (r : Role) (cb : Bool) :
    Inv (s.startEffect r cb) := by
  unfold State.startEffect
  split
  next => exact h.log _
  next hs =>
    have hs : s.started = false := by simpa using hs
    dsimp only
    split
    next => exact ((h.log _).initialise hs hf r cb).log _
    next => exact { h with faulted := fun _ => hs }

theorem stopEffect_of_stopped (hs : s.started = false) : s.stopEffect = s.done true := by
  simp [State.stopEffect, hs]

/-- `STOP` in the middle of a receive abandons it (R202). -/
theorem stopEffect_of_active (hs : s.started = true) (ha : s.rxActive = true) :
    s.stopEffect = { s with
      started := false, rxEnable := false, auxPending := false, rxActive := false, rxPoint := .idle
      rxCursor := .start, csOut := false, inboxSize := 0
      trace := .cmdDone true :: .cs false :: s.trace } := by
  simp only [State.stopEffect, State.abandonReceive, hs, ha, if_true]
  rfl

theorem stopEffect_of_inactive (hs : s.started = true) (ha : s.rxActive = false) :
    s.stopEffect = { s with
      started := false, rxEnable := false, auxPending := false, csOut := false, inboxSize := 0
      trace := .cmdDone true :: .cs false :: s.trace } := by
  simp [State.stopEffect, State.abandonReceive, hs, ha, State.csWrite, State.done, State.log]

/-- An endpoint with no send in progress is stopped, a receive in flight abandoned (R202). -/
theorem Inv.stop (h : Inv s) (ht : s.txPoint = .idle) {a : Bool} {p : RxPoint} {c : Cursor}
    (ha : a = false) (hp : p = .idle) (hc : c = .start) (tr : List Event) :
    Inv { s with started := false, rxEnable := false, auxPending := false, rxActive := a
                 rxPoint := p, rxCursor := c, csOut := false, inboxSize := 0, trace := tr } := by
  subst ha hp hc
  exact
    { h with
      faulted := fun _ => rfl, stopped := fun _ => ⟨ht, rfl, rfl, rfl, rfl⟩, alone := fun _ => rfl
      active := by simp, rxAt := rfl, enable := by simp, pending := by simp
      chipSelect := by simp [ht, csAt], receiveCount := trivial, publishFits := by simp
      inboxFits := Nat.zero_le _ }

theorem Inv.stopEffect (h : Inv s) (ht : s.txState = .idle) : Inv s.stopEffect := by
  have htp := h.txState_idle_iff.1 ht
  cases hs : s.started with
  | false =>
    rw [stopEffect_of_stopped hs]
    exact h.log _
  | true =>
    cases ha : s.rxActive with
    | true =>
      rw [stopEffect_of_active hs ha]
      exact h.stop htp rfl rfl rfl _
    | false =>
      rw [stopEffect_of_inactive hs ha]
      exact h.stop htp ha (h.rxPoint_of_inactive ha) (h.receiveSound.cursor_of_inactive ha) _

theorem Inv.send (h : Inv s) (len : Half) :
    Inv (if s.acceptsSend then (if s.canSend then s.beginSend len else s.rejectSend)
      else s.holdCommand (.send len)) := by
  split
  next ha =>
    obtain ⟨ht, hx, -⟩ := (acceptsSend_iff s).1 ha
    split
    next hc =>
      exact h.beginSend ((canSend_iff s).1 hc).2 (h.txState_idle_iff.1 ht)
        (h.rxPoint_of_inactive hx) len
    next => exact { h with }
  next => exact h.holdCommand _

/-- Every item of the host's thread keeps the invariant. -/
theorem Inv.exec_hostInstr (h : Inv s) (i : HostItem) :
    ∃ t, exec (hostInstr i) s = .next t ∧ Inv t := by
  have hreserved : ∀ j, Inv (if s.acceptsPlain then s.reservedEffect else s.holdCommand j) := by
    intro j
    split
    · exact h.log _
    · exact h.holdCommand j
  have hclrnew : Inv (s.plainCommand .clrnew State.clrnewEffect) :=
    h.plainCommand _ fun _ _ => { h with }
  obtain hi | ⟨r, cb, hi⟩ | hi | ⟨len, hi⟩ | hi | hi | hi | hi | hi | hi := hostInstr_cases i <;>
    rw [hi] <;> refine ⟨_, rfl, ?_⟩
  · exact hreserved _
  · exact h.plainCommand _ fun _ hf => h.startEffect hf r cb
  · exact h.plainCommand _ fun ht _ => h.stopEffect ht
  · exact h.send len
  · exact h.plainCommand _ fun _ _ => { h with }
  · exact h.plainCommand _ fun _ _ => { h with }
  · exact hclrnew
  · exact hreserved _
  · split
    · exact hclrnew.hold _
    · exact h.hold _
  · split
    · exact h.log _
    · exact h.hold _

/-! ## The step -/

theorem Inv.sense (h : Inv s) (t : Turn) : Inv (s.sense t) :=
  { h with
    memory := ⟨h.memory.1, h.memory.2.1, by
      cases ht : t.outbox with
      | none => simpa [State.sense, Turn.outboxAfter, ht] using h.memory.2.2
      | some ib =>
        simpa [State.sense, Turn.outboxAfter, ht] using Memory.write_wf _ _ _ h.memory.2.2⟩ }

theorem Inv.latch (h : Inv s) : Inv s.latch := by
  cases hq : s.sched with
  | nil => rw [latch_nil s hq]; exact h.sense _
  | cons t ts => rw [latch_cons s t ts hq]; exact (h.withSched ts).sense t

theorem Inv.auxChange (h : Inv s) (v : Bool) : Inv (s.auxChange v) := by
  unfold State.auxChange
  split
  next hm =>
    obtain ⟨hs, hr⟩ : s.started = true ∧ s.role = .master := by simpa using hm
    exact { h with stopped := by simp [hs], pending := fun _ => hr }
  next => exact { h with }

theorem Inv.auxPhase (h : Inv s) : Inv s.auxPhase := by
  obtain ⟨-, he⟩ | ⟨v, -, he⟩ := auxPhase_cases s <;> rw [he]
  · exact h
  · exact h.auxChange v

theorem Inv.hardReset (h : Inv s) : Inv s.hardReset where
  params := h.params
  memory := ⟨rfl, rfl, h.memory.2.2⟩
  faulted := fun _ => rfl
  stopped := fun _ => ⟨rfl, rfl, rfl, rfl, rfl⟩
  alone := fun _ => rfl
  active := by simp [State.hardReset, State.reset]
  txState := rfl
  txAt := rfl
  rxAt := rfl
  enable := by simp [State.hardReset, State.reset]
  pending := by simp [State.hardReset, State.reset]
  chipSelect := rfl
  auxLine := rfl
  sendCount := trivial
  attempts := ⟨Nat.zero_le _, fun hr => by simp [State.hardReset, State.reset] at hr⟩
  receiveCount := trivial
  publishFits := by simp [State.hardReset, State.reset]
  inboxFits := Nat.zero_le _

/-- What the host's part of a step makes of the state keeps the invariant (R200). -/
theorem Inv.hostPart (h : Inv s) : ∃ t, s.hostPart = .next t ∧ Inv t := by
  cases hf : s.fetch with
  | none => exact ⟨s, hostPart_of_none s hf, h⟩
  | some iu =>
    obtain ⟨i, u⟩ := iu
    obtain ⟨j, q, -, -, rfl, rfl⟩ := fetch_eq_some.1 hf
    rw [hostPart_of_some s _ _ hf]
    exact (h.withHostQ q).exec_hostInstr j

/-- A step of a sound endpoint answers, and what it answers is sound. -/
theorem Inv.step (h : Inv s) : ∃ t, step s = .next t ∧ Inv t := by
  cases hr : s.latch.now.rst with
  | true => exact ⟨_, step_of_rst s hr, h.latch.hardReset.auxPhase⟩
  | false =>
    obtain ⟨t, ht, hi⟩ := h.latch.hostPart
    rw [step_of_not_rst s hr, State.serve, ht, andThen_next]
    unfold State.moveAfter
    split
    · exact ⟨_, rfl, hi.auxPhase⟩
    · obtain ⟨u, hu, hiu⟩ := hi.blockMove
      rw [hu]
      exact ⟨_, rfl, hiu.auxPhase⟩

/-- Every step keeps the invariant. -/
theorem Inv.of_step (h : Inv s) (ht : Machine.step s = .next t) : Inv t := by
  obtain ⟨u, hu, hi⟩ := h.step
  rw [ht] at hu
  cases hu
  exact hi

theorem Inv.of_stepWith (h : Inv s) {tn : Turn} (ht : s.stepWith tn = .next t) : Inv t :=
  (h.withSched _).of_step ht

end Sys2Proof.Machine
end

section
/-! A step of the link: what each agent's turn does to the two endpoints, and what the aux line then
carries (R85, R240, R241). -/

namespace Sys2Proof.Machine

variable {l k : Link}

/-- The turn of one agent, before the aux line takes its level: the middle part of `linkStep`. -/
def Link.take (l : Link) : LinkTurn → Result Link
  | .master a b => l.masterTurn a b
  | .slave => l.onlySlave Turn.run
  | .masterHost h => l.onlyMaster { Turn.idle with offer := some h }
  | .slaveHost h => l.onlySlave { Turn.idle with offer := some h }
  | .masterReset => l.onlyMaster { Turn.idle with rst := true }
  | .slaveReset => l.onlySlave { Turn.idle with rst := true }
  | .auxLevel v => .next (l.auxInput v)

theorem linkStep_cons {t : LinkTurn} {ts : List LinkTurn} (h : l.sched = t :: ts) :
    linkStep l = andThen (Link.take { l with sched := ts } t) fun k => .next (l.wire k) := by
  unfold linkStep
  rw [h]
  cases t <;> rfl

/-- A step of the link is an agent's turn and then the aux line, unless nothing is scheduled. -/
theorem linkStep_eq_next :
    linkStep l = .next k ↔ (l.sched = [] ∧ k = l) ∨
      ∃ t ts k₁, l.sched = t :: ts ∧ Link.take { l with sched := ts } t = .next k₁ ∧
        k = l.wire k₁ := by
  cases hs : l.sched with
  | nil => simp [linkStep, hs, eq_comm]
  | cons t ts =>
    rw [linkStep_cons hs, andThen_eq_next]
    simp [eq_comm]

/-- The invariant holds at both ends. -/
def Link.Sound (l : Link) : Prop := Inv l.master ∧ Inv l.slave

theorem Link.Sound.setAux (h : l.Sound) (v : Bool) : (l.setAux v).Sound := by
  unfold Link.setAux
  split
  · exact h
  · exact ⟨h.1.auxChange v, h.2⟩

theorem Link.Sound.wire (h : k.Sound) (l : Link) : (l.wire k).Sound := by
  unfold Link.wire
  split
  · exact h.setAux _
  · exact h

theorem Link.Sound.onlyMaster (h : l.Sound) {t : Turn} (hk : l.onlyMaster t = .next k) :
    k.Sound := by
  obtain ⟨m, hm, rfl⟩ := (onlyMaster_eq_next l k t).1 hk
  exact ⟨h.1.of_stepWith hm, h.2⟩

theorem Link.Sound.onlySlave (h : l.Sound) {t : Turn} (hk : l.onlySlave t = .next k) :
    k.Sound := by
  obtain ⟨s, hs, rfl⟩ := (onlySlave_eq_next l k t).1 hk
  exact ⟨h.1, h.2.of_stepWith hs⟩

theorem Link.Sound.both (h : l.Sound) {tm ts : Turn} (hk : l.both tm ts = .next k) :
    k.Sound := by
  obtain ⟨m, s, hm, hs, rfl⟩ := (both_eq_next l k tm ts).1 hk
  exact ⟨h.1.of_stepWith hm, h.2.of_stepWith hs⟩

/-- Whichever agent acts, both ends keep the invariant. -/
theorem Link.Sound.take (h : l.Sound) {t : LinkTurn} (hk : l.take t = .next k) : k.Sound := by
  cases t with
  | master a b =>
    cases hr : l.master.requestUnder Turn.run with
    | none => exact h.onlyMaster ((masterTurn_of_none l a b hr).symm.trans hk)
    | some m => exact h.both ((masterTurn_of_some l m a b hr).symm.trans hk)
  | slave | slaveHost _ | slaveReset => exact h.onlySlave hk
  | masterHost _ | masterReset => exact h.onlyMaster hk
  | auxLevel v =>
    cases hk
    unfold Link.auxInput
    split
    · exact h
    · exact h.setAux v

/-- An endpoint that is no started Slave leaves the aux line released (R42, R261). -/
theorem Inv.auxOut_of_not_drives {s : State} (h : Inv s) (hd : s.drivesAux = false) :
    s.auxOut = false := by
  rw [h.auxLine]
  cases hr : s.role with
  | master => rfl
  | slave =>
    have hs : s.started = false := by simpa [State.drivesAux, hr] using hd
    simp [(h.stopped hs).1, auxAt]

end Sys2Proof.Machine

section

open Sys2Proof Sys2Proof.Machine

/-- Settles O59: each turn keeps the invariant, and the line is wired to the Slave after it. -/
theorem linkKeepsInvariant : Obligations.LinkKeepsInvariant := by
  intro l k hm hs hk drives
  have hdrives : ∀ s : State, drives s ↔ s.drivesAux = true := fun s => (drivesAux_iff s).symm
  simp only [hdrives]
  obtain ⟨hnil, rfl⟩ | ⟨t, ts, k₁, hcons, htake, rfl⟩ := linkStep_eq_next.1 hk
  · exact ⟨hm, hs, id, by simp [hnil], by simp [hnil]⟩
  · have hsound : (l.wire k₁).Sound :=
      (Link.Sound.take (l := { l with sched := ts }) ⟨hm, hs⟩ htake).wire l
    refine ⟨hsound.1, hsound.2, fun _ hd => ?_, fun _ hl hd => ?_, fun v ts' hv hl => ?_⟩
    · rw [wire_slave] at hd ⊢
      exact wire_auxIn_of_drives l k₁ (.inr hd)
    · rw [wire_auxIn_of_drives l k₁ (.inl hl), ← wire_slave l k₁]
      exact hsound.2.auxOut_of_not_drives (by simpa using hd)
    · obtain ⟨rfl, rfl⟩ : t = .auxLevel v ∧ ts = ts' := by simpa [hcons] using hv
      have hl : l.slave.drivesAux = false := by simpa using hl
      have hk₁ : k₁ = Link.setAux { l with sched := ts } v := by
        cases htake
        simp [Link.auxInput, hl]
      rw [hk₁, wire_of_not_drives l _ hl (by simpa using hl)]
      simp

end
end

section
/-! What the host sees and offers: the reads (R59, R75), the wait (R106), and a command that is not
accepted (R200). -/

namespace Sys2Proof.Machine

variable {s : State}

theorem txBusy_eq (s : State) : s.txBusy = decide (s.txState ≠ .idle) := by
  by_cases h : s.txState = .idle <;> simp [State.txBusy, h]

theorem busy_eq (s : State) : s.busy = (decide (s.txState ≠ .idle) || s.rxActive) := by
  rw [State.busy, txBusy_eq, State.rxBusy]

theorem acceptsPlain_of_busy (h : s.txState ≠ .idle) : s.acceptsPlain = false := by
  simp [State.acceptsPlain, txBusy_eq, h]

theorem acceptsSend_of_not
    (h : ¬ (s.txState = .idle ∧ s.rxActive = false ∧ s.triggerReady = false)) :
    s.acceptsSend = false := by
  rw [← Bool.not_eq_true, acceptsSend_iff]
  exact h

theorem plainCommand_of_busy (h : s.txState ≠ .idle) (i : Instr) (f : State → State) :
    s.plainCommand i f = s.holdCommand i := by
  simp [State.plainCommand, acceptsPlain_of_busy h]

/-- A command that is not accepted goes back to the head of the host's thread (R57, R200). -/
theorem holdCommand_of_encode {i : Instr} {c : CmdPort} (h : encodeCmd i = some c) :
    s.holdCommand i = { s with hostQ := .cmd c :: s.hostQ } := by
  simp [State.holdCommand, h, State.hold]

theorem execSend_of_not_accepted (len : Half) (h : s.acceptsSend = false) :
    exec (.send len) s = .next (s.holdCommand (.send len)) := by
  simp [exec, execSend, h]

/-- While a send is in progress every command waits (R200). -/
theorem exec_command_of_busy (h : s.txState ≠ .idle) {i : Instr} {c : CmdPort}
    (hc : encodeCmd i = some c) (hm : ∀ len, i ≠ .msend len) (hs : ∀ len, i ≠ .ssend len) :
    exec i s = .next { s with hostQ := .cmd c :: s.hostQ } := by
  rw [← holdCommand_of_encode hc]
  have ha := acceptsPlain_of_busy h
  cases i with
  | reserved000 => simp [exec, execReserved000, ha]
  | reserved111 => simp [exec, execReserved111, ha]
  | start r cb => simp [exec, execStart, plainCommand_of_busy h]
  | stop => simp [exec, execStop, plainCommand_of_busy h]
  | attach => simp [exec, execAttach, plainCommand_of_busy h]
  | detach => simp [exec, execDetach, plainCommand_of_busy h]
  | clrnew => simp [exec, execClrnew, plainCommand_of_busy h]
  | send len => exact execSend_of_not_accepted len (acceptsSend_of_not fun hn => h hn.1)
  | msend len => exact absurd rfl (hm len)
  | ssend len => exact absurd rfl (hs len)
  | _ => cases hc

end Sys2Proof.Machine

section

open Sys2Proof Sys2Proof.Machine

/-- Settles O38: the wait goes on or ends with one read of the flag. -/
theorem waitReadsFlag : Obligations.WaitReadsFlag := by
  intro s
  constructor <;> intro h <;> simp [exec, execWaitNew, h, State.log, State.hold]

/-- Settles O40: the shared frame of a command holds it while the block is busy. -/
theorem commandsWait : Obligations.CommandsWait := by
  intro s r cb len
  refine ⟨fun ht i hi => ?_, fun hready => ⟨_, rfl, ?_⟩⟩
  · simp only [List.mem_cons, List.not_mem_nil, or_false] at hi
    rcases hi with rfl | rfl | rfl | rfl | rfl | rfl | rfl | rfl <;>
      exact ⟨_, rfl, exec_command_of_busy ht rfl (by simp) (by simp)⟩
  · have hn : s.acceptsSend = false :=
      acceptsSend_of_not fun ⟨_, hx, htr⟩ => by simp [hx, htr] at hready
    rw [execSend_of_not_accepted len hn, holdCommand_of_encode rfl]

/-- Settles O57: each status bit is the register it is named after, `busy` that of either path. -/
theorem statusReads : Obligations.StatusReads := by
  intro s i bit
  refine ⟨rfl, rfl, rfl, rfl, rfl, rfl, rfl, rfl, ?_, fun h => ?_, fun h => ?_⟩
  · rw [← busy_eq]
    rfl
  · rw [State.inboxByte, if_neg (by omega)]
  · rw [State.inboxByte, if_pos h]

end
end

section
/-! The byte that meets an endpoint: the exchange it completes, the receive it starts, or nobody
(R51, R61, R91, R171). -/

namespace Sys2Proof.Machine

variable {s : State}

/-! ## The outstanding exchange (R51) -/

theorem txRequest_eq_some {b : Byte} :
    s.txRequest = some b ↔
      (∃ sel, s.txPoint = .send sel b) ∨ (s.txPoint = .ack ∧ b = s.params.ackRequest) := by
  unfold State.txRequest
  cases s.txPoint <;> simp [eq_comm]

theorem rxRequest_eq_some {b : Byte} :
    s.rxRequest = some b ↔
      ((s.rxPoint = .first ∨ s.rxPoint = .pull) ∧ b = s.params.fill) ∨
        ∃ ok, s.rxPoint = .ackPull ok ∧ b = s.ackAnswer ok := by
  unfold State.rxRequest
  cases s.rxPoint <;> simp [eq_comm]

theorem exchangeRequest_of_busy (ht : s.txState ≠ .idle) : s.exchangeRequest = s.txRequest := by
  simp [State.exchangeRequest, txBusy_eq, ht]

theorem exchangeRequest_of_active (ht : s.txState = .idle) (ha : s.rxActive = true) :
    s.exchangeRequest = s.rxRequest := by
  simp [State.exchangeRequest, txBusy_eq, ht, ha]

theorem exchangeRequest_of_inactive (ht : s.txState = .idle) (ha : s.rxActive = false) :
    s.exchangeRequest = none := by
  simp [State.exchangeRequest, txBusy_eq, ht, ha]

theorem busy_of_exchangeRequest (h : s.exchangeRequest ≠ none) : s.busy = true := by
  rw [busy_eq]
  by_cases ht : s.txState = .idle
  · cases ha : s.rxActive with
    | true => simp
    | false => exact absurd (exchangeRequest_of_inactive ht ha) h
  · simp [ht]

/-- An exchange that gets no byte changes nothing: the operation is held (R158, R175). -/
theorem activeMove_of_held (h : s.exchangeRequest ≠ none) (hb : s.busIn = none) :
    s.activeMove = .next s := by
  obtain ⟨b, hr⟩ := Option.ne_none_iff_exists'.1 h
  by_cases ht : s.txState = .idle
  · cases ha : s.rxActive with
    | false => exact absurd (exchangeRequest_of_inactive ht ha) h
    | true =>
      rw [activeMove_of_idle s ht]
      rw [exchangeRequest_of_active ht ha, rxRequest_eq_some] at hr
      obtain ⟨hp | hp, -⟩ | ⟨ok, hp, -⟩ := hr
      · rw [rxMove_first s hp, hb]
      · rw [rxMove_pull s hp, hb]
      · rw [rxMove_ackPull s ok hp, hb]
  · rw [activeMove_of_busy s ht, State.txMove]
    rw [exchangeRequest_of_busy ht, txRequest_eq_some] at hr
    obtain ⟨sel, hp⟩ | ⟨hp, -⟩ := hr
    · rw [masterMove_send s sel b hp, slaveMove_send s sel b hp, hb]
      cases s.role <;> rfl
    · rw [masterMove_other s (by simp [hp]), slaveMove_ack s hp, hb]
      cases s.role <;> rfl

/-- A step of a held Slave that the Master does not clock takes the signals and nothing else. -/
theorem runTurns_of_held (hr : s.role = .slave) (he : s.exchangeRequest ≠ none) (ts : List Turn) :
    State.runTurns (Turn.run :: ts) s = State.runTurns ts { s with now := Turn.run } := by
  refine runTurns_cons_of_move _ _ _ _ ?_ rfl
  rw [blockMove_run_busy rfl (busy_of_exchangeRequest (s := { s with now := Turn.run }) he)]
  exact activeMove_of_held he (busIn_run_slave _ rfl hr)

/-! ## The first byte of a frame at a Slave (R173, R181) -/

/-- Where the cursor goes after the marker (R126, R127). -/
def cursorAfterMarker (pos : ChecksumPos) : Cursor :=
  match pos with
  | .trailing => .lenHi
  | .leading => .checksum

theorem dec_of_start (hc : s.rxCursor = .start) (b : Byte) :
    s.dec b = if b = 0x24 then
        .next ({ s with rxCursor := cursorAfterMarker s.params.checksumPos }, .none)
      else .next (s, .ignored) := by
  have hm : isMarker b = true ↔ b = 0x24 := by simp [isMarker, Config.startMarker]
  simp only [← hm]
  unfold State.dec
  cases s.params.checksumPos with
  | trailing => exact decTrailing_start s b hc
  | leading => exact decLeading_start s b hc

/-- The marker starts a receive; any other byte changes no register (R173, R181, R184). -/
theorem startRxs_of_start (hc : s.rxCursor = .start) (b : Byte) :
    s.startRxs b = .next (if b = 0x24 then { s with
        rxActive := true, rxPoint := .pull, cbShadow := s.cbEnable
        rxCursor := cursorAfterMarker s.params.checksumPos, trace := .rxByte b :: s.trace }
      else { s with trace := .outcome .ignored :: .rxByte b :: s.trace }) := by
  rw [State.startRxs, dec_of_start hc]
  split <;> rfl

theorem rxsReady_iff :
    s.rxsReady = true ↔ s.started = true ∧ s.rxEnable = true ∧ s.txState = .idle ∧
      s.rxActive = false ∧ s.role = .slave := by
  simp [State.rxsReady, armed_iff, and_assoc]

theorem execRxs_of_ready (h : s.rxsReady = true) (b : Byte) : execRxs b s = s.startRxs b := by
  simp [execRxs, h]

/-- A byte nobody takes is lost (R61, R171). -/
theorem execRxs_of_not_ready (h : s.rxsReady = false) (b : Byte) :
    execRxs b s = .next { s with trace := .lostByte b :: s.trace } := by
  simp [execRxs, h, State.log]

theorem publishing_of_inactive (h : s.rxActive = false) : s.publishing = false := by
  simp [State.publishing, h]

end Sys2Proof.Machine

section

open Sys2Proof Sys2Proof.Machine

/-- Settles O41: the byte is dropped where the start condition fails, and otherwise decoded at
`Start`. -/
theorem byteEventStartsReceive : Obligations.ByteEventStartsReceive := by
  intro s b
  refine ⟨fun h => execRxs_of_not_ready ?_ b, fun hs he ht ha hr hc => ?_⟩
  · rw [← Bool.not_eq_true, rxsReady_iff]
    rintro ⟨hs, he, ht, ha, hr⟩
    simp [hs, he, ht, ha, hr] at h
  · exact (execRxs_of_ready (rxsReady_iff.2 ⟨hs, he, ht, ha, hr⟩) b).trans (startRxs_of_start hc b)

/-- Settles O48: each step of the run holds. -/
theorem heldWithoutClock : Obligations.HeldWithoutClock := by
  intro s n hr he
  induction n generalizing s with
  | zero => exact runTurns_of_held hr he []
  | succ n ih =>
    rw [List.replicate_succ, runTurns_of_held hr he]
    exact ih { s with now := Turn.run } hr he

end
end

section
/-! Which events the block's own move adds: the exchange it is at if a byte completes it, and no
other exchange (R51, R85, R241). -/

namespace Sys2Proof.Machine

variable {s t u : State}

/-! ## The events between two states -/

theorem State.adds.trans {es fs : List Event} (h : s.adds t es) (k : t.adds u fs) :
    s.adds u (es ++ fs) := by
  unfold State.adds at *
  rw [k, h, List.reverse_append, List.append_assoc]

/-- The events between two states are determined by the two traces. -/
theorem State.adds.unique {es fs : List Event} (h : s.adds t es) (k : s.adds t fs) : es = fs := by
  unfold State.adds at *
  exact List.reverse_injective (List.append_cancel_right (h.symm.trans k))

/-- Between the two states no exchange took place and no free value was used. -/
def State.Quiet (s t : State) : Prop :=
  ∃ es, s.adds t es ∧ (∀ x y, Event.exchange x y ∉ es) ∧ t.freeCtr = s.freeCtr

theorem State.Quiet.of_same (ht : t.trace = s.trace) (hf : t.freeCtr = s.freeCtr) : s.Quiet t :=
  ⟨[], ht, by simp, hf⟩

theorem State.Quiet.refl (s : State) : s.Quiet s := .of_same rfl rfl

theorem State.Quiet.trans (h : s.Quiet t) (k : t.Quiet u) : s.Quiet u := by
  obtain ⟨es, ha, hn, hf⟩ := h
  obtain ⟨fs, kb, km, kf⟩ := k
  exact ⟨es ++ fs, ha.trans kb, by simp [hn, km], kf.trans hf⟩

theorem State.Quiet.of_event {e : Event} (he : ∀ x y, e ≠ .exchange x y)
    (ht : t.trace = e :: s.trace) (hf : t.freeCtr = s.freeCtr) : s.Quiet t :=
  ⟨[e], ht, by simpa [eq_comm] using he, hf⟩

/-! ## What the operations of a send add -/

theorem bodyNext_quiet (s : State) : s.Quiet s.bodyNext := .of_same (by simp) (by simp)

theorem fieldNext_quiet (s : State) (sel : Sel) : s.Quiet (s.fieldNext sel) := by
  cases sel with
  | start => rw [fieldNext_start]; exact .of_same rfl rfl
  | lenHi => rw [fieldNext_lenHi]; exact .of_same rfl rfl
  | lenLo =>
    rw [fieldNext_lenLo, enterTransfer_eq]
    exact .trans (.of_same rfl rfl) (bodyNext_quiet _)
  | payload => rw [fieldNext_payload]; exact bodyNext_quiet s
  | checksum =>
    rw [fieldNext_checksum]
    cases s.params.checksumPos with
    | trailing => exact .of_same (by simp) (by simp)
    | leading => exact .of_same rfl rfl

theorem masterFieldSent_quiet (sel : Sel) (b : Byte) (h : sel = .payload → s.byteCnt < s.txLen) :
    s.Quiet (s.masterFieldSent sel b) := by
  by_cases hs : sel = .payload
  · subst hs
    rw [masterFieldSent_payload s b (h rfl)]
    exact .of_same rfl rfl
  · rw [masterFieldSent_of_ne s b hs]
    exact .of_same rfl rfl

theorem slaveFieldSent_quiet (sel : Sel) (h : sel = .payload → s.byteCnt < s.txLen) :
    s.Quiet (s.slaveFieldSent sel) := by
  rw [slaveFieldSent_eq]
  split
  next hs =>
    rw [cntInc_of_lt s s.txLen (h hs)]
    exact .trans (.of_same rfl rfl) (fieldNext_quiet _ _)
  next => exact fieldNext_quiet s sel

theorem Inv.cksStep_quiet (h : Inv s) (hp : s.txPoint = .sum) (hc : s.txCounted = false) :
    s.Quiet s.cksStep := by
  have hle : s.byteCnt ≤ s.txLen := by simpa [hp, txCount] using h.sendCount
  have hne : s.byteCnt ≠ s.txLen := by simpa [State.txCounted] using hc
  rw [cksStep_of_lt s s.txLen (by bv_omega)]
  exact .of_same rfl rfl

theorem finishSend_quiet (s : State) (ok : Bool) : s.Quiet (s.finishSend ok) := by
  rw [finishSend_eq]
  cases ok with
  | true => exact .of_event (by simp) rfl rfl
  | false => exact ⟨[.outcome .sendFailed, .sendDone false], rfl, by simp, rfl⟩

theorem endAttempt_quiet (s : State) (r : Byte) : s.Quiet (s.endAttempt r) := by
  refine .of_event (e := .aux false) (by simp) ?_ ?_ <;> unfold State.endAttempt <;> dsimp only <;>
    repeat' split
  all_goals rfl

/-- A Master's send adds no exchange where it is at none. -/
theorem Inv.masterMove_quiet (h : Inv s) (hn : s.txRequest = none) : s.Quiet s.masterMove := by
  cases hp : s.txPoint with
  | sum =>
    rw [masterMove_sum s hp]
    cases hc : s.txCounted with
    | true => exact .of_same rfl rfl
    | false => exact h.cksStep_quiet hp hc
  | select => rw [masterMove_select s hp]; exact .of_event (e := .cs true) (by simp) rfl rfl
  | send sel b => simp [State.txRequest, hp] at hn
  | delay sel =>
    rw [masterMove_delay s sel hp]
    have hd : s.Quiet (s.log (.delay .byte)) := .of_event (by simp) rfl rfl
    exact hd.trans (fieldNext_quiet _ sel)
  | release => rw [masterMove_release s hp]; exact .of_event (e := .cs false) (by simp) rfl rfl
  | finish ok => rw [masterMove_finish s ok hp]; exact finishSend_quiet s ok
  | idle | request | ack | drop _ | backoff =>
    rw [masterMove_other s (by simp [hp])]
    exact .refl s

/-- A Slave's send adds no exchange where it is at none. -/
theorem Inv.slaveMove_quiet (h : Inv s) (hn : s.txRequest = none) : s.Quiet s.slaveMove := by
  cases hp : s.txPoint with
  | sum =>
    rw [slaveMove_sum s hp]
    cases hc : s.txCounted with
    | true => exact .of_same rfl rfl
    | false => exact h.cksStep_quiet hp hc
  | request => rw [slaveMove_request s hp]; exact .of_event (e := .aux true) (by simp) rfl rfl
  | send sel b => simp [State.txRequest, hp] at hn
  | ack => simp [State.txRequest, hp] at hn
  | drop r => rw [slaveMove_drop s r hp]; exact endAttempt_quiet s r
  | backoff => rw [slaveMove_backoff s hp]; exact .of_event (e := .delay .backoff) (by simp) rfl rfl
  | finish ok => rw [slaveMove_finish s ok hp]; exact finishSend_quiet s ok
  | idle | select | delay _ | release =>
    rw [slaveMove_other s (by simp [hp])]
    exact .refl s

theorem Inv.txMove_quiet (h : Inv s) (hn : s.txRequest = none) : s.Quiet s.txMove := by
  unfold State.txMove
  cases s.role with
  | master => exact h.masterMove_quiet hn
  | slave => exact h.slaveMove_quiet hn

/-- The exchange a send is at, with the byte it receives. -/
theorem Inv.txMove_exchange (h : Inv s) {out inp : Byte} (he : s.txRequest = some out)
    (hb : s.busIn = some inp) : (s.exchanged out inp).Quiet s.txMove := by
  unfold State.txMove
  obtain ⟨sel, hp⟩ | ⟨hp, rfl⟩ := txRequest_eq_some.1 he
  · have hc : sel = .payload → s.byteCnt < s.txLen := by simpa [hp, txCount] using h.sendCount
    cases hr : s.role with
    | master =>
      simp only [masterMove_send s sel out hp, hb]
      exact masterFieldSent_quiet sel out hc
    | slave =>
      simp only [slaveMove_send s sel out hp, hb]
      exact slaveFieldSent_quiet sel hc
  · cases hr : s.role with
    | master => simpa [hp, hr, txPlace] using h.txAt
    | slave =>
      simp only [slaveMove_ack s hp, hb]
      exact .of_same rfl rfl

/-! ## What the operations of a receive add -/

theorem commit_mem_endEvents (ok shadow : Bool) : Event.commit ∈ endEvents ok shadow := by
  simp [endEvents]

theorem exchange_notMem_endEvents (ok shadow : Bool) (x y : Byte) :
    Event.exchange x y ∉ endEvents ok shadow := by
  cases ok <;> cases shadow <;> simp [endEvents]

/-- The publication of a frame, with its events (R180). -/
theorem complete_adds (ok : Bool) (hl : s.rxLen.toNat ≤ s.params.maxLen) :
    ∃ t, s.complete ok = .next t ∧ s.adds t (endEvents ok s.cbShadow) ∧ t.freeCtr = s.freeCtr := by
  refine ⟨_, complete_eq s ok hl, ?_, rfl⟩
  cases ok <;> cases s.cbShadow <;> simp [State.adds, endEvents]

theorem checkAux_quiet (s : State) (p : RxPoint) : s.Quiet (s.checkAux p) := by
  cases haux : s.auxIn with
  | true => rw [checkAux_of_high s p haux]; exact .of_event (e := .auxRead true) (by simp) rfl rfl
  | false => rw [checkAux_of_low s p haux]; exact .of_event (e := .auxRead false) (by simp) rfl rfl

theorem Inv.endOperation_quiet (h : Inv s) (how : RxEnd) (hp : s.rxPoint = .finish how) :
    ∃ t, s.endOperation how = .next t ∧ s.Quiet t := by
  cases how with
  | complete ok =>
    obtain ⟨t, ht, hes, hf⟩ := complete_adds ok (h.publishFits ok hp)
    exact ⟨t, ht, _, hes, exchange_notMem_endEvents ok _, hf⟩
  | ignored => exact ⟨_, rfl, .of_event (e := .outcome .ignored) (by simp) rfl rfl⟩
  | lenRejected => exact ⟨_, rfl, .of_event (e := .outcome .lenRejected) (by simp) rfl rfl⟩
  | aborted => exact ⟨_, rfl, .of_event (e := .outcome .aborted) (by simp) rfl rfl⟩

/-- A receive adds no exchange where it is at none. -/
theorem Inv.rxMove_quiet (h : Inv s) (hn : s.rxRequest = none) :
    ∃ t, s.rxMove = .next t ∧ s.Quiet t := by
  cases hp : s.rxPoint with
  | idle => exact ⟨s, rxMove_idle s hp, .refl s⟩
  | sample => exact ⟨_, rxMove_sample s hp, checkAux_quiet s _⟩
  | ackSample ok => exact ⟨_, rxMove_ackSample s ok hp, checkAux_quiet s _⟩
  | release how =>
    exact ⟨_, rxMove_release s how hp, .of_event (e := .cs false) (by simp) rfl rfl⟩
  | finish how => rw [rxMove_finish s how hp]; exact h.endOperation_quiet how hp
  | first | pull | ackPull _ => simp [State.rxRequest, hp] at hn

theorem Inv.takeFirst_quiet (h : Inv s) (hp : s.rxPoint = .first) (b : Byte) :
    ∃ t, s.takeFirst b = .next t ∧ s.Quiet t := by
  have hc : s.rxCursor ≠ .ack := fun hc => by simpa [rxPlace, hp, hc] using h.rxAt
  obtain ⟨c, n, k, l, f, m, r, he, -, -⟩ := h.dec b hc
  rw [State.takeFirst, he]
  cases r <;> exact ⟨_, rfl, .of_same rfl rfl⟩

theorem Inv.takeByte_quiet (h : Inv s) (hp : s.rxPoint = .pull) (b : Byte) :
    ∃ t, s.takeByte b = .next t ∧ s.Quiet t := by
  have hc : s.rxCursor ≠ .ack := fun hc => by simpa [rxPlace, hp, hc, midFrame] using h.rxAt
  obtain ⟨c, n, k, l, f, m, r, he, -, -⟩ := h.dec b hc
  rw [State.takeByte, he]
  cases r with
  | none | ignored => exact ⟨_, rfl, .of_same (by simp) (by simp)⟩
  | lenRejected =>
    refine ⟨_, rfl, ?_⟩
    obtain hrole | hrole := role_cases s.role
    · rw [rejectLen_master]
      · exact .of_same rfl rfl
      · exact hrole
    · rw [rejectLen_slave]
      · exact .of_event (e := .outcome .lenRejected) (by simp) rfl rfl
      · exact hrole
  | frame ok =>
    refine ⟨_, rfl, ?_⟩
    obtain hrole | hrole := role_cases s.role
    · rw [frameEnded_master]
      · exact .of_same rfl rfl
      · exact hrole
    · rw [frameEnded_slave]
      · exact .of_same rfl rfl
      · exact hrole

/-- The exchange a receive is at, with the byte it receives. -/
theorem Inv.rxMove_exchange (h : Inv s) {out inp : Byte} (he : s.rxRequest = some out)
    (hb : s.busIn = some inp) : ∃ t, s.rxMove = .next t ∧ (s.exchanged out inp).Quiet t := by
  obtain ⟨hp | hp, rfl⟩ | ⟨ok, hp, rfl⟩ := rxRequest_eq_some.1 he
  · rw [rxMove_first s hp, hb]
    exact (h.exchanged s.params.fill inp).takeFirst_quiet hp inp
  · rw [rxMove_pull s hp, hb]
    exact (h.exchanged s.params.fill inp).takeByte_quiet hp inp
  · rw [rxMove_ackPull s ok hp, hb]
    exact ⟨_, rfl, .of_same rfl rfl⟩

/-! ## What the block's own move adds -/

/-- The exchange the block is at is completed by a byte (R51, R85). -/
theorem Inv.activeMove_exchange (h : Inv s) {out inp : Byte} (he : s.exchangeRequest = some out)
    (hb : s.busIn = some inp) : ∃ t, s.activeMove = .next t ∧ (s.exchanged out inp).Quiet t := by
  by_cases ht : s.txState = .idle
  · rw [activeMove_of_idle s ht]
    cases ha : s.rxActive with
    | false => simp [exchangeRequest_of_inactive ht ha] at he
    | true => exact h.rxMove_exchange (exchangeRequest_of_active ht ha ▸ he) hb
  · exact ⟨_, activeMove_of_busy s ht, h.txMove_exchange (exchangeRequest_of_busy ht ▸ he) hb⟩

theorem Inv.activeMove_quiet (h : Inv s) (hn : s.exchangeRequest = none) :
    ∃ t, s.activeMove = .next t ∧ s.Quiet t := by
  by_cases ht : s.txState = .idle
  · rw [activeMove_of_idle s ht]
    cases ha : s.rxActive with
    | false =>
      exact ⟨s, rxMove_idle s (h.rxPoint_of_inactive ha), .refl s⟩
    | true => exact h.rxMove_quiet (exchangeRequest_of_active ht ha ▸ hn)
  · exact ⟨_, activeMove_of_busy s ht, h.txMove_quiet (exchangeRequest_of_busy ht ▸ hn)⟩

/-- The first byte at an idle Slave: the event, and whether a receive has started (R173, R181). -/
theorem startRxs_adds (hc : s.rxCursor = .start) (ha : s.rxActive = false) (b : Byte) :
    ∃ t fs, s.startRxs b = .next t ∧ s.adds t (.rxByte b :: fs) ∧
      (∀ x y, Event.exchange x y ∉ fs) ∧ t.freeCtr = s.freeCtr ∧
      t.rxActive = decide (b = 0x24) := by
  have he := startRxs_of_start hc b
  by_cases hb : b = 0x24
  · rw [if_pos hb] at he
    exact ⟨_, [], he, rfl, by simp, rfl, by simp [hb]⟩
  · rw [if_neg hb] at he
    exact ⟨_, [.outcome .ignored], he, rfl, by simp, rfl, by rw [decide_eq_false hb]; exact ha⟩

theorem Inv.execRxs_quiet (h : Inv s) (b : Byte) :
    ∃ t, Machine.execRxs b s = .next t ∧ s.Quiet t := by
  cases hr : s.rxsReady with
  | false => exact ⟨_, execRxs_of_not_ready hr b, .of_event (e := .lostByte b) (by simp) rfl rfl⟩
  | true =>
    obtain ⟨-, -, -, ha, -⟩ := rxsReady_iff.1 hr
    obtain ⟨t, fs, he, hadds, hn, hf, -⟩ :=
      startRxs_adds (h.receiveSound.cursor_of_inactive ha) ha b
    exact ⟨t, (execRxs_of_ready hr b).trans he, ⟨_, hadds, by simp [hn], hf⟩⟩

theorem execRxm_quiet (s : State) : ∃ t, execRxm s = .next t ∧ s.Quiet t := by
  unfold execRxm
  split
  · exact ⟨_, rfl, .of_event (e := .cs true) (by simp) rfl rfl⟩
  · exact ⟨s, rfl, .refl s⟩

theorem Inv.exchangeRequest_of_finish (h : Inv s) {how : RxEnd} (hp : s.rxPoint = .finish how) :
    s.exchangeRequest = none := by
  have hne : s.rxPoint ≠ .idle := by simp [hp]
  rw [exchangeRequest_of_active (h.txState_idle_iff.2 (h.txPoint_of_rxPoint hne)) (h.active.2 hne)]
  simp [State.rxRequest, hp]

/-- A Slave that has published a frame is armed and idle (R180). -/
theorem Inv.rxsReady_of_published (h : Inv s) {ok : Bool} (hp : s.rxPoint = .finish (.complete ok))
    (hr : s.role = .slave) (hu : s.complete ok = .next u) :
    u.rxsReady = true ∧ u.rxCursor = .start ∧ u.rxActive = false := by
  have hne : s.rxPoint ≠ .idle := by simp [hp]
  have hs := h.started_of_rxPoint hne
  have ht := h.txState_idle_iff.2 (h.txPoint_of_rxPoint hne)
  have hen : s.rxEnable = true := by rw [h.enable hs, ht]; rfl
  cases (complete_eq s ok (h.publishFits ok hp)).symm.trans hu
  exact ⟨rxsReady_iff.2 ⟨hs, hen, ht, rfl, hr⟩, rfl, rfl⟩

/-- A Slave that has a whole frame publishes it and then meets the byte (R180, R265). -/
theorem Inv.publish_then_byte (h : Inv s) (hp : s.publishing = true) (b : Byte) :
    ∃ t es fs, andThen s.readyForByte (Machine.execRxs b) = .next t ∧
      s.adds t (es ++ .rxByte b :: fs) ∧ Event.commit ∈ es ∧
      (∀ x y, Event.exchange x y ∉ es ++ .rxByte b :: fs) ∧
      t.freeCtr = s.freeCtr ∧ t.rxActive = decide (b = 0x24) := by
  obtain ⟨ha, hr, ok, hf⟩ := (publishing_iff s).1 hp
  obtain ⟨u, hu, hes, hctr⟩ := complete_adds ok (h.publishFits ok hf)
  obtain ⟨hready, hstart, hidle⟩ := h.rxsReady_of_published hf hr hu
  obtain ⟨t, fs, he, hfs, hm, hctr', hact⟩ := startRxs_adds hstart hidle b
  rw [readyForByte_of_complete s ok ha hr hf, hu, andThen_next, execRxs_of_ready hready]
  exact ⟨t, endEvents ok s.cbShadow, fs, he, hes.trans hfs, commit_mem_endEvents ok _,
    by simp [exchange_notMem_endEvents, hm], hctr'.trans hctr, hact⟩

theorem Inv.byteTrigger_quiet (h : Inv s) (b : Byte) :
    ∃ t, andThen s.readyForByte (Machine.execRxs b) = .next t ∧ s.Quiet t := by
  cases hp : s.publishing with
  | false =>
    rw [readyForByte_of_not s hp]
    exact h.execRxs_quiet b
  | true =>
    obtain ⟨t, es, fs, he, hadds, -, hn, hf, -⟩ := h.publish_then_byte hp b
    exact ⟨t, he, ⟨_, hadds, hn, hf⟩⟩

/-- The block's move completes the exchange it is at if a byte comes (R51, R85). -/
theorem Inv.blockMove_exchange (h : Inv s) {out inp : Byte} (he : s.exchangeRequest = some out)
    (hb : s.busIn = some inp) : ∃ t, s.blockMove = .next t ∧ (s.exchanged out inp).Quiet t := by
  have hne : s.exchangeRequest ≠ none := by simp [he]
  have hact := h.activeMove_exchange he hb
  obtain ⟨hm, -⟩ | ⟨-, -, hmove⟩ | ⟨-, hbusy, -⟩ | ⟨b, -, -, hmove⟩ | ⟨b, -, hno, -⟩ :=
    blockMove_cases s
  · simp [busIn_quiet s hm] at hb
  · rwa [hmove]
  · simp [busy_of_exchangeRequest hne] at hbusy
  · rwa [hmove]
  · exact absurd hno hne

/-- Otherwise it adds no exchange. -/
theorem Inv.blockMove_quiet (h : Inv s) (hn : s.exchangeRequest = none ∨ s.busIn = none) :
    ∃ t, s.blockMove = .next t ∧ s.Quiet t := by
  have hactive : ∃ t, s.activeMove = .next t ∧ s.Quiet t := by
    by_cases he : s.exchangeRequest = none
    · exact h.activeMove_quiet he
    · exact ⟨s, activeMove_of_held he (hn.resolve_left he), .refl s⟩
  obtain ⟨-, hmove⟩ | ⟨-, -, hmove⟩ | ⟨-, -, hmove⟩ | ⟨b, -, -, hmove⟩ | ⟨b, -, -, hmove⟩ :=
    blockMove_cases s <;> rw [hmove]
  · exact ⟨s, rfl, .refl s⟩
  · exact hactive
  · exact execRxm_quiet s
  · exact hactive
  · exact h.byteTrigger_quiet b

end Sys2Proof.Machine
end


section
/-! One byte on the bus: the single-byte rows of the table (R91, R98). -/

namespace Sys2Proof.Machine

variable {s : State}

/-- `s` in a step in which the peer shifts out `b`. -/
def State.atByte (s : State) (b : Byte) : State :=
  { s with now := { s.now with move := .byte b } }

theorem busByte_eq (s : State) (b : Byte) : s.busByte b = (s.atByte b).blockMove := rfl

theorem Inv.atByte (h : Inv s) (b : Byte) : Inv (s.atByte b) := h.withNow _

/-- The single-byte rows with the bytes they stand for (R91, R98). -/
def symbolRows (prm : Params) : List (Instr × Byte) :=
  [(.startMarker, 0x24), (.ackSentinel, prm.ackSentinel), (.ackRequestByte, prm.ackRequest),
    (.fillByte, prm.fill)]

/-- Each row is its byte crossing the bus. -/
theorem exec_symbol {ib : Instr × Byte} (h : ib ∈ symbolRows s.params) :
    exec ib.1 s = s.busByte ib.2 := by
  simp only [symbolRows, List.mem_cons, List.not_mem_nil, or_false] at h
  rcases h with rfl | rfl | rfl | rfl <;> rfl

/-- A byte completes the exchange of an endpoint that is held in one (R51). -/
theorem Inv.busByte_exchange (h : Inv s) {out : Byte} (he : s.exchangeRequest = some out)
    (b : Byte) : ∃ t es, s.busByte b = .next t ∧ s.adds t (.exchange out b :: es) ∧
      t.freeCtr = s.freeCtr + 1 := by
  obtain ⟨t, ht, es, hes, -, hf⟩ :=
    (h.atByte b).blockMove_exchange he (busIn_byte _ b rfl)
  have hx : s.adds ((s.atByte b).exchanged out b) [.exchange out b] := rfl
  exact ⟨t, es, ht, hx.trans hes, hf⟩

/-- With no exchange outstanding the byte is an `RxByte` event, or lost (R61, R171). -/
theorem busByte_of_none (he : s.exchangeRequest = none) (hp : s.publishing = false) (b : Byte) :
    s.busByte b = execRxs b (s.atByte b) := by
  rw [busByte_eq, blockMove_byte_trigger (s := s.atByte b) (b := b) rfl he,
    readyForByte_of_not (s.atByte b) hp, andThen_next]

/-- At an armed idle Slave a byte other than the marker is ignored (R181). -/
theorem busByte_of_ignored (he : s.exchangeRequest = none) (hr : s.rxsReady = true)
    (hc : s.rxCursor = .start) {b : Byte} (hb : b ≠ 0x24) :
    s.busByte b = .next { s with
      now := { s.now with move := .byte b }
      trace := .outcome .ignored :: .rxByte b :: s.trace } := by
  obtain ⟨-, -, -, ha, -⟩ := rxsReady_iff.1 hr
  rw [busByte_of_none he (publishing_of_inactive ha), execRxs_of_ready (s := s.atByte b) hr,
    startRxs_of_start (s := s.atByte b) hc, if_neg hb]
  rfl

/-- At an endpoint that is not armed it is lost (R171). -/
theorem busByte_of_lost (he : s.exchangeRequest = none) (hr : s.rxsReady = false)
    (hp : s.publishing = false) (b : Byte) :
    s.busByte b = .next { s with
      now := { s.now with move := .byte b }, trace := .lostByte b :: s.trace } := by
  rw [busByte_of_none he hp, execRxs_of_not_ready (s := s.atByte b) hr]
  rfl

/-- At an armed idle Slave the marker starts a receive (R173, R184). -/
theorem busByte_of_marker (he : s.exchangeRequest = none) (hr : s.rxsReady = true)
    (hc : s.rxCursor = .start) :
    ∃ t, s.busByte 0x24 = .next t ∧ t.rxActive = true ∧ t.cbShadow = s.cbEnable ∧
      t.trace = .rxByte 0x24 :: s.trace := by
  obtain ⟨-, -, -, ha, -⟩ := rxsReady_iff.1 hr
  rw [busByte_of_none he (publishing_of_inactive ha), execRxs_of_ready (s := s.atByte 0x24) hr,
    startRxs_of_start (s := s.atByte 0x24) hc, if_pos rfl]
  exact ⟨_, rfl, rfl, rfl, rfl⟩

theorem Inv.exchangeRequest_of_publishing (h : Inv s) (hp : s.publishing = true) :
    s.exchangeRequest = none := by
  obtain ⟨-, -, ok, hf⟩ := (publishing_iff s).1 hp
  exact h.exchangeRequest_of_finish hf

end Sys2Proof.Machine

section

open Sys2Proof Sys2Proof.Machine

/-- Settles O49: each row is its byte on the bus, and what that does is one of the cases of
`State.busByte`. -/
theorem symbolsOnTheBus : Obligations.SymbolsOnTheBus := by
  intro s
  refine ⟨fun ib hib hinv => ?_, fun he hr hc => ?_, fun he hr hp => ?_⟩
  · rw [exec_symbol hib]
    refine ⟨fun out he => hinv.busByte_exchange he ib.2, fun hp => ?_⟩
    obtain ⟨t, es, fs, ht, hadds, hcommit, -⟩ := (hinv.atByte ib.2).publish_then_byte hp ib.2
    refine ⟨t, es, fs, ?_, hadds, hcommit⟩
    rw [busByte_eq, ← ht]
    exact blockMove_byte_trigger (s := s.atByte ib.2) rfl (hinv.exchangeRequest_of_publishing hp)
  · exact ⟨busByte_of_marker he hr hc, busByte_of_ignored he hr hc, busByte_of_ignored he hr hc,
      busByte_of_ignored he hr hc⟩
  · exact ⟨busByte_of_lost he hr hp _, busByte_of_lost he hr hp _, busByte_of_lost he hr hp _,
      busByte_of_lost he hr hp _⟩

end
end

section
/-! The rendezvous (R85, R241): what a host command leaves of the exchange the block is at, which
exchange a step of one endpoint adds, and which a step of the link adds at each end. -/

namespace Sys2Proof.Machine

variable {s t u : State}

/-! ## The host's commands -/

theorem holdCommand_quiet (s : State) (i : Instr) : s.Quiet (s.holdCommand i) := by
  unfold State.holdCommand
  cases encodeCmd i <;> exact .of_same rfl rfl

theorem done_quiet (s : State) (ok : Bool) : s.Quiet (s.done ok) :=
  .of_event (e := .cmdDone ok) (by simp) rfl rfl

theorem initialise_quiet (s : State) (r : Role) (cb : Bool) : s.Quiet (s.initialise r cb) := by
  rw [initialise_eq]
  cases r with
  | master => exact .of_event (e := .auxRead s.auxIn) (by simp) rfl rfl
  | slave => exact .of_same rfl rfl

theorem startEffect_quiet (s : State) (r : Role) (cb : Bool) : s.Quiet (s.startEffect r cb) := by
  unfold State.startEffect
  split
  · exact done_quiet s true
  · dsimp only
    have hhal : s.Quiet (s.log (.halConfigure r s.halOk)) := .of_event (by simp) rfl rfl
    split
    · exact hhal.trans ((initialise_quiet _ r cb).trans (done_quiet _ true))
    · have hfault : s.Quiet (s.log (.halConfigure r s.halOk)).halFault :=
        ⟨[.halConfigure r s.halOk, .outcome .halFault], rfl, by simp, rfl⟩
      exact hfault.trans (done_quiet _ false)

theorem stopEffect_quiet (s : State) : s.Quiet s.stopEffect := by
  cases hs : s.started with
  | false => rw [stopEffect_of_stopped hs]; exact done_quiet s true
  | true =>
    cases ha : s.rxActive with
    | true => rw [stopEffect_of_active hs ha]; exact ⟨[.cs false, .cmdDone true], rfl, by simp, rfl⟩
    | false =>
      rw [stopEffect_of_inactive hs ha]
      exact ⟨[.cs false, .cmdDone true], rfl, by simp, rfl⟩

theorem plainCommand_quiet (i : Instr) {f : State → State} (hf : s.Quiet (f s)) :
    s.Quiet (s.plainCommand i f) := by
  obtain ⟨-, he⟩ | ⟨-, -, he⟩ | ⟨-, -, he⟩ := plainCommand_cases s i f <;> rw [he]
  · exact holdCommand_quiet s i
  · exact done_quiet s false
  · exact hf

theorem beginSend_quiet (s : State) (len : Half) : s.Quiet (s.beginSend len) := by
  unfold State.beginSend State.beginMasterSend
  cases s.role with
  | slave => exact .of_same rfl rfl
  | master => cases s.params.checksumPos <;> exact .of_same rfl rfl

/-- No host command takes part in an exchange. -/
theorem exec_hostInstr_quiet (s : State) (j : HostItem) :
    ∃ t, exec (hostInstr j) s = .next t ∧ s.Quiet t := by
  have hreserved : ∀ i, s.Quiet (if s.acceptsPlain then s.reservedEffect else s.holdCommand i) := by
    intro i
    split
    · exact done_quiet s false
    · exact holdCommand_quiet s i
  have hflag : ∀ (i : Instr) (f : State → State), (f s).trace = .cmdDone true :: s.trace →
      (f s).freeCtr = s.freeCtr → s.Quiet (s.plainCommand i f) := fun i f ht hf =>
    plainCommand_quiet i (.of_event (by simp) ht hf)
  have hclrnew : s.Quiet (s.plainCommand .clrnew State.clrnewEffect) := hflag _ _ rfl rfl
  obtain hi | ⟨r, cb, hi⟩ | hi | ⟨len, hi⟩ | hi | hi | hi | hi | hi | hi := hostInstr_cases j <;>
    rw [hi] <;> refine ⟨_, rfl, ?_⟩
  · exact hreserved _
  · exact plainCommand_quiet _ (startEffect_quiet s r cb)
  · exact plainCommand_quiet _ (stopEffect_quiet s)
  · split
    · split
      · exact beginSend_quiet s len
      · exact .of_event (e := .cmdDone false) (by simp) rfl rfl
    · exact holdCommand_quiet s _
  · exact hflag _ _ rfl rfl
  · exact hflag _ _ rfl rfl
  · exact hclrnew
  · exact hreserved _
  · split
    · exact hclrnew.trans (.of_same rfl rfl)
    · exact .of_same rfl rfl
  · split
    · exact .of_event (e := .waitDone) (by simp) rfl rfl
    · exact .of_same rfl rfl

/-! ## The exchange after a host command (R85, R202) -/

/-- What a command other than an accepted `STOP` leaves of the exchange the block is at: the byte,
the role and the input signals.  A send that begins is at no exchange yet. -/
structure State.KeepsExchange (s t : State) : Prop where
  request : t.exchangeRequest = s.exchangeRequest := by rfl
  role : s.exchangeRequest ≠ none → t.role = s.role := by exact fun _ => rfl
  now : t.now = s.now := by rfl
  begun : s.txState = .idle → t.txState ≠ .idle → t.exchangeRequest = none := by
    exact fun hs ht => absurd hs ht

theorem State.KeepsExchange.of_none (hs : s.exchangeRequest = none) (ht : t.exchangeRequest = none)
    (hn : t.now = s.now) : s.KeepsExchange t :=
  ⟨ht.trans hs.symm, fun h => absurd hs h, hn, fun _ _ => ht⟩

theorem keepsExchange_holdCommand (s : State) (i : Instr) : s.KeepsExchange (s.holdCommand i) := by
  unfold State.holdCommand
  cases encodeCmd i <;> exact {}

theorem keepsExchange_plainCommand (i : Instr) {f : State → State}
    (hf : s.txState = .idle → s.KeepsExchange (f s)) : s.KeepsExchange (s.plainCommand i f) := by
  obtain ⟨-, he⟩ | ⟨-, -, he⟩ | ⟨ht, -, he⟩ := plainCommand_cases s i f <;> rw [he]
  · exact keepsExchange_holdCommand s i
  · exact {}
  · exact hf ht

theorem exchangeRequest_of_rxIdle (ht : s.txState = .idle) (hp : s.rxPoint = .idle) :
    s.exchangeRequest = none := by
  cases ha : s.rxActive with
  | false => exact exchangeRequest_of_inactive ht ha
  | true => rw [exchangeRequest_of_active ht ha]; simp [State.rxRequest, hp]

/-- `START` has an effect only where there is no exchange. -/
theorem Inv.startEffect_keepsExchange (h : Inv s) (ht : s.txState = .idle) (r : Role) (cb : Bool) :
    s.KeepsExchange (s.startEffect r cb) := by
  unfold State.startEffect
  split
  next => exact {}
  next hs =>
    have hnone : s.exchangeRequest = none :=
      exchangeRequest_of_rxIdle ht (h.stopped (by simpa using hs)).2.1
    dsimp only
    split
    · rw [initialise_eq]
      exact .of_none hnone (exchangeRequest_of_rxIdle ht rfl) rfl
    · exact {}

theorem beginSend_exchangeRequest (s : State) (len : Half) :
    (s.beginSend len).exchangeRequest = none ∧ (s.beginSend len).now = s.now := by
  have hb := beginSend_txState s len
  rw [exchangeRequest_of_busy hb]
  unfold State.beginSend State.beginMasterSend
  cases s.role with
  | slave => exact ⟨rfl, rfl⟩
  | master => cases s.params.checksumPos <;> exact ⟨rfl, rfl⟩

theorem send_keepsExchange (s : State) (len : Half) :
    s.KeepsExchange (if s.acceptsSend then (if s.canSend then s.beginSend len else s.rejectSend)
      else s.holdCommand (.send len)) := by
  split
  next ha =>
    obtain ⟨ht, hx, -⟩ := (acceptsSend_iff s).1 ha
    split
    · obtain ⟨hn, hnow⟩ := beginSend_exchangeRequest s len
      exact .of_none (exchangeRequest_of_inactive ht hx) hn hnow
    · exact {}
  next => exact keepsExchange_holdCommand s _

/-- An item of the host's thread other than `STOP` leaves the exchange alone. -/
theorem Inv.exec_keepsExchange (h : Inv s) {j : HostItem} (hj : hostInstr j ≠ .stop)
    (ht : exec (hostInstr j) s = .next t) : s.KeepsExchange t := by
  have hreserved : ∀ i,
      s.KeepsExchange (if s.acceptsPlain then s.reservedEffect else s.holdCommand i) := by
    intro i
    split
    · exact {}
    · exact keepsExchange_holdCommand s i
  have hclrnew : s.KeepsExchange (s.plainCommand .clrnew State.clrnewEffect) :=
    keepsExchange_plainCommand _ fun _ => {}
  obtain hi | ⟨r, cb, hi⟩ | hi | ⟨len, hi⟩ | hi | hi | hi | hi | hi | hi := hostInstr_cases j <;>
    rw [hi] at ht <;> cases ht
  · exact hreserved _
  · exact keepsExchange_plainCommand _ fun ht => h.startEffect_keepsExchange ht r cb
  · exact absurd hi hj
  · exact send_keepsExchange s len
  · exact keepsExchange_plainCommand _ fun _ => {}
  · exact keepsExchange_plainCommand _ fun _ => {}
  · exact hclrnew
  · exact hreserved _
  · split
    · exact { hclrnew with }
    · exact {}
  · split <;> exact {}

/-- An accepted `STOP` withdraws it (R85, R202). -/
theorem Inv.exec_stop_exchange (h : Inv s) (hidle : s.txState = .idle)
    (ht : exec .stop s = .next t) : t.exchangeRequest = none ∧ t.now = s.now := by
  cases ht
  have hfree : s.started = false → s.exchangeRequest = none := fun hs =>
    exchangeRequest_of_rxIdle hidle (h.stopped hs).2.1
  cases hf : s.fault with
  | true =>
    rw [plainCommand_of_fault s _ _ hidle hf]
    exact ⟨hfree (h.faulted hf), rfl⟩
  | false =>
    rw [plainCommand_of_idle s _ _ hidle hf]
    cases hs : s.started with
    | false => rw [stopEffect_of_stopped hs]; exact ⟨hfree hs, rfl⟩
    | true =>
      cases ha : s.rxActive with
      | true => rw [stopEffect_of_active hs ha]; exact ⟨exchangeRequest_of_inactive hidle rfl, rfl⟩
      | false =>
        rw [stopEffect_of_inactive hs ha]
        exact ⟨exchangeRequest_of_inactive hidle ha, rfl⟩

/-- The host's thread is at a `STOP` that this step accepts. -/
def State.stopOffered (s : State) : Prop :=
  s.txState = .idle ∧ ∃ j q, s.hostQ = j :: q ∧ hostInstr j = .stop

theorem accepts_of_stop {j : HostItem} (hj : hostInstr j = .stop) :
    s.accepts j = true ↔ s.txState = .idle := by
  cases j with
  | recv => cases hj
  | waitNew => cases hj
  | cmd c =>
    have hop : c.op ≠ 0b011#3 := fun hop => by simp [hostInstr, decodeCmd, hop] at hj
    simp [State.accepts, hop, State.acceptsPlain, txBusy_eq]

/-- What the host's part of a step leaves of the exchange (R85). -/
theorem Inv.hostPart_exchange (h : Inv s) (hu : s.hostPart = .next u) :
    (s.stopOffered ∧ u.exchangeRequest = none ∧ u.now = s.now) ∨
      (¬ s.stopOffered ∧ s.KeepsExchange u) := by
  cases hf : s.fetch with
  | none =>
    cases (hostPart_of_none s hf).symm.trans hu
    refine .inr ⟨?_, {}⟩
    rintro ⟨hidle, j, q, hq, hj⟩
    simp [fetch_of_accepts hq ((accepts_of_stop hj).2 hidle)] at hf
  | some iv =>
    obtain ⟨j, q, hq, ha, hi, hv⟩ := fetch_eq_some.1 (show s.fetch = some (iv.1, iv.2) from hf)
    rw [hostPart_of_some s _ _ hf, hi, hv] at hu
    by_cases hj : hostInstr j = .stop
    · have hidle := (accepts_of_stop hj).1 ha
      rw [hj] at hu
      exact .inl ⟨⟨hidle, j, q, hq, hj⟩, (h.withHostQ q).exec_stop_exchange hidle hu⟩
    · refine .inr ⟨?_, { (h.withHostQ q).exec_keepsExchange hj hu with }⟩
      rintro ⟨-, j', q', hq', hj'⟩
      simp only [hq, List.cons.injEq] at hq'
      exact hj (hq'.1 ▸ hj')

/-! ## The exchange a step adds -/

theorem hostPart_quiet (hu : s.hostPart = .next u) : s.Quiet u := by
  cases hf : s.fetch with
  | none =>
    cases (hostPart_of_none s hf).symm.trans hu
    exact .refl s
  | some iv =>
    obtain ⟨j, q, -, -, hi, hv⟩ := fetch_eq_some.1 (show s.fetch = some (iv.1, iv.2) from hf)
    rw [hostPart_of_some s _ _ hf, hi, hv] at hu
    obtain ⟨t, ht, hq⟩ := exec_hostInstr_quiet { s with hostQ := q } j
    cases ht.symm.trans hu
    exact .trans (.of_same rfl rfl) hq

/-- A scheduled step without reset serves the host and the block under its signals (R230). -/
theorem stepWith_of_not_rst {tn : Turn} (hr : tn.rst = false) :
    s.stepWith tn = andThen (s.sense tn).serve fun v => .next v.auxPhase :=
  step_of_not_rst { s with sched := tn :: s.sched } hr

/-- The block's move adds the exchange it is at if a byte completes it, and no other (R51). -/
theorem Inv.blockMove_adds (h : Inv s) :
    ∃ t es, s.blockMove = .next t ∧ s.adds t es ∧
      ∀ x y, Event.exchange x y ∈ es ↔ s.exchangeRequest = some x ∧ s.busIn = some y := by
  by_cases hno : s.exchangeRequest = none ∨ s.busIn = none
  · obtain ⟨t, ht, es, hes, hn, -⟩ := h.blockMove_quiet hno
    refine ⟨t, es, ht, hes, fun x y => ?_⟩
    obtain hno | hno := hno <;> simp [hn, hno]
  · obtain ⟨hx, hb⟩ := not_or.1 hno
    obtain ⟨out, hx⟩ := Option.ne_none_iff_exists'.1 hx
    obtain ⟨inp, hb⟩ := Option.ne_none_iff_exists'.1 hb
    obtain ⟨t, ht, es, hes, hn, -⟩ := h.blockMove_exchange hx hb
    have hone : s.adds (s.exchanged out inp) [.exchange out inp] := rfl
    exact ⟨t, _, ht, hone.trans hes, fun x y => by simp [hn, hx, hb, eq_comm]⟩

/-- A step adds the exchange that its host's part leaves and a byte completes, and no other. -/
theorem Inv.stepWith_adds (h : Inv s) {tn : Turn} (hr : tn.rst = false) :
    ∃ u t es, (s.sense tn).hostPart = .next u ∧ s.stepWith tn = .next t ∧ s.adds t es ∧
      ∀ x y, Event.exchange x y ∈ es ↔ u.exchangeRequest = some x ∧ u.busIn = some y := by
  obtain ⟨u, hu, hi⟩ := (h.sense tn).hostPart
  obtain ⟨es, hes, hn, -⟩ := hostPart_quiet hu
  have hes : s.adds u es := hes
  rw [stepWith_of_not_rst hr, State.serve, hu, andThen_next, State.moveAfter]
  split
  next hbegun =>
    have hnone : u.exchangeRequest = none := by
      obtain ⟨-, hx, -⟩ | ⟨-, hk⟩ := (h.sense tn).hostPart_exchange hu
      · exact hx
      · exact hk.begun hbegun.1 hbegun.2
    exact ⟨u, u.auxPhase, es, rfl, rfl, by simpa [State.adds] using hes, by simp [hn, hnone]⟩
  next =>
    obtain ⟨t, fs, ht, hfs, hm⟩ := hi.blockMove_adds
    rw [ht]
    exact ⟨u, t.auxPhase, es ++ fs, rfl, rfl, by simpa [State.adds] using hes.trans hfs,
      by simp [hn, hm]⟩

/-- Signals that hold no offer leave the host's thread as it is. -/
theorem stopOffered_sense {tn : Turn} (ho : tn.offer = none) :
    (s.sense tn).stopOffered ↔ s.stopOffered := by
  simp [State.stopOffered, State.sense, Turn.hostAfter, ho]

theorem Inv.requestUnder_of_stop (h : Inv s) {tn : Turn} (ho : tn.offer = none)
    (hs : s.stopOffered) : s.requestUnder tn = none := by
  obtain ⟨u, hu, -⟩ := (h.sense tn).hostPart
  obtain ⟨-, hx, -⟩ | ⟨hn, -⟩ := (h.sense tn).hostPart_exchange hu
  · simp [State.requestUnder, hu, hx]
  · exact absurd ((stopOffered_sense ho).2 hs) hn

theorem Inv.requestUnder_of_not_stop (h : Inv s) {tn : Turn} (ho : tn.offer = none)
    (hs : ¬ s.stopOffered) : s.requestUnder tn = s.exchangeRequest := by
  obtain ⟨u, hu, -⟩ := (h.sense tn).hostPart
  obtain ⟨hn, -⟩ | ⟨-, hk⟩ := (h.sense tn).hostPart_exchange hu
  · exact absurd ((stopOffered_sense ho).1 hn) hs
  · simp [State.requestUnder, hu, hk.request]

/-- Whatever the peer does in a step, the block is at the same exchange in it. -/
theorem Inv.requestUnder_congr (h : Inv s) {tn tn' : Turn} (ho : tn.offer = none)
    (ho' : tn'.offer = none) : s.requestUnder tn = s.requestUnder tn' := by
  by_cases hs : s.stopOffered
  · rw [h.requestUnder_of_stop ho hs, h.requestUnder_of_stop ho' hs]
  · rw [h.requestUnder_of_not_stop ho hs, h.requestUnder_of_not_stop ho' hs]

/-- The byte that completes the exchange of a step is that of its signals. -/
theorem Inv.busIn_of_hostPart (h : Inv s) {tn : Turn} (hu : (s.sense tn).hostPart = .next u)
    (hx : u.exchangeRequest ≠ none) : u.busIn = (s.sense tn).busIn := by
  obtain ⟨es, -, -, hf⟩ := hostPart_quiet hu
  obtain ⟨-, hn, -⟩ | ⟨-, hk⟩ := (h.sense tn).hostPart_exchange hu
  · exact absurd hn hx
  · have hr : u.role = (s.sense tn).role := hk.role (hk.request ▸ hx)
    simp [State.busIn, hk.now, hr, hf]

/-- A step without reset adds the exchange of the step, with the byte of its signals. -/
theorem Inv.exchange_mem_iff (h : Inv s) {tn : Turn} (hr : tn.rst = false)
    (ht : s.stepWith tn = .next t) {es : List Event} (hes : s.adds t es) (x y : Byte) :
    Event.exchange x y ∈ es ↔ s.requestUnder tn = some x ∧ (s.sense tn).busIn = some y := by
  obtain ⟨u, t', es', hu, ht', hes', hiff⟩ := h.stepWith_adds hr
  cases ht.symm.trans ht'
  cases hes.unique hes'
  have hreq : s.requestUnder tn = u.exchangeRequest := by simp [State.requestUnder, hu]
  rw [hiff, hreq]
  refine and_congr_right fun hx => ?_
  rw [h.busIn_of_hostPart hu (by simp [hx])]

/-- A step of reset adds none (R260). -/
theorem exchange_notMem_of_rst {tn : Turn} (hr : tn.rst = true) (ht : s.stepWith tn = .next t)
    {es : List Event} (hes : s.adds t es) (x y : Byte) : Event.exchange x y ∉ es := by
  cases (step_of_rst { s with sched := tn :: s.sched } hr).symm.trans ht
  have hreset : s.adds (State.auxPhase (State.hardReset (s.sense tn))) [.reset] := by
    simp [State.adds, State.hardReset]
  cases hes.unique hreset
  simp

end Sys2Proof.Machine
end


section
/-! The rendezvous of the two ends of a link (R85, R241). -/

namespace Sys2Proof.Machine

variable {s t : State} {l k : Link}

/-! ## One end, with a host that does nothing -/

@[simp] theorem busIn_sense_byte (s : State) (b : Byte) :
    (s.sense (Turn.byte b)).busIn = some b := busIn_byte _ b rfl

theorem stepWith_of_idle_host (hq : s.hostQ = []) {tn : Turn} (ho : tn.offer = none)
    (hr : tn.rst = false) :
    s.stepWith tn = andThen (s.sense tn).blockMove fun u => .next u.auxPhase := by
  have hf : (s.sense tn).fetch = none :=
    fetch_nil _ (by simp [State.sense, Turn.hostAfter, hq, ho])
  rw [stepWith_of_not_rst hr, State.serve, hostPart_of_none _ hf, andThen_next, moveAfter_self]

/-- The byte meets a Slave that is at no exchange (R61, R241). -/
theorem stepWith_byte_trigger (hq : s.hostQ = []) (he : s.exchangeRequest = none) (m : Byte) :
    s.stepWith (Turn.byte m) =
      andThen (andThen { s with now := Turn.byte m }.readyForByte (execRxs m)) fun u =>
        .next u.auxPhase := by
  rw [stepWith_of_idle_host hq rfl rfl]
  exact congrArg (andThen · _) (blockMove_byte_trigger (s := s.sense (Turn.byte m)) rfl he)

theorem stepWith_of_ready (hq : s.hostQ = []) (he : s.exchangeRequest = none)
    (hr : s.rxsReady = true) (hc : s.rxCursor = .start) (m : Byte) :
    ∃ t fs, s.stepWith (Turn.byte m) = .next t ∧ s.adds t fs ∧ Event.rxByte m ∈ fs ∧
      t.rxActive = decide (m = 0x24) := by
  obtain ⟨-, -, -, ha, -⟩ := rxsReady_iff.1 hr
  obtain ⟨t, fs, ht, hfs, -, -, hact⟩ :=
    startRxs_adds (s := { s with now := Turn.byte m }) hc ha m
  have hp : State.publishing { s with now := Turn.byte m } = false := publishing_of_inactive ha
  rw [stepWith_byte_trigger hq he, readyForByte_of_not _ hp, andThen_next,
    execRxs_of_ready (s := { s with now := Turn.byte m }) hr, ht]
  have hfs : s.adds t.auxPhase (.rxByte m :: fs) := by simpa [State.adds] using hfs
  exact ⟨t.auxPhase, _, rfl, hfs, by simp, by simpa using hact⟩

theorem Inv.stepWith_of_publishing (h : Inv s) (hq : s.hostQ = []) (hp : s.publishing = true)
    (m : Byte) :
    ∃ t fs gs, s.stepWith (Turn.byte m) = .next t ∧ s.adds t (fs ++ .rxByte m :: gs) ∧
      Event.commit ∈ fs ∧ t.rxActive = decide (m = 0x24) := by
  obtain ⟨t, fs, gs, ht, hadds, hc, -, -, hact⟩ :=
    (h.withNow (Turn.byte m)).publish_then_byte hp m
  rw [stepWith_byte_trigger hq (h.exchangeRequest_of_publishing hp), ht]
  exact ⟨t.auxPhase, fs, gs, rfl, by simpa [State.adds] using hadds, hc, by simpa using hact⟩

theorem stepWith_of_lost (hq : s.hostQ = []) (he : s.exchangeRequest = none)
    (hr : s.rxsReady = false) (hp : s.publishing = false) (m : Byte) :
    s.stepWith (Turn.byte m) =
      .next { s with now := Turn.byte m, trace := .lostByte m :: s.trace } := by
  have hp' : State.publishing { s with now := Turn.byte m } = false := hp
  rw [stepWith_byte_trigger hq he, readyForByte_of_not _ hp', andThen_next,
    execRxs_of_not_ready (s := { s with now := Turn.byte m }) hr]
  rfl

/-! ## The Master's turn -/

/-- What the Slave's side gives the Master over an undamaged wire. -/
theorem towardsMaster_of_idle_host (hs : l.slave.hostQ = []) {tn : Turn} (ho : tn.offer = none) :
    l.towardsMaster tn 0 = Turn.exchange l.slave.exchangeRequest := by
  have hr := requestUnder_of_idle_host l.slave tn hs ho
  cases hx : l.slave.exchangeRequest with
  | none => exact towardsMaster_of_none l tn 0 (hr.trans hx)
  | some c => exact (towardsMaster_of_some l tn 0 c (hr.trans hx)).trans (by simp [Turn.exchange])

/-- The rendezvous of a Master at an exchange, both hosts doing nothing and no byte damaged. -/
theorem linkStep_of_rendezvous {ts : List LinkTurn} {m : Byte} (hm : l.master.hostQ = [])
    (hs : l.slave.hostQ = []) (hsched : l.sched = .master 0 0 :: ts)
    (hreq : l.master.exchangeRequest = some m)
    (hu : l.master.stepWith (Turn.exchange l.slave.exchangeRequest) = .next s)
    (hv : l.slave.stepWith (Turn.byte m) = .next t) :
    linkStep l = .next (l.wire { master := s, slave := t, sched := ts }) := by
  have hmaster : l.master.requestUnder Turn.run = some m :=
    (requestUnder_of_idle_host l.master _ hm rfl).trans hreq
  have hmove : Link.masterTurn { l with sched := ts } 0 0 =
      .next { master := s, slave := t, sched := ts } := by
    have hclean : m ^^^ (0 : Byte) = m := by simp
    rw [masterTurn_of_some { l with sched := ts } m 0 0 hmaster,
      towardsMaster_of_idle_host (l := { l with sched := ts }) hs rfl, hclean]
    exact (both_eq_next _ _ _ _).2 ⟨s, t, hu, hv, rfl⟩
  rw [linkStep_cons hsched, Link.take, hmove, andThen_next]

/-! ## The exchanges of the two ends are common events -/

theorem State.adds.eq_nil {es : List Event} (h : s.adds s es) : es = [] :=
  h.unique (fs := []) rfl

/-- Which ends step in an agent's turn, and under which signals: both in the rendezvous, otherwise
one that takes part in no exchange, or none. -/
theorem Link.take_cases {tn : LinkTurn} (hk : l.take tn = .next k) :
    (∃ a b m s t, tn = .master a b ∧ l.master.requestUnder Turn.run = some m ∧
      l.master.stepWith (l.towardsMaster (Turn.byte (m ^^^ a)) b) = .next s ∧
      l.slave.stepWith (Turn.byte (m ^^^ a)) = .next t ∧
      k = { l with master := s, slave := t }) ∨
    (∃ tm s, (tm.move = .quiet ∨ tm = Turn.run ∧ l.master.requestUnder Turn.run = none) ∧
      l.master.stepWith tm = .next s ∧ k = { l with master := s }) ∨
    (∃ ts t, (ts.move = .quiet ∨ ts = Turn.run) ∧ l.slave.stepWith ts = .next t ∧
      k = { l with slave := t }) ∨
    ∃ v, k = l.auxInput v := by
  cases tn with
  | master a b =>
    cases hr : l.master.requestUnder Turn.run with
    | none =>
      obtain ⟨s, hs, rfl⟩ :=
        (onlyMaster_eq_next l k _).1 ((masterTurn_of_none l a b hr).symm.trans hk)
      exact .inr (.inl ⟨_, s, .inr ⟨rfl, rfl⟩, hs, rfl⟩)
    | some m =>
      obtain ⟨s, t, hs, ht, rfl⟩ :=
        (both_eq_next l k _ _).1 ((masterTurn_of_some l m a b hr).symm.trans hk)
      exact .inl ⟨a, b, m, s, t, rfl, rfl, hs, ht, rfl⟩
  | slave =>
    obtain ⟨t, ht, rfl⟩ := (onlySlave_eq_next l k _).1 hk
    exact .inr (.inr (.inl ⟨_, t, .inr rfl, ht, rfl⟩))
  | slaveHost _ | slaveReset =>
    obtain ⟨t, ht, rfl⟩ := (onlySlave_eq_next l k _).1 hk
    exact .inr (.inr (.inl ⟨_, t, .inl rfl, ht, rfl⟩))
  | masterHost _ | masterReset =>
    obtain ⟨s, hs, rfl⟩ := (onlyMaster_eq_next l k _).1 hk
    exact .inr (.inl ⟨_, s, .inl rfl, hs, rfl⟩)
  | auxLevel v =>
    cases hk
    exact .inr (.inr (.inr ⟨v, rfl⟩))

/-- A step in which the block is quiet adds no exchange. -/
theorem Inv.exchange_notMem_of_quiet (h : Inv s) {tn : Turn} (hq : tn.move = .quiet)
    (ht : s.stepWith tn = .next t) {es : List Event} (hes : s.adds t es) (x y : Byte) :
    Event.exchange x y ∉ es := by
  cases hr : tn.rst with
  | true => exact exchange_notMem_of_rst hr ht hes x y
  | false =>
    rw [h.exchange_mem_iff hr ht hes]
    simp [busIn_quiet (s.sense tn) hq]

theorem auxInput_slave (l : Link) (v : Bool) : (l.auxInput v).slave = l.slave := by
  unfold Link.auxInput
  split <;> simp

theorem auxInput_trace (l : Link) (v : Bool) :
    (l.auxInput v).master.trace = l.master.trace := by
  unfold Link.auxInput
  split <;> simp

/-- An exchange of the Slave in a step of the link is one with the Master (R51, R85). -/
theorem exchange_of_slave {es fs : List Event} (hm : Inv l.master) (hs : Inv l.slave)
    (hrole : l.slave.role = .slave) (hk : linkStep l = .next k) (hes : l.master.adds k.master es)
    (hfs : l.slave.adds k.slave fs) {x y : Byte} (hxy : Event.exchange x y ∈ fs) :
    ∃ a b ts, l.sched = .master a b :: ts ∧ Event.exchange (y ^^^ a) (x ^^^ b) ∈ es := by
  obtain ⟨-, rfl⟩ | ⟨tn, ts, k₁, hcons, htake, rfl⟩ := linkStep_eq_next.1 hk
  · simp [hfs.eq_nil] at hxy
  rw [wire_slave] at hfs
  have hes : l.master.adds k₁.master es := by simpa [State.adds] using hes
  obtain ⟨a, b, m, s, t, rfl, hreq, hu, hv, rfl⟩ | ⟨tm, s, -, -, rfl⟩ |
    ⟨tn, t, hturn, hv, rfl⟩ | ⟨v, rfl⟩ := Link.take_cases htake
  · obtain ⟨hx, hy⟩ := (hs.exchange_mem_iff rfl hv hfs x y).1 hxy
    obtain rfl : m ^^^ a = y := Option.some.inj ((busIn_sense_byte _ _).symm.trans hy)
    rw [towardsMaster_of_some { l with sched := ts } _ b x hx] at hu
    refine ⟨a, b, ts, hcons, (hm.exchange_mem_iff rfl hu hes _ _).2 ⟨?_, busIn_sense_byte _ _⟩⟩
    rw [hm.requestUnder_congr (tn' := Turn.run) rfl rfl, BitVec.xor_assoc, BitVec.xor_self,
      BitVec.xor_zero]
    exact hreq
  · simp [hfs.eq_nil] at hxy
  · obtain hturn | rfl := hturn
    · exact absurd hxy (hs.exchange_notMem_of_quiet hturn hv hfs x y)
    · have hy := ((hs.exchange_mem_iff rfl hv hfs x y).1 hxy).2
      simp [busIn_run_slave (l.slave.sense Turn.run) rfl hrole] at hy
  · rw [auxInput_slave] at hfs
    simp [hfs.eq_nil] at hxy

/-- An exchange of the Master in a step of the link is one with a Slave held in one (R85, R241). -/
theorem exchange_of_master {es fs : List Event} (hm : Inv l.master) (hs : Inv l.slave)
    (hk : linkStep l = .next k) (hes : l.master.adds k.master es)
    (hfs : l.slave.adds k.slave fs) {x y c : Byte} (hxy : Event.exchange x y ∈ es)
    (hc : l.slave.exchangeRequest = some c) (hq : l.slave.hostQ = []) :
    ∃ a b ts, l.sched = .master a b :: ts ∧ y = c ^^^ b ∧ Event.exchange c (x ^^^ a) ∈ fs := by
  obtain ⟨-, rfl⟩ | ⟨tn, ts, k₁, hcons, htake, rfl⟩ := linkStep_eq_next.1 hk
  · simp [hes.eq_nil] at hxy
  rw [wire_slave] at hfs
  have hes : l.master.adds k₁.master es := by simpa [State.adds] using hes
  obtain ⟨a, b, m, s, t, rfl, hreq, hu, hv, rfl⟩ | ⟨tm, s, hturn, hu, rfl⟩ |
    ⟨tn, t, -, -, rfl⟩ | ⟨v, rfl⟩ := Link.take_cases htake
  · have hslave : l.slave.requestUnder (Turn.byte (m ^^^ a)) = some c :=
      (requestUnder_of_idle_host l.slave _ hq rfl).trans hc
    rw [towardsMaster_of_some { l with sched := ts } _ b c hslave] at hu
    obtain ⟨hx, hy⟩ := (hm.exchange_mem_iff rfl hu hes x y).1 hxy
    rw [hm.requestUnder_congr (tn' := Turn.run) rfl rfl] at hx
    obtain rfl : m = x := Option.some.inj (hreq.symm.trans hx)
    exact ⟨a, b, ts, hcons, Option.some.inj (hy.symm.trans (busIn_sense_byte _ _)),
      (hs.exchange_mem_iff rfl hv hfs _ _).2 ⟨hslave, busIn_sense_byte _ _⟩⟩
  · obtain hturn | ⟨rfl, hnone⟩ := hturn
    · exact absurd hxy (hm.exchange_notMem_of_quiet hturn hu hes x y)
    · have hx := ((hm.exchange_mem_iff rfl hu hes x y).1 hxy).1
      cases hnone.symm.trans hx
  · simp [hes.eq_nil] at hxy
  · have hes : l.master.adds l.master es := by simpa [State.adds, auxInput_trace] using hes
    simp [hes.eq_nil] at hxy

/-- An endpoint at an exchange adds it in a step whose signals hold a byte for it. -/
theorem Inv.stepWith_of_request (h : Inv s) (hq : s.hostQ = []) {m v : Byte} {tn : Turn}
    (ho : tn.offer = none) (hr : tn.rst = false) (hreq : s.exchangeRequest = some m)
    (hb : (s.sense tn).busIn = some v) :
    ∃ t es, s.stepWith tn = .next t ∧ s.adds t es ∧ Event.exchange m v ∈ es := by
  obtain ⟨-, t, es, -, ht, hes, -⟩ := h.stepWith_adds hr
  exact ⟨t, es, ht, hes, (h.exchange_mem_iff hr ht hes m v).2
    ⟨(requestUnder_of_idle_host s tn hq ho).trans hreq, hb⟩⟩

end Sys2Proof.Machine

section

open Sys2Proof Sys2Proof.Machine

/-- Settles O58: the Master's turn is the rendezvous, in which the Slave meets the byte as one of
the cases of a step of its own; a step of one end adds an exchange only as the turn gives it a
byte. -/
theorem rendezvous : Obligations.Rendezvous := by
  refine ⟨fun l ts m hm hs hmr hsr hmq hsq hsched hreq => ?_,
    fun l k es fs hm hs _ hsr hk hes hfs =>
      ⟨fun x y hxy => exchange_of_slave hm hs hsr hk hes hfs hxy,
        fun x y c hxy hc hq => exchange_of_master hm hs hk hes hfs hxy hc hq⟩⟩
  have hin : ∃ v, (l.master.sense (Turn.exchange l.slave.exchangeRequest)).busIn = some v ∧
      ∀ c, l.slave.exchangeRequest = some c → v = c := by
    cases hx : l.slave.exchangeRequest with
    | none => exact ⟨_, busIn_run_master _ rfl hmr, by simp⟩
    | some c => exact ⟨c, busIn_sense_byte _ c, by simp⟩
  obtain ⟨v, hv, hvc⟩ := hin
  have hturn : (Turn.exchange l.slave.exchangeRequest).offer = none ∧
      (Turn.exchange l.slave.exchangeRequest).rst = false := by
    cases l.slave.exchangeRequest <;> exact ⟨rfl, rfl⟩
  obtain ⟨s, es, hstep, hes, hmem⟩ :=
    hm.stepWith_of_request hmq hturn.1 hturn.2 hreq hv
  obtain ⟨-, t, fs, -, ht, hfs, -⟩ := hs.stepWith_adds (tn := Turn.byte m) rfl
  refine ⟨_, linkStep_of_rendezvous hmq hsq hsched hreq hstep ht, by simp, ?_⟩
  have hes : l.master.adds (l.wire ⟨s, t, ts⟩).master es := by simpa [State.adds] using hes
  rw [wire_slave]
  refine ⟨fun c hc => ⟨es, fs, hes, hfs, hvc c hc ▸ hmem, ?_⟩, fun _ => ⟨v, es, hes, hmem⟩,
    fun he hready => ?_, fun ok hp => ?_, fun he hready hnp => ?_⟩
  · exact (hs.exchange_mem_iff rfl ht hfs c m).2
      ⟨(requestUnder_of_idle_host _ _ hsq rfl).trans hc, busIn_sense_byte _ m⟩
  · obtain ⟨-, -, -, ha, -⟩ := rxsReady_iff.1 hready
    obtain ⟨t', fs', ht', hfs', hb, hact⟩ :=
      stepWith_of_ready hsq he hready (hs.receiveSound.cursor_of_inactive ha) m
    cases ht.symm.trans ht'
    exact ⟨⟨fs', hfs', hb⟩, hact⟩
  · have hpub : l.slave.publishing = true :=
      (publishing_iff _).2 ⟨hs.active.2 (by simp [hp]), hsr, ok, hp⟩
    obtain ⟨t', fs', gs', ht', hadds, hc, hact⟩ := hs.stepWith_of_publishing hsq hpub m
    cases ht.symm.trans ht'
    exact ⟨⟨fs', gs', hadds, hc⟩, hact⟩
  · have hpub : l.slave.publishing = false := by
      rw [← Bool.not_eq_true, publishing_iff]
      rintro ⟨-, -, ok, hp⟩
      exact hnp ok hp
    cases ht.symm.trans (stepWith_of_lost hsq he hready hpub m)
    rfl

end
end

section
/-! A Master's send from its acceptance to its end (R140 to R148).

The bytes of a frame go out one by one, and what an exchange receives is only in the trace.  So the
run is cut into pieces `u.SendsTo v out`: from `u` the bytes `out` go out, whatever comes back, and
the FSM is at `v`.  The pieces of a frame are put together in the order of its fields. -/

namespace Sys2Proof.Machine

variable {s u v w : State}

/-! ## The bytes a Master receives (R52) -/

/-- What exchanges receive whose peer gives these bytes or none, the first at value `c` of the
counter of free values. -/
def received : Nat → List (Option Byte) → List Byte
  | _, [] => []
  | c, i :: is => i.getD (Config.freeByte c) :: received (c + 1) is

@[simp] theorem received_length (c : Nat) (inp : List (Option Byte)) :
    (received c inp).length = inp.length := by
  induction inp generalizing c with
  | nil => rfl
  | cons i is ih => simp [received, ih]

theorem received_append (c : Nat) (xs ys : List (Option Byte)) :
    received c (xs ++ ys) = received c xs ++ received (c + xs.length) ys := by
  induction xs generalizing c with
  | nil => rfl
  | cons x xs ih => simp [received, ih, Nat.add_assoc, Nat.add_comm 1]

/-- A byte the peer gives is received. -/
theorem received_of_given (c : Nat) {inp : List (Option Byte)} {i : Nat} {b : Byte}
    (h : inp[i]? = some (some b)) : (received c inp)[i]? = some b := by
  induction inp generalizing c i with
  | nil => simp at h
  | cons x xs ih =>
    cases i with
    | zero => simp at h; simp [received, h]
    | succ i => simpa [received] using ih (c + 1) (by simpa using h)

theorem masterSendEvents_append {o o' g g' : List Byte} (h : o.length = g.length) :
    masterSendEvents (o ++ o') (g ++ g') = masterSendEvents o g ++ masterSendEvents o' g' := by
  simp [masterSendEvents, List.zip_append h]

/-! ## The signals, the counter of free values and the trace -/

/-- The state with other input signals, another counter of free values and another trace, none of
which a send reads but through the bytes it receives and discards (R142). -/
def State.withGhost (s : State) (t : Turn) (c : Nat) (tr : List Event) : State :=
  { s with now := t, freeCtr := c, trace := tr }

theorem toField_withGhost (s : State) (sel : Sel) (t : Turn) (c : Nat) (tr : List Event) :
    (s.withGhost t c tr).toField sel = (s.toField sel).withGhost t c tr := by
  cases sel <;> rfl

theorem frameSent_withGhost (s : State) (t : Turn) (c : Nat) (tr : List Event) :
    (s.withGhost t c tr).frameSent = s.frameSent.withGhost t c tr := by
  obtain hr | hr := role_cases s.role
  · rw [frameSent_master hr, frameSent_master (s := s.withGhost t c tr) hr]; rfl
  · rw [frameSent_slave hr, frameSent_slave (s := s.withGhost t c tr) hr]; rfl

theorem bodyNext_withGhost (s : State) (t : Turn) (c : Nat) (tr : List Event) :
    (s.withGhost t c tr).bodyNext = s.bodyNext.withGhost t c tr := by
  have htest : (s.withGhost t c tr).txCounted = s.txCounted := rfl
  have hpos : (s.withGhost t c tr).params = s.params := rfl
  unfold State.bodyNext
  rw [htest, hpos]
  split
  · split
    · exact toField_withGhost s _ t c tr
    · exact frameSent_withGhost s t c tr
  · exact toField_withGhost s _ t c tr

theorem enterTransfer_withGhost (s : State) (t : Turn) (c : Nat) (tr : List Event) :
    (s.withGhost t c tr).enterTransfer = s.enterTransfer.withGhost t c tr := by
  rw [enterTransfer_eq, enterTransfer_eq]
  rfl

theorem fieldNext_withGhost (s : State) (sel : Sel) (t : Turn) (c : Nat) (tr : List Event) :
    (s.withGhost t c tr).fieldNext sel = (s.fieldNext sel).withGhost t c tr := by
  cases sel with
  | start => rw [fieldNext_start, fieldNext_start]; exact toField_withGhost s _ t c tr
  | lenHi => rw [fieldNext_lenHi, fieldNext_lenHi]; exact toField_withGhost s _ t c tr
  | lenLo =>
    rw [fieldNext_lenLo, fieldNext_lenLo, enterTransfer_withGhost]
    exact bodyNext_withGhost _ t c tr
  | payload => rw [fieldNext_payload, fieldNext_payload]; exact bodyNext_withGhost s t c tr
  | checksum =>
    rw [fieldNext_checksum, fieldNext_checksum]
    cases hp : s.params.checksumPos with
    | trailing => simpa [State.withGhost, hp] using frameSent_withGhost s t c tr
    | leading => simpa [State.withGhost, hp] using toField_withGhost s .lenHi t c tr

theorem masterFieldSent_withGhost (s : State) {sel : Sel} (b : Byte) (t : Turn) (c : Nat)
    (tr : List Event) (h : sel = .payload → s.byteCnt < s.txLen) :
    (s.withGhost t c tr).masterFieldSent sel b = (s.masterFieldSent sel b).withGhost t c tr := by
  by_cases hs : sel = .payload
  · subst hs
    rw [masterFieldSent_payload s b (h rfl), masterFieldSent_payload (s.withGhost t c tr) b (h rfl)]
    rfl
  · rw [masterFieldSent_of_ne s b hs, masterFieldSent_of_ne (s.withGhost t c tr) b hs]
    rfl

/-! ## Steps of a Master's send -/

theorem activeMove_master (hr : s.role = .master) (ht : s.txState ≠ .idle) :
    s.activeMove = .next s.masterMove := by
  rw [activeMove_of_busy s ht, State.txMove, hr]

/-- A step of a Master's send is its primitive. -/
theorem runTurns_master (hr : u.role = .master) (ht : u.txState ≠ .idle) (ts : List Turn)
    (hv : State.masterMove { u with now := Turn.run } = v) (hn : v.now = Turn.run) :
    State.runTurns (Turn.run :: ts) u = State.runTurns ts v := by
  refine runTurns_cons_of_move _ _ _ _ ?_ (by rw [hn]; rfl)
  rw [blockMove_run_busy rfl (by simp [busy_eq, ht]),
    activeMove_master (s := { u with now := Turn.run }) hr ht, hv]

/-- The step of an exchange of a Master's send. -/
theorem runTurns_masterExchange (hr : u.role = .master) (ht : u.txState ≠ .idle) {sel : Sel}
    {b : Byte} (hp : u.txPoint = .send sel b) (hc : sel = .payload → u.byteCnt < u.txLen)
    (i : Option Byte) (ts : List Turn) :
    State.runTurns (Turn.exchange i :: ts) u =
      State.runTurns ts ((u.masterFieldSent sel b).withGhost (Turn.exchange i) (u.freeCtr + 1)
        (.exchange b (i.getD (Config.freeByte u.freeCtr)) :: u.trace)) := by
  have hreq : u.exchangeRequest ≠ none := by
    rw [exchangeRequest_of_busy ht, Option.ne_none_iff_exists']
    exact ⟨b, txRequest_eq_some.2 (.inl ⟨sel, hp⟩)⟩
  have hmove : State.blockMove { u with now := Turn.exchange i } =
      .next (State.masterMove { u with now := Turn.exchange i }) := by
    rw [← activeMove_master (s := { u with now := Turn.exchange i }) hr ht]
    cases i with
    | none => exact blockMove_run_busy rfl (busy_of_exchangeRequest hreq)
    | some v => exact blockMove_byte_exchange rfl hreq
  have hin : State.busIn { u with now := Turn.exchange i } =
      some (i.getD (Config.freeByte u.freeCtr)) := by
    cases i with
    | none => exact busIn_run_master _ rfl hr
    | some v => exact busIn_byte _ v rfl
  rw [masterMove_send { u with now := Turn.exchange i } sel b hp, hin] at hmove
  refine runTurns_cons_of_move _ _ _ _
    (hmove.trans (congrArg _ (masterFieldSent_withGhost u b _ _ _ hc))) ?_
  cases i <;> rfl

theorem masterFieldSent_place (s : State) (sel : Sel) (b : Byte) :
    (s.masterFieldSent sel b).role = s.role ∧ (s.masterFieldSent sel b).txState = s.txState ∧
      (s.masterFieldSent sel b).txPoint = .delay sel := by
  cases sel with
  | payload => cases hp : s.params.checksumPos <;> simp [State.masterFieldSent, hp]
  | start | lenHi | lenLo | checksum => exact ⟨rfl, rfl, rfl⟩

/-- The delay after a field, and the request of the next (R142, R144). -/
theorem runTurns_masterDelay (hr : u.role = .master) (ht : u.txState ≠ .idle) {sel : Sel}
    (hp : u.txPoint = .delay sel) (t : Turn) (c : Nat) (tr : List Event) (ts : List Turn) :
    State.runTurns (Turn.run :: ts) (u.withGhost t c tr) =
      State.runTurns ts ((u.fieldNext sel).withGhost Turn.run c (.delay .byte :: tr)) := by
  have hmove := masterMove_delay (u.withGhost Turn.run c tr) sel hp
  exact runTurns_master (u := u.withGhost t c tr) hr ht ts
    (hmove.trans (fieldNext_withGhost u sel Turn.run c _)) rfl

/-! ## Bytes going out -/

/-- The signals of the exchanges and of the delay after each (R142, R144). -/
def fieldTurns (inp : List (Option Byte)) : List Turn :=
  inp.flatMap fun i => [Turn.exchange i, Turn.run]

/-- From `u` the bytes `out` go out, whatever the peer gives, and the FSM is at `v`. -/
def State.SendsTo (u v : State) (out : List Byte) : Prop :=
  ∀ (c : Nat) (tr : List Event) (inp : List (Option Byte)) (ts : List Turn),
    inp.length = out.length →
      State.runTurns (fieldTurns inp ++ ts) (u.withGhost Turn.run c tr) =
        State.runTurns ts (v.withGhost Turn.run (c + out.length)
          ((masterSendEvents out (received c inp)).reverse ++ tr))

theorem State.SendsTo.refl (u : State) : u.SendsTo u [] := by
  intro c tr inp ts h
  obtain rfl := List.length_eq_zero_iff.1 h
  rfl

theorem State.SendsTo.trans {o o' : List Byte} (h : u.SendsTo v o) (k : v.SendsTo w o') :
    u.SendsTo w (o ++ o') := by
  intro c tr inp ts hl
  obtain ⟨xs, ys, rfl, hx, hy⟩ : ∃ xs ys, inp = xs ++ ys ∧ xs.length = o.length ∧
      ys.length = o'.length :=
    ⟨inp.take o.length, inp.drop o.length, (List.take_append_drop _ _).symm,
      by simp [hl], by simp [hl]⟩
  have hturns : fieldTurns (xs ++ ys) ++ ts = fieldTurns xs ++ (fieldTurns ys ++ ts) := by
    simp [fieldTurns]
  rw [hturns, h c tr xs _ hx, k _ _ ys ts hy, received_append,
    masterSendEvents_append (by simp [hx])]
  simp [hx, Nat.add_assoc]

/-- One field: an exchange and a delay (R142, R144). -/
theorem sendsTo_field (hr : u.role = .master) (ht : u.txState ≠ .idle) {sel : Sel} {b : Byte}
    (hp : u.txPoint = .send sel b) (hc : sel = .payload → u.byteCnt < u.txLen) :
    u.SendsTo ((u.masterFieldSent sel b).fieldNext sel) [b] := by
  intro c tr inp ts hl
  obtain ⟨i, rfl⟩ := List.length_eq_one_iff.1 hl
  obtain ⟨hr', ht', hp'⟩ := masterFieldSent_place u sel b
  have hx := runTurns_masterExchange (u := u.withGhost Turn.run c tr) hr ht hp hc i (Turn.run :: ts)
  rw [masterFieldSent_withGhost u b Turn.run c tr hc] at hx
  exact hx.trans (runTurns_masterDelay (hr'.trans hr) (ht'.symm ▸ ht) hp' _ _ _ ts)

/-! ## The payload -/

/-- A Master that has sent `n` payload bytes, with `k` in the accumulator. -/
def State.inBody (u : State) (n : Half) (k : Byte) : State :=
  { u with txState := .transferring, byteCnt := n, cksAcc := k }

/-- Where the loop test goes does not depend on where it is made. -/
theorem bodyNext_forgets_place (hr : s.role = .master) (p : TxPoint) :
    State.bodyNext { s with txPoint := p } = s.bodyNext := by
  have htest : State.txCounted { s with txPoint := p } = s.txCounted := rfl
  unfold State.bodyNext
  rw [htest, frameSent_master hr, frameSent_master (s := { s with txPoint := p }) hr]
  split
  · cases hp : s.params.checksumPos <;> rfl
  · rfl

theorem enterTransfer_master (hr : u.role = .master) :
    u.enterTransfer =
      u.inBody 0 (if u.params.checksumPos = .trailing then 0 else u.cksAcc) := by
  rw [enterTransfer_eq]
  simp [State.inBody, hr]

theorem Memory.bytes_succ (m : Memory) (j : Nat) : m.bytes (j + 1) = m.bytes j ++ [m.read j] := by
  simp [Memory.bytes, List.range_succ]

theorem Memory.bytes_length (m : Memory) (n : Nat) : (m.bytes n).length = n := by
  simp [Memory.bytes]

/-- A count below a length does not wrap (R123). -/
theorem ofNat_lt_of_lt {j : Nat} {n : Half} (h : j < n.toNat) :
    (BitVec.ofNat 16 j).toNat = j ∧ BitVec.ofNat 16 j < n := by
  have hcnt : (BitVec.ofNat 16 j).toNat = j := by
    have := n.isLt
    simp
    omega
  exact ⟨hcnt, by rwa [BitVec.lt_def, hcnt]⟩

/-- One turn of the payload loop (R142, R148). -/
theorem body_sendsTo_next (hr : u.role = .master) {n : Half} (hn : n < u.txLen) (k : Byte) :
    (u.inBody n k).bodyNext.SendsTo
      (u.inBody (n + 1) (if u.params.checksumPos = .trailing then k + u.outbox.read n.toNat
        else k)).bodyNext [u.outbox.read n.toNat] := by
  have hbusy : (u.inBody n k).txState ≠ .idle := by simp [State.inBody]
  have h := sendsTo_field (u := (u.inBody n k).toField .payload) hr hbusy rfl fun _ => hn
  rw [masterFieldSent_payload _ _ hn, fieldNext_payload] at h
  rw [bodyNext_of_lt (u.inBody n k) hn,
    ← bodyNext_forgets_place (s := u.inBody (n + 1) _) hr (.delay .payload)]
  exact h

/-- What the accumulator holds after the payload bytes `p`, if it held `k` before (R142, R148). -/
def bodySum (pos : ChecksumPos) (k : Byte) (p : List Byte) : Byte :=
  if pos = .trailing then k + sum8 p else k

theorem bodySum_append (pos : ChecksumPos) (k b : Byte) (p : List Byte) :
    bodySum pos k (p ++ [b]) =
      if pos = .trailing then bodySum pos k p + b else bodySum pos k p := by
  cases pos <;> simp [bodySum, sum8_append_singleton, BitVec.add_assoc]

/-- The payload loop up to any number of bytes (R142). -/
theorem body_sendsTo (hr : u.role = .master) (k : Byte) {j : Nat} (hj : j ≤ u.txLen.toNat) :
    (u.inBody 0 k).bodyNext.SendsTo
      (u.inBody (BitVec.ofNat 16 j)
        (bodySum u.params.checksumPos k (u.outbox.bytes j))).bodyNext (u.outbox.bytes j) := by
  induction j with
  | zero =>
    have h0 : bodySum u.params.checksumPos k (u.outbox.bytes 0) = k := by
      cases u.params.checksumPos <;> simp [bodySum, Memory.bytes]
    rw [h0]
    exact .refl _
  | succ j ih =>
    obtain ⟨hcnt, hlt⟩ := ofNat_lt_of_lt (n := u.txLen) hj
    have hstep := body_sendsTo_next hr hlt (bodySum u.params.checksumPos k (u.outbox.bytes j))
    rw [hcnt, ← bodySum_append, ← Memory.bytes_succ] at hstep
    rw [BitVec.ofNat_add]
    rw [Memory.bytes_succ] at hstep ⊢
    exact (ih (by omega)).trans hstep

/-- The whole payload (R142). -/
theorem body_sendsTo_all (hr : u.role = .master) (k : Byte) :
    (u.inBody 0 k).bodyNext.SendsTo
      (u.inBody u.txLen (bodySum u.params.checksumPos k (u.outbox.bytes u.txLen.toNat))).bodyNext
      (u.outbox.bytes u.txLen.toNat) := by
  simpa using body_sendsTo hr k (le_refl u.txLen.toNat)

/-! ## The frame -/

/-- The FSM at another place. -/
def State.place (u : State) (p : TxPoint) : State := { u with txPoint := p }

/-- A field outside the payload: nothing but the place changes (R142). -/
theorem header_sendsTo (hr : u.role = .master) (ht : u.txState ≠ .idle) {sel : Sel}
    (hsel : sel ≠ .payload) (b : Byte) (hv : (u.place (.delay sel)).fieldNext sel = v) :
    (u.place (.send sel b)).SendsTo v [b] := by
  have h := sendsTo_field (u := u.place (.send sel b)) hr ht rfl (absurd · hsel)
  rw [masterFieldSent_of_ne _ b hsel] at h
  exact hv ▸ h

theorem start_sendsTo_of_trailing (hr : u.role = .master) (ht : u.txState ≠ .idle)
    (hp : u.params.checksumPos = .trailing) :
    (u.place (.send .start 0x24)).SendsTo (u.place (.send .lenHi (lenHi u.txLen))) [0x24] :=
  header_sendsTo hr ht (by simp) _ (by simp [fieldNext_start, State.place, hp]; rfl)

theorem start_sendsTo_of_leading (hr : u.role = .master) (ht : u.txState ≠ .idle)
    (hp : u.params.checksumPos = .leading) :
    (u.place (.send .start 0x24)).SendsTo (u.place (.send .checksum u.cksAcc)) [0x24] :=
  header_sendsTo hr ht (by simp) _ (by simp [fieldNext_start, State.place, hp]; rfl)

theorem checksum_sendsTo_of_leading (hr : u.role = .master) (ht : u.txState ≠ .idle)
    (hp : u.params.checksumPos = .leading) (b : Byte) :
    (u.place (.send .checksum b)).SendsTo (u.place (.send .lenHi (lenHi u.txLen))) [b] :=
  header_sendsTo hr ht (by simp) _ (by simp [fieldNext_checksum, State.place, hp]; rfl)

theorem checksum_sendsTo_of_trailing (hr : u.role = .master) (ht : u.txState ≠ .idle)
    (hp : u.params.checksumPos = .trailing) (b : Byte) :
    (u.place (.send .checksum b)).SendsTo (u.place .release) [b] :=
  header_sendsTo hr ht (by simp) _
    (by simp [fieldNext_checksum, State.place, hp, State.frameSent, hr])

/-- The two length bytes, and the entry to the payload (R92, R142). -/
theorem length_sendsTo (hr : u.role = .master) (ht : u.txState ≠ .idle) :
    (u.place (.send .lenHi (lenHi u.txLen))).SendsTo
      (u.inBody 0 (if u.params.checksumPos = .trailing then 0 else u.cksAcc)).bodyNext
      [lenHi u.txLen, lenLo u.txLen] := by
  have hhi : (u.place (.send .lenHi (lenHi u.txLen))).SendsTo
      (u.place (.send .lenLo (lenLo u.txLen))) [lenHi u.txLen] :=
    header_sendsTo hr ht (by simp) _ (fieldNext_lenHi _)
  refine hhi.trans (header_sendsTo hr ht (by simp) _ ?_)
  rw [fieldNext_lenLo, enterTransfer_master (u := u.place (.delay .lenLo)) hr]
  exact bodyNext_forgets_place (s := u.inBody 0 _) hr (.delay .lenLo)

/-- After the payload the checksum goes out, if it has not before (R125, R142, R148). -/
theorem trailer_sendsTo (hr : u.role = .master) (k : Byte) :
    (u.inBody u.txLen k).bodyNext.SendsTo ((u.inBody u.txLen k).place .release)
      (if u.params.checksumPos = .trailing then [k] else []) := by
  have hnext := bodyNext_of_eq (u.inBody u.txLen k) rfl
  have hbusy : (u.inBody u.txLen k).txState ≠ .idle := by simp [State.inBody]
  have hpos : (u.inBody u.txLen k).params = u.params := rfl
  rw [hnext, hpos]
  cases hp : u.params.checksumPos with
  | trailing => exact checksum_sendsTo_of_trailing (u := u.inBody u.txLen k) hr hbusy hp k
  | leading =>
    show State.SendsTo (State.frameSent _) _ []
    rw [frameSent_master (s := u.inBody u.txLen k) hr]
    exact .refl _

/-- From the first exchange of a send to the release of chip-select: the bytes of the frame, the
checksum in the accumulator, the length in the counter (R124, R142, R148). -/
theorem frame_sendsTo (hr : u.role = .master) (ht : u.txState ≠ .idle)
    (hk : u.params.checksumPos = .leading → u.cksAcc = sum8 (u.outbox.bytes u.txLen.toNat)) :
    (u.place (.send .start 0x24)).SendsTo
      ((u.inBody u.txLen (sum8 (u.outbox.bytes u.txLen.toNat))).place .release)
      (frameBytes u.params.checksumPos (u.outbox.bytes u.txLen.toNat)) := by
  have hlen : payloadLen (u.outbox.bytes u.txLen.toNat) = u.txLen := by
    simp [payloadLen, Memory.bytes_length]
  have hlength := length_sendsTo hr ht
  have hbody := fun k => (body_sendsTo_all (u := u) hr k).trans (trailer_sendsTo hr _)
  cases hp : u.params.checksumPos with
  | trailing =>
    simp only [hp, if_true, bodySum] at hlength hbody
    have h := (start_sendsTo_of_trailing hr ht hp).trans (hlength.trans (hbody 0))
    simpa [frameBytes, hlen, Config.startMarker] using h
  | leading =>
    simp only [hp, reduceCtorEq, if_false, bodySum] at hlength hbody
    have h := (start_sendsTo_of_leading hr ht hp).trans
      ((checksum_sendsTo_of_leading hr ht hp u.cksAcc).trans (hlength.trans (hbody u.cksAcc)))
    simpa [frameBytes, hlen, Config.startMarker, hk hp] using h

/-! ## The checksum of a leading frame (R148) -/

/-- A Master that has summed `j` payload bytes. -/
def State.summed (u : State) (j : Nat) : State :=
  { u with
    byteCnt := BitVec.ofNat 16 j, cksAcc := sum8 (u.outbox.bytes j), now := Turn.run }

/-- The payload is summed byte by byte, and no exchange takes place (R122, R148). -/
theorem runTurns_summed (hr : u.role = .master) (ht : u.txState ≠ .idle) (hp : u.txPoint = .sum)
    (h0 : u.byteCnt = 0) (hk : u.cksAcc = 0) {j : Nat} (hj : j ≤ u.txLen.toNat) (ts : List Turn) :
    State.runTurns (List.replicate j Turn.run ++ Turn.run :: ts) u =
      State.runTurns (Turn.run :: ts) (u.summed j) := by
  induction j generalizing ts with
  | zero =>
    have hzero : u.summed 0 = { u with now := Turn.run } := by
      have hsum : sum8 (u.outbox.bytes 0) = u.cksAcc := hk.symm
      have hcnt : BitVec.ofNat 16 0 = u.byteCnt := h0.symm
      rw [State.summed, hsum, hcnt]
    rw [hzero]
    rfl
  | succ j ih =>
    obtain ⟨hcnt, hlt⟩ := ofNat_lt_of_lt (n := u.txLen) hj
    have hopen : (u.summed j).txCounted = false := by
      simp only [State.txCounted, State.summed, beq_eq_false_iff_ne]
      bv_omega
    have hread : u.outbox.read (j % 65536) = u.outbox.read j := by
      rw [Nat.mod_eq_of_lt (by omega)]
    have hmove : (u.summed j).masterMove = u.summed (j + 1) := by
      rw [masterMove_sum (u.summed j) hp, hopen, if_neg (by simp),
        cksStep_of_lt (u.summed j) u.txLen hlt]
      simp [State.summed, State.outboxByte, Memory.bytes_succ, sum8_append_singleton,
        BitVec.ofNat_add, hread]
    rw [List.replicate_succ', List.append_assoc]
    exact (ih (by omega) _).trans (runTurns_master (u := u.summed j) hr ht _ hmove rfl)

/-- The whole payload summed, and chip-select next (R148). -/
theorem runTurns_sum (hr : u.role = .master) (ht : u.txState ≠ .idle) (hp : u.txPoint = .sum)
    (h0 : u.byteCnt = 0) (hk : u.cksAcc = 0) (ts : List Turn) :
    State.runTurns (List.replicate (u.txLen.toNat + 1) Turn.run ++ ts) u =
      State.runTurns ts ((u.summed u.txLen.toNat).place .select) := by
  have hdone : (u.summed u.txLen.toNat).txCounted = true := by
    simp [State.txCounted, State.summed]
  rw [List.replicate_succ', List.append_assoc]
  refine (runTurns_summed hr ht hp h0 hk le_rfl ts).trans
    (runTurns_master (u := u.summed u.txLen.toNat) hr ht ts ?_ rfl)
  exact (masterMove_sum (u.summed u.txLen.toNat) hp).trans (if_pos hdone)

/-! ## From chip-select to the end -/

/-- The last step of a send that has succeeded (R154). -/
theorem runTurns_finish (hr : u.role = .master) (ht : u.txState ≠ .idle)
    (hp : u.txPoint = .finish true) :
    State.runTurns [Turn.run] u =
      .next { u with
        rxEnable := true, txState := .idle, txPoint := .idle, sendResult := true
        now := Turn.run, trace := .sendDone true :: u.trace } :=
  runTurns_master hr ht [] (masterMove_finish { u with now := Turn.run } true hp) rfl

/-- After the last field: chip-select is released, and the send has succeeded (R142, R154). -/
theorem runTurns_release (hr : u.role = .master) (ht : u.txState ≠ .idle)
    (hp : u.txPoint = .release) :
    State.runTurns [Turn.run, Turn.run] u =
      .next { u with
        rxEnable := true, txState := .idle, txPoint := .idle, sendResult := true, csOut := false
        now := Turn.run, trace := .sendDone true :: .cs false :: u.trace } := by
  have hrelease := masterMove_release { u with now := Turn.run } hp
  exact (runTurns_master hr ht [Turn.run] hrelease rfl).trans
    (runTurns_finish (u := { u with
      now := Turn.run, txState := .done, txPoint := .finish true, csOut := false
      trace := .cs false :: u.trace }) hr (by simp) rfl)

/-- A Master's send with nothing left to compute: chip-select, the frame, chip-select, the result
(R142, R148). -/
theorem runTurns_select (hr : u.role = .master) (ht : u.txState ≠ .idle)
    (hp : u.txPoint = .select)
    (hk : u.params.checksumPos = .leading → u.cksAcc = sum8 (u.outbox.bytes u.txLen.toNat))
    {inp : List (Option Byte)} (hinp : inp.length = u.txLen.toNat + 4) :
    State.runTurns (Turn.run :: (fieldTurns inp ++ [Turn.run, Turn.run])) u =
      .next { u with
        rxEnable := true, txState := .idle, txPoint := .idle, byteCnt := u.txLen
        cksAcc := sum8 (u.outbox.bytes u.txLen.toNat), sendResult := true, csOut := false
        now := Turn.run, freeCtr := u.freeCtr + (u.txLen.toNat + 4)
        trace := (Event.cs true :: masterSendEvents
          (frameBytes u.params.checksumPos (u.outbox.bytes u.txLen.toNat))
          (received u.freeCtr inp) ++ [Event.cs false, .sendDone true]).reverse ++ u.trace } := by
  have hlen : (frameBytes u.params.checksumPos (u.outbox.bytes u.txLen.toNat)).length =
      u.txLen.toNat + 4 := by
    rw [frameBytes_length, Memory.bytes_length]
  have hselect := masterMove_select { u with now := Turn.run } hp
  rw [runTurns_master hr ht _ hselect rfl]
  have hframe := frame_sendsTo (u := { u with csOut := true, txState := .framing }) hr (by simp) hk
  have hsent := hframe u.freeCtr (.cs true :: u.trace) inp [Turn.run, Turn.run]
    (hinp.trans hlen.symm)
  refine hsent.trans (Eq.trans (runTurns_release hr ?_ rfl) ?_)
  · simp [State.withGhost, State.place, State.inBody]
  simp [State.withGhost, State.place, State.inBody, hlen]

/-- Where an accepted send of a Master starts, and the steps up to its chip-select (R148). -/
theorem runTurns_beginMasterSend (hr : s.role = .master) (len : Half) (ts : List Turn) :
    ∃ k n t, (s.params.checksumPos = .leading → k = sum8 (s.outbox.bytes len.toNat)) ∧
      State.runTurns
        (List.replicate (sumSteps .master s.params.checksumPos len.toNat) Turn.run ++ ts)
        (s.beginMasterSend len) =
      State.runTurns ts { s with
        txState := .selecting, txPoint := .select, txLen := len, rxEnable := false
        cksAcc := k, byteCnt := n, now := t } := by
  cases hpos : s.params.checksumPos with
  | trailing =>
    refine ⟨s.cksAcc, s.byteCnt, s.now, by simp, ?_⟩
    simp only [State.beginMasterSend, hpos]
    rfl
  | leading =>
    have hsum := runTurns_sum (u := { s with
      txState := .selecting, txPoint := .sum, txLen := len, rxEnable := false
      cksAcc := 0, byteCnt := 0 }) hr (by simp) rfl rfl rfl ts
    refine ⟨_, _, _, fun _ => rfl, Eq.trans ?_ hsum⟩
    simp only [State.beginMasterSend, hpos]
    rfl

theorem exec_msend_of_accepted (ha : s.acceptsSend = true) (hc : s.canSend = true)
    (hr : s.role = .master) (len : Half) :
    exec (.msend len) s = .next (s.beginMasterSend len) := by
  show execMsend len s = _
  simp [execMsend, ha, hc, hr]

theorem masterSendTurns_eq (pos : ChecksumPos) (n : Nat) (inp : List (Option Byte)) :
    masterSendTurns pos n inp = List.replicate (sumSteps .master pos n) Turn.run ++
      Turn.run :: (fieldTurns inp ++ [Turn.run, Turn.run]) := by
  simp [masterSendTurns, fieldTurns]

end Sys2Proof.Machine

section

open Sys2Proof Sys2Proof.Machine

/-- Settles O51: the checksum if it leads the frame, then the piece from chip-select to chip-select,
whose bytes go out field by field. -/
theorem masterSendOnTheWire : Obligations.MasterSendOnTheWire := by
  unfold Obligations.MasterSendOnTheWire
  intro s len inp hacc hcan hrole hlen p
  refine ⟨received s.freeCtr inp, received_length _ _, fun i b => received_of_given _, ?_⟩
  rw [exec_msend_of_accepted hacc hcan hrole, masterSendTurns_eq]
  obtain ⟨k, n, t, hk, hbegin⟩ := runTurns_beginMasterSend hrole len
    (Turn.run :: (fieldTurns inp ++ [Turn.run, Turn.run]))
  exact hbegin.trans (runTurns_select (u := { s with
    txState := .selecting, txPoint := .select, txLen := len, rxEnable := false
    cksAcc := k, byteCnt := n, now := t }) hrole (by simp) rfl hk hlen)

end
end

section
/-! The wire rows from a sound endpoint (R90, R96 to R99): each is a run of the block's steps, and
every step of the block keeps the invariant. -/

namespace Sys2Proof.Machine

variable {s : State}

/-- The block's steps under any signals run from a sound endpoint to a sound one. -/
theorem Inv.runTurns (h : Inv s) (ts : List Turn) :
    ∃ t, State.runTurns ts s = .next t ∧ Inv t := by
  induction ts generalizing s with
  | nil => exact ⟨s, rfl, h⟩
  | cons t ts ih =>
    obtain ⟨u, hu, hiu⟩ := (h.withNow t).blockMove
    rw [runTurns_cons, hu, andThen_next]
    exact ih hiu.auxPhase

/-- A symbol on the wire is one step of the block. -/
theorem Inv.busByte (h : Inv s) (b : Byte) : ∃ t, s.busByte b = .next t ∧ Inv t :=
  (h.atByte b).blockMove

/-- A frame or a transaction whose payload fits a length field is a run of the block's steps (R90,
R96, R97, R99). -/
theorem exec_payloadRow (s : State) {p : List Byte} (hp : p.length ≤ 65535) {i : Instr}
    (hi : i ∈ [Instr.frameTrailing p, .frameLeading p, .xactMs p, .xactSm p]) :
    ∃ ts, exec i s = State.runTurns ts s := by
  have hfits : payloadFits p = true := by simpa [payloadFits] using hp
  simp only [List.mem_cons, List.not_mem_nil, or_false] at hi
  obtain rfl | rfl | rfl | rfl := hi
  · exact ⟨_, if_pos hfits⟩
  · exact ⟨_, if_pos hfits⟩
  · cases hr : s.role with
    | master => exact ⟨msAtMaster s.params p, by simp [exec, execXactMs, hfits, hr]⟩
    | slave => exact ⟨msAtSlave s.params p, by simp [exec, execXactMs, hfits, hr]⟩
  · cases hr : s.role with
    | master => exact ⟨smAtMaster s.params p, by simp [exec, execXactSm, hfits, hr]⟩
    | slave => exact ⟨smAtSlave s.params p, by simp [exec, execXactSm, hfits, hr]⟩

end Sys2Proof.Machine

section

open Sys2Proof Sys2Proof.Machine

/-- Settles O50: a row with a payload is a run of the block's steps, a symbol is one step. -/
theorem wireRowsComplete : Obligations.WireRowsComplete := by
  intro s p i h hp hi
  have hrows : i ∈ [Instr.frameTrailing p, .frameLeading p, .xactMs p, .xactSm p] ∨
      ∃ b, (i, b) ∈ symbolRows s.params := by
    simpa [symbolRows, or_assoc, exists_or] using hi
  obtain hi | ⟨b, hb⟩ := hrows
  · obtain ⟨ts, hts⟩ := exec_payloadRow s hp hi
    rw [hts]
    exact h.runTurns ts
  · rw [exec_symbol hb]
    exact h.busByte b

end
end

section
/-! Publication (R74, R131, R180, R282): the one operation of a step that shows the host a new frame
is `Complete`.  Everything before it in the step adds no event of a publication; what comes after it
leaves the frame, its flags and its outcome alone. -/

namespace Sys2Proof.Machine

variable {s t u w : State}

/-! ## Steps that publish nothing -/

/-- The events of `Complete` (R180). -/
def publicationEvents : List Event :=
  [.commit, .callback, .outcome .delivered, .outcome .checksumFail]

/-- None of these events belongs to a publication. -/
def PublishNothing (es : List Event) : Prop := ∀ e ∈ publicationEvents, e ∉ es

theorem PublishNothing.append {es fs : List Event} (h : PublishNothing es)
    (k : PublishNothing fs) : PublishNothing (es ++ fs) := fun e he => by simp [h e he, k e he]

theorem publishNothing_nil : PublishNothing [] := by simp [PublishNothing]

/-- Between the two states no event of a publication was added. -/
def State.Silent (s t : State) : Prop := ∃ es, s.adds t es ∧ PublishNothing es

theorem State.Silent.trans (h : s.Silent t) (k : t.Silent u) : s.Silent u := by
  obtain ⟨es, hes, hn⟩ := h
  obtain ⟨fs, hfs, hm⟩ := k
  exact ⟨es ++ fs, hes.trans hfs, hn.append hm⟩

/-- Between the two states nothing was published, and the Inbox kept its bytes. -/
structure State.Unpublished (s t : State) : Prop where
  silent : s.Silent t
  inbox : t.inbox = s.inbox := by rfl
  inboxSize : t.inboxSize = s.inboxSize := by rfl

theorem State.Unpublished.trans (h : s.Unpublished t) (k : t.Unpublished u) : s.Unpublished u :=
  ⟨h.silent.trans k.silent, k.inbox.trans h.inbox, k.inboxSize.trans h.inboxSize⟩

/-- What adds no event publishes nothing if it leaves the Inbox alone. -/
theorem State.Unpublished.of_same (ht : t.trace = s.trace) (hi : t.inbox = s.inbox := by rfl)
    (hn : t.inboxSize = s.inboxSize := by rfl) : s.Unpublished t :=
  ⟨⟨[], ht, publishNothing_nil⟩, hi, hn⟩

/-- Nor does what adds one event of another kind. -/
theorem State.Unpublished.of_event (e : Event) (ht : t.trace = e :: s.trace)
    (he : e ∉ publicationEvents := by simp [publicationEvents])
    (hi : t.inbox = s.inbox := by rfl) (hn : t.inboxSize = s.inboxSize := by rfl) :
    s.Unpublished t :=
  ⟨⟨[e], ht, fun _ hf hm => he (List.mem_singleton.1 hm ▸ hf)⟩, hi, hn⟩

theorem State.Unpublished.refl (s : State) : s.Unpublished s := .of_same rfl

theorem log_unpublished (s : State) (e : Event)
    (he : e ∉ publicationEvents := by simp [publicationEvents]) : s.Unpublished (s.log e) :=
  .of_event e rfl he

theorem exchanged_unpublished (s : State) (out inp : Byte) :
    s.Unpublished (s.exchanged out inp) :=
  .of_event (.exchange out inp) rfl

theorem cntInc_unpublished (s : State) : s.Unpublished s.cntInc :=
  .of_same (by simp) (by simp) (by simp)

/-- A byte added to the checksum and counted (R122, R126). -/
theorem cksAdd_cntInc_unpublished (s : State) (b : Byte) : s.Unpublished (s.cksAdd b).cntInc := by
  have hadd : s.Unpublished (s.cksAdd b) := .of_same rfl
  exact hadd.trans (cntInc_unpublished _)

theorem auxPhase_unpublished (s : State) : s.Unpublished s.auxPhase :=
  .of_same (by simp) (by simp) (by simp)

/-! ## A send -/

theorem bodyNext_unpublished (s : State) : s.Unpublished s.bodyNext :=
  .of_same (by simp) (by simp) (by simp)

theorem frameSent_unpublished (s : State) : s.Unpublished s.frameSent :=
  .of_same (by simp) (by simp) (by simp)

theorem fieldNext_unpublished (s : State) (sel : Sel) : s.Unpublished (s.fieldNext sel) := by
  cases sel with
  | start => rw [fieldNext_start]; exact .of_same rfl
  | lenHi => rw [fieldNext_lenHi]; exact .of_same rfl
  | lenLo =>
    rw [fieldNext_lenLo, enterTransfer_eq]
    refine .trans ?_ (bodyNext_unpublished _)
    exact .of_same rfl
  | payload => rw [fieldNext_payload]; exact bodyNext_unpublished s
  | checksum =>
    rw [fieldNext_checksum]
    cases s.params.checksumPos with
    | trailing => exact frameSent_unpublished s
    | leading => exact .of_same rfl

theorem masterFieldSent_unpublished (s : State) (sel : Sel) (b : Byte) :
    s.Unpublished (s.masterFieldSent sel b) := by
  unfold State.masterFieldSent
  cases sel with
  | payload =>
    cases s.params.checksumPos with
    | trailing => exact (cksAdd_cntInc_unpublished s b).trans (.of_same rfl)
    | leading => exact (cntInc_unpublished s).trans (.of_same rfl)
  | start | lenHi | lenLo | checksum => exact .of_same rfl

theorem slaveFieldSent_unpublished (s : State) (sel : Sel) :
    s.Unpublished (s.slaveFieldSent sel) := by
  rw [slaveFieldSent_eq]
  split
  · exact (cntInc_unpublished s).trans (fieldNext_unpublished _ _)
  · exact fieldNext_unpublished s sel

theorem cksStep_unpublished (s : State) : s.Unpublished s.cksStep :=
  cksAdd_cntInc_unpublished s s.outboxByte

theorem finishSend_unpublished (s : State) (ok : Bool) : s.Unpublished (s.finishSend ok) := by
  rw [finishSend_eq]
  cases ok with
  | true => exact .of_event (.sendDone true) rfl
  | false =>
    exact ⟨⟨[.outcome .sendFailed, .sendDone false], rfl, by
      simp [PublishNothing, publicationEvents]⟩, rfl, rfl⟩

theorem endAttempt_unpublished (s : State) (r : Byte) : s.Unpublished (s.endAttempt r) := by
  have haux : s.Unpublished (s.auxWrite false) :=
    .of_event (.aux false) rfl
  unfold State.endAttempt
  dsimp only
  repeat' split
  all_goals exact haux.trans (.of_same rfl)

theorem masterMove_unpublished (s : State) : s.Unpublished s.masterMove := by
  cases hp : s.txPoint with
  | sum =>
    rw [masterMove_sum s hp]
    split
    · exact .of_same rfl
    · exact cksStep_unpublished s
  | select =>
    rw [masterMove_select s hp]
    exact .of_event (.cs true) rfl
  | send sel b =>
    rw [masterMove_send s sel b hp]
    cases s.busIn with
    | none => exact .refl s
    | some r => exact (exchanged_unpublished s b r).trans (masterFieldSent_unpublished _ sel b)
  | delay sel =>
    rw [masterMove_delay s sel hp]
    exact (log_unpublished s (.delay .byte)).trans (fieldNext_unpublished _ sel)
  | release =>
    rw [masterMove_release s hp]
    exact .of_event (.cs false) rfl
  | finish ok => rw [masterMove_finish s ok hp]; exact finishSend_unpublished s ok
  | idle | request | ack | drop _ | backoff =>
    rw [masterMove_other s (by simp [hp])]
    exact .refl s

theorem slaveMove_unpublished (s : State) : s.Unpublished s.slaveMove := by
  cases hp : s.txPoint with
  | sum =>
    rw [slaveMove_sum s hp]
    split
    · exact .of_same rfl
    · exact cksStep_unpublished s
  | request =>
    rw [slaveMove_request s hp]
    exact .of_event (.aux true) rfl
  | send sel b =>
    rw [slaveMove_send s sel b hp]
    cases s.busIn with
    | none => exact .refl s
    | some r => exact (exchanged_unpublished s b r).trans (slaveFieldSent_unpublished _ sel)
  | ack =>
    rw [slaveMove_ack s hp]
    cases s.busIn with
    | none => exact .refl s
    | some r => exact (exchanged_unpublished s _ r).trans (.of_same rfl)
  | drop r => rw [slaveMove_drop s r hp]; exact endAttempt_unpublished s r
  | backoff =>
    rw [slaveMove_backoff s hp]
    exact .of_event (.delay .backoff) rfl
  | finish ok => rw [slaveMove_finish s ok hp]; exact finishSend_unpublished s ok
  | idle | select | delay _ | release =>
    rw [slaveMove_other s (by simp [hp])]
    exact .refl s

theorem txMove_unpublished (s : State) : s.Unpublished s.txMove := by
  unfold State.txMove
  cases s.role with
  | master => exact masterMove_unpublished s
  | slave => exact slaveMove_unpublished s

/-! ## A receive before its end -/

theorem takePayload_unpublished {b : Byte} (h : s.takePayload b = .next t) :
    s.Unpublished t := by
  obtain ⟨v, hv, he⟩ := andThen_eq_next.1 h
  cases he
  by_cases hc : s.byteCnt.toNat < s.params.maxLen
  · cases (stageByte_of_lt s b hc).symm.trans hv
    refine .trans ?_ (cksAdd_cntInc_unpublished _ b)
    exact .of_same rfl
  · cases (stageByte_of_le s b (Nat.not_lt.1 hc)).symm.trans hv

theorem decTrailing_unpublished {b : Byte} {r : DecResult} (h : s.decTrailing b = .next (t, r)) :
    s.Unpublished t := by
  cases hc : s.rxCursor with
  | start =>
    rw [decTrailing_start s b hc] at h
    split at h <;> cases h <;> exact .of_same rfl
  | lenHi => cases (decTrailing_lenHi s b hc).symm.trans h; exact .of_same rfl
  | lenLo =>
    rw [decTrailing_lenLo s b hc] at h
    split at h <;> cases h <;> exact .of_same rfl
  | payload =>
    simp only [State.decTrailing, hc] at h
    obtain ⟨v, hv, he⟩ := andThen_eq_next.1 h
    refine (takePayload_unpublished hv).trans ?_
    split at he <;> cases he <;> exact .of_same rfl
  | checksum => cases (decTrailing_checksum s b hc).symm.trans h; exact .of_same rfl
  | ack => simp [State.decTrailing, hc] at h

theorem decLeading_unpublished {b : Byte} {r : DecResult} (h : s.decLeading b = .next (t, r)) :
    s.Unpublished t := by
  cases hc : s.rxCursor with
  | start =>
    rw [decLeading_start s b hc] at h
    split at h <;> cases h <;> exact .of_same rfl
  | lenHi => cases (decLeading_lenHi s b hc).symm.trans h; exact .of_same rfl
  | lenLo =>
    rw [decLeading_lenLo s b hc] at h
    repeat' split at h
    all_goals cases h; exact .of_same rfl
  | payload =>
    simp only [State.decLeading, hc] at h
    obtain ⟨v, hv, he⟩ := andThen_eq_next.1 h
    refine (takePayload_unpublished hv).trans ?_
    split at he <;> cases he <;> exact .of_same rfl
  | checksum => cases (decLeading_checksum s b hc).symm.trans h; exact .of_same rfl
  | ack => simp [State.decLeading, hc] at h

/-- A decoder step writes the data path only (R126, R127). -/
theorem dec_unpublished {b : Byte} {r : DecResult} (h : s.dec b = .next (t, r)) :
    s.Unpublished t := by
  unfold State.dec at h
  split at h
  · exact decTrailing_unpublished h
  · exact decLeading_unpublished h

theorem takeFirst_unpublished {b : Byte} (h : s.takeFirst b = .next t) : s.Unpublished t := by
  obtain ⟨⟨v, r⟩, hv, he⟩ := andThen_eq_next.1 h
  refine (dec_unpublished hv).trans ?_
  cases r <;> cases he <;> exact .of_same rfl

theorem rejectLen_unpublished (s : State) : s.Unpublished s.rejectLen := by
  obtain hr | hr := role_cases s.role
  · rw [rejectLen_master hr]; exact .of_same rfl
  · rw [rejectLen_slave hr]
    exact .of_event (.outcome .lenRejected) rfl

theorem frameEnded_unpublished (s : State) (ok : Bool) : s.Unpublished (s.frameEnded ok) := by
  obtain hr | hr := role_cases s.role
  · rw [frameEnded_master s ok hr]; exact .of_same rfl
  · rw [frameEnded_slave s ok hr]; exact .of_same rfl

theorem takeByte_unpublished {b : Byte} (h : s.takeByte b = .next t) : s.Unpublished t := by
  obtain ⟨⟨v, r⟩, hv, he⟩ := andThen_eq_next.1 h
  refine (dec_unpublished hv).trans ?_
  cases r with
  | none | ignored => cases he; exact .of_same (by simp) (by simp) (by simp)
  | lenRejected => cases he; exact rejectLen_unpublished v
  | frame ok => cases he; exact frameEnded_unpublished v ok

theorem checkAux_unpublished (s : State) (p : RxPoint) : s.Unpublished (s.checkAux p) := by
  cases ha : s.auxIn with
  | true =>
    rw [checkAux_of_high s p ha]
    exact .of_event (.auxRead true) rfl
  | false =>
    rw [checkAux_of_low s p ha]
    exact .of_event (.auxRead false) rfl

/-- A primitive of a receive publishes nothing, or is the receive's `Complete` (R173, R177,
R180). -/
theorem rxMove_publication (h : s.rxMove = .next t) :
    s.Unpublished t ∨ ∃ ok, s.complete ok = .next t := by
  cases hp : s.rxPoint with
  | idle => cases (rxMove_idle s hp).symm.trans h; exact .inl (.refl s)
  | first =>
    rw [rxMove_first s hp] at h
    cases hb : s.busIn with
    | none => rw [hb] at h; cases h; exact .inl (.refl s)
    | some b =>
      rw [hb] at h
      exact .inl ((exchanged_unpublished s _ b).trans (takeFirst_unpublished h))
  | sample => cases (rxMove_sample s hp).symm.trans h; exact .inl (checkAux_unpublished s _)
  | pull =>
    rw [rxMove_pull s hp] at h
    cases hb : s.busIn with
    | none => rw [hb] at h; cases h; exact .inl (.refl s)
    | some b =>
      rw [hb] at h
      exact .inl ((exchanged_unpublished s _ b).trans (takeByte_unpublished h))
  | ackSample ok =>
    cases (rxMove_ackSample s ok hp).symm.trans h
    exact .inl (checkAux_unpublished s _)
  | ackPull ok =>
    rw [rxMove_ackPull s ok hp] at h
    cases hb : s.busIn with
    | none => rw [hb] at h; cases h; exact .inl (.refl s)
    | some b =>
      rw [hb] at h
      cases h
      exact .inl ((exchanged_unpublished s _ b).trans (.of_same rfl))
  | release how =>
    cases (rxMove_release s how hp).symm.trans h
    exact .inl (.of_event (.cs false) rfl)
  | finish how =>
    rw [rxMove_finish s how hp] at h
    cases how with
    | complete ok => exact .inr ⟨ok, h⟩
    | ignored =>
      cases h
      exact .inl (.of_event (.outcome .ignored) rfl)
    | lenRejected =>
      cases h
      exact .inl (.of_event (.outcome .lenRejected) rfl)
    | aborted =>
      cases h
      exact .inl (.of_event (.outcome .aborted) rfl)

theorem execRxm_unpublished (h : execRxm s = .next t) : s.Unpublished t := by
  unfold execRxm at h
  split at h
  · cases h
    exact .of_event (.cs true) rfl
  · cases h
    exact .refl s

theorem startRxs_unpublished {b : Byte} (h : s.startRxs b = .next t) : s.Unpublished t := by
  obtain ⟨⟨v, r⟩, hv, he⟩ := andThen_eq_next.1 h
  have hbyte := (dec_unpublished hv).trans
    (log_unpublished v (.rxByte b))
  cases r with
  | ignored =>
    cases he
    exact hbyte.trans (log_unpublished _ (.outcome .ignored))
  | none | lenRejected | frame _ =>
    cases he
    exact hbyte.trans (.of_same rfl)

theorem execRxs_unpublished {b : Byte} (h : execRxs b s = .next t) : s.Unpublished t := by
  cases hr : s.rxsReady with
  | true => exact startRxs_unpublished ((execRxs_of_ready hr b).symm.trans h)
  | false =>
    cases (execRxs_of_not_ready hr b).symm.trans h
    exact log_unpublished s (.lostByte b)

/-! ## The publication -/

/-- From `s` to `t` a frame was published, with checksum result `ok`, and then `fs` came.  What came
after is no part of the publication, and only a start marker clocked in the same step makes the
dispatcher busy again (R180, R265). -/
structure State.Publishes (s t : State) (ok : Bool) (fs : List Event) : Prop where
  receiving : s.txState = .idle ∨ s.rxActive = true
  adds : s.adds t (endEvents ok s.cbShadow ++ fs)
  rest : PublishNothing fs
  newMessage : t.newMessage = true
  success : t.success = ok
  whole : t.inboxBytes = t.stage.bytes t.rxLen.toNat
  idle : (t.rxActive = false ∧ t.rxCursor = .start) ∨ Event.rxByte 0x24 ∈ fs

/-- An Inbox that is the first `rx_len` cells of `STAGE` reads as the payload of the frame
(R131). -/
theorem inboxBytes_of_staged (hi : s.inbox = s.stage.below s.rxLen.toNat)
    (hn : s.inboxSize = s.rxLen) : s.inboxBytes = s.stage.bytes s.rxLen.toNat := by
  unfold State.inboxBytes Memory.bytes
  rw [hn]
  refine List.map_congr_left fun i h => ?_
  have hlt : i < s.rxLen.toNat := List.mem_range.1 h
  simp [State.inboxByte, hn, hi, Memory.read_below, hlt]

/-- `Complete` answers only for a frame that fits the Inbox (R41). -/
theorem rxLen_le_of_complete {ok : Bool} (h : s.complete ok = .next t) :
    s.rxLen.toNat ≤ s.params.maxLen := by
  by_contra hl
  cases (complete_fault s ok (Nat.not_le.1 hl)).symm.trans h

theorem complete_publishes {ok : Bool} (hr : s.txState = .idle ∨ s.rxActive = true)
    (h : s.complete ok = .next t) : s.Publishes t ok [] := by
  have hl := rxLen_le_of_complete h
  obtain ⟨v, hv, hadds, -⟩ := complete_adds ok hl
  cases hv.symm.trans h
  cases (complete_eq s ok hl).symm.trans h
  exact
    { receiving := hr, adds := (List.append_nil _).symm ▸ hadds, rest := publishNothing_nil
      newMessage := rfl, success := rfl, whole := inboxBytes_of_staged rfl rfl
      idle := .inl ⟨rfl, rfl⟩ }

/-- The byte that meets a Slave which has just published leaves the frame alone (R265). -/
theorem State.Publishes.execRxs {ok : Bool} {b : Byte} (h : s.Publishes u ok [])
    (ht : execRxs b u = .next t) : ∃ fs, s.Publishes t ok fs := by
  obtain ⟨hidle, hstart⟩ : u.rxActive = false ∧ u.rxCursor = .start := by simpa using h.idle
  have hadds : s.adds u (endEvents ok s.cbShadow) := by simpa using h.adds
  cases hr : u.rxsReady with
  | false =>
    cases (execRxs_of_not_ready hr b).symm.trans ht
    have hlost : u.adds (u.log (.lostByte b)) [.lostByte b] := rfl
    exact ⟨_, { h with
      adds := hadds.trans hlost, rest := by simp [PublishNothing, publicationEvents]
      idle := .inl ⟨hidle, hstart⟩ }⟩
  | true =>
    rw [execRxs_of_ready hr, startRxs_of_start hstart] at ht
    by_cases hb : b = 0x24
    · subst hb
      cases ht
      exact ⟨[.rxByte 0x24], { h with
        adds := hadds.trans rfl, rest := by simp [PublishNothing, publicationEvents]
        idle := .inr (by simp) }⟩
    · rw [if_neg hb] at ht
      cases ht
      exact ⟨[.rxByte b, .outcome .ignored], { h with
        adds := hadds.trans rfl, rest := by simp [PublishNothing, publicationEvents]
        idle := .inl ⟨hidle, hstart⟩ }⟩

theorem State.Unpublished.inboxBytes (h : s.Unpublished t) : t.inboxBytes = s.inboxBytes := by
  have hb : t.inboxByte = s.inboxByte :=
    funext fun i => by simp [State.inboxByte, h.inbox, h.inboxSize]
  rw [State.inboxBytes, State.inboxBytes, h.inboxSize, hb]

/-- The aux line's part of the step leaves the frame alone (R230). -/
theorem State.Publishes.auxPhase {ok : Bool} {fs : List Event} (h : s.Publishes t ok fs) :
    s.Publishes t.auxPhase ok fs where
  receiving := h.receiving
  adds := (State.auxPhase_trace t).trans h.adds
  rest := h.rest
  newMessage := by simpa using h.newMessage
  success := by simpa using h.success
  whole := by simpa [(auxPhase_unpublished t).inboxBytes] using h.whole
  idle := by simpa using h.idle

/-- The block's own move publishes nothing, or one frame. -/
theorem blockMove_publication (h : s.blockMove = .next t) :
    s.Unpublished t ∨ ∃ ok fs, s.Publishes t ok fs := by
  have hactive (ha : s.activeMove = .next t) : s.Unpublished t ∨ ∃ ok fs, s.Publishes t ok fs := by
    by_cases hidle : s.txState = .idle
    · rw [activeMove_of_idle s hidle] at ha
      obtain hn | ⟨ok, hc⟩ := rxMove_publication ha
      · exact .inl hn
      · exact .inr ⟨ok, [], complete_publishes (.inl hidle) hc⟩
    · cases (activeMove_of_busy s hidle).symm.trans ha
      exact .inl (txMove_unpublished s)
  obtain ⟨-, he⟩ | ⟨-, -, he⟩ | ⟨-, -, he⟩ | ⟨b, -, -, he⟩ | ⟨b, -, -, he⟩ := blockMove_cases s <;>
    rw [he] at h
  · cases h
    exact .inl (.refl s)
  · exact hactive h
  · exact .inl (execRxm_unpublished h)
  · exact hactive h
  · obtain ⟨v, hv, ht⟩ := andThen_eq_next.1 h
    cases hp : s.publishing with
    | false =>
      cases (readyForByte_of_not s hp).symm.trans hv
      exact .inl (execRxs_unpublished ht)
    | true =>
      obtain ⟨ha, hr, ok, hf⟩ := (publishing_iff s).1 hp
      rw [readyForByte_of_complete s ok ha hr hf] at hv
      exact .inr ⟨ok, (complete_publishes (.inr ha) hv).execRxs ht⟩

/-! ## The host's part of a step -/

theorem holdCommand_unpublished (s : State) (i : Instr) : s.Unpublished (s.holdCommand i) := by
  unfold State.holdCommand
  cases encodeCmd i <;> exact .of_same rfl

theorem done_unpublished (s : State) (ok : Bool) : s.Unpublished (s.done ok) :=
  log_unpublished s (.cmdDone ok)

theorem startEffect_unpublished (s : State) (r : Role) (cb : Bool) :
    s.Unpublished (s.startEffect r cb) := by
  unfold State.startEffect
  split
  · exact done_unpublished s true
  · dsimp only
    have hhal : s.Unpublished (s.log (.halConfigure r s.halOk)) :=
      log_unpublished s (.halConfigure r s.halOk)
    split
    · refine hhal.trans (.trans ?_ (done_unpublished _ true))
      rw [initialise_eq]
      cases r with
      | master => exact .of_event (.auxRead s.auxIn) rfl
      | slave => exact .of_same rfl
    · refine hhal.trans (.trans ?_ (done_unpublished _ false))
      exact .of_event (.outcome .halFault) rfl

theorem beginSend_unpublished (s : State) (len : Half) : s.Unpublished (s.beginSend len) := by
  unfold State.beginSend State.beginMasterSend
  cases s.role with
  | slave => exact .of_same rfl
  | master => cases s.params.checksumPos <;> exact .of_same rfl

theorem plainCommand_unpublished (i : Instr) {f : State → State} (hf : s.Unpublished (f s)) :
    s.Unpublished (s.plainCommand i f) := by
  obtain ⟨-, he⟩ | ⟨-, -, he⟩ | ⟨-, -, he⟩ := plainCommand_cases s i f <;> rw [he]
  · exact holdCommand_unpublished s i
  · exact done_unpublished s false
  · exact hf

/-- An effective `STOP` empties the Inbox and publishes nothing (R202). -/
theorem stopEffect_publication (s : State) :
    s.Unpublished s.stopEffect ∨ (s.Silent s.stopEffect ∧ s.stopEffect.inboxSize = 0) := by
  have hsilent (t : State) (ht : t.trace = .cmdDone true :: .cs false :: s.trace) :
      s.Silent t :=
    ⟨[.cs false, .cmdDone true], ht, by simp [PublishNothing, publicationEvents]⟩
  cases hs : s.started with
  | false => rw [stopEffect_of_stopped hs]; exact .inl (done_unpublished s true)
  | true =>
    right
    cases ha : s.rxActive with
    | true => rw [stopEffect_of_active hs ha]; exact ⟨hsilent _ rfl, rfl⟩
    | false => rw [stopEffect_of_inactive hs ha]; exact ⟨hsilent _ rfl, rfl⟩

/-- No item of the host's thread publishes, and only `STOP` empties the Inbox (R202). -/
theorem exec_hostInstr_publication (s : State) (j : HostItem) :
    ∃ t, exec (hostInstr j) s = .next t ∧
      (s.Unpublished t ∨ (hostInstr j = .stop ∧ s.Silent t ∧ t.inboxSize = 0)) := by
  have hreserved : ∀ i, s.Unpublished
      (if s.acceptsPlain then s.reservedEffect else s.holdCommand i) := by
    intro i
    split
    · exact done_unpublished s false
    · exact holdCommand_unpublished s i
  have hflag : ∀ (i : Instr) (f : State → State), s.Unpublished (f s) →
      s.Unpublished (s.plainCommand i fun v => (f v).done true) := fun i f hf =>
    plainCommand_unpublished i (hf.trans (done_unpublished _ true))
  have hclrnew : s.Unpublished (s.plainCommand .clrnew State.clrnewEffect) :=
    hflag _ (fun v => { v with newMessage := false }) (.of_same rfl)
  obtain hi | ⟨r, cb, hi⟩ | hi | ⟨len, hi⟩ | hi | hi | hi | hi | hi | hi := hostInstr_cases j <;>
    rw [hi] <;> refine ⟨_, rfl, ?_⟩
  · exact .inl (hreserved _)
  · exact .inl (plainCommand_unpublished _ (startEffect_unpublished s r cb))
  · obtain ⟨-, he⟩ | ⟨-, -, he⟩ | ⟨-, -, he⟩ := plainCommand_cases s .stop State.stopEffect <;>
      rw [he]
    · exact .inl (holdCommand_unpublished s _)
    · exact .inl (done_unpublished s false)
    · exact (stopEffect_publication s).imp_right fun h => ⟨rfl, h⟩
  · left
    split
    · split
      · exact beginSend_unpublished s len
      · exact .of_event (.cmdDone false) rfl
    · exact holdCommand_unpublished s _
  · exact .inl (hflag _ (fun v => { v with cbEnable := true }) (.of_same rfl))
  · exact .inl (hflag _ (fun v => { v with cbEnable := false }) (.of_same rfl))
  · exact .inl hclrnew
  · exact .inl (hreserved _)
  · left
    split
    · exact hclrnew.trans (.of_same rfl)
    · exact .of_same rfl
  · left
    split
    · exact log_unpublished s .waitDone
    · exact .of_same rfl

theorem hostPart_publication (h : s.hostPart = .next w) :
    s.Unpublished w ∨ (s.Silent w ∧ w.inboxSize = 0 ∧ ∃ v, s.fetch = some (.stop, v)) := by
  cases hf : s.fetch with
  | none =>
    cases (hostPart_of_none s hf).symm.trans h
    exact .inl (.refl s)
  | some iv =>
    obtain ⟨i, v⟩ := iv
    obtain ⟨j, q, -, -, rfl, rfl⟩ := fetch_eq_some.1 hf
    rw [hostPart_of_some s _ _ hf] at h
    obtain ⟨t, ht, hc⟩ := exec_hostInstr_publication { s with hostQ := q } j
    cases ht.symm.trans h
    have htaken : s.Unpublished { s with hostQ := q } := .of_same rfl
    obtain hc | ⟨hj, hsil, hn⟩ := hc
    · exact .inl (htaken.trans hc)
    · exact .inr ⟨htaken.silent.trans hsil, hn, _, by rw [hj]⟩

theorem hostPart_silent (h : s.hostPart = .next w) : s.Silent w := by
  obtain hu | ⟨hsil, -, -⟩ := hostPart_publication h
  · exact hu.silent
  · exact hsil

/-- While a send is in progress the host's part leaves it so: only a wait can go on (R200). -/
theorem hostPart_txState (hb : s.txState ≠ .idle) (h : s.hostPart = .next w) :
    w.txState = s.txState := by
  cases hf : s.fetch with
  | none =>
    cases (hostPart_of_none s hf).symm.trans h
    rfl
  | some iv =>
    obtain ⟨i, v⟩ := iv
    obtain ⟨j, q, -, ha, rfl, rfl⟩ := fetch_eq_some.1 hf
    have hplain : s.acceptsPlain = false := acceptsPlain_of_busy hb
    have hsend : s.acceptsSend = false := acceptsSend_of_not fun hn => hb hn.1
    cases j with
    | cmd c => simp [State.accepts, hplain, hsend] at ha
    | recv => simp [State.accepts, hplain] at ha
    | waitNew =>
      rw [hostPart_of_some s _ _ hf] at h
      cases h
      split <;> rfl

/-! ## The step -/

theorem latch_unpublished (s : State) : s.Unpublished s.latch := by
  cases hq : s.sched with
  | nil => rw [latch_nil s hq]; exact .of_same rfl
  | cons t ts => rw [latch_cons s t ts hq]; exact .of_same rfl

theorem latch_txState (s : State) : s.latch.txState = s.txState := by
  cases hq : s.sched with
  | nil => rw [latch_nil s hq]; rfl
  | cons t ts => rw [latch_cons s t ts hq]; rfl

theorem hardReset_silent (s : State) : s.Silent s.hardReset :=
  ⟨[.reset], rfl, by simp [PublishNothing, publicationEvents]⟩

/-- Everything a step can do to the Inbox: reset empties it, or after the host's part the block
publishes nothing, or one frame. -/
theorem step_publication (h : step s = .next t) :
    (s.latch.now.rst = true ∧ s.Silent t ∧ t.inboxSize = 0) ∨
    ∃ w, s.latch.hostPart = .next w ∧ (w.Unpublished t ∨ ∃ ok fs, w.Publishes t ok fs) := by
  cases hr : s.latch.now.rst with
  | true =>
    cases (step_of_rst s hr).symm.trans h
    exact .inl ⟨rfl, (latch_unpublished s).silent.trans
      ((hardReset_silent _).trans (auxPhase_unpublished _).silent),
      by simp [State.hardReset, State.reset]⟩
  | false =>
    rw [step_of_not_rst s hr] at h
    obtain ⟨v, hv, he⟩ := andThen_eq_next.1 h
    cases he
    obtain ⟨w, hw, hm⟩ := andThen_eq_next.1 hv
    refine .inr ⟨w, hw, ?_⟩
    unfold State.moveAfter at hm
    split at hm
    · cases hm
      exact .inl (auxPhase_unpublished v)
    · obtain hn | ⟨ok, fs, hp⟩ := blockMove_publication hm
      · exact .inl (hn.trans (auxPhase_unpublished v))
      · exact .inr ⟨ok, fs, hp.auxPhase⟩

/-- A step adds no event of a publication, or those of one frame and nothing else of that kind. -/
theorem step_silent_or_publishes (h : step s = .next t) :
    s.Silent t ∨ ∃ w ok fs, s.Silent w ∧ w.Publishes t ok fs := by
  obtain ⟨-, hsil, -⟩ | ⟨w, hw, hm⟩ := step_publication h
  · exact .inl hsil
  · have hbefore := (latch_unpublished s).silent.trans (hostPart_silent hw)
    obtain hu | ⟨ok, fs, hp⟩ := hm
    · exact .inl (hbefore.trans hu.silent)
    · exact .inr ⟨w, ok, fs, hbefore, hp⟩

/-! ## The events of a step with a publication -/

/-- The events of a publication in a step are those of the `Complete` in it. -/
theorem mem_published {es fs : List Event} (h : PublishNothing es) (k : PublishNothing fs)
    {e : Event} (he : e ∈ publicationEvents) (ok shadow : Bool) :
    e ∈ es ++ (endEvents ok shadow ++ fs) ↔ e ∈ endEvents ok shadow := by
  simp [h e he, k e he]

theorem success_of_callback {ok shadow : Bool} (h : Event.callback ∈ endEvents ok shadow) :
    ok = true := by
  cases ok with
  | true => rfl
  | false => simp [endEvents] at h

theorem delivered_mem_endEvents (ok shadow : Bool) :
    Event.outcome .delivered ∈ endEvents ok shadow ↔ ok = true := by
  cases ok <;> simp [endEvents]

theorem checksumFail_mem_endEvents (ok shadow : Bool) :
    Event.outcome .checksumFail ∈ endEvents ok shadow ↔ ok = false := by
  cases ok <;> simp [endEvents]

/-- A receive that publishes finds no send in progress, neither after the host's part of the step
nor before it (R79). -/
theorem Inv.txState_of_publishes (h : Inv s) (hw : s.latch.hostPart = .next w) {ok : Bool}
    {fs : List Event} (hp : w.Publishes t ok fs) : s.txState = .idle := by
  obtain ⟨v, hv, hi⟩ := h.latch.hostPart
  cases hw.symm.trans hv
  have hidle : w.txState = .idle :=
    hp.receiving.elim id fun ha => hi.txState_idle_iff.2 (hi.txPoint_of_rxPoint (hi.active.1 ha))
  by_contra hb
  have hl : s.latch.txState ≠ .idle := by rwa [latch_txState]
  exact hl ((hostPart_txState hl hw).symm.trans hidle)

theorem inboxBytes_of_empty (h : s.inboxSize = 0) : s.inboxBytes = [] := by
  simp [State.inboxBytes, h]

/-- Without a publication the Inbox keeps its bytes, or an accepted `STOP` has emptied it (R202). -/
theorem inboxBytes_of_unpublished (hw : s.latch.hostPart = .next w) (ht : w.Unpublished t) :
    t.inboxBytes = s.inboxBytes ∨
      (t.inboxBytes = [] ∧ ∃ v, s.latch.fetch = some (.stop, v)) := by
  obtain hu | ⟨-, hn, hstop⟩ := hostPart_publication hw
  · exact .inl (((latch_unpublished s).trans hu).trans ht).inboxBytes
  · exact .inr ⟨inboxBytes_of_empty (ht.inboxSize.trans hn), hstop⟩

end Sys2Proof.Machine

section

open Sys2Proof Sys2Proof.Machine

/-- Settles O12: reset and an accepted `STOP` empty the Inbox, the block's `Complete` replaces it
whole, and nothing else in a step touches it. -/
theorem inboxNeverTorn : Obligations.InboxNeverTorn := by
  intro s t h ht
  have hcommit : Event.commit ∈ publicationEvents := by simp [publicationEvents]
  obtain ⟨hrst, ⟨es, hes, hn⟩, hempty⟩ | ⟨w, hw, hm⟩ := step_publication ht
  · exact ⟨es, hes, fun _ => hn _ hcommit, fun hc => absurd hc (hn _ hcommit),
      .inr (.inr ⟨inboxBytes_of_empty hempty, .inl hrst⟩)⟩
  · have hbefore := (latch_unpublished s).silent.trans (hostPart_silent hw)
    obtain hu | ⟨ok, fs, hp⟩ := hm
    · obtain ⟨es, hes, hn⟩ := hbefore.trans hu.silent
      refine ⟨es, hes, fun _ => hn _ hcommit, fun hc => absurd hc (hn _ hcommit), ?_⟩
      exact (inboxBytes_of_unpublished hw hu).imp_right fun ⟨he, hstop⟩ => .inr ⟨he, .inr hstop⟩
    · obtain ⟨es, hes, hn⟩ := hbefore
      refine ⟨_, hes.trans hp.adds, fun hb => absurd (h.txState_of_publishes hw hp) hb,
        fun _ => hp.whole, .inr (.inl ?_)⟩
      exact (mem_published hn hp.rest hcommit ok _).2 (commit_mem_endEvents ok _)

/-- Settles O15: the events in question are those of the one `Complete` of the step, if there is
one, and what comes after it leaves the flags alone. -/
theorem commitStepIsWhole : Obligations.CommitStepIsWhole := by
  intro s t es ht hes
  obtain ⟨es', hes', hn⟩ | ⟨w, ok, fs, ⟨es', hes', hn⟩, hp⟩ := step_silent_or_publishes ht
  · cases hes.unique hes'
    have hno (e : Event) (he : e ∈ publicationEvents := by simp [publicationEvents]) : e ∉ es :=
      hn e he
    simp [hno .commit, hno .callback, hno (.outcome .delivered), hno (.outcome .checksumFail)]
  · cases hes.unique (hes'.trans hp.adds)
    have hmem (e : Event) (he : e ∈ publicationEvents := by simp [publicationEvents]) :=
      mem_published hn hp.rest he ok w.cbShadow
    have hcommit := commit_mem_endEvents ok w.cbShadow
    rw [hmem .commit, hmem .callback, hmem (.outcome .delivered), hmem (.outcome .checksumFail),
      delivered_mem_endEvents, checksumFail_mem_endEvents, hp.success]
    refine ⟨fun hc => ⟨hcommit, success_of_callback hc⟩, by simp [hcommit], by simp [hcommit],
      fun _ => ⟨hp.newMessage, hp.idle.imp_right fun hm => ?_⟩⟩
    exact List.mem_append_right _ (List.mem_append_right _ hm)

end
end

section
/-! The encodings and their decoders, each the other's inverse: the signals of the command port (R103),
the frames in both field orders (R90, R99), the transactions (R96, R97) and the symbols (R91, R98). -/

namespace Sys2Proof

/-! ## The command port (R103) -/

/-- The fields of the first byte of a command word stand apart (log entry 4). -/
theorem extractLsb'_commandByte : ∀ (op : BitVec 3) (role cb : BitVec 1),
    let b0 : Byte := 0#3 ++ cb ++ role ++ op
    b0.extractLsb' 5 3 = 0#3 ∧ b0.extractLsb' 0 3 = op ∧ b0.extractLsb' 3 1 = role ∧
      b0.extractLsb' 4 1 = cb := by
  decide

/-- The three bytes carry the signals they are laid out from, and no other bit (log entry 4). -/
theorem decodeCommand_portBytes (c : CmdPort) (rest : List Byte) :
    decodeCommand (portBytes c ++ rest) = .ok (decodeCmd c, rest) := by
  obtain ⟨op, role, cb, len⟩ := c
  obtain ⟨hclear, hop, hrole, hcb⟩ := extractLsb'_commandByte op role cb
  have hport : portOf (0#3 ++ cb ++ role ++ op) (len.extractLsb' 0 8) (len.extractLsb' 8 8) =
      ⟨op, role, cb, len⟩ := by
    rw [portOf, hop, hrole, hcb]
    exact congrArg (CmdPort.mk op role cb) (lenOf_lenHi_lenLo len)
  simp [portBytes, decodeCommand, hclear, hport]

/-- The form of `SEND` that a role selects (R103). -/
def sendInstr (r : Role) (len : Half) : Instr :=
  match r with
  | .master => .msend len
  | .slave => .ssend len

/-- With the role register the code `011` is the role's form of `SEND` (R103). -/
theorem decodeOperation_send (r : Role) {c : CmdPort} {len : Half} (h : decodeCmd c = .send len)
    (rest : List Byte) :
    decodeOperation r (portBytes c ++ rest) = .ok (sendInstr r len, rest) := by
  cases r <;> simp [decodeOperation, decodeCommand_portBytes, h, sendInstr]

/-- A host command is read back if the decoder of its signals gives it back (R103, R104). -/
theorem decode_commandBytes (prm : Params) {i : Instr} (h : (encodeCmd i).map decodeCmd = some i)
    (rest : List Byte) : decode prm .command (commandBytes i ++ rest) = .ok (i, rest) := by
  obtain ⟨c, hc, hi⟩ := Option.map_eq_some_iff.1 h
  have hbytes : commandBytes i = portBytes c := by simp [commandBytes, hc]
  rw [hbytes, decode, decodeCommand_portBytes, hi]

theorem encodeCmd_start_decodeCmd (r : Role) (cb : Bool) :
    (encodeCmd (.start r cb)).map decodeCmd = some (.start r cb) := by
  cases r <;> cases cb <;> rfl

/-! ## Frames (R90, R99) -/

/-- The parser of either field order undoes the encoder (R90, R95, R99). -/
theorem parseFrame_frameBytes (pos : ChecksumPos) {p : List Byte} (hp : p.length ≤ 65535)
    (rest : List Byte) : parseFrame pos (frameBytes pos p ++ rest) = .ok (p, rest) := by
  have hlen : (lenOf (lenHi (payloadLen p)) (lenLo (payloadLen p))).toNat = p.length := by
    rw [lenOf_lenHi_lenLo, payloadLen_toNat p hp]
  cases pos with
  | trailing =>
    simp [parseFrame, frameBytes, parseTrailing, hlen, takePayload_append p (sum8 p :: rest)]
  | leading => simp [parseFrame, frameBytes, parseLeading, hlen, takePayload_append p rest]

/-- The payload bytes split off are as many as the length says, and the rest follows them. -/
theorem takePayload_eq_ok {n : Nat} {bs p rest : List Byte} (h : takePayload n bs = .ok (p, rest)) :
    p.length = n ∧ bs = p ++ rest := by
  unfold takePayload at h
  split at h
  next => cases h
  next hn =>
    cases h
    exact ⟨by simp; omega, (List.take_append_drop n bs).symm⟩

/-- The sender's split undoes the receiver's assembly of the length (R92). -/
theorem payloadLen_of_lenOf {hi lo : Byte} {p : List Byte} (h : p.length = (lenOf hi lo).toNat) :
    lenHi (payloadLen p) = hi ∧ lenLo (payloadLen p) = lo := by
  have hlen : payloadLen p = hi ++ lo := by simp [payloadLen, h, lenOf]
  rw [hlen]
  exact ⟨BitVec.extractLsb'_append_eq_left, BitVec.extractLsb'_append_eq_right⟩

/-- What the canonical parser accepts is the frame of the payload it answers (R90, R95). -/
theorem parseTrailing_eq_ok {bs p rest : List Byte} (h : parseTrailing bs = .ok (p, rest)) :
    p.length ≤ 65535 ∧ bs = frameBytes .trailing p ++ rest := by
  unfold parseTrailing at h
  split at h
  next m hi lo cs =>
    split at h
    next hm =>
      split at h
      next => cases h
      next => cases h
      next q c r ht =>
        split at h
        next hc =>
          cases h
          obtain ⟨hlen, rfl⟩ := takePayload_eq_ok ht
          obtain ⟨hhi, hlo⟩ := payloadLen_of_lenOf hlen
          refine ⟨by have := (lenOf hi lo).isLt; omega, ?_⟩
          simp [frameBytes, hhi, hlo, hm, hc]
        next => cases h
    next => cases h
  next => split at h <;> cases h
  next => cases h

/-- What the legacy parser accepts is the frame of the payload it answers (R95, R99). -/
theorem parseLeading_eq_ok {bs p rest : List Byte} (h : parseLeading bs = .ok (p, rest)) :
    p.length ≤ 65535 ∧ bs = frameBytes .leading p ++ rest := by
  unfold parseLeading at h
  split at h
  next m c hi lo cs =>
    split at h
    next hm =>
      split at h
      next => cases h
      next q r ht =>
        split at h
        next hc =>
          cases h
          obtain ⟨hlen, rfl⟩ := takePayload_eq_ok ht
          obtain ⟨hhi, hlo⟩ := payloadLen_of_lenOf hlen
          refine ⟨by have := (lenOf hi lo).isLt; omega, ?_⟩
          simp [frameBytes, hhi, hlo, hm, hc]
        next => cases h
    next => cases h
  next => split at h <;> cases h
  next => cases h

/-- In either field order the parser accepts nothing but frames. -/
theorem parseFrame_eq_ok {pos : ChecksumPos} {bs p rest : List Byte}
    (h : parseFrame pos bs = .ok (p, rest)) :
    p.length ≤ 65535 ∧ bs = frameBytes pos p ++ rest := by
  cases pos with
  | trailing => exact parseTrailing_eq_ok h
  | leading => exact parseLeading_eq_ok h

/-- The operation that is the frame of a payload in a field order (R90, R99). -/
def frameInstr (pos : ChecksumPos) (p : List Byte) : Instr :=
  match pos with
  | .trailing => .frameTrailing p
  | .leading => .frameLeading p

theorem frameInstr_wellFormed (pos : ChecksumPos) (p : List Byte) :
    (frameInstr pos p).wellFormed = payloadFits p := by
  cases pos <;> rfl

theorem encode_frameInstr (prm : Params) (pos : ChecksumPos) (p : List Byte) :
    encode prm (frameInstr pos p) = some (.frame pos, frameBytes pos p) := by
  cases pos <;> rfl

/-- A frame decoder answers with what the parser answers. -/
theorem decode_frame_eq_ok {prm : Params} {pos : ChecksumPos} {bs rest : List Byte} {i : Instr} :
    decode prm (.frame pos) bs = .ok (i, rest) ↔
      ∃ p, parseFrame pos bs = .ok (p, rest) ∧ i = frameInstr pos p := by
  cases hp : parseFrame pos bs with
  | error e => simp [decode, hp]
  | ok pr =>
    obtain ⟨p, r⟩ := pr
    cases pos <;> simp [decode, hp, frameInstr, eq_comm, and_comm]

theorem payloadFits_iff (p : List Byte) : payloadFits p = true ↔ p.length ≤ 65535 := by
  simp [payloadFits]

/-! ## Transactions and symbols (R91, R96 to R98) -/

/-- The Slave's half of a transaction is read back: its frame, then `ACK_REQUEST_BYTE` (R97). -/
theorem decodeSlaveToMaster_frameBytes (prm : Params) {p : List Byte} (hp : p.length ≤ 65535)
    (rest : List Byte) :
    decodeSlaveToMaster prm (frameBytes prm.checksumPos p ++ [prm.ackRequest] ++ rest) =
      .ok (.xactSm p, rest) := by
  have h := parseFrame_frameBytes prm.checksumPos hp (prm.ackRequest :: rest)
  simp [decodeSlaveToMaster, h]

/-- Each symbol is read as itself where the four values differ (R91, R98). -/
theorem decodeSymbol_of_nodup (prm : Params) (rest : List Byte)
    (h : [Config.startMarker, prm.ackSentinel, prm.ackRequest, prm.fill].Nodup) :
    decodeSymbol prm (Config.startMarker :: rest) = .ok (.startMarker, rest) ∧
    decodeSymbol prm (prm.ackSentinel :: rest) = .ok (.ackSentinel, rest) ∧
    decodeSymbol prm (prm.ackRequest :: rest) = .ok (.ackRequestByte, rest) ∧
    decodeSymbol prm (prm.fill :: rest) = .ok (.fillByte, rest) := by
  simp only [List.nodup_cons, List.mem_cons, List.not_mem_nil, or_false, not_or] at h
  obtain ⟨⟨hsa, hsr, hsf⟩, ⟨har, haf⟩, hrf, -⟩ := h
  simp [decodeSymbol, Ne.symm hsa, Ne.symm hsr, Ne.symm hsf, Ne.symm har, Ne.symm haf, Ne.symm hrf]

end Sys2Proof

section

open Sys2Proof Sys2Proof.Machine

/-- Settles O3, operation by operation: a command by the signals of its code, a payload by the parser
of frames, a symbol by its value. -/
theorem decodeEncode : Obligations.DecodeEncode := by
  intro prm i port bs rest hwf he hsym
  cases i with
  | reserved000 | stop | send _ | attach | detach | clrnew | reserved111 =>
    cases he
    exact decode_commandBytes prm rfl rest
  | start r cb =>
    cases he
    exact decode_commandBytes prm (encodeCmd_start_decodeCmd r cb) rest
  | msend len =>
    cases he
    exact decodeOperation_send .master (len := len) rfl rest
  | ssend len =>
    cases he
    exact decodeOperation_send .slave (len := len) rfl rest
  | rxs b0 =>
    cases he
    rfl
  | frameTrailing p =>
    cases he
    exact decode_frame_eq_ok.2
      ⟨p, parseFrame_frameBytes .trailing ((payloadFits_iff p).1 hwf) rest, rfl⟩
  | frameLeading p =>
    cases he
    exact decode_frame_eq_ok.2
      ⟨p, parseFrame_frameBytes .leading ((payloadFits_iff p).1 hwf) rest, rfl⟩
  | xactMs p =>
    cases he
    simp [decode, parseFrame_frameBytes prm.checksumPos ((payloadFits_iff p).1 hwf) rest]
  | xactSm p =>
    cases he
    exact decodeSlaveToMaster_frameBytes prm ((payloadFits_iff p).1 hwf) rest
  | startMarker =>
    cases he
    exact (decodeSymbol_of_nodup prm rest (hsym rfl)).1
  | ackSentinel =>
    cases he
    exact (decodeSymbol_of_nodup prm rest (hsym rfl)).2.1
  | ackRequestByte =>
    cases he
    exact (decodeSymbol_of_nodup prm rest (hsym rfl)).2.2.1
  | fillByte =>
    cases he
    exact (decodeSymbol_of_nodup prm rest (hsym rfl)).2.2.2
  | _ => cases he

/-- Settles O4: the decoder accepts nothing but what the parser accepts, which are the frames. -/
theorem frameEncodeDecode : Obligations.FrameEncodeDecode := by
  intro prm pos bs rest i h
  obtain ⟨p, hp, rfl⟩ := decode_frame_eq_ok.1 h
  obtain ⟨hlen, hbs⟩ := parseFrame_eq_ok hp
  exact ⟨(frameInstr_wellFormed pos p).trans ((payloadFits_iff p).2 hlen), _,
    encode_frameInstr prm pos p, hbs⟩

/-- Settles O1: the signals are read back whatever they are, and the code chooses the command. -/
theorem commandCodes : Obligations.CommandCodes := by
  intro prm role cb len rest word
  have hword (op : BitVec 3) :
      decode prm .command (word op) = .ok (decodeCmd ⟨op, role, cb, len⟩, rest) :=
    decodeCommand_portBytes _ rest
  have hsend (r : Role) := decodeOperation_send r (c := ⟨0b011#3, role, cb, len⟩) (len := len) rfl rest
  refine ⟨hword _, (hword _).trans ?_, hword _, hword _, hsend .master, hsend .slave, hword _,
    hword _, hword _, hword _⟩
  rfl

/-- Settles O2: each word is closed, and the decoders compute on it. -/
theorem decodesWrittenWords : Obligations.DecodesWrittenWords := by
  unfold Obligations.DecodesWrittenWords
  decide +kernel

end
end

section
/-! The checksum as a number (R94, R121): the sum of the bytes modulo 256. -/

namespace Sys2Proof

/-- The checksum of two parts is the sum of theirs. -/
theorem sum8_append (p q : List Byte) : sum8 (p ++ q) = sum8 p + sum8 q := by
  induction q using List.reverseRecOn with
  | nil => simp
  | append_singleton q b ih =>
    rw [← List.append_assoc, sum8_append_singleton, sum8_append_singleton, ih, BitVec.add_assoc]

theorem sum8_cons (b : Byte) (q : List Byte) : sum8 (b :: q) = b + sum8 q := by
  simpa [sum8] using sum8_append [b] q

/-- The value of the checksum (R121, item 1). -/
theorem sum8_toNat (p : List Byte) : (sum8 p).toNat = (p.map BitVec.toNat).sum % 256 := by
  induction p using List.reverseRecOn with
  | nil => rfl
  | append_singleton p b ih => simp [sum8_append_singleton, ih]

/-- Two payloads have one checksum exactly when their sums agree modulo 256 (R121, item 4). -/
theorem sum8_eq_iff (p q : List Byte) :
    sum8 p = sum8 q ↔ (p.map BitVec.toNat).sum % 256 = (q.map BitVec.toNat).sum % 256 := by
  rw [← BitVec.toNat_inj, sum8_toNat, sum8_toNat]

/-- One byte exchanged for another changes the checksum (R121, item 3). -/
theorem sum8_ne_of_ne (p q : List Byte) {a b : Byte} (h : a ≠ b) :
    sum8 (p ++ a :: q) ≠ sum8 (p ++ b :: q) := by
  simpa [sum8_append, sum8_cons] using h

/-- A flipped bit makes another byte. -/
theorem xor_bit_ne (b : Byte) {k : Nat} (hk : k < 8) : b ^^^ (1#8 <<< k) ≠ b := by
  intro h
  have hbit := congrArg (·.getLsbD k) h
  simp [hk] at hbit

end Sys2Proof

section

open Sys2Proof Sys2Proof.Machine

/-- Settles O19: each law is one about sums modulo 256. -/
theorem checksumLaws : Obligations.ChecksumLaws := by
  refine ⟨sum8_toNat, sum8_nil, fun p q hperm => ?_, fun p q b k hk => ?_, fun p q => ?_⟩
  · rw [sum8_eq_iff, (hperm.map BitVec.toNat).sum_eq]
  · exact sum8_ne_of_ne p q (xor_bit_ne b hk)
  · rw [sum8_eq_iff]
    omega

end
end

section
/-! `DEC_STEP` of either variant, cursor by cursor (R126, R127), as its row of the table answers. -/

namespace Sys2Proof.Machine

variable {s : State}

theorem isMarker_eq (b : Byte) : isMarker b = decide (b = 0x24) := rfl

/-- A payload byte at an index of `STAGE` is stored, added and counted, whatever the length (R126). -/
theorem takePayload_of_index (b : Byte) (hi : s.byteCnt.toNat < s.params.maxLen)
    (hc : s.byteCnt ≠ 0xFFFF#16) :
    s.takePayload b = .next { s with
      stage := s.stage.write s.byteCnt.toNat b, cksAcc := s.cksAcc + b
      byteCnt := s.byteCnt + 1 } := by
  rw [State.takePayload, stageByte_of_lt s b hi, andThen_next]
  exact congrArg _ (cntInc_of_ne _ hc)

/-- The row of the canonical variant is its decode step with the result in the trace (R126). -/
theorem exec_decStep {b : Byte} {t : State} {r : DecResult} (h : s.decTrailing b = .next (t, r)) :
    exec (.decStep b) s = .next { t with trace := .decStep r :: t.trace } := by
  rw [exec, execDecStep, h]
  rfl

/-- The row of the legacy variant is its decode step with the result in the trace (R127). -/
theorem exec_decStepLeading {b : Byte} {t : State} {r : DecResult}
    (h : s.decLeading b = .next (t, r)) :
    exec (.decStepLeading b) s = .next { t with trace := .decStep r :: t.trace } := by
  rw [exec, execDecStepLeading, h]
  rfl

/-- In the canonical variant the payload step leads to the checksum after the last byte (R126). -/
theorem decTrailing_of_index (b : Byte) (hp : s.rxCursor = .payload)
    (hi : s.byteCnt.toNat < s.params.maxLen) (hc : s.byteCnt ≠ 0xFFFF#16) :
    s.decTrailing b = .next ({ s with
      stage := s.stage.write s.byteCnt.toNat b, cksAcc := s.cksAcc + b
      byteCnt := s.byteCnt + 1
      rxCursor := if s.byteCnt + 1 = s.rxLen then .checksum else .payload }, .none) := by
  simp only [State.decTrailing, hp, takePayload_of_index b hi hc, andThen_next, State.rxCounted]
  by_cases he : s.byteCnt + 1#16 = s.rxLen
  · simp [he]
  · simp [he]

/-- In the legacy variant the last payload byte ends the frame (R127). -/
theorem decLeading_of_index (b : Byte) (hp : s.rxCursor = .payload)
    (hi : s.byteCnt.toNat < s.params.maxLen) (hc : s.byteCnt ≠ 0xFFFF#16) :
    s.decLeading b = .next (if s.byteCnt + 1 = s.rxLen then ({ s with
        stage := s.stage.write s.byteCnt.toNat b, cksAcc := s.cksAcc + b
        byteCnt := s.byteCnt + 1, rxCursor := .start }, .frame (s.rxCksField == s.cksAcc + b))
      else ({ s with
        stage := s.stage.write s.byteCnt.toNat b, cksAcc := s.cksAcc + b
        byteCnt := s.byteCnt + 1 }, .none)) := by
  simp only [State.decLeading, hp, takePayload_of_index b hi hc, andThen_next, State.rxCounted]
  by_cases he : s.byteCnt + 1#16 = s.rxLen
  · simp [he, State.checksumOk]
  · simp [he]

end Sys2Proof.Machine

section

open Sys2Proof Sys2Proof.Machine

/-- Settles O24, cursor by cursor. -/
theorem decodeStepTrailing : Obligations.DecodeStepTrailing := by
  intro s b len
  refine ⟨fun h => ?_, fun h => exec_decStep (decTrailing_lenHi s b h), fun h => ?_,
    fun h hi hc => ?_, fun h => exec_decStep (decTrailing_checksum s b h)⟩
  · have hd := decTrailing_start s b h
    rw [isMarker_eq] at hd
    by_cases hb : b = 0x24
    · simp only [hb, decide_true, if_true] at hd ⊢
      exact exec_decStep hd
    · simp only [hb, decide_false, Bool.false_eq_true, if_false] at hd ⊢
      exact exec_decStep hd
  · have hd := decTrailing_lenLo s b h
    by_cases hl : s.params.maxLen < len.toNat
    · rw [if_pos hl]
      exact exec_decStep (hd.trans (if_pos hl))
    · rw [if_neg hl]
      exact exec_decStep (hd.trans (if_neg hl))
  · exact exec_decStep (decTrailing_of_index b h hi hc)

/-- Settles O25, cursor by cursor. -/
theorem decodeStepLeading : Obligations.DecodeStepLeading := by
  intro s b len
  refine ⟨fun h => ?_, fun h => exec_decStepLeading (decLeading_checksum s b h),
    fun h => exec_decStepLeading (decLeading_lenHi s b h), fun h => ?_, fun h hi hc => ?_⟩
  · have hd := decLeading_start s b h
    rw [isMarker_eq] at hd
    by_cases hb : b = 0x24
    · simp only [hb, decide_true, if_true] at hd ⊢
      exact exec_decStepLeading hd
    · simp only [hb, decide_false, Bool.false_eq_true, if_false] at hd ⊢
      exact exec_decStepLeading hd
  · have hd := decLeading_lenLo s b h
    by_cases hl : s.params.maxLen < len.toNat
    · rw [if_pos hl]
      exact exec_decStepLeading (hd.trans (if_pos hl))
    · rw [if_neg hl]
      by_cases h0 : len = 0
      · rw [if_pos h0]
        exact exec_decStepLeading ((hd.trans (if_neg hl)).trans (if_pos h0))
      · rw [if_neg h0]
        exact exec_decStepLeading ((hd.trans (if_neg hl)).trans (if_neg h0))
  · have hd := decLeading_of_index b h hi hc
    by_cases he : s.byteCnt + 1 = s.rxLen
    · rw [if_pos he] at hd ⊢
      exact exec_decStepLeading hd
    · rw [if_neg he] at hd ⊢
      exact exec_decStepLeading hd

/-- Settles O32: the shared condition is `acceptsPlain`, and what is not accepted is held. -/
theorem reservedCodes : Obligations.ReservedCodes := by
  intro s
  refine ⟨fun ht => ?_, fun ht i hi => ?_⟩
  · have ha : s.acceptsPlain = true := by simp [State.acceptsPlain, State.txBusy, ht]
    simp [exec, execReserved000, execReserved111, ha, State.reservedEffect, State.done, State.log]
  · simp only [List.mem_cons, List.not_mem_nil, or_false] at hi
    obtain rfl | rfl | rfl := hi <;>
      exact ⟨_, rfl, exec_command_of_busy ht rfl (by simp) (by simp)⟩

/-- Settles O37: `RECV` is `CLRNEW` with the wait put back into the host's thread. -/
theorem clearNewMessage : Obligations.ClearNewMessage := by
  intro s ht
  have ha : s.acceptsPlain = true := by simp [State.acceptsPlain, State.txBusy, ht]
  have hclr : s.plainCommand .clrnew State.clrnewEffect =
      if s.fault = true then { s with trace := .cmdDone false :: s.trace }
      else { s with newMessage := false, trace := .cmdDone true :: s.trace } := by
    by_cases hf : s.fault = true
    · rw [if_pos hf, plainCommand_of_fault s _ _ ht hf]
      rfl
    · rw [if_neg hf, plainCommand_of_idle s _ _ ht (Bool.eq_false_iff.2 hf)]
      rfl
  refine ⟨congrArg _ hclr, ?_⟩
  rw [exec, execRecv, if_pos ha, hclr]
  split <;> rfl

end
end

section
/-! The sender's side of a transaction (R96, R97, R142, R152).

A Slave's exchanges follow each other without a delay, and each waits for the Master's clock.  As for a
Master (`State.SendsTo`), a run is cut into pieces `u.ShiftsOut v out`: from `u` the bytes `out` are
shifted out, whatever the Master shifts in, and the FSM is at `v`. -/

namespace Sys2Proof.Machine

variable {s u v w : State}

theorem exchangeEvents_append {o o' g g' : List Byte} (h : o.length = g.length) :
    exchangeEvents (o ++ o') (g ++ g') = exchangeEvents o g ++ exchangeEvents o' g' := by
  simp [exchangeEvents, List.zip_append h]

/-! ## Steps of a Slave's send -/

theorem activeMove_slave (hr : s.role = .slave) (ht : s.txState ≠ .idle) :
    s.activeMove = .next s.slaveMove := by
  rw [activeMove_of_busy s ht, State.txMove, hr]

/-- A step of a Slave's send without the Master's clock is its primitive. -/
theorem runTurns_slave (hr : u.role = .slave) (ht : u.txState ≠ .idle) (ts : List Turn)
    (hv : State.slaveMove { u with now := Turn.run } = v) (hn : v.now = Turn.run) :
    State.runTurns (Turn.run :: ts) u = State.runTurns ts v := by
  refine runTurns_cons_of_move _ _ _ _ ?_ (by rw [hn]; rfl)
  rw [blockMove_run_busy rfl (by simp [busy_eq, ht]),
    activeMove_slave (s := { u with now := Turn.run }) hr ht, hv]

/-- A step in which the Master clocks an exchange of a Slave's send. -/
theorem runTurns_slaveClocked (hr : u.role = .slave) (ht : u.txState ≠ .idle)
    (hreq : u.txRequest ≠ none) {r : Byte} (ts : List Turn)
    (hv : State.slaveMove { u with now := Turn.byte r } = v) (hn : v.now = Turn.byte r) :
    State.runTurns (Turn.byte r :: ts) u = State.runTurns ts v := by
  have hex : State.exchangeRequest { u with now := Turn.byte r } ≠ none :=
    (exchangeRequest_of_busy (s := u) ht).trans_ne hreq
  refine runTurns_cons_of_move _ _ _ _ ?_ (by rw [hn]; rfl)
  rw [blockMove_byte_exchange rfl hex,
    activeMove_slave (s := { u with now := Turn.byte r }) hr ht, hv]

/-- Outside the payload the exchange of a field leads to the next (R152). -/
theorem slaveFieldSent_of_ne (s : State) {sel : Sel} (h : sel ≠ .payload) :
    s.slaveFieldSent sel = s.fieldNext sel := by
  cases sel with
  | payload => exact absurd rfl h
  | start | lenHi | lenLo | checksum => rfl

/-- A payload byte is counted (R152). -/
theorem slaveFieldSent_payload (s : State) (h : s.byteCnt < s.txLen) :
    s.slaveFieldSent .payload = State.bodyNext { s with byteCnt := s.byteCnt + 1 } := by
  rw [State.slaveFieldSent, cntInc_of_lt s s.txLen h, fieldNext_payload]

theorem slaveFieldSent_withGhost (s : State) {sel : Sel} (t : Turn) (c : Nat) (tr : List Event)
    (h : sel = .payload → s.byteCnt < s.txLen) :
    (s.withGhost t c tr).slaveFieldSent sel = (s.slaveFieldSent sel).withGhost t c tr := by
  by_cases hs : sel = .payload
  · subst hs
    rw [slaveFieldSent_payload s (h rfl), slaveFieldSent_payload (s.withGhost t c tr) (h rfl)]
    exact bodyNext_withGhost { s with byteCnt := s.byteCnt + 1 } t c tr
  · rw [slaveFieldSent_of_ne s hs, slaveFieldSent_of_ne (s.withGhost t c tr) hs]
    exact fieldNext_withGhost s sel t c tr

/-! ## Bytes shifted out -/

/-- From `u` the bytes `out` are shifted out, whatever the Master shifts in, and the FSM is at `v`.
Another step follows, so that the signals of the last one are not looked at. -/
def State.ShiftsOut (u v : State) (out : List Byte) : Prop :=
  ∀ (c : Nat) (tr : List Event) (inp : List Byte) (t : Turn) (ts : List Turn),
    inp.length = out.length →
      State.runTurns (inp.map Turn.byte ++ t :: ts) (u.withGhost Turn.run c tr) =
        State.runTurns (t :: ts) (v.withGhost Turn.run (c + out.length)
          ((exchangeEvents out inp).reverse ++ tr))

theorem State.ShiftsOut.refl (u : State) : u.ShiftsOut u [] := by
  intro c tr inp t ts h
  obtain rfl := List.length_eq_zero_iff.1 h
  rfl

/-- A piece may be followed by another: what comes after the first bytes begins with a step. -/
theorem State.ShiftsOut.trans {o o' : List Byte} (h : u.ShiftsOut v o) (k : v.ShiftsOut w o') :
    u.ShiftsOut w (o ++ o') := by
  intro c tr inp t ts hl
  obtain ⟨xs, ys, rfl, hx, hy⟩ : ∃ xs ys, inp = xs ++ ys ∧ xs.length = o.length ∧
      ys.length = o'.length :=
    ⟨inp.take o.length, inp.drop o.length, (List.take_append_drop _ _).symm,
      by simp [hl], by simp [hl]⟩
  obtain ⟨t', ts', hts⟩ : ∃ t' ts', ys.map Turn.byte ++ t :: ts = t' :: ts' :=
    List.exists_cons_of_ne_nil (by simp)
  rw [List.map_append, List.append_assoc, hts, h c tr xs t' ts' hx, ← hts, k _ _ ys t ts hy,
    exchangeEvents_append hx.symm]
  simp [Nat.add_assoc]

/-- One field: an exchange (R152). -/
theorem shiftsOut_field (hr : u.role = .slave) (ht : u.txState ≠ .idle) {sel : Sel} {b : Byte}
    (hp : u.txPoint = .send sel b) (hc : sel = .payload → u.byteCnt < u.txLen) :
    u.ShiftsOut (u.slaveFieldSent sel) [b] := by
  intro c tr inp t ts hl
  obtain ⟨r, rfl⟩ := List.length_eq_one_iff.1 hl
  have hreq : (u.withGhost Turn.run c tr).txRequest ≠ none :=
    Option.ne_none_iff_exists'.2 ⟨b, txRequest_eq_some.2 (.inl ⟨sel, hp⟩)⟩
  have hmove := slaveMove_send (u.withGhost (Turn.byte r) c tr) sel b hp
  rw [busIn_byte _ r rfl] at hmove
  have hsent : (u.withGhost (Turn.byte r) c tr).slaveMove =
      (u.slaveFieldSent sel).withGhost (Turn.byte r) (c + 1) (.exchange b r :: tr) :=
    hmove.trans (slaveFieldSent_withGhost u _ _ _ hc)
  exact (runTurns_slaveClocked (u := u.withGhost Turn.run c tr) hr ht hreq (t :: ts) hsent rfl).trans
    rfl

/-- A field outside the payload: nothing but the place changes (R152). -/
theorem header_shiftsOut (hr : u.role = .slave) (ht : u.txState ≠ .idle) {sel : Sel}
    (hsel : sel ≠ .payload) (b : Byte) (hv : (u.place (.send sel b)).fieldNext sel = v) :
    (u.place (.send sel b)).ShiftsOut v [b] := by
  have h := shiftsOut_field (u := u.place (.send sel b)) hr ht rfl (absurd · hsel)
  rwa [slaveFieldSent_of_ne _ hsel, hv] at h

/-! ## The frame of a Slave -/

/-- Where the loop test of a Slave goes does not depend on where it is made. -/
theorem bodyNext_forgets_place_slave (hr : s.role = .slave) (p : TxPoint) :
    State.bodyNext { s with txPoint := p } = s.bodyNext := by
  have htest : State.txCounted { s with txPoint := p } = s.txCounted := rfl
  unfold State.bodyNext
  rw [htest, frameSent_slave hr, frameSent_slave (s := { s with txPoint := p }) hr]
  split
  · cases hp : s.params.checksumPos <;> rfl
  · rfl

theorem enterTransfer_slave (hr : u.role = .slave) : u.enterTransfer = u.inBody 0 u.cksAcc := by
  rw [enterTransfer_eq]
  simp [State.inBody, hr]

/-- The marker, in the legacy order the checksum, and the two length bytes (R152, R161). -/
theorem header_shiftsOut_body (hr : u.role = .slave) (ht : u.txState ≠ .idle) :
    (u.place (.send .start 0x24)).ShiftsOut (u.inBody 0 u.cksAcc).bodyNext
      (0x24 :: (if u.params.checksumPos = .leading then [u.cksAcc] else []) ++
        [lenHi u.txLen, lenLo u.txLen]) := by
  have hlo : (u.place (.send .lenLo (lenLo u.txLen))).ShiftsOut (u.inBody 0 u.cksAcc).bodyNext
      [lenLo u.txLen] := by
    refine header_shiftsOut hr ht (by simp) _ ?_
    rw [fieldNext_lenLo, enterTransfer_slave (u := u.place (.send .lenLo (lenLo u.txLen))) hr]
    exact bodyNext_forgets_place_slave (s := u.inBody 0 u.cksAcc) hr _
  have hlen : (u.place (.send .lenHi (lenHi u.txLen))).ShiftsOut (u.inBody 0 u.cksAcc).bodyNext
      [lenHi u.txLen, lenLo u.txLen] :=
    (header_shiftsOut hr ht (by simp) _ (fieldNext_lenHi _)).trans hlo
  have hstart := fieldNext_start (u.place (.send .start 0x24))
  have hcks := fieldNext_checksum (u.place (.send .checksum u.cksAcc))
  cases hp : u.params.checksumPos with
  | trailing =>
    simp only [State.place, hp] at hstart
    exact (header_shiftsOut hr ht (by simp) _ hstart).trans hlen
  | leading =>
    simp only [State.place, hp] at hstart hcks
    exact (header_shiftsOut hr ht (by simp) _ hstart).trans
      ((header_shiftsOut hr ht (by simp) _ hcks).trans hlen)

/-- One turn of the payload loop (R152). -/
theorem body_shiftsOut_next (hr : u.role = .slave) {n : Half} (hn : n < u.txLen) (k : Byte) :
    (u.inBody n k).bodyNext.ShiftsOut (u.inBody (n + 1) k).bodyNext [u.outbox.read n.toNat] := by
  have hbusy : (u.inBody n k).txState ≠ .idle := by simp [State.inBody]
  have h := shiftsOut_field (u := (u.inBody n k).toField .payload) hr hbusy rfl fun _ => hn
  rw [slaveFieldSent_payload _ hn] at h
  rw [bodyNext_of_lt (u.inBody n k) hn, ← bodyNext_forgets_place_slave (s := u.inBody (n + 1) k) hr]
  exact h

/-- The payload loop up to any number of bytes (R152). -/
theorem body_shiftsOut (hr : u.role = .slave) (k : Byte) {j : Nat} (hj : j ≤ u.txLen.toNat) :
    (u.inBody 0 k).bodyNext.ShiftsOut (u.inBody (BitVec.ofNat 16 j) k).bodyNext
      (u.outbox.bytes j) := by
  induction j with
  | zero => exact .refl _
  | succ j ih =>
    obtain ⟨hcnt, hlt⟩ := ofNat_lt_of_lt (n := u.txLen) hj
    have hstep := body_shiftsOut_next hr hlt k
    rw [hcnt] at hstep
    rw [BitVec.ofNat_add, Memory.bytes_succ]
    exact (ih (by omega)).trans hstep

/-- A Slave at the acknowledgement exchange (R155). -/
def State.atAck (u : State) : State := { u with txPoint := .ack, txState := .awaitAck }

/-- After the payload the checksum, if it has not gone out before; then the acknowledgement exchange
is next (R125, R152, R161). -/
theorem trailer_shiftsOut (hr : u.role = .slave) (k : Byte) :
    (u.inBody u.txLen k).bodyNext.ShiftsOut
      (u.inBody u.txLen k).atAck
      (if u.params.checksumPos = .trailing then [k] else []) := by
  have hnext := bodyNext_of_eq (u.inBody u.txLen k) rfl
  have hbusy : (u.inBody u.txLen k).txState ≠ .idle := by simp [State.inBody]
  have hpos : (u.inBody u.txLen k).params = u.params := rfl
  rw [hnext, hpos]
  cases hp : u.params.checksumPos with
  | trailing =>
    refine header_shiftsOut (u := u.inBody u.txLen k) hr hbusy (by simp) k ?_
    rw [fieldNext_checksum]
    simp [State.place, State.inBody, hp, State.frameSent, hr, State.atAck]
  | leading =>
    show State.ShiftsOut (State.frameSent _) _ []
    rw [frameSent_slave (s := u.inBody u.txLen k) hr]
    exact .refl _

/-- From the first exchange of an attempt to the acknowledgement exchange: the bytes of the frame, the
length in the counter (R124, R152, R161). -/
theorem frame_shiftsOut (hr : u.role = .slave) (ht : u.txState ≠ .idle)
    (hk : u.cksAcc = sum8 (u.outbox.bytes u.txLen.toNat)) :
    (u.place (.send .start 0x24)).ShiftsOut
      (u.inBody u.txLen u.cksAcc).atAck
      (frameBytes u.params.checksumPos (u.outbox.bytes u.txLen.toNat)) := by
  have hlen : payloadLen (u.outbox.bytes u.txLen.toNat) = u.txLen := by
    simp [payloadLen, Memory.bytes_length]
  have hbody := body_shiftsOut hr u.cksAcc (le_refl u.txLen.toNat)
  rw [BitVec.ofNat_toNat, BitVec.setWidth_eq] at hbody
  have h := (header_shiftsOut_body hr ht).trans (hbody.trans (trailer_shiftsOut hr u.cksAcc))
  cases hp : u.params.checksumPos with
  | trailing => simpa [frameBytes, hlen, Config.startMarker, hp, ← hk] using h
  | leading => simpa [frameBytes, hlen, Config.startMarker, hp, ← hk] using h

theorem endAttempt_now (s : State) (r : Byte) : (s.endAttempt r).now = s.now := by
  unfold State.endAttempt
  dsimp only
  split
  · rfl
  · split <;> rfl

/-- The acknowledgement exchange with response `r`, and the end of the attempt (R152, R155). -/
theorem runTurns_ack (hr : u.role = .slave) (ht : u.txState ≠ .idle) (hp : u.txPoint = .ack)
    (r : Byte) (ts : List Turn) :
    State.runTurns (Turn.byte r :: Turn.run :: ts) u =
      State.runTurns ts (State.endAttempt { u with
        txPoint := .drop r, now := Turn.run, freeCtr := u.freeCtr + 1
        trace := .exchange u.params.ackRequest r :: u.trace } r) := by
  have hreq : u.txRequest ≠ none :=
    Option.ne_none_iff_exists'.2 ⟨_, txRequest_eq_some.2 (.inr ⟨hp, rfl⟩)⟩
  have hack := slaveMove_ack { u with now := Turn.byte r } hp
  rw [busIn_byte _ r rfl] at hack
  rw [runTurns_slaveClocked hr ht hreq _ hack rfl]
  exact runTurns_slave (u := { State.exchanged { u with now := Turn.byte r } u.params.ackRequest r with
    txPoint := .drop r }) hr ht ts (slaveMove_drop _ r rfl) (endAttempt_now _ r)

/-- The rest of an attempt from its first exchange: the frame, the acknowledgement exchange with
response `r`, and the end of the attempt (R97, R152, R155). -/
theorem runTurns_attempt (hr : u.role = .slave) (ht : u.txState ≠ .idle)
    (hp : u.txPoint = .send .start 0x24)
    (hk : u.cksAcc = sum8 (u.outbox.bytes u.txLen.toNat))
    {inp : List Byte} (hinp : inp.length = u.txLen.toNat + 4) (r : Byte) (ts : List Turn) :
    State.runTurns (inp.map Turn.byte ++ Turn.byte r :: Turn.run :: ts) u =
      State.runTurns ts (State.endAttempt { u with
        txState := .awaitAck, txPoint := .drop r, byteCnt := u.txLen, now := Turn.run
        freeCtr := u.freeCtr + (u.txLen.toNat + 5)
        trace := (exchangeEvents
          (frameBytes u.params.checksumPos (u.outbox.bytes u.txLen.toNat) ++ [u.params.ackRequest])
          (inp ++ [r])).reverse ++ u.trace } r) := by
  have hlen : (frameBytes u.params.checksumPos (u.outbox.bytes u.txLen.toNat)).length =
      u.txLen.toNat + 4 := by
    rw [frameBytes_length, Memory.bytes_length]
  have hplace : u.place (.send .start 0x24) = u := by rw [← hp]; rfl
  have hframe := frame_shiftsOut hr ht hk u.freeCtr u.trace inp (Turn.byte r) (Turn.run :: ts)
    (hinp.trans hlen.symm)
  rw [hplace, hlen] at hframe
  have hcut : State.runTurns (inp.map Turn.byte ++ Turn.byte r :: Turn.run :: ts) u =
      State.runTurns (inp.map Turn.byte ++ Turn.byte r :: Turn.run :: ts)
        (u.withGhost Turn.run u.freeCtr u.trace) := by
    cases inp <;> rfl
  rw [hcut, hframe, runTurns_ack]
  · rw [exchangeEvents_append (hlen.trans hinp.symm), List.reverse_append]
    rfl
  · exact hr
  · exact TxState.noConfusion
  · rfl

/-! ## The peer's half of a transaction at the sender -/

/-- Which half of a transaction meets an endpoint is up to its role (R96, R97). -/
theorem exec_xactMs_master {p : List Byte} (hp : payloadFits p = true) (hr : s.role = .master) :
    exec (.xactMs p) s = State.runTurns (msAtMaster s.params p) s := by
  simp [exec, execXactMs, hp, hr]

theorem exec_xactMs_slave {p : List Byte} (hp : payloadFits p = true) (hr : s.role = .slave) :
    exec (.xactMs p) s = State.runTurns (msAtSlave s.params p) s := by
  simp [exec, execXactMs, hp, hr]

theorem exec_xactSm_master {p : List Byte} (hp : payloadFits p = true) (hr : s.role = .master) :
    exec (.xactSm p) s = State.runTurns (smAtMaster s.params p) s := by
  simp [exec, execXactSm, hp, hr]

theorem exec_xactSm_slave {p : List Byte} (hp : payloadFits p = true) (hr : s.role = .slave) :
    exec (.xactSm p) s = State.runTurns (smAtSlave s.params p) s := by
  simp [exec, execXactSm, hp, hr]

theorem received_replicate (c n : Nat) (b : Byte) :
    received c (List.replicate n (some b)) = List.replicate n b := by
  induction n generalizing c with
  | zero => rfl
  | succ n ih => simp [List.replicate_succ, received, ih]

/-- At a Master that sends, `XACT_MS` is the rest of its frame and the release of chip-select (R96,
R142). -/
theorem runTurns_msAtMaster (hr : u.role = .master) (ht : u.txState ≠ .idle)
    (hp : u.txPoint = .send .start 0x24)
    (hk : u.params.checksumPos = .leading → u.cksAcc = sum8 (u.outbox.bytes u.txLen.toNat)) :
    State.runTurns (msAtMaster u.params (u.outbox.bytes u.txLen.toNat)) u =
      .next { u with
        txState := .done, txPoint := .finish true, csOut := false
        byteCnt := u.txLen, cksAcc := sum8 (u.outbox.bytes u.txLen.toNat)
        now := Turn.run, freeCtr := u.freeCtr + (u.txLen.toNat + 4)
        trace := (masterSendEvents (frameBytes u.params.checksumPos (u.outbox.bytes u.txLen.toNat))
          (Config.freeByte u.freeCtr :: List.replicate (u.txLen.toNat + 3) u.params.fill) ++
            [Event.cs false]).reverse ++ u.trace } := by
  have hlen : (frameBytes u.params.checksumPos (u.outbox.bytes u.txLen.toNat)).length =
      u.txLen.toNat + 4 := by
    rw [frameBytes_length, Memory.bytes_length]
  have hplace : u.place (.send .start 0x24) = u := by rw [← hp]; rfl
  have hframe := frame_sendsTo hr ht hk u.freeCtr u.trace
    (replyBytes u.params false u.txLen.toNat) [Turn.run] (by simp [replyBytes, hlen])
  have hreply : received u.freeCtr (replyBytes u.params false u.txLen.toNat) =
      Config.freeByte u.freeCtr :: List.replicate (u.txLen.toNat + 3) u.params.fill :=
    congrArg (_ :: ·) (received_replicate _ _ _)
  rw [hplace, hlen, hreply] at hframe
  rw [msAtMaster, Memory.bytes_length]
  refine Eq.trans hframe ((runTurns_master ?_ ?_ [] (masterMove_release _ rfl) rfl).trans ?_)
  · exact hr
  · exact TxState.noConfusion
  · rw [List.reverse_append]
    rfl

/-- At a Slave that sends, `XACT_SM` is the rest of its attempt, which is acknowledged (R97, R152,
R155). -/
theorem runTurns_smAtSlave (hr : u.role = .slave) (ht : u.txState ≠ .idle)
    (hp : u.txPoint = .send .start 0x24) (hk : u.cksAcc = sum8 (u.outbox.bytes u.txLen.toNat)) :
    State.runTurns (smAtSlave u.params (u.outbox.bytes u.txLen.toNat)) u =
      .next { u with
        txState := .done, txPoint := .finish true, auxOut := false, byteCnt := u.txLen
        now := Turn.run, freeCtr := u.freeCtr + (u.txLen.toNat + 5)
        trace := (exchangeEvents
          (frameBytes u.params.checksumPos (u.outbox.bytes u.txLen.toNat) ++ [u.params.ackRequest])
          (List.replicate (u.txLen.toNat + 4) u.params.fill ++ [u.params.ackSentinel]) ++
            [Event.aux false]).reverse ++ u.trace } := by
  have hturns : smAtSlave u.params (u.outbox.bytes u.txLen.toNat) =
      (List.replicate (u.txLen.toNat + 4) u.params.fill).map Turn.byte ++
        [Turn.byte u.params.ackSentinel, Turn.run] := by
    simp [smAtSlave, replyBytes, Memory.bytes_length, Turn.exchange]
  rw [hturns, runTurns_attempt hr ht hp hk List.length_replicate, runTurns_nil, List.reverse_append]
  simp [State.endAttempt, State.acknowledged, State.auxWrite]

end Sys2Proof.Machine

section

open Sys2Proof Sys2Proof.Machine

/-- Settles O53: a Master's frame and a Slave's attempt, each from its first exchange. -/
theorem transactionAtSender : Obligations.TransactionAtSender := by
  intro s p hstate hpoint hlen hout
  have hbusy : s.txState ≠ .idle := by simp [hstate]
  have hfits : payloadFits p = true := (payloadFits_iff p).2 (by have := s.txLen.isLt; omega)
  rw [hlen] at hout ⊢
  subst hout
  refine ⟨fun hr hk => ⟨Config.freeByte s.freeCtr, ?_⟩, fun hr hk => ?_⟩
  · rw [exec_xactMs_master hfits hr]
    exact runTurns_msAtMaster hr hbusy hpoint hk
  · rw [exec_xactSm_slave hfits hr]
    exact runTurns_smAtSlave hr hbusy hpoint hk

end
end

section
/-! A receive from its first byte to its end, in either role and either field order (R173 to R190).

The decoder reads a frame byte by byte, and the rest of the receive path does not touch its registers.
So the decoder's part is said first, for bytes that are read one after another (`State.Reads`) up to one
that ends the frame (`State.ReadsTo`), whatever the dispatcher's place, the input signals, the counter
of free values and the trace are; then the dispatcher's part, once for both roles. -/

namespace Sys2Proof.Machine

variable {s u v w : State}

/-! ## What a payload leaves in `STAGE` (R40) -/

/-- The memory with a payload stored at the indices from 0. -/
def Memory.store (m : Memory) (p : List Byte) : Memory :=
  p.zipIdx.foldl (fun m bi => m.write bi.2 bi.1) m

theorem Memory.store_append_singleton (m : Memory) (p : List Byte) (b : Byte) :
    m.store (p ++ [b]) = (m.store p).write p.length b := by
  simp [Memory.store, List.zipIdx_append]

theorem Memory.store_wf {m : Memory} (hm : m.wf = true) (p : List Byte) :
    (m.store p).wf = true := by
  induction p using List.reverseRecOn with
  | nil => exact hm
  | append_singleton p b ih =>
    rw [Memory.store_append_singleton]
    exact Memory.write_wf _ _ _ ih

/-- Beyond the payload nothing is stored (R78). -/
theorem Memory.read_store_of_le (m : Memory) (p : List Byte) {i : Nat} (h : p.length ≤ i) :
    (m.store p).read i = m.read i := by
  induction p using List.reverseRecOn with
  | nil => rfl
  | append_singleton p b ih =>
    rw [List.length_append, List.length_singleton] at h
    rw [Memory.store_append_singleton, Memory.read_write_other _ _ _ _ (by omega), ih (by omega)]

/-- A write beyond the first `n` bytes leaves them alone. -/
theorem Memory.bytes_write_of_le (m : Memory) {n i : Nat} (h : n ≤ i) (b : Byte) :
    (m.write i b).bytes n = m.bytes n := by
  refine List.map_congr_left fun j hj => Memory.read_write_other m i j b ?_
  have := List.mem_range.1 hj
  omega

/-- The payload stored is read back (R75, R131). -/
theorem Memory.bytes_store {m : Memory} (hm : m.wf = true) (p : List Byte) :
    (m.store p).bytes p.length = p := by
  induction p using List.reverseRecOn with
  | nil => rfl
  | append_singleton p b ih =>
    rw [Memory.store_append_singleton, List.length_append, List.length_singleton, Memory.bytes_succ,
      Memory.bytes_write_of_le _ le_rfl, ih, Memory.read_write_same _ _ _ (Memory.store_wf hm p)]

/-! ## Bytes the decoder reads -/

/-- The dispatcher at another place. -/
def State.rxAt (u : State) (p : RxPoint) : State := { u with rxPoint := p }

/-- A receive whose bytes are taken: no send in progress, and at a Master the aux line asserted, so
that no abort check ends it (R178). -/
def State.Receiving (u : State) : Prop :=
  u.txState = .idle ∧ u.rxActive = true ∧ (u.role = .master → u.auxIn = true)

/-- `DEC_STEP(b)` answers `r` and takes the decoder from `u` to `v`; nothing else of the receive
changes. -/
structure State.Decodes (u : State) (b : Byte) (v : State) (r : DecResult) : Prop where
  dec : ∀ (p : RxPoint) (t : Turn) (c : Nat) (tr : List Event),
    ((u.rxAt p).withGhost t c tr).dec b = .next ((v.rxAt p).withGhost t c tr, r)
  role : v.role = u.role := by rfl
  params : v.params = u.params := by rfl
  receiving : u.Receiving → v.Receiving := by exact id

/-- The decoder takes these bytes one after another, and the frame goes on. -/
inductive State.Reads : State → List Byte → State → Prop where
  | nil (u : State) : State.Reads u [] u
  | cons {u v w : State} {b : Byte} {bs : List Byte} (h : u.Decodes b v .none)
      (k : State.Reads v bs w) : State.Reads u (b :: bs) w

theorem State.Decodes.reads {b : Byte} (h : u.Decodes b v .none) : u.Reads [b] v :=
  .cons h (.nil v)

theorem State.Reads.trans {bs cs : List Byte} (h : u.Reads bs v) (k : v.Reads cs w) :
    u.Reads (bs ++ cs) w := by
  induction h with
  | nil u => exact k
  | cons h _ ih => exact .cons h (ih k)

/-- The decoder takes these bytes, and the last one, `b`, ends the frame with the answer `r`. -/
def State.ReadsTo (u : State) (bs : List Byte) (b : Byte) (r : DecResult) (v : State) : Prop :=
  ∃ w, u.Reads bs w ∧ w.Decodes b v r

theorem dec_of_trailing (hp : s.params.checksumPos = .trailing) (b : Byte) :
    s.dec b = s.decTrailing b := by
  rw [State.dec, hp]

theorem dec_of_leading (hp : s.params.checksumPos = .leading) (b : Byte) :
    s.dec b = s.decLeading b := by
  rw [State.dec, hp]

/-! ## The header of a frame (R90, R99) -/

theorem lenHi_lenOf (hi lo : Byte) : lenHi (lenOf hi lo) = hi :=
  BitVec.extractLsb'_append_eq_left

/-- What comes between the marker and the low length byte. -/
def headerFront (pos : ChecksumPos) (c hi : Byte) : List Byte :=
  match pos with
  | .trailing => [hi]
  | .leading => [c, hi]

/-- The checksum field a receiver keeps, which the legacy order has in the header (R127). -/
def fieldKept (pos : ChecksumPos) (old c : Byte) : Byte :=
  match pos with
  | .trailing => old
  | .leading => c

/-- The receiver has the length, and in the legacy order the checksum field. -/
def State.announced (u : State) (n : Half) (c : Byte) : State :=
  { u with rxLen := n, rxCksField := fieldKept u.params.checksumPos u.rxCksField c }

theorem announced_rxCksField (hp : u.params.checksumPos = .leading) (n : Half) (c : Byte) :
    (u.announced n c).rxCksField = c := by
  simp [State.announced, hp, fieldKept]

/-- The decoder before the low length byte. -/
def State.atLenLo (u : State) (c hi : Byte) : State :=
  { u.announced (lenOf hi (lenLo u.rxLen)) c with rxCursor := .lenLo }

theorem reads_headerFront (hc : u.rxCursor = cursorAfterMarker u.params.checksumPos) (c hi : Byte) :
    u.Reads (headerFront u.params.checksumPos c hi) (u.atLenLo c hi) := by
  cases hp : u.params.checksumPos with
  | trailing =>
    rw [hp] at hc
    have hhi : u.Decodes hi { u.setLenHi hi with rxCursor := .lenLo } .none :=
      { dec := fun p t k tr =>
          (dec_of_trailing (s := (u.rxAt p).withGhost t k tr) hp hi).trans (decTrailing_lenHi _ hi hc) }
    have hend : u.atLenLo c hi = { u.setLenHi hi with rxCursor := .lenLo } := by
      simp [State.atLenLo, State.announced, hp, fieldKept, State.setLenHi]
    rw [hend]
    exact hhi.reads
  | leading =>
    rw [hp] at hc
    have hcks : u.Decodes c { u with rxCksField := c, rxCursor := .lenHi } .none :=
      { dec := fun p t k tr =>
          (dec_of_leading (s := (u.rxAt p).withGhost t k tr) hp c).trans
            (decLeading_checksum _ c hc) }
    have hhi : State.Decodes { u with rxCksField := c, rxCursor := .lenHi } hi
        { u.setLenHi hi with rxCksField := c, rxCursor := .lenLo } .none :=
      { dec := fun p t k tr =>
          (dec_of_leading (s := (State.rxAt { u with rxCksField := c, rxCursor := .lenHi } p).withGhost
            t k tr) hp hi).trans (decLeading_lenHi _ hi rfl) }
    have hend : u.atLenLo c hi = { u.setLenHi hi with rxCksField := c, rxCursor := .lenLo } := by
      simp [State.atLenLo, State.announced, hp, fieldKept, State.setLenHi]
    rw [hend]
    exact .cons hcks hhi.reads

/-- `State.setLenLo` with the assembled length named. -/
theorem setLenLo_eq {n : Half} {lo : Byte} (hn : lenOf (lenHi s.rxLen) lo = n) :
    s.setLenLo lo = { s with rxLen := n } := by
  rw [State.setLenLo, hn]

/-- The decoder after the low length byte of a frame it has given up (R101, R126, R127). -/
def State.gaveUp (u : State) (c hi lo : Byte) : State :=
  { u.announced (lenOf hi lo) c with rxCursor := .start }

/-- A length over the limit ends the frame before anything is counted or stored (R101, R126, R127). -/
theorem decodes_lenLo_of_long {c hi lo : Byte} (hl : u.params.maxLen < (lenOf hi lo).toNat) :
    (u.atLenLo c hi).Decodes lo (u.gaveUp c hi lo) .lenRejected where
  dec p t k tr := by
    have hlen : lenOf (lenHi (((u.atLenLo c hi).rxAt p).withGhost t k tr).rxLen) lo = lenOf hi lo :=
      congrArg (lenOf · lo) (lenHi_lenOf hi _)
    cases hp : u.params.checksumPos with
    | trailing =>
      rw [dec_of_trailing (s := ((u.atLenLo c hi).rxAt p).withGhost t k tr) hp,
        decTrailing_lenLo _ _ rfl, setLenLo_eq hlen, hlen]
      exact if_pos hl
    | leading =>
      rw [dec_of_leading (s := ((u.atLenLo c hi).rxAt p).withGhost t k tr) hp,
        decLeading_lenLo _ _ rfl, setLenLo_eq hlen, hlen]
      exact if_pos hl

/-! ## The payload (R126, R127) -/

/-- The decoder with the payload bytes `q` taken, at cursor `cur`. -/
def State.holding (u : State) (cur : Cursor) (q : List Byte) : State :=
  { u with
    rxCursor := cur, byteCnt := BitVec.ofNat 16 q.length, cksAcc := sum8 q
    stage := u.stage.store q }

/-- In the canonical order a length within the limit is followed by the payload, or by the checksum
if it is 0 (R126). -/
theorem decodes_lenLo_trailing (hp : u.params.checksumPos = .trailing) {c hi lo : Byte}
    (hl : (lenOf hi lo).toNat ≤ u.params.maxLen) :
    (u.atLenLo c hi).Decodes lo ((u.announced (lenOf hi lo) c).holding
      (if lenOf hi lo = 0 then .checksum else .payload) []) .none where
  dec p t k tr := by
    have hlen : lenOf (lenHi (((u.atLenLo c hi).rxAt p).withGhost t k tr).rxLen) lo = lenOf hi lo :=
      congrArg (lenOf · lo) (lenHi_lenOf hi _)
    rw [dec_of_trailing (s := ((u.atLenLo c hi).rxAt p).withGhost t k tr) hp,
      decTrailing_lenLo _ _ rfl, setLenLo_eq hlen, hlen]
    exact if_neg (Nat.not_lt.2 hl)

/-- In the legacy order it is followed by the payload, and a frame of length 0 ends with it (R127). -/
theorem decodes_lenLo_leading (hp : u.params.checksumPos = .leading) {c hi lo : Byte}
    (hl : (lenOf hi lo).toNat ≤ u.params.maxLen) :
    (u.atLenLo c hi).Decodes lo ((u.announced (lenOf hi lo) c).holding
      (if lenOf hi lo = 0 then .start else .payload) [])
      (if lenOf hi lo = 0 then .frame ((u.announced (lenOf hi lo) c).rxCksField == 0)
        else .none) where
  dec p t k tr := by
    have hlen : lenOf (lenHi (((u.atLenLo c hi).rxAt p).withGhost t k tr).rxLen) lo = lenOf hi lo :=
      congrArg (lenOf · lo) (lenHi_lenOf hi _)
    rw [dec_of_leading (s := ((u.atLenLo c hi).rxAt p).withGhost t k tr) hp,
      decLeading_lenLo _ _ rfl, setLenLo_eq hlen, hlen]
    refine (if_neg (Nat.not_lt.2 hl)).trans ?_
    by_cases h0 : lenOf hi lo = 0
    · rw [if_pos h0, if_pos h0]
      exact if_pos h0
    · rw [if_neg h0, if_neg h0]
      exact if_neg h0

/-- One payload byte more: stored, added, counted. -/
theorem holding_append_singleton (u : State) (cur : Cursor) {q : List Byte} (hq : q.length < 65536)
    (b : Byte) :
    u.holding cur (q ++ [b]) = { u with
      rxCursor := cur, byteCnt := BitVec.ofNat 16 q.length + 1, cksAcc := sum8 q + b
      stage := (u.stage.store q).write (BitVec.ofNat 16 q.length).toNat b } := by
  have hcnt : (BitVec.ofNat 16 q.length).toNat = q.length := by simp; omega
  simp [State.holding, sum8_append_singleton, Memory.store_append_singleton, hcnt, BitVec.ofNat_add]

/-- The cursor after a payload byte is the decoder's comparison of the two counts (R123). -/
theorem ofNat_succ_eq_iff {j : Nat} {n : Half} (h : j < n.toNat) :
    BitVec.ofNat 16 j + 1 = n ↔ j + 1 = n.toNat := by
  have := n.isLt
  rw [← BitVec.toNat_inj, BitVec.toNat_add, BitVec.toNat_ofNat]
  simp
  omega

/-- In the canonical order the last payload byte leads to the checksum (R126). -/
theorem decodes_payload_trailing (hp : u.params.checksumPos = .trailing) {q : List Byte}
    (hq : q.length < u.rxLen.toNat) (hl : u.rxLen.toNat ≤ u.params.maxLen) (b : Byte) :
    (u.holding .payload q).Decodes b
      (u.holding (if q.length + 1 = u.rxLen.toNat then .checksum else .payload) (q ++ [b])) .none where
  dec p t k tr := by
    have hlt := (ofNat_lt_of_lt hq).2
    rw [dec_of_trailing (s := ((u.holding .payload q).rxAt p).withGhost t k tr) hp,
      decTrailing_payload (((u.holding .payload q).rxAt p).withGhost t k tr) b rfl hlt hl,
      holding_append_singleton u _ (by omega)]
    simp only [← ofNat_succ_eq_iff hq]
    rfl

/-- In the legacy order the last payload byte ends the frame (R127). -/
theorem decodes_payload_leading (hp : u.params.checksumPos = .leading) {q : List Byte}
    (hq : q.length < u.rxLen.toNat) (hl : u.rxLen.toNat ≤ u.params.maxLen) (b : Byte) :
    (u.holding .payload q).Decodes b
      (u.holding (if q.length + 1 = u.rxLen.toNat then .start else .payload) (q ++ [b]))
      (if q.length + 1 = u.rxLen.toNat then .frame (u.rxCksField == sum8 (q ++ [b]))
        else .none) where
  dec p t k tr := by
    have hlt := (ofNat_lt_of_lt hq).2
    rw [dec_of_leading (s := ((u.holding .payload q).rxAt p).withGhost t k tr) hp,
      decLeading_payload (((u.holding .payload q).rxAt p).withGhost t k tr) b rfl hlt hl,
      holding_append_singleton u _ (by omega),
      sum8_append_singleton]
    simp only [← ofNat_succ_eq_iff hq]
    by_cases he : BitVec.ofNat 16 q.length + 1 = u.rxLen
    · rw [if_pos he, if_pos he]
      exact if_pos he
    · rw [if_neg he, if_neg he]
      exact if_neg he

/-- All payload bytes but the last, in either order. -/
theorem reads_payload {q : List Byte} (hq : q.length < u.rxLen.toNat)
    (hl : u.rxLen.toNat ≤ u.params.maxLen) :
    (u.holding .payload []).Reads q (u.holding .payload q) := by
  induction q using List.reverseRecOn with
  | nil => exact .nil _
  | append_singleton q b ih =>
    rw [List.length_append, List.length_singleton] at hq
    have hne : ¬ q.length + 1 = u.rxLen.toNat := by omega
    refine (ih (by omega)).trans (State.Decodes.reads ?_)
    cases hp : u.params.checksumPos with
    | trailing =>
      have h := decodes_payload_trailing hp (q := q) (by omega) hl b
      rwa [if_neg hne] at h
    | leading =>
      have h := decodes_payload_leading hp (q := q) (by omega) hl b
      rwa [if_neg hne, if_neg hne] at h

/-! ## Whole frames -/

/-- In the canonical order the payload leads to the checksum, also if it is empty (R126). -/
theorem reads_payload_trailing (hp : u.params.checksumPos = .trailing) {p : List Byte}
    (hn : u.rxLen.toNat = p.length) (hl : p.length ≤ u.params.maxLen) :
    (u.holding (if u.rxLen = 0 then .checksum else .payload) []).Reads p
      (u.holding .checksum p) := by
  obtain rfl | ⟨q, b, rfl⟩ := p.eq_nil_or_concat'
  · have h0 : u.rxLen = 0 := BitVec.eq_of_toNat_eq hn
    rw [if_pos h0]
    exact .nil _
  · rw [List.length_append, List.length_singleton] at hn hl
    have h0 : u.rxLen ≠ 0 := by
      rintro h0
      simp [h0] at hn
    have hlast := decodes_payload_trailing hp (q := q) (by omega) (by omega) b
    rw [if_pos hn.symm] at hlast
    rw [if_neg h0]
    exact (reads_payload (by omega) (by omega)).trans hlast.reads

/-- In the legacy order the last payload byte ends the frame (R127). -/
theorem readsTo_payload_leading (hp : u.params.checksumPos = .leading) {q : List Byte} {b : Byte}
    (hn : u.rxLen.toNat = q.length + 1) (hl : q.length + 1 ≤ u.params.maxLen) :
    (u.holding .payload []).ReadsTo q b (.frame (u.rxCksField == sum8 (q ++ [b])))
      (u.holding .start (q ++ [b])) := by
  have hlast := decodes_payload_leading hp (q := q) (by omega) (by omega) b
  rw [if_pos hn.symm, if_pos hn.symm] at hlast
  exact ⟨_, reads_payload (by omega) (by omega), hlast⟩

/-- The checksum byte ends a canonical frame (R126, R130). -/
theorem decodes_checksum_trailing (hp : u.params.checksumPos = .trailing) (p : List Byte) (c : Byte) :
    (u.holding .checksum p).Decodes c { u.holding .start p with rxCksField := c }
      (.frame (c == sum8 p)) where
  dec at_ t k tr := (dec_of_trailing (s := ((u.holding .checksum p).rxAt at_).withGhost t k tr) hp c).trans
    (decTrailing_checksum _ c rfl)

/-- The decoder after a whole frame of `p` with `c` in the place of its checksum. -/
def State.holdingFrame (u : State) (p : List Byte) (c : Byte) : State :=
  { u.holding .start p with rxLen := payloadLen p, rxCksField := c }

theorem announced_holding (hp : u.params.checksumPos = .leading) (p : List Byte) (c : Byte) :
    (u.announced (payloadLen p) c).holding .start p = u.holdingFrame p c := by
  simp [State.announced, State.holding, State.holdingFrame, hp, fieldKept]

/-- The length field of a frame is the length of its payload. -/
theorem lenOf_frame {p : List Byte} (hfit : p.length ≤ 65535) :
    (lenOf (lenHi (payloadLen p)) (lenLo (payloadLen p))).toNat = p.length := by
  rw [lenOf_lenHi_lenLo, payloadLen_toNat p hfit]

/-- A canonical frame after its marker (R90, R126). -/
theorem readsTo_frame_trailing (hpos : u.params.checksumPos = .trailing)
    (hc : u.rxCursor = cursorAfterMarker u.params.checksumPos) {p : List Byte}
    (hl : p.length ≤ u.params.maxLen) (hfit : p.length ≤ 65535) (c : Byte) :
    u.ReadsTo (headerFront .trailing c (lenHi (payloadLen p)) ++ lenLo (payloadLen p) :: p) c
      (.frame (c == sum8 p)) (u.holdingFrame p c) := by
  have hheader := reads_headerFront hc c (lenHi (payloadLen p))
  have hlo := decodes_lenLo_trailing hpos (c := c) ((lenOf_frame hfit).trans_le hl)
  rw [lenOf_lenHi_lenLo] at hlo
  have hbody := reads_payload_trailing (u := u.announced (payloadLen p) c) hpos
    (payloadLen_toNat p hfit) hl
  rw [hpos] at hheader
  exact ⟨_, hheader.trans (.cons hlo hbody),
    decodes_checksum_trailing (u := u.announced (payloadLen p) c) hpos p c⟩

/-- A legacy frame with a payload after its marker (R99, R127). -/
theorem readsTo_frame_leading (hpos : u.params.checksumPos = .leading)
    (hc : u.rxCursor = cursorAfterMarker u.params.checksumPos) {q : List Byte} {b : Byte}
    (hl : (q ++ [b]).length ≤ u.params.maxLen) (hfit : (q ++ [b]).length ≤ 65535) (c : Byte) :
    u.ReadsTo (headerFront .leading c (lenHi (payloadLen (q ++ [b]))) ++
        lenLo (payloadLen (q ++ [b])) :: q) b
      (.frame (c == sum8 (q ++ [b]))) (u.holdingFrame (q ++ [b]) c) := by
  have hlen := payloadLen_toNat _ hfit
  have h0 : payloadLen (q ++ [b]) ≠ 0 := by
    intro h0
    simp [h0] at hlen
  have hheader := reads_headerFront hc c (lenHi (payloadLen (q ++ [b])))
  have hlo := decodes_lenLo_leading hpos (c := c) ((lenOf_frame hfit).trans_le hl)
  rw [lenOf_lenHi_lenLo, if_neg h0, if_neg h0] at hlo
  rw [List.length_append, List.length_singleton] at hlen hl
  have hbody := readsTo_payload_leading (u := u.announced (payloadLen (q ++ [b])) c) (b := b) hpos
    hlen hl
  rw [announced_rxCksField hpos, announced_holding hpos] at hbody
  rw [hpos] at hheader
  obtain ⟨w, hreads, hlast⟩ := hbody
  exact ⟨w, hheader.trans (.cons hlo hreads), hlast⟩

/-- A legacy frame without a payload after its marker (R99, R127). -/
theorem readsTo_frame_leading_nil (hpos : u.params.checksumPos = .leading)
    (hc : u.rxCursor = cursorAfterMarker u.params.checksumPos) (c : Byte) :
    u.ReadsTo (headerFront .leading c (lenHi (payloadLen []))) (lenLo (payloadLen []))
      (.frame (c == sum8 [])) (u.holdingFrame [] c) := by
  have hheader := reads_headerFront hc c (lenHi (payloadLen []))
  have hlo := decodes_lenLo_leading (u := u) hpos (c := c) (hi := lenHi (payloadLen []))
    (lo := lenLo (payloadLen [])) (Nat.zero_le _)
  have h0 : payloadLen [] = 0 := rfl
  rw [lenOf_lenHi_lenLo, announced_rxCksField hpos, if_pos h0, if_pos h0, announced_holding hpos]
    at hlo
  rw [hpos] at hheader
  exact ⟨_, hheader, hlo⟩

/-- The rest of a frame after its marker, in either order: the decoder has the payload, and its answer
is the comparison of the checksum (R90, R99, R130). -/
theorem readsTo_frame (hc : u.rxCursor = cursorAfterMarker u.params.checksumPos) {p : List Byte}
    (hl : p.length ≤ u.params.maxLen) (hfit : p.length ≤ 65535) (c : Byte) :
    ∃ front b, frameWith u.params.checksumPos p c = 0x24 :: (front ++ [b]) ∧
      u.ReadsTo front b (.frame (c == sum8 p)) (u.holdingFrame p c) := by
  cases hpos : u.params.checksumPos with
  | trailing =>
    exact ⟨_, _, by simp [frameWith, headerFront], readsTo_frame_trailing hpos hc hl hfit c⟩
  | leading =>
    obtain rfl | ⟨q, b, rfl⟩ := p.eq_nil_or_concat'
    · exact ⟨_, _, by simp [frameWith, headerFront], readsTo_frame_leading_nil hpos hc c⟩
    · exact ⟨_, _, by simp [frameWith, headerFront], readsTo_frame_leading hpos hc hl hfit c⟩

/-- The header of an over-long frame after its marker, in either order: the decoder has the length,
and gives the frame up (R101, R126, R127). -/
theorem readsTo_long (hc : u.rxCursor = cursorAfterMarker u.params.checksumPos) {hi lo : Byte}
    (hl : u.params.maxLen < (lenOf hi lo).toNat) (c : Byte) :
    u.ReadsTo (headerFront u.params.checksumPos c hi) lo .lenRejected
      (u.gaveUp c hi lo) :=
  ⟨_, reads_headerFront hc c hi, decodes_lenLo_of_long hl⟩

/-! ## The dispatcher takes the bytes -/

/-- What follows a byte the decoder has answered `r` to (R173, R177). -/
def State.afterByte (s : State) (r : DecResult) : State :=
  match r with
  | .none => s.pullAgain
  | .ignored => s.pullAgain
  | .lenRejected => s.rejectLen
  | .frame ok => s.frameEnded ok

theorem takeByte_of_dec {b : Byte} {r : DecResult} (h : s.dec b = .next (v, r)) :
    s.takeByte b = .next (v.afterByte r) := by
  rw [State.takeByte, h]
  cases r <;> rfl

theorem afterByte_now (s : State) (r : DecResult) : (s.afterByte r).now = s.now := by
  cases r with
  | none => exact State.pullAgain_now s
  | ignored => exact State.pullAgain_now s
  | lenRejected => cases hr : s.role <;> simp [State.afterByte, State.rejectLen, hr]
  | frame ok => cases hr : s.role <;> simp [State.afterByte, State.frameEnded, hr]

/-- A step of a receive without a byte from the peer is its primitive, if it is at no exchange or the
endpoint is a Master. -/
theorem runTurns_rxRun (ht : u.txState = .idle) (ha : u.rxActive = true) (ts : List Turn)
    (hv : State.rxMove { u with now := Turn.run } = .next v) (hn : v.now = Turn.run) :
    State.runTurns (Turn.run :: ts) u = State.runTurns ts v := by
  refine runTurns_cons_of_move _ _ _ _ ?_ (by rw [hn]; rfl)
  rw [blockMove_run_busy rfl (by simp [busy_eq, ha]),
    activeMove_of_idle { u with now := Turn.run } ht, hv]

/-- A step of a receive in which the peer's byte completes its exchange. -/
theorem runTurns_rxByte (ht : u.txState = .idle) (ha : u.rxActive = true) (hreq : u.rxRequest ≠ none)
    {b : Byte} (ts : List Turn)
    (hv : State.rxMove { u with now := Turn.byte b } = .next v) (hn : v.now = Turn.byte b) :
    State.runTurns (Turn.byte b :: ts) u = State.runTurns ts v := by
  have hex : State.exchangeRequest { u with now := Turn.byte b } ≠ none :=
    (exchangeRequest_of_active (s := u) ht ha).trans_ne hreq
  refine runTurns_cons_of_move _ _ _ _ ?_ (by rw [hn]; rfl)
  rw [blockMove_byte_exchange rfl hex, activeMove_of_idle { u with now := Turn.byte b } ht, hv]

/-- Where the dispatcher stands between two bytes (R173, R177). -/
def receivePlace : Role → RxPoint
  | .master => .sample
  | .slave => .pull

/-- The steps in which bytes after the first are taken: at a Master an abort check before each (R178). -/
def byteTurns : Role → List Byte → List Turn
  | .master, bs => sampledTurns bs
  | .slave, bs => bs.map Turn.byte

/-- The events of those steps. -/
def byteEvents (r : Role) (fill : Byte) (bs : List Byte) : List Event :=
  match r with
  | .master => pullEvents fill bs
  | .slave => exchangeEvents (List.replicate bs.length fill) bs

theorem byteTurns_cons (r : Role) (b : Byte) (bs : List Byte) :
    byteTurns r (b :: bs) = byteTurns r [b] ++ byteTurns r bs := by
  cases r <;> rfl

theorem byteEvents_cons (r : Role) (fill b : Byte) (bs : List Byte) :
    byteEvents r fill (b :: bs) = byteEvents r fill [b] ++ byteEvents r fill bs := by
  cases r <;> rfl

theorem byteTurns_append (r : Role) (bs cs : List Byte) :
    byteTurns r (bs ++ cs) = byteTurns r bs ++ byteTurns r cs := by
  cases r <;> simp [byteTurns, sampledTurns]

theorem byteEvents_append (r : Role) (fill : Byte) (bs cs : List Byte) :
    byteEvents r fill (bs ++ cs) = byteEvents r fill bs ++ byteEvents r fill cs := by
  induction bs with
  | nil => cases r <;> rfl
  | cons b bs ih => rw [List.cons_append, byteEvents_cons, ih, byteEvents_cons r fill b bs,
      List.append_assoc]

/-- Between two bytes of a frame, at the place of its role. -/
def State.between (u : State) (t : Turn) (c : Nat) (tr : List Event) : State :=
  (u.rxAt (receivePlace u.role)).withGhost t c tr

/-- The exchange of one byte, whatever the decoder answers (R173, R177). -/
theorem runTurns_pull (hu : u.Receiving) {b : Byte} {r : DecResult} (h : u.Decodes b v r) (t : Turn)
    (c : Nat) (tr : List Event) (ts : List Turn) :
    State.runTurns (Turn.byte b :: ts) ((u.rxAt .pull).withGhost t c tr) =
      State.runTurns ts (((v.rxAt .pull).withGhost (Turn.byte b) (c + 1)
        (.exchange u.params.fill b :: tr)).afterByte r) := by
  obtain ⟨ht, ha, -⟩ := hu
  have hmove := rxMove_pull ((u.rxAt .pull).withGhost (Turn.byte b) c tr) rfl
  rw [busIn_byte _ b rfl] at hmove
  exact runTurns_rxByte (u := (u.rxAt .pull).withGhost t c tr) ht ha
    (by simp [State.withGhost, State.rxAt, State.rxRequest]) ts
    (hmove.trans (takeByte_of_dec (h.dec .pull (Turn.byte b) (c + 1) _))) (afterByte_now _ _)

/-- One byte after the first, at a Master with its abort check (R173, R177, R178). -/
theorem runTurns_takes (hu : u.Receiving) {b : Byte} {r : DecResult} (h : u.Decodes b v r) (t : Turn)
    (c : Nat) (tr : List Event) (ts : List Turn) :
    State.runTurns (byteTurns u.role [b] ++ ts) (u.between t c tr) =
      State.runTurns ts (((v.rxAt .pull).withGhost (Turn.byte b) (c + 1)
        ((byteEvents u.role u.params.fill [b]).reverse ++ tr)).afterByte r) := by
  obtain hr | hr := role_cases u.role
  · rw [State.between, hr]
    have ⟨ht, ha, haux⟩ := hu
    have hcheck := rxMove_sample ((u.rxAt .sample).withGhost Turn.run c tr) rfl
    rw [checkAux_of_high ((u.rxAt .sample).withGhost Turn.run c tr) _ (haux hr)] at hcheck
    exact (runTurns_rxRun (u := (u.rxAt .sample).withGhost t c tr) ht ha _ hcheck rfl).trans
      (runTurns_pull hu h Turn.run c (.auxRead true :: tr) ts)
  · rw [State.between, hr]
    exact runTurns_pull hu h t c tr ts

theorem pullAgain_eq_between (v : State) (p : RxPoint) (t : Turn) (c : Nat) (tr : List Event) :
    ((v.rxAt p).withGhost t c tr).pullAgain = v.between t c tr := by
  obtain hr | hr := role_cases v.role
  · rw [State.between, hr, pullAgain_master (s := (v.rxAt p).withGhost t c tr) hr]
    rfl
  · rw [State.between, hr, pullAgain_slave (s := (v.rxAt p).withGhost t c tr) hr]
    rfl

theorem State.Reads.keeps {bs : List Byte} (h : u.Reads bs v) :
    v.role = u.role ∧ v.params = u.params ∧ (u.Receiving → v.Receiving) := by
  induction h with
  | nil u => exact ⟨rfl, rfl, id⟩
  | cons h _ ih =>
    obtain ⟨hr, hp, hu⟩ := ih
    exact ⟨hr.trans h.role, hp.trans h.params, hu ∘ h.receiving⟩

/-- The bytes of a frame that goes on.  Another step follows, so that the signals of the last one are
not looked at. -/
theorem runTurns_reads {bs : List Byte} (h : u.Reads bs v) (hu : u.Receiving) (t t₁ t₂ : Turn)
    (c : Nat) (tr : List Event) (ts : List Turn) :
    State.runTurns (byteTurns u.role bs ++ t₂ :: ts) (u.between t c tr) =
      State.runTurns (t₂ :: ts) (v.between t₁ (c + bs.length)
        ((byteEvents u.role u.params.fill bs).reverse ++ tr)) := by
  induction h generalizing c tr t with
  | nil u => cases hr : u.role <;> rfl
  | @cons u v w b bs h _ ih =>
    rw [byteTurns_cons, List.append_assoc, runTurns_takes hu h,
      byteEvents_cons u.role u.params.fill b bs]
    show State.runTurns _ (State.pullAgain _) = _
    rw [pullAgain_eq_between, ← h.role, ih (h.receiving hu), h.params, List.reverse_append,
      List.append_assoc, List.length_cons, Nat.add_assoc, Nat.add_comm 1]

/-- The bytes of a frame up to the one that ends it. -/
theorem runTurns_readsTo {bs : List Byte} {b : Byte} {r : DecResult} (h : u.ReadsTo bs b r v)
    (hu : u.Receiving) (t : Turn) (c : Nat) (tr : List Event) (ts : List Turn) :
    State.runTurns (byteTurns u.role (bs ++ [b]) ++ ts) (u.between t c tr) =
      State.runTurns ts (((v.rxAt .pull).withGhost (Turn.byte b) (c + (bs ++ [b]).length)
        ((byteEvents u.role u.params.fill (bs ++ [b])).reverse ++ tr)).afterByte r) := by
  obtain ⟨w, hreads, hlast⟩ := h
  obtain ⟨hr, hp, hw⟩ := hreads.keeps
  obtain ⟨t', ts', hts⟩ : ∃ t' ts', byteTurns u.role [b] ++ ts = t' :: ts' := by
    cases u.role <;> exact ⟨_, _, rfl⟩
  rw [byteTurns_append, List.append_assoc, hts, runTurns_reads hreads hu t t, ← hts, ← hr,
    runTurns_takes (hw hu) hlast, byteEvents_append, List.reverse_append, List.append_assoc,
    List.length_append, List.length_singleton, hp, Nat.add_assoc]

/-! ## The first byte of a receive -/

/-- A receive that has had its marker. -/
def State.begun (s : State) : State :=
  { s with
    rxActive := true, cbShadow := s.cbEnable
    rxCursor := cursorAfterMarker s.params.checksumPos }

/-- The marker at an armed idle Slave (R61, R173). -/
theorem blockMove_marker (hm : s.now.move = .byte 0x24) (hs : s.rxsReady = true)
    (hc : s.rxCursor = .start) :
    s.blockMove = .next (s.begun.between s.now s.freeCtr (.rxByte 0x24 :: s.trace)) := by
  obtain ⟨-, -, ht, ha, hr⟩ := rxsReady_iff.1 hs
  rw [blockMove_byte_trigger hm (exchangeRequest_of_inactive ht ha),
    readyForByte_of_not _ (publishing_of_inactive ha), andThen_next, execRxs_of_ready hs,
    startRxs_of_start hc, if_pos rfl, State.between, State.begun, hr]
  rfl

theorem runTurns_marker (hs : s.rxsReady = true) (hc : s.rxCursor = .start) (ts : List Turn) :
    State.runTurns (Turn.byte 0x24 :: ts) s =
      State.runTurns ts (s.begun.between (Turn.byte 0x24) s.freeCtr (.rxByte 0x24 :: s.trace)) :=
  runTurns_cons_of_move _ _ _ _
    (blockMove_marker (s := { s with now := Turn.byte 0x24 }) rfl hs hc) rfl

/-- An asserting edge of the aux line at a started Master, with the block at rest (R28). -/
theorem runTurns_rising (hs : s.started = true) (hr : s.role = .master) (hx : s.auxPrev = false)
    (ts : List Turn) :
    State.runTurns ({ Turn.idle with aux := some true } :: ts) s =
      State.runTurns ts { s with
        auxIn := true, auxPrev := true, auxPending := true
        now := { Turn.idle with aux := some true } } := by
  rw [runTurns_cons, blockMove_quiet rfl, andThen_next]
  simp [State.auxPhase, State.auxChange, hs, hr, hx]

/-- The latched edge is served: the operation is in flight, chip-select active (R176, R177, R232). -/
theorem runTurns_call (hs : s.rxmReady = true) (ts : List Turn) :
    State.runTurns (Turn.run :: ts) s =
      State.runTurns ts { s with
        auxPending := false, rxActive := true, rxPoint := .first, csOut := true
        now := Turn.run, trace := .cs true :: s.trace } := by
  obtain ⟨⟨ha, -⟩, -⟩ : (s.armed = true ∧ s.role = .master) ∧ s.auxPending = true := by
    simpa [State.rxmReady] using hs
  obtain ⟨-, -, ht, hx⟩ := (armed_iff s).1 ha
  refine runTurns_cons_of_move _ _ _ _ ?_ rfl
  rw [blockMove_run_idle rfl (by simp [busy_eq, ht, hx])]
  exact if_pos hs

/-- A Master that has called the requesting Slave: the edge taken, the line and chip-select active
(R177). -/
def State.calling (s : State) : State :=
  { s with auxIn := true, auxPrev := true, auxPending := false, csOut := true, rxActive := true }

/-- The edge at an armed idle Master, and the start of its receive (R28, R176, R177). -/
theorem runTurns_calling (ha : s.armed = true) (hr : s.role = .master) (hx : s.auxPrev = false)
    (ts : List Turn) :
    State.runTurns ({ Turn.idle with aux := some true } :: Turn.run :: ts) s =
      State.runTurns ts ((s.calling.rxAt .first).withGhost Turn.run s.freeCtr
        (.cs true :: s.trace)) := by
  rw [runTurns_rising ((armed_iff s).1 ha).1 hr hx, runTurns_call]
  · rfl
  · exact Bool.and_eq_true_iff.2 ⟨Bool.and_eq_true_iff.2 ⟨ha, by simp [hr]⟩, rfl⟩

/-- The first byte a Master pulls: the marker begins a receive, any other byte ends the operation
(R177, R181). -/
theorem takeFirst_of_start (hc : s.rxCursor = .start) (b : Byte) :
    s.takeFirst b = .next (if b = 0x24 then { s with
        rxPoint := .sample, cbShadow := s.cbEnable
        rxCursor := cursorAfterMarker s.params.checksumPos }
      else { s with rxPoint := .release .ignored }) := by
  rw [State.takeFirst, dec_of_start hc]
  split <;> rfl

theorem runTurns_first (ht : u.txState = .idle) (ha : u.rxActive = true) (hc : u.rxCursor = .start)
    (b : Byte) (t : Turn) (c : Nat) (tr : List Event) (ts : List Turn) :
    State.runTurns (Turn.byte b :: ts) ((u.rxAt .first).withGhost t c tr) =
      State.runTurns ts ((if b = 0x24 then u.begun.rxAt .sample else u.rxAt (.release .ignored)).withGhost
        (Turn.byte b) (c + 1) (.exchange u.params.fill b :: tr)) := by
  have hmove := rxMove_first ((u.rxAt .first).withGhost (Turn.byte b) c tr) rfl
  rw [busIn_byte _ b rfl] at hmove
  have hbegun : u.begun = { u with
      cbShadow := u.cbEnable, rxCursor := cursorAfterMarker u.params.checksumPos } := by
    simp [State.begun, ha]
  have htake := takeFirst_of_start (s := ((u.rxAt .first).withGhost (Turn.byte b) c tr).exchanged
    u.params.fill b) hc b
  refine runTurns_rxByte (u := (u.rxAt .first).withGhost t c tr) ht ha ?_ ts
    ((hmove.trans htake).trans ?_) ?_
  · simp [State.withGhost, State.rxAt, State.rxRequest]
  · by_cases hb : b = 0x24
    · rw [if_pos hb, if_pos hb, hbegun]
      rfl
    · rw [if_neg hb, if_neg hb]
      rfl
  · rfl

/-- A requesting Slave's marker at an armed idle Master: the operation has begun (R177). -/
theorem runTurns_callMarker (ha : s.armed = true) (hr : s.role = .master) (hx : s.auxPrev = false)
    (hc : s.rxCursor = .start) (ts : List Turn) :
    State.runTurns ({ Turn.idle with aux := some true } :: Turn.run :: Turn.byte 0x24 :: ts) s =
      State.runTurns ts (s.calling.begun.between (Turn.byte 0x24) (s.freeCtr + 1)
        (.exchange s.params.fill 0x24 :: .cs true :: s.trace)) := by
  obtain ⟨-, -, ht, -⟩ := (armed_iff s).1 ha
  have hrole : s.calling.begun.role = .master := hr
  rw [runTurns_calling ha hr hx, runTurns_first (u := s.calling) ht rfl hc, if_pos rfl,
    State.between, hrole]
  rfl

/-- Any other first byte ends it (R177, R181). -/
theorem runTurns_callIgnored (ha : s.armed = true) (hr : s.role = .master) (hx : s.auxPrev = false)
    (hc : s.rxCursor = .start) {b : Byte} (hb : b ≠ 0x24) (ts : List Turn) :
    State.runTurns ({ Turn.idle with aux := some true } :: Turn.run :: Turn.byte b :: ts) s =
      State.runTurns ts ((s.calling.rxAt (.release .ignored)).withGhost (Turn.byte b) (s.freeCtr + 1)
        (.exchange s.params.fill b :: .cs true :: s.trace)) := by
  obtain ⟨-, -, ht, -⟩ := (armed_iff s).1 ha
  rw [runTurns_calling ha hr hx, runTurns_first (u := s.calling) ht rfl hc, if_neg hb]
  rfl

/-! ## The ways out of a receive -/

/-- `CsWrite(0)` on a Master's way out (R177). -/
theorem runTurns_toFinish (ht : u.txState = .idle) (ha : u.rxActive = true) {how : RxEnd}
    (hp : u.rxPoint = .release how) (ts : List Turn) :
    State.runTurns (Turn.run :: ts) u = State.runTurns ts { u with
      rxPoint := .finish how, csOut := false, now := Turn.run, trace := .cs false :: u.trace } :=
  runTurns_rxRun ht ha ts (rxMove_release { u with now := Turn.run } how hp) rfl

/-- Chip-select released (R42). -/
def State.deselected (s : State) : State := { s with csOut := false }

/-- A Master's receive that publishes nothing: chip-select released, the dispatcher armed again, the
outcome raised (R177, R182, R222). -/
theorem runTurns_giveUp (ht : u.txState = .idle) (ha : u.rxActive = true) {how : RxEnd} {l : Label}
    (hend : ∀ s : State, s.endOperation how = .next (s.leaveDispatcher.raise l)) (t : Turn) (c : Nat)
    (tr : List Event) :
    State.runTurns [Turn.run, Turn.run] ((u.rxAt (.release how)).withGhost t c tr) =
      .next (u.deselected.leaveDispatcher.withGhost Turn.run c (.outcome l :: .cs false :: tr)) := by
  rw [runTurns_toFinish (u := (u.rxAt (.release how)).withGhost t c tr) ht ha rfl]
  exact runTurns_rxRun (u := (u.deselected.rxAt (.finish how)).withGhost Turn.run c (.cs false :: tr))
    ht ha [] ((rxMove_finish _ how rfl).trans (hend _)) rfl

/-- A Master's acknowledgement exchange, and chip-select released after it (R178, R179). -/
theorem runTurns_acknowledge (ht : u.txState = .idle) (ha : u.rxActive = true)
    (haux : u.auxIn = true) {ok : Bool} (hp : u.rxPoint = .ackSample ok) (q : Byte) (ts : List Turn) :
    State.runTurns (Turn.run :: Turn.byte q :: Turn.run :: ts) u = State.runTurns ts { u with
      rxPoint := .finish (.complete ok), csOut := false, now := Turn.run, freeCtr := u.freeCtr + 1
      trace := .cs false :: .exchange (u.ackAnswer ok) q :: .auxRead true :: u.trace } := by
  have hcheck := rxMove_ackSample { u with now := Turn.run } ok hp
  rw [checkAux_of_high { u with now := Turn.run } _ haux] at hcheck
  rw [runTurns_rxRun ht ha _ hcheck rfl]
  have hpull := rxMove_ackPull { u with
    now := Turn.byte q, rxPoint := .ackPull ok, trace := .auxRead true :: u.trace } ok rfl
  rw [busIn_byte _ q rfl] at hpull
  rw [runTurns_rxByte (u := { u with
    now := Turn.run, rxPoint := .ackPull ok, trace := .auxRead true :: u.trace }) ht ha
    (by simp [State.rxRequest]) _ hpull rfl]
  exact runTurns_toFinish (u := (State.exchanged { u with
    now := Turn.byte q, rxPoint := .ackPull ok, trace := .auxRead true :: u.trace }
      (u.ackAnswer ok) q).toRelease (.complete ok)) ht ha rfl ts

/-! ## The publication (R131, R180) -/

/-- What `Complete(ok)` leaves (R180). -/
def State.afterComplete (s : State) (ok : Bool) : State :=
  { s with
    inboxSize := s.rxLen, inbox := s.stage.below s.rxLen.toNat, success := ok, newMessage := true
    rxCursor := .start, rxActive := false, rxPoint := .idle
    trace := (endEvents ok s.cbShadow).reverse ++ s.trace }

theorem complete_eq_afterComplete (ok : Bool) (h : s.rxLen.toNat ≤ s.params.maxLen) :
    s.complete ok = .next (s.afterComplete ok) := by
  rw [complete_eq s ok h, State.afterComplete]
  cases ok <;> cases s.cbShadow <;> rfl

/-- The last step of a receive that publishes, under any signals of the aux line (R180). -/
theorem blockMove_complete (hm : u.now.move = .run) (ht : u.txState = .idle) (ha : u.rxActive = true)
    {ok : Bool} (hp : u.rxPoint = .finish (.complete ok)) (hl : u.rxLen.toNat ≤ u.params.maxLen) :
    u.blockMove = .next (u.afterComplete ok) := by
  rw [blockMove_run_busy hm (by simp [busy_eq, ha]), activeMove_of_idle u ht, rxMove_finish u _ hp]
  exact complete_eq_afterComplete ok hl

/-- The endpoint with the frame of `p` published, received with `c` in the place of its checksum. -/
def State.withFrame (s : State) (p : List Byte) (c : Byte) : State :=
  { s.begun.holdingFrame p c with
    inboxSize := payloadLen p, inbox := (s.stage.store p).below p.length
    success := c == sum8 p, newMessage := true, rxActive := false, rxPoint := .idle }

/-- The host reads the payload (R75). -/
theorem withFrame_inboxBytes (hm : s.stage.wf = true) {p : List Byte} (hfit : p.length ≤ 65535)
    (c : Byte) : (s.withFrame p c).inboxBytes = p := by
  have hlen : (s.withFrame p c).rxLen.toNat = p.length := payloadLen_toNat p hfit
  have hinbox : (s.withFrame p c).inbox =
      (s.withFrame p c).stage.below (s.withFrame p c).rxLen.toNat := by
    rw [hlen]
    rfl
  rw [inboxBytes_of_staged hinbox rfl, hlen]
  exact Memory.bytes_store hm p

theorem auxPhase_of_none (h : s.now.aux = none) : s.auxPhase = s := by
  rw [State.auxPhase, h]

/-- The decoder holds a frame, and the dispatcher is at `at_`. -/
def State.atEnd (s : State) (p : List Byte) (c : Byte) (cur : Cursor) (at_ : RxPoint) : State :=
  { s.begun.holdingFrame p c with rxCursor := cur, rxPoint := at_ }

/-- The step of the publication, the aux line's part last (R180, R230). -/
theorem runTurns_publish (ht : s.txState = .idle) {p : List Byte} (hl : p.length ≤ s.params.maxLen)
    (hfit : p.length ≤ 65535) (c : Byte) {ok : Bool} (hok : ok = (c == sum8 p)) (cur : Cursor)
    {tn : Turn} (hm : tn.move = .run) (t : Turn) (k : Nat) (tr : List Event) (ts : List Turn) :
    State.runTurns (tn :: ts) ((s.atEnd p c cur (.finish (.complete ok))).withGhost t k tr) =
      State.runTurns ts ((s.withFrame p c).withGhost tn k
        ((endEvents ok s.cbEnable).reverse ++ tr)).auxPhase := by
  have hlen : ((s.atEnd p c cur (.finish (.complete ok))).withGhost tn k tr).rxLen.toNat =
      p.length := payloadLen_toNat p hfit
  have hmove := blockMove_complete (u := (s.atEnd p c cur (.finish (.complete ok))).withGhost tn k tr)
    hm ht rfl rfl (hlen.trans_le hl)
  rw [State.afterComplete, hlen, hok] at hmove
  rw [runTurns_cons, hok]
  exact congrArg (andThen · _) hmove

/-- After the last byte of a frame `Complete` is next at a Slave (R173), the acknowledgement exchange at
a Master (R177). -/
theorem frameEnded_atEnd_slave (hr : s.role = .slave) (p : List Byte) (c : Byte) (ok : Bool)
    (at_ : RxPoint) (t : Turn) (k : Nat) (tr : List Event) :
    (((s.begun.holdingFrame p c).rxAt at_).withGhost t k tr).frameEnded ok =
      (s.atEnd p c .start (.finish (.complete ok))).withGhost t k tr :=
  frameEnded_slave (((s.begun.holdingFrame p c).rxAt at_).withGhost t k tr) ok hr

theorem frameEnded_atEnd_master (hr : s.role = .master) (p : List Byte) (c : Byte) (ok : Bool)
    (at_ : RxPoint) (t : Turn) (k : Nat) (tr : List Event) :
    (((s.begun.holdingFrame p c).rxAt at_).withGhost t k tr).frameEnded ok =
      (s.atEnd p c .ack (.ackSample ok)).withGhost t k tr :=
  frameEnded_master (((s.begun.holdingFrame p c).rxAt at_).withGhost t k tr) ok hr

/-- The acknowledgement exchange of a Master that holds a frame (R179). -/
theorem runTurns_acknowledge_atEnd (ht : s.txState = .idle) (haux : s.auxIn = true) (p : List Byte)
    (c : Byte) (ok : Bool) (q : Byte) (t : Turn) (k : Nat) (tr : List Event) (ts : List Turn) :
    State.runTurns (Turn.run :: Turn.byte q :: Turn.run :: ts)
        ((s.atEnd p c .ack (.ackSample ok)).withGhost t k tr) =
      State.runTurns ts ((s.deselected.atEnd p c .ack (.finish (.complete ok))).withGhost Turn.run (k + 1)
          (.cs false :: .exchange (s.ackAnswer ok) q :: .auxRead true :: tr)) :=
  runTurns_acknowledge (u := (s.atEnd p c .ack (.ackSample ok)).withGhost t k tr) ht rfl haux rfl q ts

theorem frameWith_length (pos : ChecksumPos) (p : List Byte) (c : Byte) :
    (frameWith pos p c).length = p.length + 4 := by
  cases pos <;> simp [frameWith]

/-! ## Frames at a Slave -/

/-- A frame clocked at an armed idle Slave, its checksum good or not (R173, R180, R183). -/
theorem runTurns_frameAtSlave (hs : s.rxsReady = true) (hc : s.rxCursor = .start) {p : List Byte}
    (hl : p.length ≤ s.params.maxLen) (hfit : p.length ≤ 65535) (c : Byte) :
    State.runTurns (receiveTurns .slave (frameWith s.params.checksumPos p c)) s =
      .next ((s.withFrame p c).withGhost Turn.run (s.freeCtr + (p.length + 3))
        ((Event.rxByte 0x24 ::
          exchangeEvents (List.replicate (p.length + 3) s.params.fill)
            (frameWith s.params.checksumPos p c).tail ++
          endEvents (c == sum8 p) s.cbEnable).reverse ++ s.trace)) := by
  obtain ⟨-, -, ht, -, hr⟩ := rxsReady_iff.1 hs
  have hrole : s.begun.role = .slave := hr
  obtain ⟨front, b, hwire, hreads⟩ := readsTo_frame (u := s.begun) rfl hl hfit c
  change frameWith s.params.checksumPos p c = _ at hwire
  have hlen : (front ++ [b]).length = p.length + 3 :=
    Nat.succ.inj ((congrArg List.length hwire).symm.trans (frameWith_length _ p c))
  have hrun := runTurns_readsTo hreads ⟨ht, rfl, fun h => by simp [hrole] at h⟩ (Turn.byte 0x24)
    s.freeCtr (.rxByte 0x24 :: s.trace) [Turn.run]
  rw [hrole, hlen, State.afterByte, frameEnded_atEnd_slave hr] at hrun
  rw [hwire]
  refine (runTurns_marker hs hc _).trans (hrun.trans
    ((runTurns_publish ht hl hfit c rfl .start (tn := Turn.run) rfl _ _ _ []).trans ?_))
  rw [auxPhase_of_none rfl, byteEvents, hlen, List.tail_cons, List.cons_append, List.reverse_cons,
    List.reverse_append, List.append_assoc, List.append_assoc]
  rfl

/-! ## Frames at a Master -/

/-- A Master whose receive is over and whose Slave has released the line. -/
def State.served (s : State) : State :=
  { s with auxIn := false, auxPrev := false, auxPending := false, csOut := false }

/-- Neither the frame nor the dispatcher's part of it is known to the aux line. -/
theorem withFrame_auxPhase (hs : s.started = true) (hr : s.role = .master) (p : List Byte) (c : Byte)
    (k : Nat) (tr : List Event) :
    ((s.calling.deselected.withFrame p c).withGhost { Turn.run with aux := some false } k tr).auxPhase =
      (s.served.withFrame p c).withGhost { Turn.run with aux := some false } k tr := by
  simp [State.auxPhase, State.auxChange, State.withGhost, State.withFrame, State.holdingFrame,
    State.holding, State.begun, State.deselected, State.calling, State.served, hs, hr]

/-- The transaction of a requesting Slave at an armed idle Master, its checksum good or not (R177 to
R180, R183). -/
theorem runTurns_frameAtMaster (ha : s.armed = true) (hr : s.role = .master) (hx : s.auxPrev = false)
    (hc : s.rxCursor = .start) {p : List Byte} (hl : p.length ≤ s.params.maxLen)
    (hfit : p.length ≤ 65535) (c q : Byte) :
    State.runTurns (requestTurns (frameWith s.params.checksumPos p c ++ [q])) s =
      .next ((s.served.withFrame p c).withGhost { Turn.run with aux := some false }
        (s.freeCtr + (p.length + 5))
        ((Event.cs true :: Event.exchange s.params.fill 0x24 ::
          pullEvents s.params.fill (frameWith s.params.checksumPos p c).tail ++
          [Event.auxRead true, .exchange (s.ackAnswer (c == sum8 p)) q, .cs false] ++
          endEvents (c == sum8 p) s.cbEnable).reverse ++ s.trace)) := by
  obtain ⟨hs, -, ht, -⟩ := (armed_iff s).1 ha
  have hrole : s.calling.begun.role = .master := hr
  obtain ⟨front, b, hwire, hreads⟩ := readsTo_frame (u := s.calling.begun) rfl hl hfit c
  change frameWith s.params.checksumPos p c = _ at hwire
  have hlen : (front ++ [b]).length = p.length + 3 :=
    Nat.succ.inj ((congrArg List.length hwire).symm.trans (frameWith_length _ p c))
  have hturns : requestTurns (0x24 :: (front ++ [b]) ++ [q]) =
      { Turn.idle with aux := some true } :: Turn.run :: Turn.byte 0x24 ::
        (byteTurns .master (front ++ [b]) ++ Turn.run :: Turn.byte q :: Turn.run ::
          [{ Turn.run with aux := some false }]) := by
    simp [requestTurns, receiveTurns, byteTurns, sampledTurns]
  have hrun := runTurns_readsTo hreads ⟨ht, rfl, fun _ => rfl⟩ (Turn.byte 0x24) (s.freeCtr + 1)
    (.exchange s.params.fill 0x24 :: .cs true :: s.trace)
    (Turn.run :: Turn.byte q :: Turn.run :: [{ Turn.run with aux := some false }])
  rw [hrole, hlen, State.afterByte, frameEnded_atEnd_master (s := s.calling) hr] at hrun
  rw [hwire, hturns, runTurns_callMarker ha hr hx hc]
  have hctr : s.freeCtr + 1 + (p.length + 3) + 1 = s.freeCtr + (p.length + 5) := by omega
  rw [hrun, runTurns_acknowledge_atEnd (s := s.calling) ht rfl,
    runTurns_publish (s := s.calling.deselected) ht hl hfit c rfl .ack rfl, runTurns_nil,
    withFrame_auxPhase hs hr, hctr, byteEvents]
  simp only [List.tail_cons, List.reverse_append, List.reverse_cons,
    List.append_assoc, List.cons_append, List.nil_append]
  rfl

/-! ## Over-long frames (R101, R182, R222) -/

theorem lenOf_toNat (hi lo : Byte) : (lenOf hi lo).toNat = hi.toNat * 256 + lo.toNat := by
  rw [lenOf, BitVec.toNat_append, ← Nat.shiftLeft_add_eq_or_of_lt lo.isLt, Nat.shiftLeft_eq]

theorem headerWith_eq (pos : ChecksumPos) (c hi lo : Byte) :
    headerWith pos c hi lo = 0x24 :: (headerFront pos c hi ++ [lo]) := by
  cases pos <;> rfl

/-- A frame given up ends a Slave's operation, and leads a Master to release chip-select (R173, R177,
R182). -/
theorem rejectLen_gaveUp_slave (hr : u.role = .slave) (c hi lo : Byte) (at_ : RxPoint) (t : Turn)
    (k : Nat) (tr : List Event) :
    (((u.gaveUp c hi lo).rxAt at_).withGhost t k tr).rejectLen =
      (u.gaveUp c hi lo).leaveDispatcher.withGhost t k (.outcome .lenRejected :: tr) :=
  rejectLen_slave (s := ((u.gaveUp c hi lo).rxAt at_).withGhost t k tr) hr

theorem rejectLen_gaveUp_master (hr : u.role = .master) (c hi lo : Byte) (at_ : RxPoint) (t : Turn)
    (k : Nat) (tr : List Event) :
    (((u.gaveUp c hi lo).rxAt at_).withGhost t k tr).rejectLen =
      ((u.gaveUp c hi lo).rxAt (.release .lenRejected)).withGhost t k tr :=
  rejectLen_master (s := ((u.gaveUp c hi lo).rxAt at_).withGhost t k tr) hr

/-- An over-long frame at an armed idle Slave (R173, R181). -/
theorem runTurns_longAtSlave (hs : s.rxsReady = true) (hc : s.rxCursor = .start) {hi lo : Byte}
    (hl : s.params.maxLen < (lenOf hi lo).toNat) (c : Byte) :
    State.runTurns ((headerWith s.params.checksumPos c hi lo).map Turn.byte) s =
      .next ((s.begun.gaveUp c hi lo).leaveDispatcher.withGhost (Turn.byte lo)
        (s.freeCtr + ((headerWith s.params.checksumPos c hi lo).length - 1))
        ((Event.rxByte 0x24 ::
          exchangeEvents (List.replicate ((headerWith s.params.checksumPos c hi lo).length - 1)
            s.params.fill) (headerWith s.params.checksumPos c hi lo).tail ++
          [Event.outcome .lenRejected]).reverse ++ s.trace)) := by
  obtain ⟨-, -, ht, -, hr⟩ := rxsReady_iff.1 hs
  have hrole : s.begun.role = .slave := hr
  have hparams : s.begun.params = s.params := rfl
  have hrun := runTurns_readsTo (readsTo_long (u := s.begun) rfl hl c)
    ⟨ht, rfl, fun h => by simp [hrole] at h⟩ (Turn.byte 0x24) s.freeCtr (.rxByte 0x24 :: s.trace) []
  rw [hrole, List.append_nil, State.afterByte, rejectLen_gaveUp_slave hrole, runTurns_nil,
    hparams] at hrun
  rw [headerWith_eq]
  refine (runTurns_marker hs hc _).trans (hrun.trans ?_)
  simp [byteEvents]

/-- An over-long frame at an armed idle Master: no acknowledgement exchange, chip-select released (R177,
R182). -/
theorem runTurns_longAtMaster (ha : s.armed = true) (hr : s.role = .master) (hx : s.auxPrev = false)
    (hc : s.rxCursor = .start) {hi lo : Byte} (hl : s.params.maxLen < (lenOf hi lo).toNat) (c : Byte) :
    State.runTurns ({ Turn.idle with aux := some true } :: Turn.run ::
        receiveTurns .master (headerWith s.params.checksumPos c hi lo) ++ [Turn.run, Turn.run]) s =
      .next ((s.calling.begun.gaveUp c hi lo).deselected.leaveDispatcher.withGhost Turn.run
        (s.freeCtr + (headerWith s.params.checksumPos c hi lo).length)
        ((Event.cs true :: .exchange s.params.fill 0x24 ::
          pullEvents s.params.fill (headerWith s.params.checksumPos c hi lo).tail ++
          [Event.cs false, .outcome .lenRejected]).reverse ++ s.trace)) := by
  obtain ⟨-, -, ht, -⟩ := (armed_iff s).1 ha
  have hrole : s.calling.begun.role = .master := hr
  have hparams : s.calling.begun.params = s.params := rfl
  have hrun := runTurns_readsTo (readsTo_long (u := s.calling.begun) rfl hl c)
    ⟨ht, rfl, fun _ => rfl⟩ (Turn.byte 0x24) (s.freeCtr + 1)
    (.exchange s.params.fill 0x24 :: .cs true :: s.trace) [Turn.run, Turn.run]
  rw [hrole, State.afterByte, rejectLen_gaveUp_master hrole,
    runTurns_giveUp (u := s.calling.begun.gaveUp c hi lo) ht rfl (fun _ => rfl), hparams] at hrun
  rw [headerWith_eq]
  refine (runTurns_callMarker ha hr hx hc _).trans (hrun.trans ?_)
  simp [byteEvents, Nat.add_assoc, Nat.add_comm 1]

/-- A wrong first byte at an armed idle Master (R177, R181, R231). -/
theorem runTurns_ignoredAtMaster (ha : s.armed = true) (hr : s.role = .master)
    (hx : s.auxPrev = false) (hc : s.rxCursor = .start) {b : Byte} (hb : b ≠ 0x24) :
    State.runTurns ({ Turn.idle with aux := some true } :: Turn.run ::
        receiveTurns .master [b] ++ [Turn.run, Turn.run]) s =
      .next (s.calling.deselected.leaveDispatcher.withGhost Turn.run (s.freeCtr + 1)
        (.outcome .ignored :: .cs false :: .exchange s.params.fill b :: .cs true :: s.trace)) := by
  obtain ⟨-, -, ht, -⟩ := (armed_iff s).1 ha
  exact (runTurns_callIgnored ha hr hx hc hb _).trans
    (runTurns_giveUp (u := s.calling) ht rfl (fun _ => rfl) _ _ _)

/-! ## The rows whose frame the endpoint can read (R90, R96, R97, R99) -/

/-- The state after a delivery, as the statements about good frames write it: the decoder and the
dispatcher are where they were. -/
theorem withFrame_of_good (hc : s.rxCursor = .start) (p : List Byte) (t : Turn) (k : Nat)
    (tr : List Event) :
    (s.withFrame p (sum8 p)).withGhost t k tr = { s with
      cbShadow := s.cbEnable, rxLen := BitVec.ofNat 16 p.length
      byteCnt := BitVec.ofNat 16 p.length, cksAcc := sum8 p, rxCksField := sum8 p
      stage := s.stage.store p, inbox := (s.stage.store p).below p.length
      inboxSize := BitVec.ofNat 16 p.length
      newMessage := true, success := true, rxActive := false, rxPoint := .idle
      now := t, freeCtr := k, trace := tr } := by
  simp [State.withFrame, State.withGhost, State.holdingFrame, State.holding, State.begun,
    payloadLen, hc]

/-- A frame is the frame with its own checksum (R90, R99). -/
theorem frameBytes_eq_frameWith (pos : ChecksumPos) (p : List Byte) :
    frameBytes pos p = frameWith pos p (sum8 p) := by
  cases pos <;> simp [frameBytes, frameWith, Config.startMarker]

/-- A frame in the endpoint's own order, clocked at a Slave. -/
theorem exec_frameTrailing_slave {p : List Byte} (hp : payloadFits p = true) (hr : s.role = .slave)
    (hpos : s.params.checksumPos = .trailing) :
    exec (.frameTrailing p) s =
      State.runTurns (receiveTurns .slave (frameBytes s.params.checksumPos p)) s := by
  simp [exec, execFrameTrailing, hp, hr, hpos]

theorem exec_frameLeading_slave {p : List Byte} (hp : payloadFits p = true) (hr : s.role = .slave)
    (hpos : s.params.checksumPos = .leading) :
    exec (.frameLeading p) s =
      State.runTurns (receiveTurns .slave (frameBytes s.params.checksumPos p)) s := by
  simp [exec, execFrameLeading, hp, hr, hpos]

end Sys2Proof.Machine

section

open Sys2Proof Sys2Proof.Machine

/-- Settles O43: the frame is received with its own checksum, and each row is the bytes of that frame
arriving. -/
theorem frameDeliveredAtSlave : Obligations.FrameDeliveredAtSlave := by
  intro s p hs hc hm hl hmax
  have hfit : p.length ≤ 65535 := by omega
  have hfits : payloadFits p = true := (payloadFits_iff p).2 hfit
  obtain ⟨-, -, -, -, hr⟩ := rxsReady_iff.1 hs
  have hrun := runTurns_frameAtSlave hs hc hl hfit (sum8 p)
  rw [← frameBytes_eq_frameWith, beq_self_eq_true] at hrun
  refine ⟨s.stage.store p, Memory.bytes_store hm p, fun i => Memory.read_store_of_le _ p,
    _, ?_, ?_, fun hp => (exec_frameTrailing_slave hfits hr hp).trans hrun,
    fun hp => (exec_frameLeading_slave hfits hr hp).trans hrun,
    (exec_xactMs_slave hfits hr).trans hrun⟩
  · exact withFrame_inboxBytes hm hfit (sum8 p)
  · exact withFrame_of_good hc p _ _ _

/-- Settles O46: the transaction is received with its own checksum, which is answered by
`ACK_SENTINEL`. -/
theorem transactionAtMaster : Obligations.TransactionAtMaster := by
  intro s p hs hr he ht ha hc hx hm hl hmax
  have hfit : p.length ≤ 65535 := by omega
  have hfits : payloadFits p = true := (payloadFits_iff p).2 hfit
  have hrun := runTurns_frameAtMaster ((armed_iff s).2 ⟨hs, he, ht, ha⟩) hr hx hc hl hfit (sum8 p)
    s.params.ackRequest
  rw [← frameBytes_eq_frameWith, beq_self_eq_true] at hrun
  exact ⟨s.stage.store p, Memory.bytes_store hm p, fun i => Memory.read_store_of_le _ p, _,
    (exec_xactSm_master hfits hr).trans hrun, withFrame_inboxBytes (s := s.served) hm hfit (sum8 p),
    withFrame_of_good (s := s.served) hc p _ _ _⟩

/-- Settles O45: the frame is given up with its low length byte, or with its first byte. -/
theorem longFrameAtSlave : Obligations.LongFrameAtSlave := by
  intro s b c hi lo hc wire kept rising
  have hkept : kept = fieldKept s.params.checksumPos s.rxCksField c := by
    cases hp : s.params.checksumPos <;> simp [kept, fieldKept, hp]
  refine ⟨fun hs hl => ?_, fun ha hr hx => ⟨fun hl => ?_, fun hb => ?_⟩⟩
  · rw [← lenOf_toNat] at hl
    obtain ⟨-, -, -, ha, -⟩ := rxsReady_iff.1 hs
    rw [runTurns_longAtSlave hs hc hl c, hkept]
    simp [State.gaveUp, State.announced, State.begun, State.leaveDispatcher,
      State.withGhost, hc, ha, wire, lenOf]
  · rw [← lenOf_toNat] at hl
    obtain ⟨-, -, -, ha'⟩ := (armed_iff s).1 ha
    rw [runTurns_longAtMaster ha hr hx hc hl c, hkept]
    simp [State.gaveUp, State.announced, State.begun, State.calling,
      State.deselected, State.leaveDispatcher, State.withGhost, hc, ha', wire, lenOf]
  · obtain ⟨-, -, -, ha'⟩ := (armed_iff s).1 ha
    rw [runTurns_ignoredAtMaster ha hr hx hc hb]
    simp [State.calling, State.deselected, State.leaveDispatcher, State.withGhost, ha']

end
end

section
/-! The checksum generator, the counter and the frame encoder (R120 to R125), as their rows answer. -/

namespace Sys2Proof

/-- The two length bytes as numbers (R71, R92). -/
theorem lenHi_payloadLen (p : List Byte) :
    lenHi (payloadLen p) = BitVec.ofNat 8 (p.length / 256) := by
  apply BitVec.eq_of_toNat_eq
  simp [lenHi, payloadLen, Nat.shiftRight_eq_div_pow]
  omega

theorem lenLo_payloadLen (p : List Byte) :
    lenLo (payloadLen p) = BitVec.ofNat 8 (p.length % 256) := by
  apply BitVec.eq_of_toNat_eq
  simp [lenLo, payloadLen]

end Sys2Proof

namespace Sys2Proof.Machine

variable {s : State}

/-! ## `CKS_BLOCK` (R122) -/

/-- The checksum generator with `j` Outbox bytes added. -/
def State.addedTo (s : State) (j : Nat) : State :=
  { s with byteCnt := BitVec.ofNat 16 j, cksAcc := sum8 (s.outbox.bytes j) }

theorem cksStep_addedTo {len : Half} {j : Nat} (hj : j < len.toNat) :
    (s.addedTo j).cksStep = s.addedTo (j + 1) := by
  obtain ⟨hcnt, hlt⟩ := ofNat_lt_of_lt hj
  rw [cksStep_of_lt (s.addedTo j) len hlt]
  simp only [State.addedTo, State.outboxByte, Memory.bytes_succ, sum8_append_singleton, hcnt,
    BitVec.ofNat_add]
  rfl

/-- The loop adds the bytes that are left. -/
theorem cksLoop_addedTo (len : Half) (n : Nat) {j : Nat} (h : j + n = len.toNat) :
    State.cksLoop len n (s.addedTo j) = s.addedTo len.toNat := by
  induction n generalizing j with
  | zero => rw [← h]; rfl
  | succ n ih =>
    have hj : j < len.toNat := by omega
    have hne : (s.addedTo j).byteCnt ≠ len := BitVec.ne_of_lt (ofNat_lt_of_lt hj).2
    rw [cksLoop_of_ne len n _ hne, cksStep_addedTo hj, ih (by omega)]

/-! ## `ENC_BYTE` over a payload (R125) -/

/-- The payload bytes that the encoder selects are those of the Outbox, in order. -/
theorem map_encByte_payload (s : State) (n : Half) :
    ((List.range n.toNat).map fun i =>
      State.encByte { s with byteCnt := BitVec.ofNat 16 i } .payload) = s.outbox.bytes n.toNat :=
  List.map_congr_left fun _ hi =>
    congrArg s.outbox.read (ofNat_lt_of_lt (List.mem_range.1 hi)).1

/-- The length field of the Outbox's first `n` bytes. -/
theorem payloadLen_bytes (m : Memory) (n : Half) : payloadLen (m.bytes n.toNat) = n := by
  simp [payloadLen, Memory.bytes_length]

end Sys2Proof.Machine

section

open Sys2Proof Sys2Proof.Machine

/-- Settles O18: the carry of an 8-bit sum is discarded. -/
theorem checksumOperations : Obligations.ChecksumOperations := by
  intro s b
  have hsum : BitVec.ofNat 8 ((s.cksAcc.toNat + b.toNat) % 256) = s.cksAcc + b :=
    BitVec.eq_of_toNat_eq (by simp)
  rw [hsum]
  exact ⟨rfl, rfl⟩

/-- Settles O21: below its largest value the counter counts, and there it takes the free value. -/
theorem counterOperations : Obligations.CounterOperations := by
  intro s
  refine ⟨rfl, fun hne => ?_, fun he => ⟨Config.freeCount s.freeCtr, congrArg _ (if_pos he)⟩⟩
  have hcnt : BitVec.ofNat 16 (s.byteCnt.toNat + 1) = s.byteCnt + 1 :=
    BitVec.eq_of_toNat_eq (by simp)
  rw [hcnt]
  exact congrArg _ (cntInc_of_ne s hne)

/-- Settles O20: the loop starts with no byte added and ends with all of them. -/
theorem checksumOfBlock : Obligations.ChecksumOfBlock := by
  intro s len
  have hloop := cksLoop_addedTo (s := s) len len.toNat (Nat.zero_add _)
  rw [State.addedTo, State.addedTo, BitVec.ofNat_toNat, BitVec.setWidth_eq] at hloop
  exact congrArg _ hloop

/-- Settles O22: the frame's bytes, its length and checksum as numbers. -/
theorem encodeAnswers : Obligations.EncodeAnswers := by
  intro s p hp c hi lo
  have hc : sum8 p = c := BitVec.eq_of_toNat_eq (by simp [c, sum8_toNat])
  have hhi : lenHi (payloadLen p) = hi := lenHi_payloadLen p
  have hlo : lenLo (payloadLen p) = lo := lenLo_payloadLen p
  rw [exec, execEncode, if_pos ((payloadFits_iff p).2 hp)]
  cases hpos : s.params.checksumPos with
  | trailing => simp [State.log, frameBytes, hc, hhi, hlo, Config.startMarker]
  | leading => simp [State.log, frameBytes, hc, hhi, hlo, Config.startMarker]

/-- Settles O23: selection by selection; the length field of the Outbox's payload is `tx_len`. -/
theorem encoderSelects : Obligations.EncoderSelects := by
  refine ⟨fun s sel => ⟨_, rfl, by cases sel <;> rfl⟩, fun s hk => ?_⟩
  intro body
  have hbody : body = s.outbox.bytes s.txLen.toNat := map_encByte_payload s s.txLen
  rw [hbody]
  simp [frameBytes, payloadLen_bytes, State.encByte, hk]

/-- Settles O29: the row is this one update of the cursor. -/
theorem discardOnlyMovesCursor : Obligations.DiscardOnlyMovesCursor := fun _ => rfl

end
end

section
/-! Frames with a wrong checksum, and the abort checks of a Master's receive (R178, R183 to R185). -/

namespace Sys2Proof.Machine

variable {s : State}

/-- The state after a frame whose checksum byte is wrong, as the statements write it: published all the
same, `success` 0 (R183). -/
theorem withFrame_of_bad (hc : s.rxCursor = .start) {p : List Byte} {c : Byte} (hbad : c ≠ sum8 p)
    (t : Turn) (k : Nat) (tr : List Event) :
    (s.withFrame p c).withGhost t k tr = { s with
      cbShadow := s.cbEnable, rxLen := BitVec.ofNat 16 p.length
      byteCnt := BitVec.ofNat 16 p.length, cksAcc := sum8 p, rxCksField := c
      stage := s.stage.store p, inbox := (s.stage.store p).below p.length
      inboxSize := BitVec.ofNat 16 p.length
      newMessage := true, success := false, rxActive := false, rxPoint := .idle
      now := t, freeCtr := k, trace := tr } := by
  simp [State.withFrame, State.withGhost, State.holdingFrame, State.holding, State.begun,
    payloadLen, hc, hbad]

/-- A check point that finds the line asserted goes on to its exchange (R178). -/
theorem runTurns_check_high (ht : s.txState = .idle) (ha : s.rxActive = true) {p : RxPoint}
    (hmove : ∀ u : State, u.rxPoint = s.rxPoint → u.rxMove = .next (u.checkAux p))
    (haux : s.auxIn = true) (ts : List Turn) :
    State.runTurns (Turn.run :: ts) s = State.runTurns ts
      { s with rxPoint := p, now := Turn.run, trace := .auxRead true :: s.trace } :=
  runTurns_rxRun ht ha ts
    ((hmove { s with now := Turn.run } rfl).trans (congrArg _ (checkAux_of_high _ p haux))) rfl

/-- One that finds it released takes the abort path (R178). -/
theorem runTurns_check_low (ht : s.txState = .idle) (ha : s.rxActive = true) {p : RxPoint}
    (hmove : ∀ u : State, u.rxPoint = s.rxPoint → u.rxMove = .next (u.checkAux p))
    (haux : s.auxIn = false) (ts : List Turn) :
    State.runTurns (Turn.run :: ts) s = State.runTurns ts { s with
      rxPoint := .release .aborted, now := Turn.run, trace := .auxRead false :: s.trace } :=
  runTurns_rxRun ht ha ts
    ((hmove { s with now := Turn.run } rfl).trans (congrArg _ (checkAux_of_low _ p haux))) rfl

/-- The abort path: chip-select released, the attempt discarded, the outcome raised (R132, R185). -/
theorem runTurns_abort (ht : s.txState = .idle) (ha : s.rxActive = true)
    (hp : s.rxPoint = .release .aborted) :
    State.runTurns [Turn.run, Turn.run] s = .next { s with
      rxCursor := .start, rxActive := false, rxPoint := .idle, csOut := false, now := Turn.run
      trace := .outcome .aborted :: .cs false :: s.trace } :=
  (runTurns_toFinish ht ha hp [Turn.run]).trans
    (runTurns_rxRun (u := { s with
      rxPoint := .finish .aborted, csOut := false, now := Turn.run, trace := .cs false :: s.trace })
      ht ha [] (rxMove_finish _ .aborted rfl) rfl)

/-- A check point, whichever exchange `p` it stands before (R178, R185, R223). -/
theorem runTurns_checkPoint (ht : s.txState = .idle) (ha : s.rxActive = true) {p : RxPoint}
    (hmove : ∀ u : State, u.rxPoint = s.rxPoint → u.rxMove = .next (u.checkAux p)) :
    (s.auxIn = true → State.runTurns [Turn.run] s = .next { s with
      rxPoint := p, now := Turn.run, trace := .auxRead true :: s.trace }) ∧
    (s.auxIn = false → State.runTurns [Turn.run, Turn.run, Turn.run] s = .next { s with
      rxCursor := .start, rxActive := false, rxPoint := .idle, csOut := false, now := Turn.run
      trace := .outcome .aborted :: .cs false :: .auxRead false :: s.trace }) :=
  ⟨fun haux => runTurns_check_high ht ha hmove haux [],
    fun haux => (runTurns_check_low ht ha hmove haux _).trans
      (runTurns_abort (s := { s with
        rxPoint := .release .aborted, now := Turn.run, trace := .auxRead false :: s.trace }) ht ha rfl)⟩

end Sys2Proof.Machine

section

open Sys2Proof Sys2Proof.Machine

/-- Settles O44: the frame is received with another checksum than its own, which a Master answers by
`FILL_BYTE`. -/
theorem wrongChecksumAtSlave : Obligations.WrongChecksumAtSlave := by
  intro s p c hc hm hl hmax hbad
  have hfit : p.length ≤ 65535 := by omega
  have hok : (c == sum8 p) = false := beq_eq_false_iff_ne.2 hbad
  have hkept : ∀ i, p.length ≤ i → (s.stage.store p).read i = s.stage.read i :=
    fun i => Memory.read_store_of_le _ p
  refine ⟨fun hs => ?_, fun ha hr hx => ?_⟩
  · have hrun := runTurns_frameAtSlave hs hc hl hfit c
    rw [hok] at hrun
    exact ⟨_, _, hrun, withFrame_inboxBytes hm hfit c, hkept, withFrame_of_bad hc hbad _ _ _⟩
  · have hrun := runTurns_frameAtMaster ha hr hx hc hl hfit c s.params.ackRequest
    rw [hok, List.append_assoc _ _ (endEvents _ _)] at hrun
    exact ⟨_, _, hrun, withFrame_inboxBytes (s := s.served) hm hfit c, hkept,
      withFrame_of_bad (s := s.served) hc hbad _ _ _⟩

/-- Settles O47: the two check points differ in the exchange they go on to. -/
theorem abortAtCheckPoint : Obligations.AbortAtCheckPoint := by
  rintro s ok ht ha - (hp | hp)
  · rw [if_pos hp]
    exact runTurns_checkPoint ht ha fun u hu => rxMove_sample u (hu.trans hp)
  · rw [if_neg (by simp [hp])]
    exact runTurns_checkPoint ht ha fun u hu => rxMove_ackSample u ok (hu.trans hp)

end
end

section
/-! `DECODE` of a frame (R128, R133): the loop goes along the bytes the decoder reads and answers at the
one that ends the frame. -/

namespace Sys2Proof.Machine

variable {s t u v : State}

/-- The row of `DECODE` is its loop with the answer in the trace (R128). -/
theorem exec_decode {w : List Byte} {a : DecodeAnswer} (h : s.decodeAll w = .next (t, a)) :
    exec (.decode w) s = .next { t with trace := .decoded a :: t.trace } := by
  rw [exec, execDecode, h]
  rfl

/-- Any result but `None` ends the loop (R128). -/
theorem decodeLoop_of_end {b : Byte} {r : DecResult} (h : s.dec b = .next (t, r)) (hr : r ≠ .none)
    (w : List Byte) (n : Nat) :
    State.decodeLoop (b :: w) n s = .next (t, t.decodeAnswer (n + 1) r) := by
  cases r with
  | ignored => exact decodeLoop_of_ignored b w n s t h
  | lenRejected => exact decodeLoop_of_lenRejected b w n s t h
  | none => exact absurd rfl hr
  | frame ok => exact decodeLoop_of_frame b w n s t ok h

/-- The loop goes along bytes that are read. -/
theorem decodeLoop_reads {bs : List Byte} (h : u.Reads bs v) (p : RxPoint) (t : Turn) (c : Nat)
    (tr : List Event) (w : List Byte) (n : Nat) :
    State.decodeLoop (bs ++ w) n ((u.rxAt p).withGhost t c tr) =
      State.decodeLoop w (n + bs.length) ((v.rxAt p).withGhost t c tr) := by
  induction h generalizing n with
  | nil u => rfl
  | @cons u v x b bs h _ ih =>
    rw [List.cons_append, decodeLoop_of_none b _ n _ _ (h.dec p t c tr), ih, List.length_cons,
      Nat.add_assoc, Nat.add_comm 1]

/-- It answers at the byte that ends the frame, and does not look at what follows. -/
theorem decodeLoop_readsTo {bs : List Byte} {b : Byte} {r : DecResult} (h : u.ReadsTo bs b r v)
    (hr : r ≠ .none) (p : RxPoint) (t : Turn) (c : Nat) (tr : List Event) (w : List Byte) (n : Nat) :
    State.decodeLoop (bs ++ b :: w) n ((u.rxAt p).withGhost t c tr) =
      .next ((v.rxAt p).withGhost t c tr,
        ((v.rxAt p).withGhost t c tr).decodeAnswer (n + bs.length + 1) r) := by
  obtain ⟨x, hreads, hlast⟩ := h
  rw [decodeLoop_reads hreads, decodeLoop_of_end (hlast.dec p t c tr) hr]

/-- The decoder that has had the marker of a frame. -/
def State.marked (s : State) : State :=
  { s with rxCursor := cursorAfterMarker s.params.checksumPos }

/-- The marker is the first byte of a frame (R91, R128). -/
theorem decodeAll_marker (s : State) (w : List Byte) :
    s.decodeAll (0x24 :: w) = State.decodeLoop w 1 s.marked :=
  decodeLoop_of_none _ _ _ _ _ ((dec_of_start (s := { s with rxCursor := .start }) rfl _).trans
    (if_pos rfl))

/-- A frame whose rest is read to its end is decoded (R128). -/
theorem decodeAll_readsTo {bs : List Byte} {b : Byte} {r : DecResult} (h : s.marked.ReadsTo bs b r v)
    (hr : r ≠ .none) (w : List Byte) :
    ∃ t, s.decodeAll (0x24 :: (bs ++ b :: w)) = .next (t, t.decodeAnswer (bs.length + 2) r) ∧
      t.trace = s.trace ∧ t.rxLen = v.rxLen ∧ t.stage = v.stage := by
  have hloop := decodeLoop_readsTo h hr s.rxPoint s.now s.freeCtr s.trace w 1
  rw [Nat.add_comm 1] at hloop
  exact ⟨_, (decodeAll_marker s _).trans hloop, rfl, rfl, rfl⟩

/-- A frame is a marker, a header and what follows (R90, R99). -/
theorem frameBytes_eq_header (pos : ChecksumPos) (p : List Byte) :
    ∃ w, frameBytes pos p =
      0x24 :: (headerFront pos (sum8 p) (lenHi (payloadLen p)) ++ lenLo (payloadLen p) :: w) := by
  cases pos <;> exact ⟨_, rfl⟩

/-- The frame of a payload within `MAX_LEN` is decoded whole, with a matching checksum (R133). -/
theorem decodeAll_frameBytes (hm : s.stage.wf = true) {p : List Byte} (hfit : p.length ≤ 65535)
    (hl : p.length ≤ s.params.maxLen) :
    ∃ t, s.decodeAll (frameBytes s.params.checksumPos p) =
        .next (t, ⟨some (.frame true), p.length + 4, p, payloadLen p⟩) ∧
      t.trace = s.trace ∧ t.rxLen = payloadLen p ∧ t.stage.bytes p.length = p := by
  obtain ⟨front, b, hwire, hreads⟩ := readsTo_frame (u := s.marked) rfl hl hfit (sum8 p)
  change frameWith s.params.checksumPos p (sum8 p) = _ at hwire
  have hcount : front.length + 2 = p.length + 4 := by
    simpa [frameWith_length] using (congrArg List.length hwire).symm
  obtain ⟨t, hdec, htrace, hlen, hstage⟩ := decodeAll_readsTo hreads (by simp) []
  have hlen' : t.rxLen = payloadLen p := hlen
  have hbytes : t.stage.bytes p.length = p := hstage ▸ Memory.bytes_store hm p
  rw [← hwire, ← frameBytes_eq_frameWith, beq_self_eq_true, hcount, State.decodeAnswer,
    State.stagedBytes, hlen', payloadLen_toNat p hfit, hbytes] at hdec
  exact ⟨t, hdec, htrace, hlen', hbytes⟩

/-- The frame of a longer one is given up with its low length byte, and nothing is stored (R101, R133). -/
theorem decodeAll_longFrame {p : List Byte} (hfit : p.length ≤ 65535)
    (hl : s.params.maxLen < p.length) :
    ∃ t a, s.decodeAll (frameBytes s.params.checksumPos p) = .next (t, a) ∧
      t.trace = s.trace ∧ t.rxLen = payloadLen p ∧ a.result = some .lenRejected ∧
      t.stage = s.stage := by
  obtain ⟨w, hwire⟩ := frameBytes_eq_header s.params.checksumPos p
  have hreads := readsTo_long (u := s.marked) rfl (hl.trans_eq (lenOf_frame hfit).symm) (sum8 p)
  obtain ⟨t, hdec, htrace, hlen, hstage⟩ := decodeAll_readsTo hreads (by simp) w
  rw [hwire]
  exact ⟨t, _, hdec, htrace, hlen.trans (lenOf_lenHi_lenLo _), rfl, hstage⟩

end Sys2Proof.Machine

section

open Sys2Proof Sys2Proof.Machine

/-- Settles O27: the frame is read to its end, or to the length byte that is over the limit. -/
theorem roundTrip : Obligations.RoundTrip := by
  intro s p hm hfit
  by_cases hl : p.length ≤ s.params.maxLen
  · obtain ⟨t, hdec, htrace, hlen, hstage⟩ := decodeAll_frameBytes hm hfit hl
    exact ⟨_, _, exec_decode hdec, congrArg _ htrace, hlen, fun _ => ⟨rfl, hstage⟩,
      fun h => absurd hl (Nat.not_le.2 h)⟩
  · have hlong := Nat.not_le.1 hl
    obtain ⟨t, a, hdec, htrace, hlen, hres, hstage⟩ := decodeAll_longFrame hfit hlong
    exact ⟨_, _, exec_decode hdec, congrArg _ htrace, hlen, fun h => absurd h hl,
      fun _ => ⟨hres, hstage⟩⟩

end
end

section
/-! `DECODE` of any bytes (R128): where the decoder can be after some bytes, what a step makes of it, and
what the loop then answers. -/

namespace Sys2Proof.Machine

variable {s t u v : State}

/-! ## What the decoder leaves alone -/

/-- The two states differ in the decoder's registers at most. -/
def State.SameButDecoder (s t : State) : Prop :=
  ∃ c n k l f m, t = { s with
    rxCursor := c, byteCnt := n, cksAcc := k, rxLen := l, rxCksField := f, stage := m }

theorem State.SameButDecoder.trans (h : s.SameButDecoder t) (k : t.SameButDecoder u) :
    s.SameButDecoder u := by
  obtain ⟨_, _, _, _, _, _, rfl⟩ := h
  obtain ⟨_, _, _, _, _, _, rfl⟩ := k
  exact ⟨_, _, _, _, _, _, rfl⟩

theorem State.SameButDecoder.params (h : s.SameButDecoder t) : t.params = s.params := by
  obtain ⟨_, _, _, _, _, _, rfl⟩ := h
  rfl

/-! ## What has come of a frame -/

/-- Whether no payload byte has come where the decoder stands (R90, R99). -/
def State.beforePayload (s : State) : Bool :=
  match s.rxCursor with
  | .start | .lenHi | .lenLo => true
  | .checksum => s.params.checksumPos == .leading
  | .payload | .ack => false

/-- How many bytes of a frame have come, at least, where the decoder stands (R90, R99). -/
def State.bytesBefore (s : State) : Nat :=
  match s.rxCursor with
  | .start | .ack => 0
  | .lenHi | .checksum => 1
  | .lenLo => 2
  | .payload => s.byteCnt.toNat + 3

/-- What a decoder step makes of the frame: a byte more has come, the header leaves `STAGE` alone, the
rest leaves the length alone and writes `STAGE` only in the cell of a payload byte. -/
structure State.Advances (s : State) (b : Byte) (t : State) (r : DecResult) : Prop where
  come : r = .none → t.bytesBefore ≤ s.bytesBefore + 1
  header : s.beforePayload = true → t.stage = s.stage
  body : s.beforePayload = false → t.rxLen = s.rxLen ∧ (r = .none → t.beforePayload = false)
  cell : t.stage = s.stage ∨
    s.rxCursor = .payload ∧ t.stage = s.stage.write s.byteCnt.toNat b

/-- A byte of the header (R90, R99). -/
theorem advances_of_header {b : Byte} {r : DecResult} (hs : s.beforePayload = true)
    (hst : t.stage = s.stage) (hcome : r = .none → t.bytesBefore ≤ s.bytesBefore + 1) :
    s.Advances b t r where
  come := hcome
  header _ := hst
  body hb := by simp [hs] at hb
  cell := .inl hst

/-- A byte of the payload: the frame goes on in the payload, or ends here, or at the checksum that
follows. -/
theorem advances_of_payload {b : Byte} {r : DecResult} (hs : s.rxCursor = .payload)
    (hcnt : t.byteCnt = s.byteCnt + 1) (hlen : t.rxLen = s.rxLen)
    (hst : t.stage = s.stage.write s.byteCnt.toNat b)
    (hnext : r = .none → t.rxCursor = .payload ∨
      t.rxCursor = .checksum ∧ t.params.checksumPos = .trailing) : s.Advances b t r where
  come hr := by
    obtain hc | ⟨hc, -⟩ := hnext hr
    · simp [State.bytesBefore, hs, hc, hcnt]
      omega
    · simp [State.bytesBefore, hs, hc]
  header hb := by simp [State.beforePayload, hs] at hb
  body _ := by
    refine ⟨hlen, fun hr => ?_⟩
    obtain hc | ⟨hc, hpos⟩ := hnext hr
    · simp [State.beforePayload, hc]
    · simp [State.beforePayload, hc, hpos]
  cell := .inr ⟨hs, hst⟩

theorem decTrailing_advances {b : Byte} {r : DecResult} (hpos : s.params.checksumPos = .trailing)
    (hn : rxCount s.params.checksumPos s.rxCursor s.byteCnt s.rxLen s.params.maxLen)
    (h : s.decTrailing b = .next (t, r)) : s.Advances b t r := by
  cases hc : s.rxCursor with
  | start =>
    have hs : s.beforePayload = true := by simp [State.beforePayload, hc]
    rw [decTrailing_start s b hc] at h
    split at h
    · cases h; exact advances_of_header hs rfl (by simp [State.bytesBefore])
    · cases h; exact advances_of_header hs rfl (by simp)
  | lenHi =>
    cases (decTrailing_lenHi s b hc).symm.trans h
    exact advances_of_header (by simp [State.beforePayload, hc]) rfl
      (by simp [State.bytesBefore, hc])
  | lenLo =>
    have hs : s.beforePayload = true := by simp [State.beforePayload, hc]
    rw [decTrailing_lenLo s b hc] at h
    split at h
    · cases h; exact advances_of_header hs rfl (by simp)
    · cases h
      refine advances_of_header hs rfl fun _ => ?_
      by_cases h0 : lenOf (lenHi s.rxLen) b = 0#16
      · simp [State.bytesBefore, hc, h0]
      · simp [State.bytesBefore, hc, h0]
  | payload =>
    obtain ⟨hlt, hle⟩ : s.byteCnt < s.rxLen ∧ s.rxLen.toNat ≤ s.params.maxLen := by
      simpa [rxCount, hc] using hn
    cases (decTrailing_payload s b hc hlt hle).symm.trans h
    refine advances_of_payload hc rfl rfl rfl fun _ => ?_
    by_cases he : s.byteCnt + 1 = s.rxLen
    · exact .inr ⟨if_pos he, hpos⟩
    · exact .inl (if_neg he)
  | checksum =>
    cases (decTrailing_checksum s b hc).symm.trans h
    exact { come := by simp, header := fun _ => rfl, body := fun _ => ⟨rfl, by simp⟩,
            cell := .inl rfl }
  | ack => simp [State.decTrailing, hc] at h

theorem decLeading_advances {b : Byte} {r : DecResult} (hpos : s.params.checksumPos = .leading)
    (hn : rxCount s.params.checksumPos s.rxCursor s.byteCnt s.rxLen s.params.maxLen)
    (h : s.decLeading b = .next (t, r)) : s.Advances b t r := by
  cases hc : s.rxCursor with
  | start =>
    have hs : s.beforePayload = true := by simp [State.beforePayload, hc]
    rw [decLeading_start s b hc] at h
    split at h
    · cases h; exact advances_of_header hs rfl (by simp [State.bytesBefore])
    · cases h; exact advances_of_header hs rfl (by simp)
  | checksum =>
    cases (decLeading_checksum s b hc).symm.trans h
    exact advances_of_header (by simp [State.beforePayload, hc, hpos]) rfl
      (by simp [State.bytesBefore])
  | lenHi =>
    cases (decLeading_lenHi s b hc).symm.trans h
    exact advances_of_header (by simp [State.beforePayload, hc]) rfl
      (by simp [State.bytesBefore, hc])
  | lenLo =>
    have hs : s.beforePayload = true := by simp [State.beforePayload, hc]
    rw [decLeading_lenLo s b hc] at h
    split at h
    · cases h; exact advances_of_header hs rfl (by simp)
    · split at h
      · cases h; exact advances_of_header hs rfl (by simp)
      · cases h; exact advances_of_header hs rfl (by simp [State.bytesBefore, hc])
  | payload =>
    obtain ⟨hlt, hle⟩ : s.byteCnt < s.rxLen ∧ s.rxLen.toNat ≤ s.params.maxLen := by
      simpa [rxCount, hc] using hn
    rw [decLeading_payload s b hc hlt hle] at h
    split at h
    · cases h; exact advances_of_payload hc rfl rfl rfl (by simp)
    · cases h; exact advances_of_payload hc rfl rfl rfl fun _ => .inl hc
  | ack => simp [State.decLeading, hc] at h

theorem dec_advances {b : Byte} {r : DecResult}
    (hn : rxCount s.params.checksumPos s.rxCursor s.byteCnt s.rxLen s.params.maxLen)
    (h : s.dec b = .next (t, r)) : s.Advances b t r := by
  cases hpos : s.params.checksumPos with
  | trailing => exact decTrailing_advances hpos hn ((dec_of_trailing hpos b).symm.trans h)
  | leading => exact decLeading_advances hpos hn ((dec_of_leading hpos b).symm.trans h)

/-! ## The loop -/

/-- Of `STAGE` only cells below the length, and of the `n - 3` payload bytes that can have come, are
written. -/
def State.Kept (s : State) (n : Nat) (t : State) : Prop :=
  ∀ i, t.rxLen.toNat ≤ i ∨ n ≤ i + 3 → t.stage.read i = s.stage.read i

/-- A `DECODE` from `s` that stands at `u` after `n` bytes. -/
structure State.Decoding (s : State) (n : Nat) (u : State) : Prop where
  same : s.SameButDecoder u
  cursor : u.rxCursor ≠ .ack
  count : rxCount u.params.checksumPos u.rxCursor u.byteCnt u.rxLen u.params.maxLen
  come : u.bytesBefore ≤ n
  header : u.beforePayload = true → u.stage = s.stage
  kept : s.Kept n u

/-- What `DECODE` answers after all its `n` bytes or some (R128). -/
structure State.DecodedTo (s : State) (n : Nat) (t : State) (a : DecodeAnswer) : Prop where
  same : s.SameButDecoder t
  consumed : a.consumed ≤ n
  result : a.result ≠ some .none
  rxLen : a.rxLen = t.rxLen
  incomplete : a.result = none → a.consumed = n
  start : a.result ≠ none → t.rxCursor = .start
  payload : ∀ ok, a.result = some (.frame ok) → a.payload = t.stage.bytes t.rxLen.toNat
  kept : s.Kept n t

/-- `DECODE` starts at `Start` (R128). -/
theorem decoding_start (s : State) : s.Decoding 0 { s with rxCursor := .start } where
  same := ⟨_, _, _, _, _, _, rfl⟩
  cursor := by simp
  count := trivial
  come := le_rfl
  header _ := rfl
  kept _ _ := rfl

/-- A step keeps what has to be kept of `STAGE`. -/
theorem State.Decoding.kept_of_advances {n : Nat} {b : Byte} {r : DecResult} (h : s.Decoding n u)
    (ha : u.Advances b t r) : s.Kept (n + 1) t := by
  intro i hi
  cases hb : u.beforePayload with
  | true => rw [ha.header hb, h.header hb]
  | false =>
    obtain ⟨hlen, -⟩ := ha.body hb
    rw [hlen] at hi
    obtain hst | ⟨hp, hst⟩ := ha.cell
    · rw [hst]
      exact h.kept i (by omega)
    · have hcome : u.byteCnt.toNat + 3 ≤ n := by simpa [State.bytesBefore, hp] using h.come
      obtain ⟨hlt, -⟩ : u.byteCnt < u.rxLen ∧ u.rxLen.toNat ≤ u.params.maxLen := by
        simpa [rxCount, hp] using h.count
      rw [BitVec.lt_def] at hlt
      rw [hst, Memory.read_write_other _ _ _ _ (by omega)]
      exact h.kept i (by omega)

/-- Inside a frame the decoder goes on to where it can be after a byte more. -/
theorem State.Decoding.next {n : Nat} {b : Byte} (h : s.Decoding n u) (ha : u.Advances b t .none)
    (hd : u.DecStep (t, .none)) : s.Decoding (n + 1) t where
  same := h.same.trans hd.frame
  cursor hc := by simpa [midFrame, hc] using hd.sound.1
  count := by rw [State.SameButDecoder.params hd.frame]; exact hd.sound.2
  come := (ha.come rfl).trans (Nat.succ_le_succ h.come)
  header hb := by
    have hu : u.beforePayload = true := by
      by_contra hu
      simp [(ha.body (Bool.eq_false_iff.2 hu)).2 rfl] at hb
    rw [ha.header hu, h.header hu]
  kept := h.kept_of_advances ha

/-- Any other result ends the loop at `Start`. -/
theorem State.Decoding.ends {n m : Nat} {b : Byte} {r : DecResult} (h : s.Decoding n u)
    (ha : u.Advances b t r) (hd : u.DecStep (t, r)) (hr : r ≠ .none) (hm : n + 1 ≤ m) :
    s.DecodedTo m t (t.decodeAnswer (n + 1) r) where
  same := h.same.trans hd.frame
  consumed := hm
  result := by simpa [State.decodeAnswer] using hr
  rxLen := rfl
  incomplete := by simp [State.decodeAnswer]
  start _ := by
    have hsound := hd.sound
    cases r with
    | none => exact absurd rfl hr
    | ignored => exact hsound.2
    | lenRejected => exact hsound.2
    | frame ok => exact hsound.2.1
  payload ok he := by
    cases he
    rfl
  kept i hi := h.kept_of_advances ha i (by omega)

/-- At the end of the bytes the frame is incomplete. -/
theorem State.Decoding.stops {n : Nat} (h : s.Decoding n u) :
    s.DecodedTo n u ⟨none, n, [], u.rxLen⟩ where
  same := h.same
  consumed := le_rfl
  result := by simp
  rxLen := rfl
  incomplete _ := rfl
  start := by simp
  payload := by simp
  kept := h.kept

/-- The loop answers from wherever a decode can stand, whatever bytes follow (R128). -/
theorem decodeLoop_answers {n : Nat} (h : s.Decoding n u) (w : List Byte) :
    ∃ t a, State.decodeLoop w n u = .next (t, a) ∧ s.DecodedTo (n + w.length) t a := by
  induction w generalizing n u with
  | nil => exact ⟨_, _, rfl, h.stops⟩
  | cons b w ih =>
    obtain ⟨⟨t, r⟩, hdec, hstep⟩ := dec_decStep b h.cursor h.count
    have hadv := dec_advances h.count hdec
    rw [List.length_cons, Nat.add_comm w.length, ← Nat.add_assoc]
    by_cases hr : r = .none
    · subst hr
      rw [decodeLoop_of_none b w n u t hdec]
      exact ih (h.next hadv hstep)
    · exact ⟨_, _, decodeLoop_of_end hdec hr w n, h.ends hadv hstep hr (by omega)⟩

end Sys2Proof.Machine

section

open Sys2Proof Sys2Proof.Machine

/-- Settles O26: the loop answers from `Start`. -/
theorem decodeAlwaysAnswers : Obligations.DecodeAlwaysAnswers := by
  intro s w
  obtain ⟨t, a, hdec, h⟩ := decodeLoop_answers (decoding_start s) w
  rw [Nat.zero_add] at h
  refine ⟨_, a, exec_decode hdec, ?_, h.consumed, h.result, h.rxLen, h.incomplete, h.start, h.payload,
    h.kept⟩
  obtain ⟨_, _, _, _, _, _, rfl⟩ := h.same
  rfl

end
end

section
/-! What one end of a link sends, field by field, and what its steps leave alone (R125, R142, R148, R152).

The states at which the exchanges of a frame take place are said for both roles at once: `u.Sends bs v`
goes from one exchange to the next, whatever byte each receives. -/

namespace Sys2Proof.Machine

variable {s t u v w : State}

/-! ## The bytes of a send, exchange by exchange -/

/-- Where a send goes on after the exchange of field `sel` with byte `b`: a Master's after the delay
that follows it (R142, R144), a Slave's at once (R152). -/
def State.afterField (u : State) (sel : Sel) (b : Byte) : State :=
  match u.role with
  | .master => (u.masterFieldSent sel b).fieldNext sel
  | .slave => u.slaveFieldSent sel

theorem afterField_master (hr : u.role = .master) (sel : Sel) (b : Byte) :
    u.afterField sel b = (u.masterFieldSent sel b).fieldNext sel := by
  rw [State.afterField, hr]

theorem afterField_slave (hr : u.role = .slave) (sel : Sel) (b : Byte) :
    u.afterField sel b = u.slaveFieldSent sel := by
  rw [State.afterField, hr]

/-- The exchanges of a send shift out these bytes one after another, and the last leads to `v`. -/
inductive State.Sends : State → List Byte → State → Prop where
  | nil (u : State) : State.Sends u [] u
  | cons {u v : State} {sel : Sel} {b : Byte} {bs : List Byte} (ht : u.txState ≠ .idle)
      (hp : u.txPoint = .send sel b) (hc : sel = .payload → u.byteCnt < u.txLen)
      (k : State.Sends (u.afterField sel b) bs v) : State.Sends u (b :: bs) v

theorem State.Sends.trans {bs cs : List Byte} (h : u.Sends bs v) (k : v.Sends cs w) :
    u.Sends (bs ++ cs) w := by
  induction h with
  | nil u => exact k
  | cons ht hp hc _ ih => exact .cons ht hp hc (ih k)

theorem State.Sends.eq_of_nil (h : u.Sends [] v) : u = v := by
  cases h
  rfl

theorem State.Sends.of_cons {b : Byte} {bs : List Byte} (h : u.Sends (b :: bs) v) :
    ∃ sel, u.txState ≠ .idle ∧ u.txPoint = .send sel b ∧ (sel = .payload → u.byteCnt < u.txLen) ∧
      (u.afterField sel b).Sends bs v := by
  cases h with
  | cons ht hp hc k => exact ⟨_, ht, hp, hc, k⟩

/-- A send may be cut after any byte. -/
theorem State.Sends.cut {bs cs : List Byte} (h : u.Sends (bs ++ cs) w) :
    ∃ v, u.Sends bs v ∧ v.Sends cs w := by
  induction bs generalizing u with
  | nil => exact ⟨u, .nil u, h⟩
  | cons b bs ih =>
    obtain ⟨sel, ht, hp, hc, k⟩ := State.Sends.of_cons (bs := bs ++ cs) h
    obtain ⟨v, h₁, h₂⟩ := ih k
    exact ⟨v, .cons ht hp hc h₁, h₂⟩

theorem bodyNext_place (u : State) (p : TxPoint) : (u.place p).bodyNext = u.bodyNext := by
  obtain hr | hr := role_cases u.role
  · exact bodyNext_forgets_place hr p
  · exact bodyNext_forgets_place_slave hr p

theorem toField_place (u : State) (p : TxPoint) (sel : Sel) :
    (u.place p).toField sel = u.toField sel := by
  cases sel <;> rfl

theorem frameSent_place (u : State) (p : TxPoint) : (u.place p).frameSent = u.frameSent := by
  obtain hr | hr := role_cases u.role
  · rw [frameSent_master hr, frameSent_master (s := u.place p) hr]; rfl
  · rw [frameSent_slave hr, frameSent_slave (s := u.place p) hr]; rfl

/-- Which field is next does not depend on the place at which that is asked. -/
theorem fieldNext_place (u : State) (p : TxPoint) (sel : Sel) :
    (u.place p).fieldNext sel = u.fieldNext sel := by
  cases sel with
  | start => rw [fieldNext_start, fieldNext_start]; exact toField_place u p _
  | lenHi => rw [fieldNext_lenHi, fieldNext_lenHi]; exact toField_place u p _
  | lenLo =>
    have henter : (u.place p).enterTransfer = u.enterTransfer.place p := by
      rw [enterTransfer_eq, enterTransfer_eq]; rfl
    rw [fieldNext_lenLo, fieldNext_lenLo, henter, bodyNext_place]
  | payload => rw [fieldNext_payload, fieldNext_payload]; exact bodyNext_place u p
  | checksum =>
    rw [fieldNext_checksum, fieldNext_checksum]
    cases hp : u.params.checksumPos with
    | trailing => simpa [State.place, hp] using frameSent_place u p
    | leading => simpa [State.place, hp] using toField_place u p .lenHi

/-- A field outside the payload leads to the next (R125, R142, R152). -/
theorem afterField_toField_of_ne (u : State) {sel : Sel} (h : sel ≠ .payload) (b : Byte) :
    (u.toField sel).afterField sel b = u.fieldNext sel := by
  obtain hr | hr := role_cases u.role
  · rw [afterField_master (u := u.toField sel) hr, masterFieldSent_of_ne _ b h]
    exact fieldNext_place u _ sel
  · rw [afterField_slave (u := u.toField sel) hr, slaveFieldSent_of_ne _ h]
    exact fieldNext_place u _ sel

theorem sends_header (ht : u.txState ≠ .idle) {sel : Sel} (hsel : sel ≠ .payload) {bs : List Byte}
    (h : (u.fieldNext sel).Sends bs v) : (u.toField sel).Sends (u.encByte sel :: bs) v := by
  refine .cons (sel := sel) ht rfl (absurd · hsel) ?_
  rwa [afterField_toField_of_ne u hsel]

/-- What the accumulator holds after the payload bytes `p`, if it held `k` before: only a Master whose
checksum is trailing adds them while they go out (R142, R148, R152). -/
def sumAfter (r : Role) (pos : ChecksumPos) (k : Byte) (p : List Byte) : Byte :=
  match r with
  | .master => bodySum pos k p
  | .slave => k

/-- One turn of the payload loop (R142, R148, R152). -/
theorem afterField_payload {n : Half} (hn : n < u.txLen) (k : Byte) (p : List Byte) :
    ((u.inBody n (sumAfter u.role u.params.checksumPos k p)).toField .payload).afterField .payload
        (u.outbox.read n.toNat) =
      (u.inBody (n + 1) (sumAfter u.role u.params.checksumPos k
        (p ++ [u.outbox.read n.toNat]))).bodyNext := by
  obtain hr | hr := role_cases u.role
  · rw [hr, afterField_master (u := (u.inBody n _).toField .payload) hr,
      masterFieldSent_payload _ _ hn, fieldNext_payload, sumAfter, sumAfter, bodySum_append]
    exact bodyNext_place (u.inBody (n + 1) _) (.delay .payload)
  · rw [hr, afterField_slave (u := (u.inBody n _).toField .payload) hr, slaveFieldSent_payload _ hn]
    exact bodyNext_place (u.inBody (n + 1) k) _

/-- The payload loop up to any number of bytes (R142, R152). -/
theorem body_sends (u : State) (k : Byte) {j : Nat} (hj : j ≤ u.txLen.toNat) :
    (u.inBody 0 k).bodyNext.Sends (u.outbox.bytes j)
      (u.inBody (BitVec.ofNat 16 j)
        (sumAfter u.role u.params.checksumPos k (u.outbox.bytes j))).bodyNext := by
  induction j with
  | zero =>
    have h0 : sumAfter u.role u.params.checksumPos k (u.outbox.bytes 0) = k := by
      cases u.role <;> cases u.params.checksumPos <;> simp [sumAfter, bodySum, Memory.bytes]
    rw [h0]
    exact .nil _
  | succ j ih =>
    obtain ⟨hcnt, hlt⟩ := ofNat_lt_of_lt (n := u.txLen) hj
    have hnext := afterField_payload hlt k (u.outbox.bytes j)
    rw [hcnt, ← Memory.bytes_succ] at hnext
    rw [BitVec.ofNat_add, Memory.bytes_succ]
    refine (ih (by omega)).trans ?_
    rw [bodyNext_of_lt (u.inBody (BitVec.ofNat 16 j) _) hlt, ← Memory.bytes_succ]
    refine .cons (sel := .payload) (by simp [State.inBody]) ?_ (fun _ => hlt) (hnext ▸ .nil _)
    rw [← hcnt]
    simp [State.toField, State.encByte, State.outboxByte, State.inBody]

/-- The sum of the payload is what a send has in the accumulator after it: a Master whose checksum is
trailing begins with 0, any other has summed it before (R94, R142, R148, R152). -/
theorem sumAfter_payload {r : Role} {pos : ChecksumPos} {k : Byte} {p : List Byte}
    (hk : r = .slave ∨ pos = .leading → k = sum8 p) :
    sumAfter r pos (if r = .master ∧ pos = .trailing then 0 else k) p = sum8 p := by
  cases r with
  | slave => simp [sumAfter, hk]
  | master =>
    cases pos with
    | trailing => simp [sumAfter, bodySum]
    | leading => simpa [sumAfter, bodySum] using hk

/-- The two length bytes, the payload, and what follows it (R92, R142, R152). -/
theorem length_sends (ht : u.txState ≠ .idle)
    (hk : u.role = .slave ∨ u.params.checksumPos = .leading →
      u.cksAcc = sum8 (u.outbox.bytes u.txLen.toNat)) :
    (u.toField .lenHi).Sends (lenHi u.txLen :: lenLo u.txLen :: u.outbox.bytes u.txLen.toNat)
      (u.inBody u.txLen (sum8 (u.outbox.bytes u.txLen.toNat))).bodyNext := by
  refine sends_header ht (by simp) ?_
  rw [fieldNext_lenHi]
  refine sends_header ht (by simp) ?_
  have hbody := body_sends u
    (if u.role = .master ∧ u.params.checksumPos = .trailing then 0 else u.cksAcc)
    (le_refl u.txLen.toNat)
  rw [sumAfter_payload hk, BitVec.ofNat_toNat, BitVec.setWidth_eq] at hbody
  rwa [fieldNext_lenLo, enterTransfer_eq]

/-- From the first exchange of a frame to the step after its last byte: the bytes of the frame, the
checksum in the accumulator, the length in the counter (R124, R142, R148, R152). -/
theorem frame_sends (ht : u.txState ≠ .idle)
    (hk : u.role = .slave ∨ u.params.checksumPos = .leading →
      u.cksAcc = sum8 (u.outbox.bytes u.txLen.toNat)) :
    (u.toField .start).Sends (frameBytes u.params.checksumPos (u.outbox.bytes u.txLen.toNat))
      (u.inBody u.txLen (sum8 (u.outbox.bytes u.txLen.toNat))).frameSent := by
  have hlength := length_sends ht hk
  have hend := bodyNext_of_eq (u.inBody u.txLen (sum8 (u.outbox.bytes u.txLen.toNat))) rfl
  have hstart := fieldNext_start u
  have hpos : (u.inBody u.txLen (sum8 (u.outbox.bytes u.txLen.toNat))).params = u.params := rfl
  rw [hpos] at hend
  cases hp : u.params.checksumPos with
  | trailing =>
    rw [hp] at hstart hend
    rw [frameBytes, payloadLen_bytes]
    refine sends_header ht (by simp) ?_
    rw [hstart, ← List.cons_append, ← List.cons_append]
    refine hlength.trans ?_
    rw [hend]
    refine sends_header TxState.noConfusion (by simp) ?_
    rw [fieldNext_checksum, hpos, hp]
    exact .nil _
  | leading =>
    rw [hp] at hstart hend
    rw [frameBytes, payloadLen_bytes, ← hk (.inr hp)]
    refine sends_header ht (by simp) ?_
    rw [hstart]
    refine sends_header ht (by simp) ?_
    rw [hend] at hlength
    rw [fieldNext_checksum, hp, hk (.inr hp)]
    exact hlength

/-! ## What the exchanges leave alone -/

/-- What a host, a role and the two lines are is the same at both states. -/
structure State.Keeps (s t : State) : Prop where
  hostQ : t.hostQ = s.hostQ := by rfl
  started : t.started = s.started := by rfl
  role : t.role = s.role := by rfl
  auxIn : t.auxIn = s.auxIn := by rfl
  auxOut : t.auxOut = s.auxOut := by rfl

theorem State.Keeps.trans (h : s.Keeps t) (k : t.Keeps u) : s.Keeps u :=
  ⟨k.hostQ.trans h.hostQ, k.started.trans h.started, k.role.trans h.role, k.auxIn.trans h.auxIn,
    k.auxOut.trans h.auxOut⟩

theorem cntInc_keeps (s : State) : s.Keeps s.cntInc := by constructor <;> simp

theorem bodyNext_keeps (s : State) : s.Keeps s.bodyNext := by constructor <;> simp

theorem frameSent_keeps (s : State) : s.Keeps s.frameSent := by constructor <;> simp

theorem fieldNext_keeps (s : State) (sel : Sel) : s.Keeps (s.fieldNext sel) := by
  cases sel with
  | start => rw [fieldNext_start]; exact {}
  | lenHi => rw [fieldNext_lenHi]; exact {}
  | lenLo =>
    rw [fieldNext_lenLo, enterTransfer_eq]
    exact State.Keeps.trans {} (bodyNext_keeps _)
  | payload => rw [fieldNext_payload]; exact bodyNext_keeps s
  | checksum =>
    rw [fieldNext_checksum]
    split
    · exact frameSent_keeps s
    · exact {}

theorem masterFieldSent_keeps (s : State) (sel : Sel) (b : Byte) :
    s.Keeps (s.masterFieldSent sel b) := by
  cases sel with
  | payload =>
    cases hp : s.params.checksumPos <;> simp only [State.masterFieldSent, hp]
    · exact (State.Keeps.trans {} (cntInc_keeps (s.cksAdd b))).trans {}
    · exact (cntInc_keeps s).trans {}
  | start | lenHi | lenLo | checksum => exact {}

theorem slaveFieldSent_keeps (s : State) (sel : Sel) : s.Keeps (s.slaveFieldSent sel) := by
  rw [slaveFieldSent_eq]
  split
  · exact (cntInc_keeps s).trans (fieldNext_keeps _ sel)
  · exact fieldNext_keeps s sel

theorem takePayload_keeps {b : Byte} (h : s.takePayload b = .next t) : s.Keeps t := by
  obtain ⟨v, hv, he⟩ := andThen_eq_next.1 h
  cases he
  unfold State.stageByte at hv
  split at hv <;> cases hv
  exact State.Keeps.trans {} (cntInc_keeps _)

theorem decTrailing_keeps {b : Byte} {r : DecResult} (h : s.decTrailing b = .next (t, r)) :
    s.Keeps t := by
  cases hc : s.rxCursor with
  | start =>
    rw [decTrailing_start s b hc] at h
    split at h <;> cases h <;> exact {}
  | lenHi => cases (decTrailing_lenHi s b hc).symm.trans h; exact {}
  | lenLo =>
    rw [decTrailing_lenLo s b hc] at h
    split at h <;> cases h <;> exact {}
  | payload =>
    simp only [State.decTrailing, hc] at h
    obtain ⟨v, hv, he⟩ := andThen_eq_next.1 h
    refine (takePayload_keeps hv).trans ?_
    split at he <;> cases he <;> exact {}
  | checksum => cases (decTrailing_checksum s b hc).symm.trans h; exact {}
  | ack => simp [State.decTrailing, hc] at h

theorem decLeading_keeps {b : Byte} {r : DecResult} (h : s.decLeading b = .next (t, r)) :
    s.Keeps t := by
  cases hc : s.rxCursor with
  | start =>
    rw [decLeading_start s b hc] at h
    split at h <;> cases h <;> exact {}
  | checksum => cases (decLeading_checksum s b hc).symm.trans h; exact {}
  | lenHi => cases (decLeading_lenHi s b hc).symm.trans h; exact {}
  | lenLo =>
    rw [decLeading_lenLo s b hc] at h
    repeat' split at h
    all_goals cases h; exact {}
  | payload =>
    simp only [State.decLeading, hc] at h
    obtain ⟨v, hv, he⟩ := andThen_eq_next.1 h
    refine (takePayload_keeps hv).trans ?_
    split at he <;> cases he <;> exact {}
  | ack => simp [State.decLeading, hc] at h

/-- A decoder step writes the data path only (R126, R127). -/
theorem State.Decodes.keeps {b : Byte} {r : DecResult} (h : u.Decodes b v r) : u.Keeps v := by
  have hdec := h.dec .idle Turn.idle 0 []
  have hk : State.Keeps ((u.rxAt .idle).withGhost Turn.idle 0 [])
      ((v.rxAt .idle).withGhost Turn.idle 0 []) := by
    unfold State.dec at hdec
    split at hdec
    · exact decTrailing_keeps hdec
    · exact decLeading_keeps hdec
  exact ⟨hk.hostQ, hk.started, hk.role, hk.auxIn, hk.auxOut⟩

end Sys2Proof.Machine
end

section
/-! One step of an end of a link, and one step of a link whose hosts do nothing (R85, R240, R241).

The input signals, the counter of free values and the trace are left out: `u.Goes i v` is a step in which
the peer gives `i`, and `Link.Leads` several steps of the link, from ends to ends. -/

namespace Sys2Proof.Machine

variable {m m' m'' s s' s'' u v w : State} {l k : Link}

/-! ## One end -/

/-- In a step in which the peer gives the byte `i` or none the endpoint goes from `u` to `v`. -/
def State.Goes (u : State) (i : Option Byte) (v : State) : Prop :=
  ∀ (t : Turn) (c : Nat) (tr : List Event), ∃ t' c' tr',
    State.runTurns [Turn.exchange i] (u.withGhost t c tr) = .next (v.withGhost t' c' tr')

/-- The step of an endpoint whose host does nothing is the block's. -/
theorem stepWith_exchange (hq : s.hostQ = []) (i : Option Byte) :
    s.stepWith (Turn.exchange i) = State.runTurns [Turn.exchange i] s := by
  cases i with
  | none => exact stepWith_of_idle_host hq rfl rfl
  | some b => exact stepWith_of_idle_host hq rfl rfl

/-- A primitive of a send that does not wait for the Master's clock. -/
theorem goes_of_txMove (ht : u.txState ≠ .idle)
    (h : ∀ c tr, ∃ c' tr', (u.withGhost Turn.run c tr).txMove = v.withGhost Turn.run c' tr') :
    u.Goes none v := by
  intro t c tr
  obtain ⟨c', tr', hmove⟩ := h c tr
  refine ⟨Turn.run, c', tr', runTurns_cons_of_move _ [] _ _ ?_ rfl⟩
  show (u.withGhost Turn.run c tr).blockMove = _
  rw [blockMove_run_busy rfl (by simp [busy_eq, State.withGhost, ht]),
    activeMove_of_busy (u.withGhost Turn.run c tr) ht, hmove]

theorem masterField_goes (hr : u.role = .master) (ht : u.txState ≠ .idle) {sel : Sel} {b : Byte}
    (hp : u.txPoint = .send sel b) (hc : sel = .payload → u.byteCnt < u.txLen) (i : Option Byte) :
    u.Goes i (u.masterFieldSent sel b) := by
  intro t c tr
  have h := runTurns_masterExchange (u := u.withGhost t c tr) hr ht hp hc i []
  rw [masterFieldSent_withGhost u b t c tr hc] at h
  exact ⟨_, _, _, h⟩

theorem masterDelay_goes (hr : u.role = .master) (ht : u.txState ≠ .idle) {sel : Sel}
    (hp : u.txPoint = .delay sel) : u.Goes none (u.fieldNext sel) :=
  fun t c tr => ⟨_, _, _, runTurns_masterDelay hr ht hp t c tr []⟩

theorem slaveField_goes (hr : u.role = .slave) (ht : u.txState ≠ .idle) {sel : Sel} {b : Byte}
    (hp : u.txPoint = .send sel b) (hc : sel = .payload → u.byteCnt < u.txLen) (r : Byte) :
    u.Goes (some r) (u.slaveFieldSent sel) := by
  intro t c tr
  have hreq : (u.withGhost t c tr).txRequest ≠ none :=
    Option.ne_none_iff_exists'.2 ⟨b, txRequest_eq_some.2 (.inl ⟨sel, hp⟩)⟩
  have hmove := slaveMove_send (u.withGhost (Turn.byte r) c tr) sel b hp
  rw [busIn_byte _ r rfl] at hmove
  exact ⟨_, _, _, runTurns_slaveClocked (u := u.withGhost t c tr) hr ht hreq []
    (hmove.trans (slaveFieldSent_withGhost u _ _ _ hc)) rfl⟩

/-- A Slave gets its byte in the acknowledgement exchange (R155). -/
theorem ack_goes (hr : u.role = .slave) (ht : u.txState ≠ .idle) (hp : u.txPoint = .ack) (r : Byte) :
    u.Goes (some r) (u.place (.drop r)) := by
  intro t c tr
  have hreq : (u.withGhost t c tr).txRequest ≠ none :=
    Option.ne_none_iff_exists'.2 ⟨_, txRequest_eq_some.2 (.inr ⟨hp, rfl⟩)⟩
  have hmove := slaveMove_ack (u.withGhost (Turn.byte r) c tr) hp
  rw [busIn_byte _ r rfl] at hmove
  exact ⟨_, _, _, runTurns_slaveClocked (u := u.withGhost t c tr) hr ht hreq [] hmove rfl⟩

/-- A byte of a frame that goes on, at the exchange of a receive (R173, R177). -/
theorem pull_goes (hu : u.Receiving) {b : Byte} (h : u.Decodes b v .none) :
    (u.rxAt .pull).Goes (some b) (v.rxAt (receivePlace v.role)) := by
  intro t c tr
  have hpull := runTurns_pull hu h t c tr []
  rw [State.afterByte, pullAgain_eq_between, runTurns_nil] at hpull
  exact ⟨_, _, _, hpull⟩

theorem frameEnded_withGhost (s : State) (ok : Bool) (t : Turn) (c : Nat) (tr : List Event) :
    (s.withGhost t c tr).frameEnded ok = (s.frameEnded ok).withGhost t c tr := by
  obtain hr | hr := role_cases s.role
  · rw [frameEnded_master s ok hr, frameEnded_master (s.withGhost t c tr) ok hr]; rfl
  · rw [frameEnded_slave s ok hr, frameEnded_slave (s.withGhost t c tr) ok hr]; rfl

/-- The last byte of a frame, at the exchange of a receive (R173, R177). -/
theorem pullLast_goes (hu : u.Receiving) {b : Byte} {ok : Bool} (h : u.Decodes b v (.frame ok)) :
    (u.rxAt .pull).Goes (some b) ((v.rxAt .pull).frameEnded ok) := by
  intro t c tr
  have hpull := runTurns_pull hu h t c tr []
  rw [State.afterByte, frameEnded_withGhost, runTurns_nil] at hpull
  exact ⟨_, _, _, hpull⟩

theorem exchangeRequest_send (ht : u.txState ≠ .idle) {sel : Sel} {b : Byte}
    (hp : u.txPoint = .send sel b) : u.exchangeRequest = some b :=
  (exchangeRequest_of_busy ht).trans (txRequest_eq_some.2 (.inl ⟨sel, hp⟩))

/-! ## Several steps of one end alone -/

/-- The endpoint takes `n` steps from `u` to `v` that are no exchanges and leave the lines alone. -/
inductive State.Alone : Nat → State → State → Prop where
  | zero (u : State) : State.Alone 0 u u
  | succ {n : Nat} {u v w : State} (hn : u.exchangeRequest = none) (hg : u.Goes none v)
      (hk : u.Keeps v) (k : State.Alone n v w) : State.Alone (n + 1) u w

theorem State.Alone.trans {a b : Nat} (h : State.Alone a u v) (k : State.Alone b v w) :
    State.Alone (a + b) u w := by
  induction h with
  | zero u => simpa using k
  | succ hn hg hk _ ih =>
    rw [Nat.add_right_comm]
    exact .succ hn hg hk (ih k)

theorem State.Alone.cut {a b : Nat} (h : State.Alone (a + b) u w) :
    ∃ v, State.Alone a u v ∧ State.Alone b v w := by
  induction a generalizing u with
  | zero => exact ⟨u, .zero u, by simpa using h⟩
  | succ a ih =>
    rw [Nat.add_right_comm] at h
    cases h with
    | succ hn hg hk k =>
      obtain ⟨v, h₁, h₂⟩ := ih k
      exact ⟨v, .succ hn hg hk h₁, h₂⟩

/-! ## The two ends of a link -/

/-- The hosts at both ends do nothing, and the Master reads the level the Slave drives (R53, R241). -/
structure Joined (m s : State) : Prop where
  masterHost : m.hostQ = []
  slaveHost : s.hostQ = []
  drives : s.drivesAux = true
  wired : m.auxIn = s.auxOut

/-- The ends of the link but for input signals, free values and traces. -/
structure Link.At (l : Link) (m s : State) : Prop where
  master : ∃ t c tr, l.master = m.withGhost t c tr
  slave : ∃ t c tr, l.slave = s.withGhost t c tr

/-- Under this schedule a link goes from the ends `m` and `s` to the ends `m'` and `s'`. -/
def Link.Leads (ts : List LinkTurn) (m s m' s' : State) : Prop :=
  ∀ (l : Link) (rest : List LinkTurn), l.sched = ts ++ rest → l.At m s →
    ∃ k, linkRun ts.length l = .next k ∧ k.sched = rest ∧ k.At m' s'

theorem Link.Leads.refl (m s : State) : Link.Leads [] m s m s :=
  fun l _ hs hl => ⟨l, rfl, hs, hl⟩

theorem linkRun_add (a b : Nat) (l : Link) :
    linkRun (a + b) l = andThen (linkRun a l) (linkRun b) := by
  induction a generalizing l with
  | zero => simp [linkRun]
  | succ a ih =>
    rw [Nat.add_right_comm, linkRun, linkRun, andThen_assoc]
    exact congrArg _ (funext ih)

theorem Link.Leads.trans {ts us : List LinkTurn} (h : Link.Leads ts m s m' s')
    (k : Link.Leads us m' s' m'' s'') : Link.Leads (ts ++ us) m s m'' s'' := by
  intro l rest hs hl
  obtain ⟨l₁, h₁, hs₁, hl₁⟩ := h l (us ++ rest) (by simpa using hs) hl
  obtain ⟨l₂, h₂, hs₂, hl₂⟩ := k l₁ rest hs₁ hl₁
  refine ⟨l₂, ?_, hs₂, hl₂⟩
  rw [List.length_append, linkRun_add, h₁, andThen_next, h₂]

/-- The Master with the aux line at level `v`: a change of the level is an edge (R28, R53). -/
def State.hears (m : State) (v : Bool) : State := if m.auxIn == v then m else m.auxChange v

theorem hears_of_eq {b : Bool} (h : m.auxIn = b) : m.hears b = m := by
  simp [State.hears, h]

theorem hears_withGhost (m : State) (b : Bool) (t : Turn) (c : Nat) (tr : List Event) :
    (m.withGhost t c tr).hears b = (m.hears b).withGhost t c tr := by
  have hin : (m.withGhost t c tr).auxIn = m.auxIn := rfl
  have hfollows : ((m.withGhost t c tr).started && (m.withGhost t c tr).role == .master) =
      (m.started && m.role == .master) := rfl
  unfold State.hears State.auxChange
  rw [hin, hfollows]
  split
  · rfl
  · split <;> rfl

theorem setAux_master (l : Link) (b : Bool) : (l.setAux b).master = l.master.hears b := by
  unfold Link.setAux State.hears
  split <;> rfl

/-- A step of a link whose Slave is started: an agent's turn, and the line at the level the Slave
drives. -/
theorem linkStep_at {t : LinkTurn} {rest : List LinkTurn} (hs : l.sched = t :: rest)
    (hd : l.slave.drivesAux = true) (hk : Link.take { l with sched := rest } t = .next k)
    (hat : k.At m' s') :
    ∃ k', linkStep l = .next k' ∧ k'.sched = k.sched ∧ k'.At (m'.hears s'.auxOut) s' := by
  obtain ⟨⟨x, c, tr, hm⟩, ⟨y, d, es, hs'⟩⟩ := hat
  have hwire : l.wire k = k.setAux k.slave.auxOut := by simp [Link.wire, hd]
  refine ⟨l.wire k, by rw [linkStep_cons hs, hk, andThen_next], by simp,
    ⟨x, c, tr, ?_⟩, ⟨y, d, es, by simpa using hs'⟩⟩
  rw [hwire, setAux_master, hm, hs', hears_withGhost]
  rfl

theorem leads_of_take {t : LinkTurn} (hd : s.drivesAux = true)
    (h : ∀ l : Link, l.At m s → ∃ k, l.take t = .next k ∧ k.sched = l.sched ∧ k.At m' s') :
    Link.Leads [t] m s (m'.hears s'.auxOut) s' := by
  intro l rest hs hl
  obtain ⟨k, hk, hsched, hat⟩ := h { l with sched := rest } ⟨hl.master, hl.slave⟩
  obtain ⟨x, c, tr, hslave⟩ := hl.slave
  obtain ⟨k', hstep, hsched', hat'⟩ := linkStep_at hs (hslave ▸ hd) hk hat
  refine ⟨k', ?_, hsched'.trans hsched, hat'⟩
  rw [List.length_singleton, linkRun, hstep]
  rfl

/-- The Master takes a step that is no exchange. -/
theorem leads_master (hj : Joined m s) (hn : m.exchangeRequest = none) (hg : m.Goes none m')
    (ha : m'.auxIn = m.auxIn) : Link.Leads [.master 0 0] m s m' s := by
  rw [← hears_of_eq (ha.trans hj.wired)]
  refine leads_of_take hj.drives fun l hl => ?_
  obtain ⟨t, c, tr, hm⟩ := hl.master
  obtain ⟨t', c', tr', hstep⟩ := hg t c tr
  have hq : l.master.hostQ = [] := hm ▸ hj.masterHost
  have hnone : l.master.requestUnder Turn.run = none := by
    rw [requestUnder_of_idle_host _ _ hq rfl, hm]
    exact hn
  rw [← hm, ← stepWith_exchange hq] at hstep
  exact ⟨_, (masterTurn_of_none l 0 0 hnone).trans ((onlyMaster_eq_next l _ _).2 ⟨_, hstep, rfl⟩),
    rfl, ⟨_, _, _, rfl⟩, hl.slave⟩

/-- The Slave takes a step by itself, and the line follows it. -/
theorem leads_slave (hj : Joined m s) (hg : s.Goes none s') :
    Link.Leads [.slave] m s (m.hears s'.auxOut) s' := by
  refine leads_of_take hj.drives fun l hl => ?_
  obtain ⟨t, c, tr, hs⟩ := hl.slave
  obtain ⟨t', c', tr', hstep⟩ := hg t c tr
  rw [← hs, ← stepWith_exchange (hs ▸ hj.slaveHost)] at hstep
  exact ⟨_, (onlySlave_eq_next l _ _).2 ⟨_, hstep, rfl⟩, rfl, hl.master, ⟨_, _, _, rfl⟩⟩

/-- Both ends take the step of an exchange, each with the other's byte if it is at one (R241). -/
theorem leads_exchange (hj : Joined m s) {b : Byte} (hb : m.exchangeRequest = some b)
    (hm : m.Goes s.exchangeRequest m') (hs : s.Goes (some b) s') (ha : m'.auxIn = s'.auxOut) :
    Link.Leads [.master 0 0] m s m' s' := by
  rw [← hears_of_eq ha]
  refine leads_of_take hj.drives fun l hl => ?_
  obtain ⟨t, c, tr, hlm⟩ := hl.master
  obtain ⟨x, d, es, hls⟩ := hl.slave
  obtain ⟨t', c', tr', hmstep⟩ := hm t c tr
  obtain ⟨x', d', es', hsstep⟩ := hs x d es
  have hqm : l.master.hostQ = [] := hlm ▸ hj.masterHost
  have hqs : l.slave.hostQ = [] := hls ▸ hj.slaveHost
  have hreq : l.master.requestUnder Turn.run = some b := by
    rw [requestUnder_of_idle_host _ _ hqm rfl, hlm]
    exact hb
  have hanswer : l.towardsMaster (Turn.byte b) 0 = Turn.exchange s.exchangeRequest := by
    rw [towardsMaster_of_idle_host hqs rfl, hls]
    rfl
  rw [← hlm, ← stepWith_exchange hqm, ← hanswer] at hmstep
  rw [← hls, ← stepWith_exchange hqs] at hsstep
  have hturn := masterTurn_of_some l b 0 0 hreq
  have hclean : b ^^^ (0 : Byte) = b := by simp
  rw [hclean] at hturn
  exact ⟨_, hturn.trans ((both_eq_next l _ _ _).2 ⟨_, _, hmstep, hsstep, rfl⟩), rfl,
    ⟨_, _, _, rfl⟩, ⟨_, _, _, rfl⟩⟩

end Sys2Proof.Machine
end

section
/-! A Master's send to an armed idle Slave over a clean link (R142, R173, R242, R243). -/

namespace Sys2Proof.Machine

variable {m m' s s' u v w : State} {l k : Link}

/-! ## Steps of one end alone, in a link -/

theorem State.Keeps.refl (s : State) : s.Keeps s := {}

theorem State.Alone.one (hn : u.exchangeRequest = none) (hg : u.Goes none v) (hk : u.Keeps v) :
    State.Alone 1 u v :=
  .succ hn hg hk (.zero v)

theorem State.Alone.keeps {n : Nat} (h : State.Alone n u v) : u.Keeps v := by
  induction h with
  | zero u => exact {}
  | succ _ _ hk _ ih => exact hk.trans ih

theorem Joined.keeps (hj : Joined m s) (hm : m.Keeps m') (hs : s.Keeps s') : Joined m' s' where
  masterHost := hm.hostQ.trans hj.masterHost
  slaveHost := hs.hostQ.trans hj.slaveHost
  drives := by
    have h := hj.drives
    unfold State.drivesAux at h ⊢
    rwa [hs.started, hs.role]
  wired := hm.auxIn.trans (hj.wired.trans hs.auxOut.symm)

theorem leads_masterAlone {n : Nat} (h : State.Alone n m m') (hj : Joined m s) :
    Link.Leads (List.replicate n (.master 0 0)) m s m' s := by
  induction h with
  | zero u => exact .refl u s
  | succ hn hg hk _ ih => exact (leads_master hj hn hg hk.auxIn).trans (ih (hj.keeps hk {}))

theorem leads_slaveAlone {n : Nat} (h : State.Alone n s s') (hj : Joined m s) :
    Link.Leads (List.replicate n .slave) m s m s' := by
  induction h with
  | zero u => exact .refl m u
  | succ hn hg hk _ ih =>
    have hstep := leads_slave hj hg
    rw [hk.auxOut, hears_of_eq hj.wired] at hstep
    exact hstep.trans (ih (hj.keeps {} hk))

/-! ## The beginning of a send, in either role -/

/-- Where the sum of the payload leads (R142, R152). -/
def placeAfterSum : Role → TxPoint
  | .master => .select
  | .slave => .request

theorem txMove_sum (hp : s.txPoint = .sum) :
    s.txMove = if s.txCounted then s.place (placeAfterSum s.role) else s.cksStep := by
  obtain hr | hr := role_cases s.role
  · rw [State.txMove, hr]; exact masterMove_sum s hp
  · rw [State.txMove, hr]; exact slaveMove_sum s hp

theorem exchangeRequest_of_sum (ht : u.txState ≠ .idle) (hp : u.txPoint = .sum) :
    u.exchangeRequest = none := by
  rw [exchangeRequest_of_busy ht, State.txRequest, hp]

/-- The payload is summed byte by byte, and no exchange takes place (R122, R148, R152). -/
theorem sum_alone (ht : u.txState ≠ .idle) (hp : u.txPoint = .sum) {j : Nat}
    (hj : j ≤ u.txLen.toNat) : State.Alone j (u.addedTo 0) (u.addedTo j) := by
  induction j with
  | zero => exact .zero _
  | succ j ih =>
    refine (ih (by omega)).trans (.one (exchangeRequest_of_sum ht hp) ?_ {})
    refine goes_of_txMove ht fun c tr => ⟨c, tr, ?_⟩
    have hopen : ((u.addedTo j).withGhost Turn.run c tr).txCounted = false :=
      beq_eq_false_iff_ne.2 (BitVec.ne_of_lt (ofNat_lt_of_lt hj).2)
    rw [txMove_sum (s := (u.addedTo j).withGhost Turn.run c tr) hp, hopen, if_neg (by simp)]
    exact cksStep_addedTo (s := u.withGhost Turn.run c tr) hj

/-- The whole payload summed, and chip-select or the aux line next (R148, R152). -/
theorem sum_alone_all (ht : u.txState ≠ .idle) (hp : u.txPoint = .sum) :
    State.Alone (u.txLen.toNat + 1) (u.addedTo 0)
      ((u.addedTo u.txLen.toNat).place (placeAfterSum u.role)) := by
  refine (sum_alone ht hp le_rfl).trans (.one (exchangeRequest_of_sum ht hp) ?_ {})
  refine goes_of_txMove ht fun c tr => ⟨c, tr, ?_⟩
  have hdone : ((u.addedTo u.txLen.toNat).withGhost Turn.run c tr).txCounted = true := by
    simp [State.txCounted, State.addedTo, State.withGhost]
  rw [txMove_sum (s := (u.addedTo u.txLen.toNat).withGhost Turn.run c tr) hp, hdone, if_pos rfl]
  rfl

/-- A step in which the host offers an item and the block is quiet. -/
def Turn.offering (i : HostItem) : Turn := { Turn.idle with offer := some i }

/-- The host's `SEND` (R103, R203). -/
def sendItem (len : Half) : HostItem := .cmd ⟨0b011#3, 0#1, 0#1, len⟩

/-- Neither an edge nor a byte comes in such a step, so that a `SEND` finds no new trigger (R200). -/
theorem acceptsSend_of_offering (h : s.acceptsSend = true) (i : HostItem) :
    (s.sense (Turn.offering i)).acceptsSend = true := by
  obtain ⟨ht, ha, htr⟩ := (acceptsSend_iff s).1 h
  refine (acceptsSend_iff _).2 ⟨ht, ha, ?_⟩
  unfold State.triggerReady at htr ⊢
  rw [State.sense_role]
  cases hr : s.role with
  | master =>
    simp only [hr, Bool.and_eq_false_iff, Bool.or_eq_false_iff] at htr
    obtain (h | h) | ⟨h, -⟩ := htr <;>
      simp [State.edgeNow, State.sense, Turn.offering, Turn.idle, h]
  | slave => simp [State.byteNow, State.sense, Turn.offering, Turn.idle]

theorem beginSend_withGhost (s : State) (len : Half) (t : Turn) (c : Nat) (tr : List Event) :
    (s.withGhost t c tr).beginSend len = (s.beginSend len).withGhost t c tr := by
  cases hr : s.role <;> cases hp : s.params.checksumPos <;>
    simp [State.beginSend, State.beginMasterSend, State.beginSlaveSend, State.withGhost, hr, hp]

theorem execSend_of_accepted (ha : s.acceptsSend = true) (hc : s.canSend = true) (len : Half) :
    execSend len s = .next (s.beginSend len) := by
  rw [execSend, if_pos ha, if_pos hc]

/-- A `SEND` that the endpoint accepts in the step in which the host offers it (R57, R203). -/
theorem stepWith_send (hq : s.hostQ = []) (ha : s.acceptsSend = true) (hc : s.canSend = true)
    (len : Half) :
    s.stepWith (Turn.offering (sendItem len)) =
      .next ((s.beginSend len).withGhost (Turn.offering (sendItem len)) s.freeCtr s.trace) := by
  obtain ⟨ht, -, -⟩ := (acceptsSend_iff s).1 ha
  have haccepts := acceptsSend_of_offering ha (sendItem len)
  have htaken : { s.sense (Turn.offering (sendItem len)) with hostQ := [] } =
      s.withGhost (Turn.offering (sendItem len)) s.freeCtr s.trace := by
    simp [State.sense, State.withGhost, Turn.offering, Turn.outboxAfter, Turn.idle, hq]
  have hfetch := fetch_of_accepts (s := s.sense (Turn.offering (sendItem len)))
    (h := sendItem len) (q := []) (by simp [Turn.hostAfter, Turn.offering, hq]) haccepts
  rw [htaken] at hfetch
  have hexec := execSend_of_accepted
    (s := s.withGhost (Turn.offering (sendItem len)) s.freeCtr s.trace) (htaken ▸ haccepts) hc len
  rw [beginSend_withGhost] at hexec
  have hmove := moveAfter_of_begun (s.sense (Turn.offering (sendItem len)))
    ((s.beginSend len).withGhost (Turn.offering (sendItem len)) s.freeCtr s.trace) ht
    (beginSend_txState s len)
  rw [stepWith_of_not_rst rfl, State.serve, hostPart_of_some _ _ _ hfetch]
  show andThen (andThen (execSend len _) _) _ = _
  rw [hexec, andThen_next, hmove, andThen_next]
  rfl

end Sys2Proof.Machine
end

section
/-! The bytes of a Master's frame over a clean link, and the two ends of its send (R142, R148, R241). -/

namespace Sys2Proof.Machine

variable {m m' s s' u v w : State} {l k : Link}

/-! ## The bytes of a frame, from the Master to the Slave (R142, R173, R241) -/

theorem afterField_keeps (u : State) (sel : Sel) (b : Byte) : u.Keeps (u.afterField sel b) := by
  obtain hr | hr := role_cases u.role
  · rw [afterField_master hr]
    exact (masterFieldSent_keeps u sel b).trans (fieldNext_keeps _ sel)
  · rw [afterField_slave hr]
    exact slaveFieldSent_keeps u sel

theorem State.Sends.keeps {bs : List Byte} (h : u.Sends bs v) : u.Keeps v := by
  induction h with
  | nil u => exact {}
  | @cons u _ sel b _ _ _ _ _ ih => exact (afterField_keeps u sel b).trans ih

theorem State.Reads.keepsHost {bs : List Byte} (h : u.Reads bs v) : u.Keeps v := by
  induction h with
  | nil u => exact {}
  | cons h _ ih => exact h.keeps.trans ih

theorem State.Keeps.rxAt (h : u.Keeps v) (p q : RxPoint) : (u.rxAt p).Keeps (v.rxAt q) :=
  { h with }

/-- The delay of a Master after a field (R144). -/
theorem delay_alone (hr : u.role = .master) (ht : u.txState ≠ .idle) (sel : Sel) (b : Byte) :
    State.Alone 1 (u.masterFieldSent sel b) (u.afterField sel b) := by
  obtain ⟨hr', ht', hp'⟩ := masterFieldSent_place u sel b
  have hbusy : (u.masterFieldSent sel b).txState ≠ .idle := ht'.symm ▸ ht
  rw [afterField_master hr]
  refine .one ?_ (masterDelay_goes (hr'.trans hr) hbusy hp') (fieldNext_keeps _ sel)
  rw [exchangeRequest_of_busy hbusy, State.txRequest, hp']

theorem exchangeRequest_pull (hu : u.Receiving) :
    (u.rxAt .pull).exchangeRequest = some u.params.fill :=
  exchangeRequest_of_active hu.1 hu.2.1

/-- The exchange of a Master's field with the Slave, which does its own part in it. -/
theorem leads_field (hr : m.role = .master) (ht : m.txState ≠ .idle) {sel : Sel} {b : Byte}
    (hp : m.txPoint = .send sel b) (hc : sel = .payload → m.byteCnt < m.txLen) (hj : Joined m s)
    (hg : s.Goes (some b) s') (hk : s.Keeps s') :
    Link.Leads [.master 0 0] m s (m.masterFieldSent sel b) s' :=
  leads_exchange hj (exchangeRequest_send ht hp) (masterField_goes hr ht hp hc _) hg
    (hj.keeps (masterFieldSent_keeps m sel b) hk).wired

/-- A field and the delay after it. -/
theorem leads_fieldDelay (hr : m.role = .master) (ht : m.txState ≠ .idle) {sel : Sel} {b : Byte}
    (hp : m.txPoint = .send sel b) (hc : sel = .payload → m.byteCnt < m.txLen) (hj : Joined m s)
    (hg : s.Goes (some b) s') (hk : s.Keeps s') :
    Link.Leads (List.replicate 2 (.master 0 0)) m s (m.afterField sel b) s' :=
  (leads_field hr ht hp hc hj hg hk).trans
    (leads_masterAlone (delay_alone hr ht sel b) (hj.keeps (masterFieldSent_keeps m sel b) hk))

/-- The bytes of a frame that goes on at the Slave. -/
theorem leads_bytesToSlave {bs : List Byte} (h : m.Sends bs m') (k : s.Reads bs s')
    (hr : m.role = .master) (hsr : s.role = .slave) (hu : s.Receiving)
    (hj : Joined m (s.rxAt .pull)) :
    Link.Leads (List.replicate (2 * bs.length) (.master 0 0)) m (s.rxAt .pull) m'
      (s'.rxAt .pull) := by
  induction h generalizing s with
  | nil m =>
    cases k
    exact .refl _ _
  | @cons m m' sel b bs ht hp hc _ ih =>
    cases k with
    | @cons _ s₁ _ _ _ hd k =>
      have hk : (s.rxAt .pull).Keeps (s₁.rxAt .pull) := hd.keeps.rxAt _ _
      have hg := pull_goes hu hd
      have hr₁ : s₁.role = .slave := hd.role.trans hsr
      rw [hr₁] at hg
      have hfield := leads_fieldDelay hr ht hp hc hj hg hk
      have hrest := ih k ((afterField_keeps m sel b).role.trans hr) hr₁ (hd.receiving hu)
        (hj.keeps (afterField_keeps m sel b) hk)
      rw [List.length_cons, Nat.mul_add, Nat.add_comm, List.replicate_add]
      exact hfield.trans hrest

/-! ## The ends of a Master's send (R142, R148, R154) -/

theorem exchangeRequest_of_place (ht : u.txState ≠ .idle) {p : TxPoint} (hp : u.txPoint = p)
    (hn : State.txRequest { u with txPoint := p } = none) : u.exchangeRequest = none := by
  subst hp
  rw [exchangeRequest_of_busy ht]
  exact hn

theorem goes_of_masterMove (hr : u.role = .master) (ht : u.txState ≠ .idle)
    (h : ∀ c tr, ∃ c' tr', (u.withGhost Turn.run c tr).masterMove = v.withGhost Turn.run c' tr') :
    u.Goes none v := by
  refine goes_of_txMove ht fun c tr => ?_
  have hrole : (u.withGhost Turn.run c tr).role = .master := hr
  rw [State.txMove, hrole]
  exact h c tr

/-- Chip-select is activated, and the first exchange is next (R142). -/
theorem select_alone (hr : u.role = .master) (ht : u.txState ≠ .idle) (hp : u.txPoint = .select) :
    State.Alone 1 u (State.toField { u with csOut := true, txState := .framing } .start) := by
  refine .one (exchangeRequest_of_place ht hp rfl) ?_ {}
  exact goes_of_masterMove hr ht fun c tr =>
    ⟨c, .cs true :: tr, masterMove_select (u.withGhost Turn.run c tr) hp⟩

/-- A Master whose send is over (R154). -/
def State.sent (u : State) : State :=
  { u with
    rxEnable := true, txState := .idle, txPoint := .idle, sendResult := true, csOut := false }

/-- Chip-select is released, and the send ends (R142, R154). -/
theorem release_alone (hr : u.role = .master) (ht : u.txState ≠ .idle) :
    State.Alone 2 (u.place .release) u.sent := by
  refine .succ (v := { u with txState := .done, txPoint := .finish true, csOut := false })
    (exchangeRequest_of_place (u := u.place .release) ht rfl rfl) ?_ {}
    (.one (exchangeRequest_of_place TxState.noConfusion rfl rfl) ?_ {})
  · exact goes_of_masterMove hr ht fun c tr => ⟨c, .cs false :: tr, masterMove_release _ rfl⟩
  · exact goes_of_masterMove hr TxState.noConfusion fun c tr =>
      ⟨c, .sendDone true :: tr, masterMove_finish _ true rfl⟩

/-- From its beginning a Master's send takes these steps to its first exchange, with the payload summed
if the checksum leads the frame (R142, R148). -/
theorem beginMasterSend_alone (hr : s.role = .master) (len : Half) :
    ∃ u : State, State.Alone (sumSteps .master s.params.checksumPos len.toNat + 1) (s.beginSend len)
        (u.toField .start) ∧
      u.role = .master ∧ u.txState ≠ .idle ∧ u.txLen = len ∧ u.outbox = s.outbox ∧
      u.params = s.params ∧
      (s.params.checksumPos = .leading → u.cksAcc = sum8 (s.outbox.bytes len.toNat)) := by
  have hbegin : s.beginSend len = s.beginMasterSend len := by rw [State.beginSend, hr]
  rw [hbegin, State.beginMasterSend]
  cases hp : s.params.checksumPos with
  | trailing =>
    exact ⟨_, select_alone hr (by simp) rfl, hr, by simp, rfl, rfl, rfl, by simp⟩
  | leading =>
    have hsum := sum_alone_all (u := { s with
      txState := .selecting, txLen := len, rxEnable := false, txPoint := .sum }) (by simp) rfl
    have hplace : placeAfterSum s.role = .select := by rw [hr]; rfl
    exact ⟨_, hsum.trans (select_alone hr TxState.noConfusion hplace), hr, by simp, rfl, rfl, rfl,
      fun _ => rfl⟩

end Sys2Proof.Machine
end

section
/-! The whole of a Master's send to an armed idle Slave over a clean link (R173, R180, R242). -/

namespace Sys2Proof.Machine

variable {m m' s s' u v w : State} {l k : Link}

/-! ## The Slave's part of a Master's send (R173, R180) -/

/-- The marker at an armed idle Slave (R61, R173). -/
theorem marker_goes (hs : s.rxsReady = true) (hc : s.rxCursor = .start) :
    s.Goes (some 0x24) (s.begun.rxAt .pull) := by
  obtain ⟨-, -, -, -, hr⟩ := rxsReady_iff.1 hs
  intro t c tr
  have h := runTurns_marker (s := s.withGhost t c tr) hs hc []
  rw [State.between, show (s.withGhost t c tr).begun.role = .slave from hr] at h
  exact ⟨_, _, _, h⟩

/-- A Slave that has a whole frame publishes it (R173, R180). -/
theorem publish_alone (ht : s.txState = .idle) {p : List Byte} (hl : p.length ≤ s.params.maxLen)
    (hfit : p.length ≤ 65535) (c : Byte) :
    State.Alone 1 (s.atEnd p c .start (.finish (.complete (c == sum8 p)))) (s.withFrame p c) := by
  refine .one (exchangeRequest_of_active ht rfl) (fun t k tr => ?_) {}
  have h := runTurns_publish ht hl hfit c rfl .start (tn := Turn.run) rfl t k tr []
  rw [auxPhase_of_none rfl] at h
  exact ⟨_, _, _, h⟩

/-! ## The whole send (R242, R243) -/

/-- The Slave takes its last step before, between or after those of the Master (R242). -/
theorem leads_masterTail {n j : Nat} (hm : State.Alone n m m') (hs : State.Alone 1 s s')
    (hjn : j ≤ n) (hj : Joined m s) :
    Link.Leads (List.replicate (n - j) (.master 0 0) ++ .slave :: List.replicate j (.master 0 0))
      m s m' s' := by
  rw [← Nat.sub_add_cancel hjn] at hm
  obtain ⟨w, hbefore, hafter⟩ := hm.cut
  have hjw := hj.keeps hbefore.keeps {}
  exact (leads_masterAlone hbefore hj).trans
    ((leads_slaveAlone hs hjw).trans (leads_masterAlone hafter (hjw.keeps {} hs.keeps)))

/-- The last exchange of a Master's frame with an armed idle Slave: the Master has three steps more to
its end, and the Slave one (R142, R173). -/
theorem leads_lastToSlave {p : List Byte} {b : Byte} (hr : m.role = .master)
    (hm : m.Sends [b] (v.place .release)) (hvr : v.role = .master) (hv : v.txState ≠ .idle)
    (hs : s.txState = .idle) (hsr : s.role = .slave) (hl : p.length ≤ s.params.maxLen)
    (hfit : p.length ≤ 65535) (hu : u.Receiving)
    (hlast : u.Decodes b (s.begun.holdingFrame p (sum8 p)) (.frame (sum8 p == sum8 p)))
    (hj : Joined m (u.rxAt .pull)) :
    ∃ w x, Link.Leads [.master 0 0] m (u.rxAt .pull) w x ∧ Joined w x ∧
      State.Alone 3 w v.sent ∧ State.Alone 1 x (s.withFrame p (sum8 p)) := by
  obtain ⟨sel, ht, hp, hc, hnil⟩ := hm.of_cons
  have hend : ((s.begun.holdingFrame p (sum8 p)).rxAt .pull).frameEnded (sum8 p == sum8 p) =
      s.atEnd p (sum8 p) .start (.finish (.complete (sum8 p == sum8 p))) :=
    frameEnded_slave _ _ hsr
  have hg := pullLast_goes hu hlast
  have hkeeps : (u.rxAt .pull).Keeps (s.atEnd p (sum8 p) .start
      (.finish (.complete (sum8 p == sum8 p)))) := hlast.keeps.rxAt _ _
  have hdelay := delay_alone hr ht sel b
  rw [hend] at hg
  rw [hnil.eq_of_nil] at hdelay
  exact ⟨_, _, leads_field hr ht hp hc hj hg hkeeps, hj.keeps (masterFieldSent_keeps m sel b) hkeeps,
    hdelay.trans (release_alone hvr hv), publish_alone hs hl hfit _⟩

/-- The exchanges of a Master's frame with an armed idle Slave (R142, R173). -/
theorem leads_frameToSlave {p : List Byte} (hr : m.role = .master)
    (hm : m.Sends (frameBytes s.params.checksumPos p) (v.place .release)) (hv : v.txState ≠ .idle)
    (hs : s.rxsReady = true) (hc : s.rxCursor = .start) (hl : p.length ≤ s.params.maxLen)
    (hfit : p.length ≤ 65535) (hj : Joined m s) :
    ∃ w x, Link.Leads (List.replicate (2 * p.length + 7) (.master 0 0)) m s w x ∧ Joined w x ∧
      State.Alone 3 w v.sent ∧ State.Alone 1 x (s.withFrame p (sum8 p)) := by
  obtain ⟨-, -, hst, -, hsr⟩ := rxsReady_iff.1 hs
  obtain ⟨front, b, hwire, u, hfront, hlast⟩ := readsTo_frame (u := s.begun) rfl hl hfit (sum8 p)
  change frameWith s.params.checksumPos p (sum8 p) = _ at hwire
  have hlen : front.length = p.length + 2 := by
    simpa [frameWith_length] using (congrArg List.length hwire).symm
  have hu : s.begun.Receiving := ⟨hst, rfl, fun h => by simp [State.begun, hsr] at h⟩
  have hvr : v.role = .master := hm.keeps.role.trans hr
  rw [frameBytes_eq_frameWith, hwire] at hm
  obtain ⟨sel, ht, hp, hcnt, hrest⟩ := hm.of_cons
  have hbegun : s.Keeps (s.begun.rxAt .pull) := {}
  have hmarker := leads_fieldDelay hr ht hp hcnt hj (marker_goes hs hc) hbegun
  have hr₁ : (m.afterField sel 0x24).role = .master := (afterField_keeps m sel _).role.trans hr
  have hj₁ := hj.keeps (afterField_keeps m sel 0x24) hbegun
  obtain ⟨m₂, hm₂, hmlast⟩ := hrest.cut
  have hbytes := leads_bytesToSlave hm₂ hfront hr₁ hsr hu hj₁
  obtain ⟨w, x, hlead, hjw, hw, hx⟩ := leads_lastToSlave (hm₂.keeps.role.trans hr₁) hmlast hvr hv
    hst hsr hl hfit (hfront.keeps.2.2 hu) hlast
    (hj₁.keeps hm₂.keeps (hfront.keepsHost.rxAt .pull .pull))
  refine ⟨w, x, ?_, hjw, hw, hx⟩
  have hcount : 2 * p.length + 7 = 2 + (2 * front.length + 1) := by omega
  rw [hcount, List.replicate_add, List.replicate_add]
  exact hmarker.trans (hbytes.trans hlead)

theorem beginSend_keeps (s : State) (len : Half) : s.Keeps (s.beginSend len) := by
  unfold State.beginSend
  split
  · unfold State.beginMasterSend
    split <;> exact {}
  · exact {}

/-- A Master's send to an armed idle Slave, from the step after its acceptance (R142, R148, R173,
R242). -/
theorem leads_masterSend {len : Half} {j : Nat} (hr : m.role = .master)
    (hparams : m.params = s.params) (hs : s.rxsReady = true) (hc : s.rxCursor = .start)
    (hl : len.toNat ≤ s.params.maxLen) (hj : Joined m s) (hj3 : j ≤ 3) :
    ∃ u : State, Link.Leads
      (List.replicate (sumSteps .master m.params.checksumPos len.toNat + 2 * len.toNat + 11 - j)
        (.master 0 0) ++ .slave :: List.replicate j (.master 0 0))
      (m.beginSend len) s u.sent
      (s.withFrame (m.outbox.bytes len.toNat) (sum8 (m.outbox.bytes len.toNat))) := by
  obtain ⟨u, hu, hur, hut, rfl, hout, hup, hk⟩ := beginMasterSend_alone hr len
  have hsends := frame_sends hut (by simpa [hur, hup, hout] using hk)
  rw [frameSent_master (s := u.inBody _ _) hur, hout, hup, hparams] at hsends
  have hlen := Memory.bytes_length m.outbox u.txLen.toNat
  have hj₁ := hj.keeps (beginSend_keeps m u.txLen) (.refl s)
  obtain ⟨w, x, hframe, hjw, hw, hx⟩ := leads_frameToSlave (m := u.toField .start) hur hsends
    (by simp [State.inBody]) hs hc (hlen.trans_le hl) (by omega) (hj₁.keeps hu.keeps (.refl s))
  rw [hlen] at hframe
  have hcount : List.replicate
      (sumSteps .master m.params.checksumPos u.txLen.toNat + 2 * u.txLen.toNat + 11 - j)
      (LinkTurn.master 0 0) =
        List.replicate (sumSteps .master m.params.checksumPos u.txLen.toNat + 1) (.master 0 0) ++
          (List.replicate (2 * u.txLen.toNat + 7) (.master 0 0) ++
            List.replicate (3 - j) (.master 0 0)) := by
    rw [← List.replicate_add, ← List.replicate_add]
    congr 1
    omega
  rw [hcount, List.append_assoc, List.append_assoc]
  exact ⟨_, (leads_masterAlone hu hj₁).trans (hframe.trans (leads_masterTail hw hx hj3 hjw))⟩

/-- The whole run: the step in which the Master's host offers the `SEND`, then the others. -/
theorem linkRun_masterHost {len : Half} {ts : List LinkTurn} (hj : Joined m s)
    (ha : m.acceptsSend = true) (hc : m.canSend = true)
    (h : Link.Leads ts (m.beginSend len) s m' s') :
    ∃ k, linkRun (ts.length + 1) ⟨m, s, .masterHost (sendItem len) :: ts⟩ = .next k ∧
      k.At m' s' := by
  have hmaster := (onlyMaster_eq_next ⟨m, s, ts⟩ _ _).2
    ⟨_, stepWith_send hj.masterHost ha hc len, rfl⟩
  obtain ⟨k, hk, hsched, hat⟩ := linkStep_at (l := ⟨m, s, .masterHost (sendItem len) :: ts⟩) rfl
    hj.drives hmaster ⟨⟨_, _, _, rfl⟩, ⟨s.now, s.freeCtr, s.trace, rfl⟩⟩
  rw [hears_of_eq (hj.keeps (beginSend_keeps m len) (.refl s)).wired] at hat
  obtain ⟨k', hrun, -, hat'⟩ := h k [] (by simpa using hsched) hat
  exact ⟨k', by rw [linkRun, hk, andThen_next, hrun], hat'⟩

end Sys2Proof.Machine
end

section
/-! A Slave's send to an armed idle Master over a clean link (R97, R152, R177, R242, R243). -/

namespace Sys2Proof.Machine

variable {m m' s s' u v w : State} {l k : Link}

/-! ## The request (R28, R152, R176) -/

theorem goes_of_slaveMove (hr : u.role = .slave) (ht : u.txState ≠ .idle)
    (h : ∀ c tr, ∃ c' tr', (u.withGhost Turn.run c tr).slaveMove = v.withGhost Turn.run c' tr') :
    u.Goes none v := by
  refine goes_of_txMove ht fun c tr => ?_
  have hrole : (u.withGhost Turn.run c tr).role = .slave := hr
  rw [State.txMove, hrole]
  exact h c tr

/-- A Slave with `n` attempts made that begins another (R152). -/
def State.requested (u : State) : State :=
  { u with auxOut := true, attemptCnt := u.attemptCnt + 1, txState := .framing }

theorem request_goes (hr : u.role = .slave) (ht : u.txState ≠ .idle) (hp : u.txPoint = .request) :
    u.Goes none (u.requested.toField .start) :=
  goes_of_slaveMove hr ht fun c tr =>
    ⟨c, .aux true :: tr, slaveMove_request (u.withGhost Turn.run c tr) hp⟩

/-- A Master with the asserting edge of a request latched (R28). -/
def State.called (m : State) : State :=
  { m with auxIn := true, auxPrev := true, auxPending := true }

theorem hears_true (hs : m.started = true) (hr : m.role = .master) (hin : m.auxIn = false)
    (hx : m.auxPrev = false ∨ m.auxPending = true) : m.hears true = m.called := by
  have hpending : (m.auxPending || !m.auxPrev) = true := by
    obtain h | h := hx <;> simp [h]
  simp [State.hears, State.auxChange, State.called, hs, hr, hin, hpending]

/-- The latched edge is served (R176, R177). -/
theorem call_goes (ha : m.armed = true) (hr : m.role = .master) :
    m.called.Goes none (m.calling.rxAt .first) := by
  intro t c tr
  have hready : (m.called.withGhost t c tr).rxmReady = true :=
    Bool.and_eq_true_iff.2 ⟨Bool.and_eq_true_iff.2 ⟨ha, beq_iff_eq.2 hr⟩, rfl⟩
  exact ⟨_, _, _, runTurns_call hready []⟩

/-- The marker at a Master that has called (R177). -/
theorem first_goes (ht : u.txState = .idle) (ha : u.rxActive = true) (hc : u.rxCursor = .start) :
    (u.rxAt .first).Goes (some 0x24) (u.begun.rxAt .sample) :=
  fun t c tr => ⟨_, _, _, runTurns_first ht ha hc 0x24 t c tr []⟩

/-! ## The bytes of a frame, from the Slave to the Master (R152, R177, R241) -/

/-- An abort check that finds the line asserted (R178). -/
theorem check_goes (ht : u.txState = .idle) (ha : u.rxActive = true) (hin : u.auxIn = true)
    {p q : RxPoint} (hp : u.rxPoint = p)
    (h : ∀ s : State, s.rxPoint = p → s.rxMove = .next (s.checkAux q)) : u.Goes none (u.rxAt q) := by
  intro t c tr
  have hmove := h (u.withGhost Turn.run c tr) hp
  rw [checkAux_of_high (u.withGhost Turn.run c tr) q hin] at hmove
  exact ⟨_, _, _, runTurns_rxRun (u := u.withGhost t c tr) ht ha [] hmove rfl⟩

theorem sample_alone (hu : u.Receiving) (hr : u.role = .master) :
    State.Alone 1 (u.rxAt .sample) (u.rxAt .pull) := by
  obtain ⟨ht, ha, hin⟩ := hu
  exact .one (exchangeRequest_of_active ht ha)
    (check_goes (u := u.rxAt .sample) ht ha (hin hr) rfl rxMove_sample) {}

/-- The exchange of a Slave's field with the Master, which does its own part in it. -/
theorem leads_slaveField (hr : s.role = .slave) (ht : s.txState ≠ .idle) {sel : Sel} {b o : Byte}
    (hp : s.txPoint = .send sel b) (hc : sel = .payload → s.byteCnt < s.txLen) (hj : Joined m s)
    (ho : m.exchangeRequest = some o) (hg : m.Goes (some b) m') (hk : m.Keeps m') :
    Link.Leads [.master 0 0] m s m' (s.afterField sel b) := by
  rw [afterField_slave hr]
  exact leads_exchange hj ho ((exchangeRequest_send ht hp).symm ▸ hg)
    (slaveField_goes hr ht hp hc o) (hj.keeps hk (slaveFieldSent_keeps s sel)).wired

/-- A byte of a frame at the Master: an abort check, then the exchange. -/
theorem leads_checkedField (hr : s.role = .slave) (ht : s.txState ≠ .idle) {sel : Sel} {b : Byte}
    (hp : s.txPoint = .send sel b) (hc : sel = .payload → s.byteCnt < s.txLen)
    (hmr : m.role = .master) (hu : m.Receiving) (hj : Joined (m.rxAt .sample) s)
    (hg : (m.rxAt .pull).Goes (some b) m') (hk : m.Keeps m') :
    Link.Leads (List.replicate 2 (.master 0 0)) (m.rxAt .sample) s m' (s.afterField sel b) := by
  have hcheck := sample_alone hu hmr
  exact (leads_masterAlone hcheck hj).trans (leads_slaveField hr ht hp hc
    (hj.keeps hcheck.keeps (.refl s)) (exchangeRequest_pull hu) hg { hk with })

/-- The bytes of a frame that goes on at the Master. -/
theorem leads_bytesToMaster {bs : List Byte} (h : s.Sends bs s') (k : m.Reads bs m')
    (hr : s.role = .slave) (hmr : m.role = .master) (hu : m.Receiving)
    (hj : Joined (m.rxAt .sample) s) :
    Link.Leads (List.replicate (2 * bs.length) (.master 0 0)) (m.rxAt .sample) s
      (m'.rxAt .sample) s' := by
  induction h generalizing m with
  | nil s =>
    cases k
    exact .refl _ _
  | @cons s s' sel b bs ht hp hc _ ih =>
    cases k with
    | @cons _ m₁ _ _ _ hd k =>
      have hr₁ : m₁.role = .master := hd.role.trans hmr
      have hg := pull_goes hu hd
      rw [hr₁] at hg
      have hfield := leads_checkedField hr ht hp hc hmr hu hj hg (hd.keeps.rxAt m.rxPoint .sample)
      have hrest := ih k ((afterField_keeps s sel b).role.trans hr) hr₁ (hd.receiving hu)
        (hj.keeps (hd.keeps.rxAt _ _) (afterField_keeps s sel b))
      rw [List.length_cons, Nat.mul_add, Nat.add_comm, List.replicate_add]
      exact hfield.trans hrest

/-- The acknowledgement exchange of a Master that holds a frame, with the Slave that sent it (R155, R178,
R179). -/
theorem leads_acknowledge {p : List Byte} {c : Byte} (ht : m.txState = .idle)
    (hin : m.auxIn = true) (hr : s.role = .slave) (hst : s.txState ≠ .idle) (hp : s.txPoint = .ack)
    (hj : Joined (m.atEnd p c .ack (.ackSample true)) s) :
    Link.Leads (List.replicate 2 (.master 0 0)) (m.atEnd p c .ack (.ackSample true)) s
      (m.atEnd p c .ack (.release (.complete true))) (s.place (.drop m.params.ackSentinel)) := by
  have hcheck : State.Alone 1 (m.atEnd p c .ack (.ackSample true))
      (m.atEnd p c .ack (.ackPull true)) :=
    .one (exchangeRequest_of_active ht rfl) (check_goes (u := m.atEnd p c .ack (.ackSample true)) ht rfl
      hin rfl fun s => rxMove_ackSample s true) {}
  have hpull : ∀ b, State.Goes (m.atEnd p c .ack (.ackPull true)) (some b)
      (m.atEnd p c .ack (.release (.complete true))) := by
    intro b t k tr
    have hmove := rxMove_ackPull ((m.atEnd p c .ack (.ackPull true)).withGhost (Turn.byte b) k tr) true rfl
    rw [busIn_byte _ b rfl] at hmove
    exact ⟨_, _, _, runTurns_rxByte (u := (m.atEnd p c .ack (.ackPull true)).withGhost t k tr) ht rfl
      (by simp [State.rxRequest, State.withGhost, State.atEnd]) [] hmove rfl⟩
  have hreq : s.exchangeRequest = some s.params.ackRequest :=
    (exchangeRequest_of_busy hst).trans (txRequest_eq_some.2 (.inr ⟨hp, rfl⟩))
  have hjc := hj.keeps hcheck.keeps (.refl s)
  exact (leads_masterAlone hcheck hj).trans (leads_exchange hjc (exchangeRequest_of_active ht rfl)
    (hreq.symm ▸ hpull _) (ack_goes hr hst hp _) hjc.wired)

end Sys2Proof.Machine
end

section
/-! The last steps of the two ends of a Slave's send, which do not meet (R155, R177, R242). -/

namespace Sys2Proof.Machine

variable {m m' s s' u v w : State} {l k : Link}

/-! ## The last steps of the two ends, in any order (R242) -/

/-- A Master that has the frame of `p` and is on its way out (R177, R180). -/
structure State.Holds (m : State) (p : List Byte) : Prop where
  host : m.hostQ = []
  idle : m.txState = .idle
  active : m.rxActive = true
  fits : m.rxLen.toNat ≤ m.params.maxLen
  staged : m.stage.bytes m.rxLen.toNat = p

/-- A Master that has published `p` with a good checksum, and is idle (R180). -/
structure State.Delivered (m : State) (p : List Byte) : Prop where
  inbox : m.inboxBytes = p
  newMessage : m.newMessage = true
  success : m.success = true
  idle : m.rxActive = false
  chipSelect : m.csOut = false

/-- A Master with so many steps to the end of its receive. -/
def State.receiveEnds (p : List Byte) : Nat → State → Prop
  | 0, m => m.Delivered p
  | 1, m => m.Holds p ∧ m.rxPoint = .finish (.complete true) ∧ m.csOut = false
  | 2, m => m.Holds p ∧ m.rxPoint = .release (.complete true)
  | _ + 3, _ => False

/-- No step of those depends on the aux line. -/
theorem receiveEnds_auxChange {p : List Byte} {n : Nat} (h : m.receiveEnds p n) (b : Bool) :
    (m.auxChange b).receiveEnds p n := by
  unfold State.auxChange
  match n, h with
  | 0, h => split <;> exact { h with }
  | 1, ⟨h, hp, hcs⟩ => split <;> exact ⟨{ h with }, hp, hcs⟩
  | 2, ⟨h, hp⟩ => split <;> exact ⟨{ h with }, hp⟩

/-- Each is a step without an exchange: chip-select is released, then the frame published (R177). -/
theorem receiveEnds_step {p : List Byte} {n : Nat} (h : m.receiveEnds p (n + 1)) :
    m.hostQ = [] ∧ m.exchangeRequest = none ∧
      ∃ m', m.stepWith Turn.run = .next m' ∧ m'.receiveEnds p n := by
  match n, h with
  | 0, ⟨h, hp, hcs⟩ =>
    have hmove := blockMove_complete (u := { m with now := Turn.run }) rfl h.idle h.active hp h.fits
    refine ⟨h.host, ?_, _, (stepWith_exchange h.host none).trans
      (runTurns_cons_of_move _ [] _ _ hmove rfl), ?_⟩
    · rw [exchangeRequest_of_active h.idle h.active, State.rxRequest, hp]
    · exact ⟨(inboxBytes_of_staged rfl rfl).trans h.staged, rfl, rfl, rfl, hcs⟩
  | 1, ⟨h, hp⟩ =>
    refine ⟨h.host, ?_, _, (stepWith_exchange h.host none).trans
      (runTurns_toFinish h.idle h.active hp []), { h with }, rfl, rfl⟩
    rw [exchangeRequest_of_active h.idle h.active, State.rxRequest, hp]

/-- A Slave in its first attempt. -/
structure State.FirstAttempt (s : State) : Prop where
  host : s.hostQ = []
  role : s.role = .slave
  count : s.attemptCnt = 1

/-- A Slave whose first attempt has been acknowledged, with so many steps to the end of its send
(R152, R155). -/
def State.sendEnds : Nat → State → Prop
  | 0, s => s.FirstAttempt ∧ s.sendResult = true ∧ s.txState = .idle ∧ s.rxEnable = true ∧
      s.auxOut = false
  | 1, s => s.FirstAttempt ∧ s.txState ≠ .idle ∧ s.txPoint = .finish true ∧ s.auxOut = false
  | 2, s => s.FirstAttempt ∧ s.txState ≠ .idle ∧ s.txPoint = .drop s.params.ackSentinel
  | _ + 3, _ => False

/-- The line is released, then the send ends (R152, R155, R156). -/
theorem sendEnds_step {n : Nat} (h : s.sendEnds (n + 1)) :
    ∃ s', s.stepWith Turn.run = .next s' ∧ s'.sendEnds n := by
  match n, h with
  | 0, ⟨h, ht, hp, haux⟩ =>
    have hmove := slaveMove_finish { s with now := Turn.run } true hp
    exact ⟨_, (stepWith_exchange h.host none).trans (runTurns_slave h.role ht [] hmove rfl),
      { h with }, rfl, rfl, rfl, haux⟩
  | 1, ⟨h, ht, hp⟩ =>
    have hmove := slaveMove_drop { s with now := Turn.run } s.params.ackSentinel hp
    have hgood : State.endAttempt { s with now := Turn.run } s.params.ackSentinel =
        { s with now := Turn.run, auxOut := false, txState := .done, txPoint := .finish true
                 trace := .aux false :: s.trace } :=
      if_pos (by simp [State.acknowledged])
    exact ⟨_, (stepWith_exchange h.host none).trans
      (runTurns_slave h.role ht [] (hmove.trans hgood) rfl), { h with }, TxState.noConfusion, rfl, rfl⟩

/-- The line at the level the Slave drives does not touch those steps. -/
theorem receiveEnds_wire {p : List Byte} {n : Nat} (l k : Link) (h : k.master.receiveEnds p n) :
    (l.wire k).master.receiveEnds p n := by
  unfold Link.wire
  split
  · rw [setAux_master]
    unfold State.hears
    split
    · exact h
    · exact receiveEnds_auxChange h _
  · exact h

/-- Two ends with steps left in which they do not meet take them in any order (R242). -/
theorem linkRun_ends {p : List Byte} {ts : List LinkTurn} {a b : Nat}
    (hts : ts.Perm (List.replicate a (.master 0 0) ++ List.replicate b .slave))
    (hl : l.sched = ts) (hm : l.master.receiveEnds p a) (hs : l.slave.sendEnds b) :
    ∃ k, linkRun ts.length l = .next k ∧ k.master.Delivered p ∧ k.slave.sendEnds 0 := by
  induction ts generalizing l a b with
  | nil =>
    have hlen := hts.length_eq
    simp only [List.length_nil, List.length_append, List.length_replicate] at hlen
    obtain ⟨rfl, rfl⟩ : a = 0 ∧ b = 0 := by omega
    exact ⟨l, rfl, hm, hs⟩
  | cons t ts ih =>
    have hmem : t ∈ List.replicate a (LinkTurn.master 0 0) ++ List.replicate b .slave :=
      hts.mem_iff.1 (by simp)
    rw [List.mem_append, List.mem_replicate, List.mem_replicate] at hmem
    obtain ⟨ha, rfl⟩ | ⟨hb, rfl⟩ := hmem
    · obtain ⟨a, rfl⟩ := Nat.exists_eq_succ_of_ne_zero ha
      obtain ⟨hq, hn, m', hstep, hm'⟩ := receiveEnds_step hm
      have hnone : Link.masterTurn { l with sched := ts } 0 0 = .next ⟨m', l.slave, ts⟩ :=
        (masterTurn_of_none { l with sched := ts } 0 0
          ((requestUnder_of_idle_host _ _ hq rfl).trans hn)).trans
          ((onlyMaster_eq_next _ _ _).2 ⟨_, hstep, rfl⟩)
      obtain ⟨k, hk, hend⟩ := ih hts.cons_inv (wire_sched _ _)
        (receiveEnds_wire l ⟨m', l.slave, ts⟩ hm') (by rwa [wire_slave])
      refine ⟨k, ?_, hend⟩
      rw [List.length_cons, linkRun, linkStep_cons hl, Link.take, hnone]
      exact hk
    · obtain ⟨b, rfl⟩ := Nat.exists_eq_succ_of_ne_zero hb
      obtain ⟨s', hstep, hs'⟩ := sendEnds_step hs
      have hmove : Link.onlySlave { l with sched := ts } Turn.run = .next ⟨l.master, s', ts⟩ :=
        (onlySlave_eq_next _ _ _).2 ⟨_, hstep, rfl⟩
      have hrest : ts.Perm (List.replicate a (.master 0 0) ++ List.replicate b .slave) :=
        (hts.trans List.perm_middle).cons_inv
      obtain ⟨k, hk, hend⟩ := ih hrest (wire_sched _ _)
        (receiveEnds_wire l ⟨l.master, s', ts⟩ hm) (by rwa [wire_slave])
      refine ⟨k, ?_, hend⟩
      rw [List.length_cons, linkRun, linkStep_cons hl, Link.take, hmove]
      exact hk

end Sys2Proof.Machine
end

section
/-! The whole of a Slave's send to an armed idle Master over a clean link (R152, R177, R243). -/

namespace Sys2Proof.Machine

variable {m m' s s' u v w : State} {l k : Link}

/-! ## The whole send (R242, R243) -/

/-- From its beginning a Slave's send takes these steps to its request, with the payload summed
(R152). -/
theorem beginSlaveSend_alone (hr : s.role = .slave) (len : Half) :
    ∃ u : State, State.Alone (len.toNat + 1) (s.beginSend len) (u.place .request) ∧
      u.role = .slave ∧ u.txState ≠ .idle ∧ u.txLen = len ∧ u.outbox = s.outbox ∧
      u.params = s.params ∧ u.attemptCnt = 0 ∧ u.cksAcc = sum8 (s.outbox.bytes len.toNat) := by
  have hbegin : s.beginSend len = s.beginSlaveSend len := by rw [State.beginSend, hr]
  have hsum := sum_alone_all (u := { s with
    txState := .requesting, txLen := len, rxEnable := false, attemptCnt := 0, txPoint := .sum })
    TxState.noConfusion rfl
  have hplace : placeAfterSum s.role = .request := by rw [hr]; rfl
  change State.Alone _ _ (State.place _ (placeAfterSum s.role)) at hsum
  rw [hplace] at hsum
  rw [hbegin]
  exact ⟨_, hsum, hr, TxState.noConfusion, rfl, rfl, rfl, rfl, rfl⟩

/-- A Slave that has accepted a `SEND` sums the payload and asserts the line, which the Master latches
(R28, R152). -/
theorem leads_request {len : Half} (hr : s.role = .slave) (hms : m.started = true)
    (hmr : m.role = .master) (hin : m.auxIn = false)
    (hx : m.auxPrev = false ∨ m.auxPending = true) (hj : Joined m s) :
    ∃ u : State, Link.Leads (List.replicate (len.toNat + 2) .slave) m (s.beginSend len) m.called
        (u.toField .start) ∧
      Joined m.called (u.toField .start) ∧ u.role = .slave ∧ u.txState ≠ .idle ∧ u.txLen = len ∧
      u.outbox = s.outbox ∧ u.params = s.params ∧ u.attemptCnt = 1 ∧
      u.cksAcc = sum8 (s.outbox.bytes len.toNat) := by
  obtain ⟨u, hsum, hur, hut, hlen, hout, hparams, hcnt, hcks⟩ := beginSlaveSend_alone hr len
  have hj₁ := hj.keeps (.refl m) (beginSend_keeps s len)
  have hjsum := hj₁.keeps (.refl m) hsum.keeps
  have hrequest := leads_slave hjsum (request_goes (u := u.place .request) hur hut rfl)
  have hcalled : m.hears ((u.place .request).requested.toField .start).auxOut = m.called :=
    hears_true hms hmr hin hx
  rw [hcalled] at hrequest
  refine ⟨(u.place .request).requested, ?_, ⟨hjsum.masterHost, hjsum.slaveHost, hjsum.drives, rfl⟩,
    hur, TxState.noConfusion, hlen, hout, hparams, by rw [← zero_add 1, ← hcnt]; rfl, hcks⟩
  rw [List.replicate_succ']
  exact (leads_slaveAlone hsum hj₁).trans hrequest

/-- The exchanges of a Slave's frame with the Master it has called, which holds the frame after them and
acknowledges it (R97, R152, R177, R179). -/
theorem leads_frameToMaster {p : List Byte} (hr : s.role = .slave)
    (hs : s.Sends (frameBytes m.params.checksumPos p) v.atAck) (ha : m.armed = true)
    (hmr : m.role = .master) (hc : m.rxCursor = .start) (hl : p.length ≤ m.params.maxLen)
    (hfit : p.length ≤ 65535) (hj : Joined m.called s) :
    Link.Leads (List.replicate (2 * p.length + 10) (.master 0 0)) m.called s
      (m.calling.atEnd p (sum8 p) .ack (.release (.complete true)))
      (v.atAck.place (.drop m.params.ackSentinel)) := by
  obtain ⟨-, -, hmt, hmx⟩ := (armed_iff m).1 ha
  obtain ⟨front, b, hwire, u, hfront, hlast⟩ :=
    readsTo_frame (u := m.calling.begun) rfl hl hfit (sum8 p)
  change frameWith m.params.checksumPos p (sum8 p) = _ at hwire
  have hlen : front.length = p.length + 2 := by
    simpa [frameWith_length] using (congrArg List.length hwire).symm
  have hu : m.calling.begun.Receiving := ⟨hmt, rfl, fun _ => rfl⟩
  have hkeeps := hs.keeps
  rw [frameBytes_eq_frameWith, hwire] at hs
  -- the call, and the marker
  have hcall := leads_master hj (exchangeRequest_of_inactive hmt hmx) (call_goes ha hmr) rfl
  have hj₁ : Joined (m.calling.rxAt .first) s := hj.keeps {} (.refl s)
  obtain ⟨sel, ht, hp, hcnt, hrest⟩ := hs.of_cons
  have hmarker := leads_slaveField hr ht hp hcnt hj₁ (exchangeRequest_of_active hmt rfl)
    (first_goes (u := m.calling) hmt rfl hc) {}
  have hj₂ := hj₁.keeps (m' := m.calling.begun.rxAt .sample) {} (afterField_keeps s sel 0x24)
  have hr₂ := (afterField_keeps s sel 0x24).role.trans hr
  -- the bytes after it
  obtain ⟨s₃, hs₃, hslast⟩ := hrest.cut
  have hbytes := leads_bytesToMaster hs₃ hfront hr₂ hmr hu hj₂
  have hj₃ := hj₂.keeps (hfront.keepsHost.rxAt .sample .sample) hs₃.keeps
  have hr₃ := hs₃.keeps.role.trans hr₂
  -- the last byte
  obtain ⟨sel, ht, hp, hcnt, hnil⟩ := hslast.of_cons
  have hend : ((m.calling.begun.holdingFrame p (sum8 p)).rxAt .pull).frameEnded (sum8 p == sum8 p) =
      m.calling.atEnd p (sum8 p) .ack (.ackSample true) := by
    rw [beq_self_eq_true]
    exact frameEnded_master _ _ hmr
  have hg := pullLast_goes (hfront.keeps.2.2 hu) hlast
  rw [hend] at hg
  have hklast : u.Keeps (m.calling.atEnd p (sum8 p) .ack (.ackSample true)) := { hlast.keeps with }
  have hbyte := leads_checkedField hr₃ ht hp hcnt (hfront.keeps.1.trans hmr) (hfront.keeps.2.2 hu) hj₃
    hg hklast
  have hj₄ := hj₃.keeps (m' := m.calling.atEnd p (sum8 p) .ack (.ackSample true)) { hklast with }
    (afterField_keeps s₃ sel b)
  rw [hnil.eq_of_nil] at hbyte hj₄
  -- the acknowledgement
  have hack := leads_acknowledge (m := m.calling) hmt rfl (hkeeps.role.trans hr) TxState.noConfusion
    rfl hj₄
  have hcount : 2 * p.length + 10 = 1 + (1 + (2 * front.length + (2 + 2))) := by omega
  rw [hcount, List.replicate_add, List.replicate_add, List.replicate_add, List.replicate_add]
  exact hcall.trans (hmarker.trans (hbytes.trans (hbyte.trans hack)))

/-- A Master at the end of the exchanges has the frame. -/
theorem receiveEnds_atEnd (hq : m.hostQ = []) (ht : m.txState = .idle) (hm : m.stage.wf = true)
    {p : List Byte} (hl : p.length ≤ m.params.maxLen) (hfit : p.length ≤ 65535) (x : Turn) (c : Nat)
    (tr : List Event) :
    ((m.calling.atEnd p (sum8 p) .ack (.release (.complete true))).withGhost x c tr).receiveEnds p
      2 := by
  have hlen : (payloadLen p).toNat = p.length := payloadLen_toNat p hfit
  refine ⟨⟨hq, ht, rfl, hlen.trans_le hl, ?_⟩, rfl⟩
  show (m.stage.store p).bytes (payloadLen p).toNat = p
  rw [hlen]
  exact Memory.bytes_store hm p

/-- A Slave's send to an armed idle Master, from the step after its acceptance (R152, R177, R242). -/
theorem linkRun_slaveSend {len : Half} {ends : List LinkTurn} (hm : Inv m) (hr : s.role = .slave)
    (hparams : m.params = s.params) (hmr : m.role = .master) (ha : m.armed = true)
    (hin : m.auxIn = false) (hx : m.auxPrev = false ∨ m.auxPending = true)
    (hl : len.toNat ≤ m.params.maxLen) (hj : Joined m s)
    (hends : ends.Perm [.master 0 0, .master 0 0, .slave, .slave])
    (hsched : l.sched = List.replicate (len.toNat + 2) .slave ++
      List.replicate (2 * len.toNat + 10) (.master 0 0) ++ ends) (hat : l.At m (s.beginSend len)) :
    ∃ k, linkRun (3 * len.toNat + 16) l = .next k ∧
      k.master.Delivered (s.outbox.bytes len.toNat) ∧ k.slave.sendEnds 0 := by
  obtain ⟨hms, -, hmt, hmx⟩ := (armed_iff m).1 ha
  have hlen := Memory.bytes_length s.outbox len.toNat
  obtain ⟨u, hrequest, hju, hur, hut, rfl, hout, hup, hcnt, hk⟩ :=
    leads_request (len := len) hr hms hmr hin hx hj
  have hsends := frame_sends hut (fun _ => hout ▸ hk)
  rw [frameSent_slave (s := u.inBody _ _) hur, hout, hup, ← hparams] at hsends
  have hfit : (s.outbox.bytes u.txLen.toNat).length ≤ 65535 := by omega
  have hframe := leads_frameToMaster (s := u.toField .start)
    (v := u.inBody u.txLen (sum8 (s.outbox.bytes u.txLen.toNat))) hur hsends ha hmr
    (hm.receiveSound.cursor_of_inactive hmx) (hlen.trans_le hl) hfit hju
  rw [hlen] at hframe
  obtain ⟨k₁, hrun₁, hsched₁, ⟨⟨x, c, tr, hmaster⟩, ⟨y, d, es, hslave⟩⟩⟩ :=
    (hrequest.trans hframe) l ends hsched hat
  have hreceive := receiveEnds_atEnd hj.masterHost hmt hm.memory.1 (hlen.trans_le hl) hfit x c tr
  have hsend : k₁.slave.sendEnds 2 := by
    rw [hslave]
    refine ⟨⟨hju.slaveHost, hur, hcnt⟩, TxState.noConfusion, ?_⟩
    show TxPoint.drop m.params.ackSentinel = .drop u.params.ackSentinel
    rw [hup, hparams]
  obtain ⟨k, hrun, hend⟩ := linkRun_ends (a := 2) (b := 2) hends hsched₁ (hmaster ▸ hreceive) hsend
  refine ⟨k, ?_, hend⟩
  have hcount : 3 * u.txLen.toNat + 16 = (List.replicate (u.txLen.toNat + 2) LinkTurn.slave ++
      List.replicate (2 * u.txLen.toNat + 10) (LinkTurn.master 0 0)).length + ends.length := by
    rw [hends.length_eq, List.length_append, List.length_replicate, List.length_replicate]
    simp only [List.length_cons, List.length_nil]
    omega
  rw [hcount, linkRun_add, hrun₁, andThen_next, hrun]

/-- The step in which the Slave's host offers the `SEND`. -/
theorem linkStep_slaveHost {len : Half} {ts : List LinkTurn} (hj : Joined m s)
    (ha : s.acceptsSend = true) (hc : s.canSend = true) :
    ∃ k, linkStep ⟨m, s, .slaveHost (sendItem len) :: ts⟩ = .next k ∧ k.sched = ts ∧
      k.At m (s.beginSend len) := by
  have hslave := (onlySlave_eq_next ⟨m, s, ts⟩ _ _).2
    ⟨_, stepWith_send hj.slaveHost ha hc len, rfl⟩
  obtain ⟨k, hk, hsched, hat⟩ := linkStep_at (l := ⟨m, s, .slaveHost (sendItem len) :: ts⟩) rfl
    hj.drives hslave ⟨⟨m.now, m.freeCtr, m.trace, rfl⟩, ⟨_, _, _, rfl⟩⟩
  rw [hears_of_eq (hj.keeps (.refl m) (beginSend_keeps s len)).wired] at hat
  exact ⟨k, hk, hsched, hat⟩

end Sys2Proof.Machine

section

open Sys2Proof Sys2Proof.Machine

/-- Settles O60: each endpoint is followed from step to step, the sender by the fields it sends and the
receiver by the bytes it reads; every exchange of the link carries both, and the last steps of the two
ends, which do not meet, come in any order. -/
theorem linkDeliversMasterSend : Obligations.LinkDeliversMasterSend := by
  intro l len j ends hm hs hmr hsr hparams haux hmq hsq _ _ hl send steps
  refine ⟨fun hready ha hc hj3 => ?_, fun ha hx hsa hsc hends => ?_⟩
  · obtain ⟨hss, -, -, hsx, -⟩ := rxsReady_iff.1 hready
    have hj : Joined l.master l.slave := ⟨hmq, hsq, (drivesAux_iff _).2 ⟨hss, hsr⟩, haux⟩
    obtain ⟨u, hlead⟩ := leads_masterSend hmr hparams hready
      (hs.receiveSound.cursor_of_inactive hsx) hl hj hj3
    obtain ⟨k, hrun, ⟨x, c, tr, hkm⟩, ⟨y, d, es, hks⟩⟩ := linkRun_masterHost hj ha hc hlead
    have hinbox := withFrame_inboxBytes hs.memory.1
      ((Memory.bytes_length l.master.outbox len.toNat).trans_le (by omega))
      (sum8 (l.master.outbox.bytes len.toNat))
    have hcount : steps + 2 = (List.replicate (steps - j) (LinkTurn.master 0 0) ++
        LinkTurn.slave :: List.replicate j (LinkTurn.master 0 0)).length + 1 := by
      simp only [List.length_append, List.length_cons, List.length_replicate]
      omega
    rw [hcount]
    refine ⟨k, hrun, ?_⟩
    rw [hkm, hks]
    exact ⟨rfl, rfl, rfl, hinbox, rfl, beq_self_eq_true _, rfl⟩
  · obtain ⟨hst, -, -⟩ := (acceptsSend_iff _).1 hsa
    have hj : Joined l.master l.slave :=
      ⟨hmq, hsq, (drivesAux_iff _).2 ⟨((canSend_iff _).1 hsc).2, hsr⟩, haux⟩
    have hin : l.master.auxIn = false := by
      rw [haux, hs.auxLine, hs.txState_idle_iff.1 hst]
      simp [auxAt]
    obtain ⟨k₁, hstep, hsched, hat⟩ := linkStep_slaveHost (len := len) hj hsa hsc
    obtain ⟨k, hrun, hmaster, ⟨hattempt, hresult, hidle, henable, hline⟩⟩ :=
      linkRun_slaveSend hm hsr hparams hmr ha hin hx (hparams ▸ hl) hj hends hsched hat
    have hwhole := (congrArg (andThen · (linkRun (3 * len.toNat + 16))) hstep).trans hrun
    exact ⟨k, hwhole, hresult, hidle, henable, hattempt.count, hline, hmaster.inbox,
      hmaster.newMessage, hmaster.success, hmaster.idle, hmaster.chipSelect⟩

end
end

section
/-! The end of a Slave's attempt (R151 to R156): one equation for each answer of the acknowledgement
test and of the count of attempts, with the line released in each. -/

namespace Sys2Proof.Machine

variable {s : State} {r : Byte}

/-- `ACK_SENTINEL` is the only byte that acknowledges (R155). -/
theorem acknowledged_iff : s.acknowledged r = true ↔ r = s.params.ackSentinel := beq_iff_eq

theorem lastAttempt_iff : s.lastAttempt = true ↔ s.attemptCnt.toNat = s.params.retries := beq_iff_eq

theorem endAttempt_of_acknowledged (ha : r = s.params.ackSentinel) :
    s.endAttempt r = { s with
      auxOut := false, txState := .done, txPoint := .finish true
      trace := .aux false :: s.trace } :=
  if_pos (acknowledged_iff.2 ha)

theorem endAttempt_of_lastAttempt (ha : r ≠ s.params.ackSentinel)
    (hl : s.attemptCnt.toNat = s.params.retries) :
    s.endAttempt r = { s with
      auxOut := false, txState := .done, txPoint := .finish false
      trace := .aux false :: s.trace } :=
  (if_neg (mt acknowledged_iff.1 ha)).trans (if_pos (lastAttempt_iff.2 hl))

theorem endAttempt_of_attemptsLeft (ha : r ≠ s.params.ackSentinel)
    (hl : s.attemptCnt.toNat ≠ s.params.retries) :
    s.endAttempt r = { s with
      auxOut := false, txState := .retry, txPoint := .backoff
      trace := .aux false :: s.trace } :=
  (if_neg (mt acknowledged_iff.1 ha)).trans (if_neg (mt lastAttempt_iff.1 hl))

/-- The step after the acknowledgement exchange ends the attempt (R155). -/
theorem runTurns_drop (hr : s.role = .slave) (ht : s.txState ≠ .idle) (hp : s.txPoint = .drop r) :
    State.runTurns [Turn.run] s = .next (State.endAttempt { s with now := Turn.run } r) :=
  runTurns_slave hr ht [] (slaveMove_drop { s with now := Turn.run } r hp) (endAttempt_now _ r)

end Sys2Proof.Machine

section

open Sys2Proof Sys2Proof.Machine

/-- Settles O54: the step is the end of the attempt, which has one case for each answer of the
acknowledgement test and of the count of attempts. -/
theorem acknowledgementTest : Obligations.AcknowledgementTest := by
  intro s r hr hstate hp
  have hbusy : s.txState ≠ .idle := by simp [hstate]
  rw [runTurns_drop hr hbusy hp]
  congr 1
  split
  next ha => exact endAttempt_of_acknowledged ha
  next ha =>
    split
    next hl => exact endAttempt_of_lastAttempt ha hl
    next hl => exact endAttempt_of_attemptsLeft ha hl

end
end

section
/-! The row `Complete(ok)` (R180), as the operation of the state that ends a recognized frame. -/

namespace Sys2Proof.Machine

theorem exec_complete (ok : Bool) (s : State) : exec (.complete ok) s = s.complete ok := rfl

end Sys2Proof.Machine

section

open Sys2Proof Sys2Proof.Machine

/-- Settles O30: the row runs the common end of a frame, and `complete_eq` says what that leaves of a
frame the Inbox can hold. -/
theorem completeInOneStep : Obligations.CompleteInOneStep := by
  intro s ok hfit
  rw [exec_complete]
  exact complete_eq s ok hfit

end
end

section
/-! The host's commands that an idle block accepts (R201, R202, R204, R205, R211): the shared frame with
its failed endpoint, and what `START` does in each of its three cases. -/

namespace Sys2Proof.Machine

variable {s : State}

/-- An idle block accepts a command: a failed endpoint ignores it, any other has its effect. -/
theorem plainCommand_of_accepted (ht : s.txState = .idle) (i : Instr) (f : State → State) :
    s.plainCommand i f =
      if s.fault = true then { s with trace := .cmdDone false :: s.trace } else f s := by
  split
  next hf => exact plainCommand_of_fault s i f ht hf
  next hf => exact plainCommand_of_idle s i f ht (Bool.eq_false_iff.2 hf)

theorem startEffect_of_started (hs : s.started = true) (r : Role) (cb : Bool) :
    s.startEffect r cb = { s with trace := .cmdDone true :: s.trace } :=
  if_pos hs

/-- A peripheral that cannot be configured fails the endpoint (R25, R227). -/
theorem startEffect_of_halFault (hs : s.started = false) (hh : s.halOk = false) (r : Role)
    (cb : Bool) :
    s.startEffect r cb = { s with
      fault := true
      trace := .cmdDone false :: .outcome .halFault :: .halConfigure r false :: s.trace } := by
  simp [State.startEffect, hs, hh, State.halFault, State.raise, State.done, State.log]

/-- An effective `START` logs the configuration, initialises and completes (R201, R278). -/
theorem startEffect_of_configured (hs : s.started = false) (hh : s.halOk = true) (r : Role)
    (cb : Bool) :
    s.startEffect r cb = ((s.log (.halConfigure r true)).initialise r cb).done true := by
  simp [State.startEffect, hs, hh]

end Sys2Proof.Machine

section

open Sys2Proof Sys2Proof.Machine

/-- Settles O33: the shared frame takes the failed endpoint, and `startEffect` has an equation for each
of the other three cases. -/
theorem startEffects : Obligations.StartEffects := by
  intro s r cb ht
  refine congrArg _ ((plainCommand_of_accepted ht _ _).trans (if_congr Iff.rfl rfl ?_))
  split
  next hs => exact startEffect_of_started hs r cb
  next hs =>
    have hs : s.started = false := Bool.eq_false_iff.2 hs
    split
    next hh => exact startEffect_of_halFault hs hh r cb
    next hh =>
      rw [startEffect_of_configured hs (Bool.eq_true_of_not_eq_false hh), initialise_eq]
      cases r <;> rfl

/-- Settles O34: a started endpoint has a receive in flight, which is abandoned, or has none. -/
theorem stopEffects : Obligations.StopEffects := by
  intro s ht
  refine congrArg _ ((plainCommand_of_accepted ht _ _).trans (if_congr Iff.rfl rfl ?_))
  split
  next hs => exact stopEffect_of_stopped hs
  next hs =>
    have hs : s.started = true := Bool.eq_true_of_not_eq_false hs
    cases ha : s.rxActive with
    | true => exact stopEffect_of_active hs ha
    | false =>
      rw [stopEffect_of_inactive hs ha, ha]
      rfl

/-- Settles O36: both effects write one bit, and a `DETACH` of a detached endpoint writes the value the
bit has. -/
theorem handlerCommands : Obligations.HandlerCommands := by
  intro s ht
  refine ⟨congrArg _ (plainCommand_of_accepted ht _ _),
    congrArg _ (plainCommand_of_accepted ht _ _), fun hf hc => ?_⟩
  have hsame : { s with cbEnable := false } = s := by rw [← hc]
  exact congrArg _ ((plainCommand_of_idle s _ _ ht hf).trans (congrArg (State.done · true) hsame))

end
end

section
/-! A trigger that is ready in the step in which a `SEND` is offered (R171, R200, R230 item 2): the
three ways to be ready, and the step of a `SEND` that waits, which is the block's own move. -/

namespace Sys2Proof.Machine

variable {s : State} {t : Turn} {ts : List Turn} {c : CmdPort} {q : List HostItem}

/-! ## The triggers -/

theorem triggerReady_of_pending (hr : s.role = .master) (hs : s.started = true)
    (he : s.rxEnable = true) (hp : s.auxPending = true) : s.triggerReady = true := by
  simp [State.triggerReady, hr, hs, he, hp]

/-- An edge that arrives in this step counts as ready (R230 item 2). -/
theorem triggerReady_of_edge (hr : s.role = .master) (hs : s.started = true)
    (he : s.rxEnable = true) (hx : s.auxPrev = false) (ha : s.now.aux = some true) :
    s.triggerReady = true := by
  simp [State.triggerReady, State.edgeNow, hr, hs, he, hx, ha]

theorem triggerReady_of_byte (hready : s.rxsReady = true) {b : Byte} (hm : s.now.move = .byte b) :
    s.triggerReady = true := by
  obtain ⟨-, -, -, -, hr⟩ := rxsReady_iff.1 hready
  simp [State.triggerReady, State.byteNow, hr, hready, hm]

theorem rxmReady_iff :
    s.rxmReady = true ↔ s.started = true ∧ s.rxEnable = true ∧ s.txState = .idle ∧
      s.rxActive = false ∧ s.role = .master ∧ s.auxPending = true := by
  simp [State.rxmReady, armed_iff, and_assoc]

/-- The latched edge at an armed Master starts its receive (R171, R176, R177). -/
theorem blockMove_pending (hm : s.now.move = .run) (h : s.rxmReady = true) :
    s.blockMove = .next s.startRxm := by
  obtain ⟨-, -, ht, ha, -, -⟩ := rxmReady_iff.1 h
  rw [blockMove_run_idle hm (by simp [busy_eq, ht, ha])]
  exact if_pos h

/-- A started Master that sees an edge has it pending (R28). -/
theorem auxPhase_auxPending_of_edge (hs : s.started = true) (hr : s.role = .master)
    (hx : s.auxPrev = false) (ha : s.now.aux = some true) : s.auxPhase.auxPending = true := by
  simp [State.auxPhase, ha, State.auxChange, hs, hr, hx]

/-! ## The step of a `SEND` that waits -/

theorem accepts_of_send (hop : c.op = 0b011#3) : s.accepts (.cmd c) = s.acceptsSend :=
  if_pos hop

/-- With a trigger ready nothing is taken from a thread that is at a `SEND` (R200). -/
theorem fetch_of_triggerReady (hop : c.op = 0b011#3) (hq : s.hostQ = .cmd c :: q)
    (htr : s.triggerReady = true) : s.fetch = none := by
  have hwait : s.accepts (.cmd c) = false :=
    (accepts_of_send hop).trans (acceptsSend_of_not fun ⟨_, _, h⟩ => by simp [htr] at h)
  refine fetch_of_not_accepts fun i _ hi => ?_
  obtain ⟨rfl, -⟩ := List.cons.inj (hq.symm.trans hi)
  exact hwait

/-- The step of a trigger that goes before a `SEND` is the block's own move and the aux line's part
(R230). -/
theorem step_of_triggerReady (hsched : s.sched = t :: ts) (hrst : t.rst = false)
    (hoffer : t.offer = none) (hop : c.op = 0b011#3) (hq : s.hostQ = .cmd c :: q)
    (htr : ({ s with sched := ts }.sense t).triggerReady = true) :
    step s = andThen ({ s with sched := ts }.sense t).blockMove fun u => .next u.auxPhase := by
  have hlatch := latch_cons s t ts hsched
  have hthread : ({ s with sched := ts }.sense t).hostQ = .cmd c :: q := by
    simp [Turn.hostAfter, hoffer, hq]
  rw [← hlatch] at htr hthread ⊢
  exact step_of_fetch_none (by rw [hlatch]; exact hrst) (fetch_of_triggerReady hop hthread htr)

end Sys2Proof.Machine

section

open Sys2Proof Sys2Proof.Machine

/-- Settles O55: in each of the three cases the trigger is ready under the signals of the step, so that
the step is the block's own move and then the aux line's part: the start of `RXM`, the latch of the edge,
the start of `RXS`. -/
theorem triggerBeforeSend : Obligations.TriggerBeforeSend := by
  intro s c q ts hop hq hs he ht ha hcur
  refine ⟨fun hr hp hsched => ?_, fun hr hx hsched => ?_, fun hr hsched => ?_⟩
  · have hready : ({ s with sched := ts }.sense Turn.run).rxmReady = true :=
      rxmReady_iff.2 ⟨hs, he, ht, ha, hr, hp⟩
    rw [step_of_triggerReady hsched rfl rfl hop hq (triggerReady_of_pending hr hs he hp),
      blockMove_pending rfl hready, andThen_next, auxPhase_of_none rfl]
    exact ⟨_, rfl, rfl, rfl, ht, rfl⟩
  · rw [step_of_triggerReady hsched rfl rfl hop hq (triggerReady_of_edge hr hs he hx rfl),
      blockMove_quiet rfl, andThen_next]
    exact ⟨_, rfl, auxPhase_auxPending_of_edge hs hr hx rfl, (State.auxPhase_txState _).trans ht,
      State.auxPhase_hostQ _⟩
  · have hready : ({ s with sched := ts }.sense (Turn.byte 0x24)).rxsReady = true :=
      rxsReady_iff.2 ⟨hs, he, ht, ha, hr⟩
    rw [step_of_triggerReady hsched rfl rfl hop hq (triggerReady_of_byte hready rfl),
      blockMove_marker rfl hready hcur, andThen_next, auxPhase_of_none rfl]
    exact ⟨_, rfl, rfl, ht, rfl⟩

end
end

section
/-! Reset and the invariant (R46, R260, R79, R42): what reset leaves, and what the invariant says of
the two paths and of the two lines. -/

namespace Sys2Proof.Machine

variable {s : State}

/-! ## Reset -/

/-- A stopped endpoint sees the aux line's level and latches nothing (R28). -/
theorem auxPhase_of_stopped (hs : s.started = false) :
    s.auxPhase = { s with auxIn := s.now.aux.getD s.auxIn } := by
  obtain ⟨ha, he⟩ | ⟨v, ha, he⟩ := auxPhase_cases s <;> rw [he, ha]
  · rfl
  · simp [State.auxChange, hs]

/-- A step with reset leaves the reset state, and the level of the aux line (R230 item 1, R260). -/
theorem step_of_rst_eq (h : s.latch.now.rst = true) :
    step s = .next { s.latch.hardReset with auxIn := s.latch.now.aux.getD s.latch.auxIn } :=
  (step_of_rst s h).trans (congrArg _ (auxPhase_of_stopped rfl))

/-- An endpoint at rest with its counters at 0 meets the invariant. -/
theorem inv_reset : Inv State.reset where
  params := by decide
  memory := reset_memories_wf
  faulted := fun _ => rfl
  stopped := fun _ => ⟨rfl, rfl, rfl, rfl, rfl⟩
  alone := fun _ => rfl
  active := by simp [State.reset]
  txState := rfl
  txAt := rfl
  rxAt := rfl
  enable := by simp [State.reset]
  pending := by simp [State.reset]
  chipSelect := rfl
  auxLine := rfl
  sendCount := trivial
  attempts := ⟨Nat.zero_le _, fun _ => Nat.zero_le _⟩
  receiveCount := trivial
  publishFits := by simp [State.reset]
  inboxFits := Nat.zero_le _

/-! ## The two paths (R79) -/

theorem Inv.exclusive (h : Inv s) : s.exclusive := by
  intro ht
  by_contra ha
  exact ht (h.txState_idle_iff.2 (h.txPoint_of_rxPoint (h.active.1 (by simpa using ha))))

theorem Inv.rxActive_of_cursor (h : Inv s) (hc : s.rxCursor ≠ .start) : s.rxActive = true := by
  by_contra ha
  exact hc (h.receiveSound.cursor_of_inactive (by simpa using ha))

/-! ## The two lines (R42, R81) -/

theorem Inv.csOut_iff (h : Inv s) :
    s.csOut = true ↔ s.role = .master ∧ csAt s.txPoint s.rxPoint = true := by
  rw [h.chipSelect, Bool.and_eq_true, beq_iff_eq]

theorem Inv.auxOut_iff (h : Inv s) :
    s.auxOut = true ↔ s.role = .slave ∧ auxAt s.txPoint = true := by
  rw [h.auxLine, Bool.and_eq_true, beq_iff_eq]

theorem Inv.lines_of_rest (h : Inv s) (ht : s.txPoint = .idle) (hr : s.rxPoint = .idle) :
    s.csOut = false ∧ s.auxOut = false := by
  refine ⟨?_, ?_⟩
  · rw [h.chipSelect, ht, hr]; exact Bool.and_false _
  · rw [h.auxLine, ht]; exact Bool.and_false _

/-- A send at an exchange is at a field of the frame, or a Slave's at `ACK_REQUEST_BYTE` (R142,
R152). -/
theorem Inv.sending_of_txRequest (h : Inv s) (hx : s.txRequest ≠ none) :
    (∃ sel b, s.txPoint = .send sel b) ∨ (s.txPoint = .ack ∧ s.role = .slave) := by
  obtain ⟨b, hb⟩ := Option.ne_none_iff_exists'.1 hx
  obtain ⟨sel, hp⟩ | ⟨hp, -⟩ := txRequest_eq_some.1 hb
  · exact .inl ⟨sel, b, hp⟩
  · refine .inr ⟨hp, (role_cases s.role).resolve_left fun hr => ?_⟩
    simpa [hr, hp, txPlace] using h.txAt

/-- A Master exchanges only with chip-select active (R81, R140, R177). -/
theorem Inv.csOut_of_exchange (h : Inv s) (hr : s.role = .master) (hx : s.exchangeRequest ≠ none) :
    s.csOut = true := by
  refine h.csOut_iff.2 ⟨hr, ?_⟩
  by_cases ht : s.txState = .idle
  · have ha : s.rxActive = true := by
      by_contra ha
      exact hx (exchangeRequest_of_inactive ht (by simpa using ha))
    rw [exchangeRequest_of_active ht ha] at hx
    obtain ⟨b, hb⟩ := Option.ne_none_iff_exists'.1 hx
    obtain ⟨hp | hp, -⟩ | ⟨ok, hp, -⟩ := rxRequest_eq_some.1 hb <;> rw [hp] <;> exact Bool.or_true _
  · rw [exchangeRequest_of_busy ht] at hx
    obtain ⟨sel, b, hp⟩ | ⟨-, hslave⟩ := h.sending_of_txRequest hx
    · rw [hp]; rfl
    · simp [hr] at hslave

/-- A Slave's send exchanges only with the aux line asserted (R81, R156). -/
theorem Inv.auxOut_of_exchange (h : Inv s) (hr : s.role = .slave) (ht : s.txState ≠ .idle)
    (hx : s.exchangeRequest ≠ none) : s.auxOut = true := by
  rw [exchangeRequest_of_busy ht] at hx
  refine h.auxOut_iff.2 ⟨hr, ?_⟩
  obtain ⟨sel, b, hp⟩ | ⟨hp, -⟩ := h.sending_of_txRequest hx <;> rw [hp] <;> rfl

end Sys2Proof.Machine

section

open Sys2Proof Sys2Proof.Machine

/-- Settles O8: the host's part, the block's own move and the aux line's part each keep the
invariant, and so does reset (`Inv.step`). -/
theorem stepKeepsInvariant : Obligations.StepKeepsInvariant := fun _ _ h ht => h.of_step ht

/-- Settles O6: the step is reset and the level of the aux line, and every clause is read off the
state it leaves. -/
theorem resetLeaves : Obligations.ResetLeaves := fun _ h =>
  ⟨_, step_of_rst_eq h, rfl, rfl, rfl, rfl, rfl, rfl, rfl, rfl, rfl, rfl, rfl, rfl, rfl, rfl, rfl,
    rfl, rfl, rfl, rfl⟩

/-- Settles O7, clause by clause of the invariant. -/
theorem resetInvariant : Obligations.ResetInvariant := inv_reset

/-- Settles O10: both clauses are consequences of the invariant, which the next state meets too. -/
theorem pathsExclude : Obligations.PathsExclude := fun _ h =>
  ⟨h.exclusive, h.rxActive_of_cursor, fun _ ht =>
    ⟨(h.of_step ht).exclusive, (h.of_step ht).rxActive_of_cursor⟩⟩

/-- Settles O11: the lines follow the places of the two state machines, and a stopped endpoint or
one with nothing in progress is at no place; an exchange is at a place inside the bracket of its
role. -/
theorem linesFollowOperations : Obligations.LinesFollowOperations := by
  intro s h
  refine ⟨fun hs => ?_, fun ht ha => ?_, fun hc => (h.csOut_iff.1 hc).1,
    fun hx => (h.auxOut_iff.1 hx).1, h.csOut_of_exchange, h.auxOut_of_exchange⟩
  · obtain ⟨htp, hrp, -, -, -⟩ := h.stopped hs
    exact h.lines_of_rest htp hrp
  · exact h.lines_of_rest (h.txState_idle_iff.1 ht) (h.rxPoint_of_inactive ha)

end
end

section
/-! Rows that publish, send, or start a receive (R131, R203, R177), and the names under which
operations stop where the spec gives them no cell or no effect (R40, R41, R103, R124, R126). -/

namespace Sys2Proof.Machine

variable {s : State}

/-! ## Publication (R131) -/

theorem exec_commit (ok : Bool) (s : State) : exec (.commit ok) s = s.commit ok := rfl

/-- Below the new size the host reads the staged frame, at and beyond it `0x00` (R75, R131). -/
theorem inboxByte_of_staged (hi : s.inbox = s.stage.below s.rxLen.toNat)
    (hn : s.inboxSize = s.rxLen) (i : Nat) :
    s.inboxByte i = if i < s.rxLen.toNat then s.stage.read i else 0x00 := by
  rw [State.inboxByte, hi, hn, Memory.read_below]
  split <;> rfl

/-! ## Where the data path stops -/

theorem decTrailing_of_ack (hc : s.rxCursor = .ack) (b : Byte) :
    s.decTrailing b = .fault .decStepAtAck := by
  rw [State.decTrailing, hc]

theorem decLeading_of_ack (hc : s.rxCursor = .ack) (b : Byte) :
    s.decLeading b = .fault .decStepAtAck := by
  rw [State.decLeading, hc]

theorem takePayload_of_noIndex (hi : s.params.maxLen ≤ s.byteCnt.toNat) (b : Byte) :
    s.takePayload b = .fault .stageRange := by
  rw [State.takePayload, stageByte_of_le s b hi, andThen_fault]

theorem decTrailing_of_noIndex (hc : s.rxCursor = .payload) (hi : s.params.maxLen ≤ s.byteCnt.toNat)
    (b : Byte) : s.decTrailing b = .fault .stageRange := by
  simp only [State.decTrailing, hc, takePayload_of_noIndex hi, andThen_fault]

theorem decLeading_of_noIndex (hc : s.rxCursor = .payload) (hi : s.params.maxLen ≤ s.byteCnt.toNat)
    (b : Byte) : s.decLeading b = .fault .stageRange := by
  simp only [State.decLeading, hc, takePayload_of_noIndex hi, andThen_fault]

/-- A row of the decoder stops where its decode step does. -/
theorem exec_decStep_of_fault {b : Byte} {e : Fault} (h : s.decTrailing b = .fault e) :
    exec (.decStep b) s = .fault e := by
  rw [exec, execDecStep, h, andThen_fault]

theorem exec_decStepLeading_of_fault {b : Byte} {e : Fault} (h : s.decLeading b = .fault e) :
    exec (.decStepLeading b) s = .fault e := by
  rw [exec, execDecStepLeading, h, andThen_fault]

theorem commit_fault (ok : Bool) (h : s.params.maxLen < s.rxLen.toNat) :
    s.commit ok = .fault .inboxRange := by
  simp [State.commit, State.overLong, h]

/-! ## `SEND` and its two role forms (R203) -/

theorem exec_send_of_rejected (ha : s.acceptsSend = true) (hc : s.fault = true ∨ s.started = false)
    (len : Half) :
    exec (.send len) s =
      .next { s with sendResult := false, trace := .cmdDone false :: s.trace } := by
  have hno : s.canSend = false := by
    obtain h | h := hc <;> simp [State.canSend, h]
  simp only [exec, execSend, ha, hno, if_true, Bool.false_eq_true, if_false]
  rfl

theorem exec_ssend_of_accepted (ha : s.acceptsSend = true) (hc : s.canSend = true)
    (hr : s.role = .slave) (len : Half) : exec (.ssend len) s = .next (s.beginSlaveSend len) := by
  simp only [exec, execSsend, ha, hc, if_true, hr]

theorem exec_msend_of_slave (ha : s.acceptsSend = true) (hc : s.canSend = true)
    (hr : s.role = .slave) (len : Half) : exec (.msend len) s = .refused .wrongRole := by
  simp only [exec, execMsend, ha, hc, if_true, hr]

theorem exec_ssend_of_master (ha : s.acceptsSend = true) (hc : s.canSend = true)
    (hr : s.role = .master) (len : Half) : exec (.ssend len) s = .refused .wrongRole := by
  simp only [exec, execSsend, ha, hc, if_true, hr]

theorem beginSend_of_master (hr : s.role = .master) (len : Half) :
    s.beginSend len = s.beginMasterSend len := by
  rw [State.beginSend, hr]

theorem beginSend_of_slave (hr : s.role = .slave) (len : Half) :
    s.beginSend len = s.beginSlaveSend len := by
  rw [State.beginSend, hr]

/-! ## The latched edge (R171, R176) -/

theorem execRxm_of_ready (h : s.rxmReady = true) : execRxm s = .next s.startRxm := if_pos h

theorem execRxm_of_not_ready (h : s.rxmReady = false) : execRxm s = .next s :=
  if_neg (Bool.eq_false_iff.1 h)

/-! ## The aux line's part of a step (R28, R278, R279) -/

/-- A step whose host does nothing is the block's own move, and the aux line's part. -/
theorem step_of_empty_thread {t : Turn} {ts : List Turn} (hq : s.hostQ = [])
    (hsched : s.sched = t :: ts) (hoffer : t.offer = none) (hrst : t.rst = false) :
    step s = andThen ({ s with sched := ts }.sense t).blockMove fun u => .next u.auxPhase := by
  have h := stepWith_of_idle_host (s := { s with sched := ts }) hq hoffer hrst
  rw [State.stepWith, ← hsched] at h
  exact h

/-- Only a started Master follows the line, and sees edges from the level it saw last (R28). -/
theorem auxChange_eq (s : State) (v : Bool) :
    s.auxChange v = if s.started = true ∧ s.role = .master then
        { s with auxIn := v, auxPrev := v, auxPending := s.auxPending || (v && !s.auxPrev) }
      else { s with auxIn := v } := by
  simp [State.auxChange]

end Sys2Proof.Machine

section

open Sys2Proof Sys2Proof.Machine

/-- Settles O28: a frame that fits is committed, and the Inbox is then the staged bytes below its
length. -/
theorem commitPublishes : Obligations.CommitPublishes := by
  intro s ok hfit
  refine ⟨_, (exec_commit ok s).trans (commit_eq s ok hfit), rfl, ?_, Memory.below_wf _ _⟩
  exact inboxByte_of_staged rfl rfl

/-- Settles O31, name by name. -/
theorem whereOperationsStop : Obligations.WhereOperationsStop := by
  intro s b ok len p
  refine ⟨fun hc => ⟨exec_decStep_of_fault (decTrailing_of_ack hc b),
      exec_decStepLeading_of_fault (decLeading_of_ack hc b)⟩,
    fun hc hi => ⟨exec_decStep_of_fault (decTrailing_of_noIndex hc hi b),
      exec_decStepLeading_of_fault (decLeading_of_noIndex hc hi b)⟩,
    fun hl => ⟨(exec_commit ok s).trans (commit_fault ok hl),
      (exec_complete ok s).trans (complete_fault s ok hl)⟩,
    fun ha hc hr => exec_msend_of_slave ha hc hr len,
    fun ha hc hr => exec_ssend_of_master ha hc hr len, fun hp => ?_⟩
  have hlong : ¬ payloadFits p = true := fun h => absurd ((payloadFits_iff p).1 h) (by omega)
  exact ⟨if_neg hlong, if_neg hlong, if_neg hlong, if_neg hlong, if_neg hlong⟩

/-- Settles O35: a `SEND` that cannot run writes its result; any other begins the send of its role,
as the role's own form of the command does. -/
theorem sendBegins : Obligations.SendBegins := by
  intro s len ha
  refine ⟨fun hc => exec_send_of_rejected ha hc len, fun hf hs hr => ?_, fun hf hs hr => ?_⟩
  · have hc := (canSend_iff s).2 ⟨hf, hs⟩
    have hm := exec_msend_of_accepted ha hc hr len
    have hsend := (execSend_of_accepted ha hc len).trans (congrArg _ (beginSend_of_master hr len))
    refine ⟨hsend.trans hm.symm, hm.trans (congrArg _ ?_)⟩
    rw [State.beginMasterSend]
    cases s.params.checksumPos <;> rfl
  · have hc := (canSend_iff s).2 ⟨hf, hs⟩
    have hm := exec_ssend_of_accepted ha hc hr len
    have hsend := (execSend_of_accepted ha hc len).trans (congrArg _ (beginSend_of_slave hr len))
    exact ⟨hsend.trans hm.symm, hm⟩

/-- Settles O42: the conditions are those of `rxmReady`, or one of them fails. -/
theorem edgeStartsReceive : Obligations.EdgeStartsReceive := by
  intro s
  refine ⟨fun hs he ht ha hr hp => ?_, fun hno => ?_⟩
  · exact execRxm_of_ready (rxmReady_iff.2 ⟨hs, he, ht, ha, hr, hp⟩)
  · refine execRxm_of_not_ready (Bool.eq_false_iff.2 fun hready => ?_)
    obtain ⟨hs, he, ht, ha, hr, hp⟩ := rxmReady_iff.1 hready
    simp [hs, he, ht, ha, hr, hp] at hno

/-- Settles O56: in a quiet step the line takes its level, which only a started Master follows; in
the step in which `RXM` starts the edge comes after the request is taken. -/
theorem edgeIsLatched : Obligations.EdgeIsLatched := by
  intro s v ts hq
  refine ⟨fun hsched => ?_, fun hready hprev hsched => ?_⟩
  · rw [step_of_empty_thread hq hsched rfl rfl, blockMove_quiet rfl, andThen_next]
    exact congrArg _ (auxChange_eq _ v)
  · obtain ⟨hs, -, -, -, hr, -⟩ := rxmReady_iff.1 hready
    have hsensed : ({ s with sched := ts }.sense
        { Turn.run with aux := some true }).rxmReady = true := hready
    rw [step_of_empty_thread hq hsched rfl rfl, blockMove_pending rfl hsensed, andThen_next]
    exact ⟨_, rfl, by simp [startRxm_eq], by simp [startRxm_eq], by simp [startRxm_eq],
      auxPhase_auxPending_of_edge hs hr hprev rfl, by simp [startRxm_eq]⟩

end
end

section
/-! What a step can do to the mode and to the two flags (R21, R22, R25 to R27, R237).

`State.standing` collects the registers in question.  No primitive of the block writes one of them
but `Complete`, which sets the flags (`blockMove_stands`); an item of the host's thread does what
its command says (`Standing.after`); and a step is the one after the other (`step_standing`). -/

namespace Sys2Proof.Machine

/-- What the mode is made of (R237), and the two flags (R26, R27). -/
structure Standing where
  started : Bool
  role : Role
  fault : Bool
  newMessage : Bool
  success : Bool

def State.standing (s : State) : Standing :=
  ⟨s.started, s.role, s.fault, s.newMessage, s.success⟩

/-- A frame published with checksum result `ok` (R131). -/
def Standing.published (x : Standing) (ok : Bool) : Standing :=
  { x with newMessage := true, success := ok }

/-- What an accepted operation of the host's thread makes of an endpoint that has not failed, if
`HalConfigure` answers `hal` (R201, R202, R206, R227). -/
def Standing.after (x : Standing) (hal : Bool) (i : Instr) : Standing :=
  match i with
  | .start r _ =>
    if x.started then x
    else if hal then ⟨true, r, x.fault, false, false⟩
    else { x with fault := true }
  | .stop => { x with started := false }
  | .clrnew | .recv => { x with newMessage := false }
  | _ => x

variable {s t u w : State}

/-! ## A send -/

theorem cntInc_standing (s : State) : s.cntInc.standing = s.standing := by simp [State.standing]

theorem bodyNext_standing (s : State) : s.bodyNext.standing = s.standing := by simp [State.standing]

theorem frameSent_standing (s : State) : s.frameSent.standing = s.standing := by
  simp [State.standing]

theorem fieldNext_standing (s : State) (sel : Sel) : (s.fieldNext sel).standing = s.standing := by
  cases sel with
  | start => rw [fieldNext_start]; rfl
  | lenHi => rw [fieldNext_lenHi]; rfl
  | lenLo => rw [fieldNext_lenLo, enterTransfer_eq, bodyNext_standing]; rfl
  | payload => rw [fieldNext_payload, bodyNext_standing]
  | checksum =>
    rw [fieldNext_checksum]
    cases s.params.checksumPos with
    | trailing => exact frameSent_standing s
    | leading => rfl

theorem masterFieldSent_standing (s : State) (sel : Sel) (b : Byte) :
    (s.masterFieldSent sel b).standing = s.standing := by
  cases sel with
  | payload =>
    cases hp : s.params.checksumPos <;> simp only [State.masterFieldSent, hp]
    · exact cntInc_standing (s.cksAdd b)
    · exact cntInc_standing s
  | start | lenHi | lenLo | checksum => rfl

theorem slaveFieldSent_standing (s : State) (sel : Sel) :
    (s.slaveFieldSent sel).standing = s.standing := by
  rw [slaveFieldSent_eq, fieldNext_standing]
  split
  · exact cntInc_standing s
  · rfl

theorem endAttempt_standing (s : State) (r : Byte) : (s.endAttempt r).standing = s.standing := by
  by_cases ha : r = s.params.ackSentinel
  · rw [endAttempt_of_acknowledged ha]; rfl
  · by_cases hl : s.attemptCnt.toNat = s.params.retries
    · rw [endAttempt_of_lastAttempt ha hl]; rfl
    · rw [endAttempt_of_attemptsLeft ha hl]; rfl

theorem masterMove_standing (s : State) : s.masterMove.standing = s.standing := by
  cases hp : s.txPoint with
  | sum =>
    rw [masterMove_sum s hp]
    split
    · rfl
    · exact cntInc_standing (s.cksAdd s.outboxByte)
  | select => rw [masterMove_select s hp]; rfl
  | send sel b =>
    rw [masterMove_send s sel b hp]
    cases s.busIn with
    | none => rfl
    | some r => exact masterFieldSent_standing (s.exchanged b r) sel b
  | delay sel => rw [masterMove_delay s sel hp, fieldNext_standing]; rfl
  | release => rw [masterMove_release s hp]; rfl
  | finish ok => rw [masterMove_finish s ok hp, finishSend_eq]; rfl
  | idle | request | ack | drop _ | backoff => rw [masterMove_other s (by simp [hp])]

theorem slaveMove_standing (s : State) : s.slaveMove.standing = s.standing := by
  cases hp : s.txPoint with
  | sum =>
    rw [slaveMove_sum s hp]
    split
    · rfl
    · exact cntInc_standing (s.cksAdd s.outboxByte)
  | request => rw [slaveMove_request s hp]; rfl
  | send sel b =>
    rw [slaveMove_send s sel b hp]
    cases s.busIn with
    | none => rfl
    | some r => exact slaveFieldSent_standing (s.exchanged b r) sel
  | ack =>
    rw [slaveMove_ack s hp]
    cases s.busIn <;> rfl
  | drop r => rw [slaveMove_drop s r hp, endAttempt_standing]
  | backoff => rw [slaveMove_backoff s hp]; rfl
  | finish ok => rw [slaveMove_finish s ok hp, finishSend_eq]; rfl
  | idle | select | delay _ | release => rw [slaveMove_other s (by simp [hp])]

theorem txMove_standing (s : State) : s.txMove.standing = s.standing := by
  unfold State.txMove
  cases s.role with
  | master => exact masterMove_standing s
  | slave => exact slaveMove_standing s

/-! ## A receive -/

theorem takePayload_standing {b : Byte} (h : s.takePayload b = .next t) :
    t.standing = s.standing := by
  obtain ⟨v, hv, he⟩ := andThen_eq_next.1 h
  cases he
  rw [cntInc_standing]
  unfold State.stageByte at hv
  split at hv <;> cases hv
  rfl

theorem decTrailing_standing {b : Byte} {r : DecResult} (h : s.decTrailing b = .next (t, r)) :
    t.standing = s.standing := by
  cases hc : s.rxCursor with
  | start =>
    rw [decTrailing_start s b hc] at h
    split at h <;> cases h <;> rfl
  | lenHi => cases (decTrailing_lenHi s b hc).symm.trans h; rfl
  | lenLo =>
    rw [decTrailing_lenLo s b hc] at h
    split at h <;> cases h <;> rfl
  | payload =>
    simp only [State.decTrailing, hc] at h
    obtain ⟨v, hv, he⟩ := andThen_eq_next.1 h
    refine Eq.trans ?_ (takePayload_standing hv)
    split at he <;> cases he <;> rfl
  | checksum => cases (decTrailing_checksum s b hc).symm.trans h; rfl
  | ack => cases (decTrailing_of_ack hc b).symm.trans h

theorem decLeading_standing {b : Byte} {r : DecResult} (h : s.decLeading b = .next (t, r)) :
    t.standing = s.standing := by
  cases hc : s.rxCursor with
  | start =>
    rw [decLeading_start s b hc] at h
    split at h <;> cases h <;> rfl
  | checksum => cases (decLeading_checksum s b hc).symm.trans h; rfl
  | lenHi => cases (decLeading_lenHi s b hc).symm.trans h; rfl
  | lenLo =>
    rw [decLeading_lenLo s b hc] at h
    repeat' split at h
    all_goals cases h; rfl
  | payload =>
    simp only [State.decLeading, hc] at h
    obtain ⟨v, hv, he⟩ := andThen_eq_next.1 h
    refine Eq.trans ?_ (takePayload_standing hv)
    split at he <;> cases he <;> rfl
  | ack => cases (decLeading_of_ack hc b).symm.trans h

/-- A decoder step writes the data path only (R126, R127). -/
theorem dec_standing {b : Byte} {r : DecResult} (h : s.dec b = .next (t, r)) :
    t.standing = s.standing := by
  unfold State.dec at h
  split at h
  · exact decTrailing_standing h
  · exact decLeading_standing h

theorem takeFirst_standing {b : Byte} (h : s.takeFirst b = .next t) : t.standing = s.standing := by
  obtain ⟨⟨v, r⟩, hv, he⟩ := andThen_eq_next.1 h
  refine Eq.trans ?_ (dec_standing hv)
  cases r <;> cases he <;> rfl

theorem takeByte_standing {b : Byte} (h : s.takeByte b = .next t) : t.standing = s.standing := by
  obtain ⟨⟨v, r⟩, hv, he⟩ := andThen_eq_next.1 h
  refine Eq.trans ?_ (dec_standing hv)
  obtain hr | hr := role_cases v.role
  · cases r <;> cases he <;>
      simp [State.standing, pullAgain_master hr, rejectLen_master hr, frameEnded_master v _ hr]
  · cases r <;> cases he <;>
      simp [State.standing, pullAgain_slave hr, rejectLen_slave hr, frameEnded_slave v _ hr]

theorem startRxs_standing {b : Byte} (h : s.startRxs b = .next t) : t.standing = s.standing := by
  obtain ⟨⟨v, r⟩, hv, he⟩ := andThen_eq_next.1 h
  refine Eq.trans ?_ (dec_standing hv)
  cases r <;> cases he <;> rfl

theorem execRxs_standing {b : Byte} (h : execRxs b s = .next t) : t.standing = s.standing := by
  unfold execRxs at h
  split at h
  · exact startRxs_standing h
  · cases h; rfl

theorem execRxm_standing (h : execRxm s = .next t) : t.standing = s.standing := by
  unfold execRxm at h
  split at h <;> cases h <;> rfl

theorem checkAux_standing (s : State) (p : RxPoint) : (s.checkAux p).standing = s.standing := by
  cases ha : s.auxIn with
  | true => rw [checkAux_of_high s p ha]; rfl
  | false => rw [checkAux_of_low s p ha]; rfl

theorem complete_standing {ok : Bool} (h : s.complete ok = .next t) :
    t.standing = s.standing.published ok := by
  cases (complete_eq s ok (rxLen_le_of_complete h)).symm.trans h
  rfl

/-- A primitive of a receive leaves the standing alone, or is the receive's `Complete` (R180). -/
theorem rxMove_standing (h : s.rxMove = .next t) :
    t.standing = s.standing ∨ ∃ ok, s.complete ok = .next t := by
  cases hp : s.rxPoint with
  | idle => cases (rxMove_idle s hp).symm.trans h; exact .inl rfl
  | first =>
    rw [rxMove_first s hp] at h
    cases hb : s.busIn with
    | none => rw [hb] at h; cases h; exact .inl rfl
    | some b => rw [hb] at h; exact .inl (takeFirst_standing (s := s.exchanged _ b) h)
  | sample => cases (rxMove_sample s hp).symm.trans h; exact .inl (checkAux_standing s _)
  | pull =>
    rw [rxMove_pull s hp] at h
    cases hb : s.busIn with
    | none => rw [hb] at h; cases h; exact .inl rfl
    | some b => rw [hb] at h; exact .inl (takeByte_standing (s := s.exchanged _ b) h)
  | ackSample ok =>
    cases (rxMove_ackSample s ok hp).symm.trans h
    exact .inl (checkAux_standing s _)
  | ackPull ok =>
    rw [rxMove_ackPull s ok hp] at h
    cases hb : s.busIn <;> rw [hb] at h <;> cases h <;> exact .inl rfl
  | release how => cases (rxMove_release s how hp).symm.trans h; exact .inl rfl
  | finish how =>
    rw [rxMove_finish s how hp] at h
    cases how with
    | complete ok => exact .inr ⟨ok, h⟩
    | ignored | lenRejected | aborted => cases h; exact .inl rfl

/-! ## The block -/

/-- From `s` to `t` a `Commit` was added to the trace. -/
def State.Commits (s t : State) : Prop := ∃ es, s.adds t es ∧ Event.commit ∈ es

/-- Between the two states the standing was left alone, or a frame published with its `Commit`. -/
def State.Stands (s t : State) : Prop :=
  t.standing = s.standing ∨ ∃ ok, t.standing = s.standing.published ok ∧ s.Commits t

theorem complete_stands {ok : Bool} (h : s.complete ok = .next t) : s.Stands t := by
  obtain ⟨v, hv, hadds, -⟩ := complete_adds (s := s) ok (rxLen_le_of_complete h)
  cases hv.symm.trans h
  exact .inr ⟨ok, complete_standing h, _, hadds, commit_mem_endEvents _ _⟩

/-- What comes after in the same step adds to the trace and leaves the standing alone. -/
theorem State.Stands.trans (h : s.Stands t) (hst : u.standing = t.standing) (hq : t.Silent u) :
    s.Stands u := by
  obtain h | ⟨ok, h, es, hes, hc⟩ := h
  · exact .inl (hst.trans h)
  · obtain ⟨fs, hfs, -⟩ := hq
    exact .inr ⟨ok, hst.trans h, _, hes.trans hfs, List.mem_append_left _ hc⟩

/-- The block's own move leaves the standing alone, or publishes one frame (R131, R180). -/
theorem blockMove_stands (h : s.blockMove = .next t) : s.Stands t := by
  have hrx {v : State} (hv : s.rxMove = .next v) : s.Stands v :=
    (rxMove_standing hv).elim .inl fun ⟨_, hc⟩ => complete_stands hc
  have hactive (ha : s.activeMove = .next t) : s.Stands t := by
    by_cases ht : s.txState = .idle
    · exact hrx ((activeMove_of_idle s ht).symm.trans ha)
    · cases (activeMove_of_busy s ht).symm.trans ha
      exact .inl (txMove_standing s)
  obtain ⟨-, he⟩ | ⟨-, -, he⟩ | ⟨-, -, he⟩ | ⟨b, -, -, he⟩ | ⟨b, -, -, he⟩ := blockMove_cases s <;>
    rw [he] at h
  · cases h; exact .inl rfl
  · exact hactive h
  · exact .inl (execRxm_standing h)
  · exact hactive h
  · obtain ⟨v, hv, ht⟩ := andThen_eq_next.1 h
    have hready : s.Stands v := by
      unfold State.readyForByte at hv
      split at hv
      · exact hrx hv
      · cases hv; exact .inl rfl
    exact hready.trans (execRxs_standing ht) (execRxs_unpublished ht).silent

/-! ## The host's part of a step -/

theorem holdCommand_standing (s : State) (i : Instr) : (s.holdCommand i).standing = s.standing := by
  unfold State.holdCommand
  cases encodeCmd i <;> rfl

theorem beginSend_standing (s : State) (len : Half) : (s.beginSend len).standing = s.standing := by
  obtain hr | hr := role_cases s.role
  · rw [beginSend_of_master hr, State.beginMasterSend]
    cases s.params.checksumPos <;> rfl
  · rw [beginSend_of_slave hr]
    rfl

theorem startEffect_standing (s : State) (r : Role) (cb : Bool) :
    (s.startEffect r cb).standing = s.standing.after s.halOk (.start r cb) := by
  cases hs : s.started with
  | true => rw [startEffect_of_started hs]; simp [Standing.after, State.standing, hs]
  | false =>
    cases hh : s.halOk with
    | false => rw [startEffect_of_halFault hs hh]; simp [Standing.after, State.standing, hs]
    | true =>
      rw [startEffect_of_configured hs hh, initialise_eq]
      simp [Standing.after, State.standing, hs]

theorem stopEffect_standing (s : State) :
    s.stopEffect.standing = s.standing.after s.halOk .stop := by
  cases hs : s.started with
  | false => rw [stopEffect_of_stopped hs]; simp [Standing.after, State.standing, hs]
  | true =>
    cases ha : s.rxActive with
    | true => rw [stopEffect_of_active hs ha]; rfl
    | false => rw [stopEffect_of_inactive hs ha]; rfl

/-- The two ways of an operation of the host's thread: it waits, is ignored by a failed endpoint, or
leaves the standing alone; or it has the effect of its command. -/
def State.Serves (s t : State) (i : Instr) : Prop :=
  t.standing = s.standing ∨ (s.fault = false ∧ t.standing = s.standing.after s.halOk i)

theorem plainCommand_serves {i : Instr} (k : Instr) {f : State → State}
    (hf : (f s).standing = s.standing.after s.halOk i) : s.Serves (s.plainCommand k f) i := by
  obtain ⟨-, he⟩ | ⟨-, -, he⟩ | ⟨-, hfault, he⟩ := plainCommand_cases s k f <;> rw [he]
  · exact .inl (holdCommand_standing s k)
  · exact .inl rfl
  · exact .inr ⟨hfault, hf⟩

theorem exec_hostInstr_serves {j : HostItem} (h : exec (hostInstr j) s = .next t) :
    s.Serves t (hostInstr j) := by
  obtain hi | ⟨r, cb, hi⟩ | hi | ⟨len, hi⟩ | hi | hi | hi | hi | hi | hi := hostInstr_cases j <;>
    rw [hi] at h ⊢ <;> cases h
  · split
    · exact .inl rfl
    · exact .inl (holdCommand_standing s _)
  · exact plainCommand_serves _ (startEffect_standing s r cb)
  · exact plainCommand_serves _ (stopEffect_standing s)
  · left
    split
    · split
      · exact beginSend_standing s len
      · rfl
    · exact holdCommand_standing s _
  · exact plainCommand_serves _ rfl
  · exact plainCommand_serves _ rfl
  · exact plainCommand_serves _ rfl
  · split
    · exact .inl rfl
    · exact .inl (holdCommand_standing s _)
  · split
    · exact plainCommand_serves (i := .recv) _ rfl
    · exact .inl rfl
  · split <;> exact .inl rfl

theorem hostPart_standing (h : s.hostPart = .next w) :
    w.standing = s.standing ∨ ∃ i u, s.fetch = some (i, u) ∧ s.fault = false ∧
      w.standing = s.standing.after s.halOk i := by
  cases hf : s.fetch with
  | none =>
    cases (hostPart_of_none s hf).symm.trans h
    exact .inl rfl
  | some iv =>
    obtain ⟨i, v⟩ := iv
    obtain ⟨j, q, -, -, rfl, rfl⟩ := fetch_eq_some.1 hf
    rw [hostPart_of_some s _ _ hf] at h
    obtain he | ⟨hfault, he⟩ := exec_hostInstr_serves h
    · exact .inl he
    · exact .inr ⟨_, _, rfl, hfault, he⟩

/-! ## The step -/

theorem latch_standing (s : State) : s.latch.standing = s.standing := by
  cases hq : s.sched with
  | nil => rw [latch_nil s hq]; rfl
  | cons t ts => rw [latch_cons s t ts hq]; rfl

theorem auxPhase_standing (s : State) : s.auxPhase.standing = s.standing := by
  simp [State.standing]

/-- Everything a step can do to the standing: reset; or first what the accepted command says, and
then at most one publication. -/
theorem step_standing (h : step s = .next t) :
    (s.latch.now.rst = true ∧ t.standing = State.reset.standing) ∨
    ∃ x : Standing,
      (x = s.standing ∨ ∃ i u, s.latch.fetch = some (i, u) ∧ s.fault = false ∧
        x = s.standing.after s.latch.halOk i) ∧
      (t.standing = x ∨ ∃ ok, t.standing = x.published ok ∧ s.Commits t) := by
  cases hr : s.latch.now.rst with
  | true =>
    cases (step_of_rst_eq hr).symm.trans h
    exact .inl ⟨rfl, rfl⟩
  | false =>
    rw [step_of_not_rst s hr] at h
    obtain ⟨v, hv, he⟩ := andThen_eq_next.1 h
    cases he
    obtain ⟨w, hw, hm⟩ := andThen_eq_next.1 hv
    have hmove : w.Stands v := by
      unfold State.moveAfter at hm
      split at hm
      · cases hm; exact .inl rfl
      · exact blockMove_stands hm
    have hblock := hmove.trans (auxPhase_standing v) (auxPhase_unpublished v).silent
    refine .inr ⟨w.standing, ?_, hblock.imp_right fun ⟨ok, hok, hc⟩ => ⟨ok, hok, ?_⟩⟩
    · have hfault : s.latch.fault = s.fault := congrArg Standing.fault (latch_standing s)
      have hhost := hostPart_standing hw
      rwa [latch_standing, hfault] at hhost
    · obtain ⟨es, hes, hmem⟩ := hc
      obtain ⟨fs, hfs, -⟩ := (latch_unpublished s).silent.trans (hostPart_silent hw)
      exact ⟨_, hfs.trans hes, List.mem_append_right _ hmem⟩

/-! ## The mode (R237) -/

/-- Every way of a command's effect: none, or that of `START`, `STOP` or `CLRNEW`. -/
theorem Standing.after_cases (x : Standing) (hal : Bool) (i : Instr) :
    x.after hal i = x ∨
    (i = .stop ∧ x.after hal i = { x with started := false }) ∨
    ((i = .clrnew ∨ i = .recv) ∧ x.after hal i = { x with newMessage := false }) ∨
    ∃ r cb, i = .start r cb ∧ x.started = false ∧
      x.after hal i =
        if hal then ⟨true, r, x.fault, false, false⟩ else { x with fault := true } := by
  unfold Standing.after
  split
  next r cb =>
    cases hs : x.started with
    | true => exact .inl rfl
    | false => exact .inr (.inr (.inr ⟨r, cb, rfl, rfl, rfl⟩))
  next => exact .inr (.inl ⟨rfl, rfl⟩)
  next => exact .inr (.inr (.inl ⟨.inl rfl, rfl⟩))
  next => exact .inr (.inr (.inl ⟨.inr rfl, rfl⟩))
  next => exact .inl rfl

/-- Everything a step can do to the registers of the mode: reset, nothing, an accepted `STOP`, or an
accepted `START` of a stopped endpoint, which may fail (R201, R202, R227, R260). -/
theorem step_mode (h : step s = .next t) :
    (s.latch.now.rst = true ∧ t.fault = false ∧ t.started = false) ∨
    (t.fault = s.fault ∧ t.started = s.started ∧ t.role = s.role) ∨
    (s.fault = false ∧ t.fault = false ∧ t.started = false ∧ t.role = s.role) ∨
    (s.fault = false ∧ s.started = false ∧ ∃ r cb u, s.latch.fetch = some (.start r cb, u) ∧
      ((s.latch.halOk = true ∧ t.fault = false ∧ t.started = true ∧ t.role = r) ∨
        (s.latch.halOk = false ∧ t.fault = true ∧ t.started = false ∧ t.role = s.role))) := by
  obtain ⟨hr, he⟩ | ⟨x, hx, ht⟩ := step_standing h
  · exact .inl ⟨hr, congrArg Standing.fault he, congrArg Standing.started he⟩
  · obtain ⟨hfault, hstarted, hrole⟩ :
        t.fault = x.fault ∧ t.started = x.started ∧ t.role = x.role := by
      obtain he | ⟨ok, he, -⟩ := ht <;>
        exact ⟨congrArg Standing.fault he, congrArg Standing.started he, congrArg Standing.role he⟩
    rw [hfault, hstarted, hrole]
    obtain rfl | ⟨i, u, hf, hsf, rfl⟩ := hx
    · exact .inr (.inl ⟨rfl, rfl, rfl⟩)
    obtain he | ⟨-, he⟩ | ⟨-, he⟩ | ⟨r, cb, rfl, hs, he⟩ :=
      s.standing.after_cases s.latch.halOk i <;> rw [he]
    · exact .inr (.inl ⟨rfl, rfl, rfl⟩)
    · exact .inr (.inr (.inl ⟨hsf, hsf, rfl, rfl⟩))
    · exact .inr (.inl ⟨rfl, rfl, rfl⟩)
    · refine .inr (.inr (.inr ⟨hsf, hs, r, cb, u, hf, ?_⟩))
      cases hh : s.latch.halOk with
      | true => exact .inl ⟨rfl, hsf, rfl, rfl⟩
      | false => exact .inr ⟨rfl, rfl, hs, rfl⟩

theorem mode_of_fault (hf : s.fault = true) : s.mode = .faulted := by simp [State.mode, hf]

theorem mode_of_stopped (hf : s.fault = false) (hs : s.started = false) : s.mode = .stopped := by
  simp [State.mode, hf, hs]

theorem mode_of_started (hf : s.fault = false) (hs : s.started = true) :
    s.mode = (match s.role with | .master => .master | .slave => .slave) := by
  rw [State.mode, hf, hs]
  rfl

theorem fault_of_mode (h : s.mode = .faulted) : s.fault = true := by
  by_contra hf
  have hf : s.fault = false := by simpa using hf
  cases hs : s.started with
  | false => simp [mode_of_stopped hf hs] at h
  | true => cases hr : s.role <;> simp [mode_of_started hf hs, hr] at h

/-! ## The flags (R26, R27) -/

/-- Everything a step can do to the two flags: reset, a publication with its `Commit`, nothing, or
the clear of an accepted `START`, `CLRNEW` or `RECV`. -/
theorem step_flags (h : step s = .next t) :
    (s.latch.now.rst = true ∧ t.newMessage = false ∧ t.success = false) ∨
    (s.Commits t ∧ t.newMessage = true) ∨
    (t.newMessage = s.newMessage ∧ t.success = s.success) ∨
    ∃ i u, s.latch.fetch = some (i, u) ∧ t.newMessage = false ∧
      (((∃ r cb, i = .start r cb) ∧ t.success = false) ∨
        ((i = .clrnew ∨ i = .recv) ∧ t.success = s.success)) := by
  obtain ⟨hr, he⟩ | ⟨x, hx, he | ⟨ok, he, hc⟩⟩ := step_standing h
  · exact .inl ⟨hr, congrArg Standing.newMessage he, congrArg Standing.success he⟩
  · have hnew : t.newMessage = x.newMessage := congrArg Standing.newMessage he
    have hsuccess : t.success = x.success := congrArg Standing.success he
    rw [hnew, hsuccess]
    right; right
    obtain rfl | ⟨i, u, hf, -, rfl⟩ := hx
    · exact .inl ⟨rfl, rfl⟩
    obtain he | ⟨-, he⟩ | ⟨hi, he⟩ | ⟨r, cb, rfl, -, he⟩ :=
      s.standing.after_cases s.latch.halOk i <;> rw [he]
    · exact .inl ⟨rfl, rfl⟩
    · exact .inl ⟨rfl, rfl⟩
    · exact .inr ⟨i, u, hf, rfl, .inr ⟨hi, rfl⟩⟩
    · cases s.latch.halOk with
      | true => exact .inr ⟨_, u, hf, rfl, .inl ⟨⟨r, cb, rfl⟩, rfl⟩⟩
      | false => exact .inl ⟨rfl, rfl⟩
  · exact .inr (.inl ⟨hc, congrArg Standing.newMessage he⟩)

/-! ## A failed endpoint (R25, R211) -/

/-- A stopped endpoint is ready for no trigger (R171, R200). -/
theorem triggerReady_of_stopped (hs : s.started = false) : s.triggerReady = false := by
  cases hr : s.role <;> simp [State.triggerReady, State.rxsReady, State.armed, hr, hs]

end Sys2Proof.Machine

section

open Sys2Proof Sys2Proof.Machine

/-- Settles O13: of what a step can do to the mode, reset and an accepted `START` are all that write
the role. -/
theorem roleFixedWhileStarted : Obligations.RoleFixedWhileStarted := by
  intro s t h
  refine ⟨fun hne => ?_, ?_⟩
  · obtain ⟨hr, -, -⟩ | ⟨-, -, he⟩ | ⟨-, -, -, he⟩ | ⟨-, hs, r, cb, u, hf, hstart⟩ := step_mode h
    · exact .inl hr
    · exact absurd he hne
    · exact absurd he hne
    · obtain ⟨-, -, hts, rfl⟩ | ⟨-, -, -, he⟩ := hstart
      · exact .inr ⟨hs, hts, cb, u, hf⟩
      · exact absurd he hne
  · cases hr : t.role <;> simp [State.status, hr, bitOfRole]

/-- Settles O14: what each of the four ways of a step to write the flags says about them. -/
theorem flagsWrittenByCommit : Obligations.FlagsWrittenByCommit := by
  intro s t h
  obtain ⟨hr, hn, hs⟩ | ⟨hc, hn⟩ | ⟨hn, hs⟩ | ⟨i, u, hf, hn, hi⟩ := step_flags h
  · simp [hr, hn, hs]
  · exact ⟨fun _ _ => hc, fun _ _ => hc, fun _ h0 => by simp [hn] at h0, fun _ _ => .inr (.inr hc)⟩
  · rw [hn, hs]
    refine ⟨?_, ?_, ?_, ?_⟩ <;> (intro h0 h1; simp [h0] at h1)
  · refine ⟨fun _ h1 => by simp [hn] at h1, fun h0 h1 => ?_, fun _ _ => .inr ⟨i, u, hf, ?_⟩,
      fun h0 h1 => .inr (.inl ?_)⟩
    · obtain ⟨-, hs⟩ | ⟨-, hs⟩ := hi <;> simp [hs, h0] at h1
    · obtain ⟨hi, -⟩ | ⟨hi | hi, -⟩ := hi
      · exact .inr (.inr hi)
      · exact .inl hi
      · exact .inr (.inl hi)
    · obtain ⟨⟨r, cb, rfl⟩, -⟩ | ⟨-, hs⟩ := hi
      · exact ⟨r, cb, u, hf⟩
      · simp [hs, h0] at h1

/-- Settles O16: the four ways of a step to write the registers of the mode. -/
theorem modeChanges : Obligations.ModeChanges := by
  intro s t _ h
  obtain ⟨hr, hf, hs⟩ | ⟨hf, hs, hr⟩ | ⟨hsf, hf, hs, -⟩ | ⟨hsf, hss, r, cb, u, hfetch, hstart⟩ :=
    step_mode h
  · have hm := mode_of_stopped hf hs
    exact ⟨fun _ => .inr hm, fun _ => .inr hm, fun _ => .inr ⟨hr, hm⟩, fun _ hn => absurd hm hn⟩
  · have hm : t.mode = s.mode := by rw [State.mode, State.mode, hf, hs, hr]
    exact ⟨fun h0 => .inl (hm.trans h0), fun h0 => .inl (hm.trans h0), fun h0 => .inl (hm.trans h0),
      fun h0 hn => absurd (hm.trans h0) hn⟩
  · have hm := mode_of_stopped hf hs
    exact ⟨fun _ => .inr hm, fun _ => .inr hm, fun h0 => by simp [fault_of_mode h0] at hsf,
      fun _ hn => absurd hm hn⟩
  · have hm := mode_of_stopped hsf hss
    rw [hm]
    refine ⟨nofun, nofun, nofun, fun _ _ => ⟨r, cb, u, hfetch, ?_⟩⟩
    obtain ⟨hh, hf, hs, rfl⟩ | ⟨hh, hf, -, -⟩ := hstart
    · rw [if_pos hh]; exact mode_of_started hf hs
    · rw [hh]; exact mode_of_fault hf

/-- Settles O39: the shared frame of a command and `SEND` answer a failed endpoint with `ok = 0`,
and no step but reset writes its mode. -/
theorem faultedUntilReset : Obligations.FaultedUntilReset := by
  intro s r cb len hf hs
  refine ⟨fun ht i hi => ?_, fun ht ha => ?_, fun t h => ?_⟩
  · have hplain := fun k f => plainCommand_of_fault s k f ht hf
    have haccepts : s.acceptsPlain = true := by simp [State.acceptsPlain, txBusy_eq, ht]
    simp only [List.mem_cons, List.not_mem_nil, or_false] at hi
    obtain rfl | rfl | rfl | rfl | rfl | rfl | rfl := hi
    · exact congrArg _ (hplain (.start r cb) _)
    iterate 4 exact congrArg _ (hplain _ _)
    iterate 2 exact congrArg _ (if_pos haccepts)
  · have haccepts : s.acceptsSend = true :=
      (acceptsSend_iff s).2 ⟨ht, ha, triggerReady_of_stopped hs⟩
    exact exec_send_of_rejected haccepts (.inl hf) len
  · obtain ⟨hr, -, -⟩ | ⟨htf, hts, -⟩ | ⟨hsf, -⟩ | ⟨hsf, -⟩ := step_mode h
    · exact .inl hr
    · exact .inr ⟨htf.trans hf, hts.trans hs⟩
    · simp [hf] at hsf
    · simp [hf] at hsf

end
end

section
/-! A Slave's send from its acceptance to its end (R152 to R156): the sum of the payload, then
attempts.

Every attempt begins and, if another follows, ends at the same place with the same registers but the
attempt counter; `State.atRequest` is that state after any number of attempts. -/

namespace Sys2Proof.Machine

variable {s u : State} {r : Byte} {inp : List Byte}

/-! ## The sum of the payload (R122, R152) -/

theorem runTurns_slaveSummed (hr : u.role = .slave) (ht : u.txState ≠ .idle) (hp : u.txPoint = .sum)
    {j : Nat} (hj : j ≤ u.txLen.toNat) (ts : List Turn) :
    State.runTurns (List.replicate j Turn.run ++ Turn.run :: ts) (u.addedTo 0) =
      State.runTurns (Turn.run :: ts) (State.addedTo { u with now := Turn.run } j) := by
  induction j generalizing ts with
  | zero => rfl
  | succ j ih =>
    have hopen : (State.addedTo { u with now := Turn.run } j).txCounted = false :=
      beq_eq_false_iff_ne.2 (BitVec.ne_of_lt (ofNat_lt_of_lt hj).2)
    have hmove := slaveMove_sum (State.addedTo { u with now := Turn.run } j) hp
    rw [hopen, if_neg (by simp), cksStep_addedTo (len := u.txLen) hj] at hmove
    rw [List.replicate_succ', List.append_assoc]
    exact (ih (by omega) _).trans
      (runTurns_slave (u := State.addedTo { u with now := Turn.run } j) hr ht _ hmove rfl)

/-- The whole payload summed, and the aux line next (R152). -/
theorem runTurns_slaveSum (hr : u.role = .slave) (ht : u.txState ≠ .idle) (hp : u.txPoint = .sum)
    (ts : List Turn) :
    State.runTurns (List.replicate (u.txLen.toNat + 1) Turn.run ++ ts) (u.addedTo 0) =
      State.runTurns ts
        ((State.addedTo { u with now := Turn.run } u.txLen.toNat).place .request) := by
  have hdone : (State.addedTo { u with now := Turn.run } u.txLen.toNat).txCounted = true := by
    simp [State.txCounted, State.addedTo]
  have hmove := slaveMove_sum (State.addedTo { u with now := Turn.run } u.txLen.toNat) hp
  rw [hdone, if_pos rfl] at hmove
  rw [List.replicate_succ', List.append_assoc]
  exact (runTurns_slaveSummed hr ht hp le_rfl ts).trans
    (runTurns_slave (u := State.addedTo { u with now := Turn.run } u.txLen.toNat) hr ht ts
      hmove rfl)

/-! ## One attempt (R152, R155, R156) -/

/-- The bytes of an attempt: the frame, and `ACK_REQUEST_BYTE` (R97). -/
def State.attemptBytes (u : State) : List Byte :=
  frameBytes u.params.checksumPos (u.outbox.bytes u.txLen.toNat) ++ [u.params.ackRequest]

/-- A Slave that has made one attempt more and is about to compare its response `r`. -/
def State.answered (u : State) (inp : List Byte) (r : Byte) : State :=
  { u with
    txState := .awaitAck, txPoint := .drop r, byteCnt := u.txLen, auxOut := true
    attemptCnt := u.attemptCnt + 1, now := Turn.run
    freeCtr := u.freeCtr + (u.txLen.toNat + 5)
    trace := (.aux true :: exchangeEvents u.attemptBytes inp).reverse ++ u.trace }

/-- An attempt, whatever is received, up to the comparison of its last byte. -/
theorem runTurns_attemptTurns (hr : u.role = .slave) (ht : u.txState ≠ .idle)
    (hp : u.txPoint = .request) (hk : u.cksAcc = sum8 (u.outbox.bytes u.txLen.toNat))
    (hinp : inp.length = u.txLen.toNat + 5) (hlast : inp.getLast? = some r) (ts : List Turn) :
    State.runTurns (attemptTurns inp ++ ts) u =
      State.runTurns ts ((u.answered inp r).endAttempt r) := by
  obtain ⟨front, rfl⟩ := List.getLast?_eq_some_iff.1 hlast
  have hturns : attemptTurns (front ++ [r]) ++ ts =
      Turn.run :: (front.map Turn.byte ++ Turn.byte r :: Turn.run :: ts) := by
    simp [attemptTurns]
  have hfront : front.length = u.txLen.toNat + 4 := by simpa using hinp
  have hbegin := slaveMove_request { u with now := Turn.run } hp
  rw [hturns, runTurns_slave hr ht _ hbegin rfl]
  refine (runTurns_attempt (u := State.beginAttempt { u with now := Turn.run }) hr
    TxState.noConfusion rfl hk hfront r ts).trans ?_
  rw [State.answered, List.reverse_cons, List.append_assoc]
  rfl

/-! ## Attempt after attempt (R153, R154) -/

/-- A Slave about to assert the line, after the attempts that received `fs`, each followed by a
backoff. -/
def State.atRequest (u : State) (fs : List (List Byte)) : State :=
  { u with
    txState := .requesting, txPoint := .request, byteCnt := u.txLen, auxOut := false
    attemptCnt := BitVec.ofNat 8 fs.length, now := Turn.run
    freeCtr := u.freeCtr + fs.length * (u.txLen.toNat + 5)
    trace :=
      (fs.flatMap fun inp => attemptEvents u.attemptBytes inp ++ [.delay .backoff]).reverse ++
        u.trace }

theorem attemptEvents_reverse (out inp : List Byte) :
    (attemptEvents out inp).reverse =
      .aux false :: (Event.aux true :: exchangeEvents out inp).reverse := by
  simp [attemptEvents]

theorem atRequest_append (u : State) (fs : List (List Byte)) (inp : List Byte) :
    u.atRequest (fs ++ [inp]) = { u.atRequest fs with
      attemptCnt := (u.atRequest fs).attemptCnt + 1
      freeCtr := (u.atRequest fs).freeCtr + (u.txLen.toNat + 5)
      trace := .delay .backoff ::
        ((attemptEvents u.attemptBytes inp).reverse ++ (u.atRequest fs).trace) } := by
  simp [State.atRequest, BitVec.ofNat_add, Nat.add_mul, Nat.add_assoc]

/-- The attempt counter does not wrap (R36). -/
theorem answered_attemptCnt (u : State) {fs : List (List Byte)} (inp : List Byte) (r : Byte)
    (h : fs.length < 255) :
    ((u.atRequest fs).answered inp r).attemptCnt.toNat = fs.length + 1 := by
  simp only [State.answered, State.atRequest]
  bv_omega

theorem exists_getLast_of_length {n : Nat} (h : inp.length = n + 5) : ∃ r, inp.getLast? = some r :=
  Option.ne_none_iff_exists'.1 fun hnone => by simp [List.getLast?_eq_none_iff.1 hnone] at h

theorem runTurns_backoff (hr : u.role = .slave) (ht : u.txState ≠ .idle) (hp : u.txPoint = .backoff)
    (ts : List Turn) :
    State.runTurns (Turn.run :: ts) u = State.runTurns ts { u with
      now := Turn.run, txState := .requesting, txPoint := .request
      trace := .delay .backoff :: u.trace } :=
  runTurns_slave hr ht ts (slaveMove_backoff { u with now := Turn.run } hp) rfl

/-- The last step of a Slave's send (R152). -/
theorem runTurns_slaveFinish (hr : u.role = .slave) (ht : u.txState ≠ .idle) {ok : Bool}
    (hp : u.txPoint = .finish ok) :
    State.runTurns [Turn.run] u = .next { u with
      now := Turn.run, sendResult := ok, rxEnable := true, txState := .idle, txPoint := .idle
      trace := .sendDone ok :: ((if ok then [] else [.outcome .sendFailed]) ++ u.trace) } := by
  have hfinish := slaveMove_finish { u with now := Turn.run } ok hp
  exact runTurns_slave hr ht [] (hfinish.trans (finishSend_eq _ ok)) rfl

/-- A response other than `ACK_SENTINEL` before attempt number `RETRIES` leads to a backoff, and to
the next attempt (R153, R154). -/
theorem runTurns_retry (hr : u.role = .slave) (hk : u.cksAcc = sum8 (u.outbox.bytes u.txLen.toNat))
    {fs : List (List Byte)} (hmore : fs.length + 1 < u.params.retries)
    (hret : u.params.retries ≤ 255) (hinp : inp.length = u.txLen.toNat + 5)
    (hbad : inp.getLast? ≠ some u.params.ackSentinel) (ts : List Turn) :
    State.runTurns (attemptTurns inp ++ Turn.run :: ts) (u.atRequest fs) =
      State.runTurns ts (u.atRequest (fs ++ [inp])) := by
  obtain ⟨r, hlast⟩ := exists_getLast_of_length hinp
  have hwrong : r ≠ u.params.ackSentinel := fun h => hbad (hlast.trans (congrArg some h))
  have hcount := (answered_attemptCnt u inp r (by omega : fs.length < 255)).trans_ne hmore.ne
  have hattempt := runTurns_attemptTurns (u := u.atRequest fs) hr TxState.noConfusion rfl hk hinp
    hlast (Turn.run :: ts)
  rw [endAttempt_of_attemptsLeft (s := (u.atRequest fs).answered inp r) hwrong hcount] at hattempt
  refine hattempt.trans ((runTurns_backoff ?_ ?_ rfl ts).trans ?_)
  · exact hr
  · exact TxState.noConfusion
  · rw [atRequest_append, attemptEvents_reverse]
    rfl

/-- Any number of attempts below `RETRIES` that are not acknowledged (R153, R154). -/
theorem runTurns_retries (hr : u.role = .slave)
    (hk : u.cksAcc = sum8 (u.outbox.bytes u.txLen.toNat)) (hret : u.params.retries ≤ 255)
    {fs : List (List Byte)} (hmore : fs.length < u.params.retries)
    (hbad : ∀ inp ∈ fs, inp.length = u.txLen.toNat + 5 ∧
      inp.getLast? ≠ some u.params.ackSentinel) (ts : List Turn) :
    State.runTurns ((fs.flatMap fun inp => attemptTurns inp ++ [Turn.run]) ++ ts) (u.atRequest []) =
      State.runTurns ts (u.atRequest fs) := by
  induction fs using List.reverseRecOn generalizing ts with
  | nil => rfl
  | append_singleton fs inp ih =>
    obtain ⟨hinp, hwrong⟩ := hbad inp (by simp)
    have hlen : fs.length + 1 < u.params.retries := by simpa using hmore
    have hfs := ih (by omega) (fun x hx => hbad x (by simp [hx]))
      (attemptTurns inp ++ Turn.run :: ts)
    simpa using hfs.trans (runTurns_retry hr hk hlen hret hinp hwrong ts)

/-- The last attempt of a send: acknowledged, or number `RETRIES` and not (R153, R155). -/
def State.lastAnswer (u : State) (n : Nat) (inp : List Byte) (ok : Bool) : Prop :=
  (ok = true ∧ inp.getLast? = some u.params.ackSentinel) ∨
    (ok = false ∧ inp.getLast? ≠ some u.params.ackSentinel ∧ n + 1 = u.params.retries)

theorem endAttempt_of_lastAnswer {ok : Bool} {n : Nat} (h : s.lastAnswer n inp ok)
    (hlast : inp.getLast? = some r) (hcnt : s.attemptCnt.toNat = n + 1) :
    s.endAttempt r = { s with
      auxOut := false, txState := .done, txPoint := .finish ok
      trace := .aux false :: s.trace } := by
  obtain ⟨rfl, hgood⟩ | ⟨rfl, hbad, hn⟩ := h
  · exact endAttempt_of_acknowledged (Option.some.inj (hlast.symm.trans hgood))
  · exact endAttempt_of_lastAttempt (fun h => hbad (hlast.trans (congrArg some h))) (hcnt.trans hn)

/-- The last attempt and the last step of the send. -/
theorem runTurns_lastAttempt (hr : u.role = .slave)
    (hk : u.cksAcc = sum8 (u.outbox.bytes u.txLen.toNat)) (hret : u.params.retries ≤ 255)
    {fs : List (List Byte)} (hmore : fs.length < u.params.retries)
    (hinp : inp.length = u.txLen.toNat + 5) {ok : Bool} (h : u.lastAnswer fs.length inp ok) :
    State.runTurns (attemptTurns inp ++ [Turn.run]) (u.atRequest fs) = .next { u with
      rxEnable := true, txState := .idle, txPoint := .idle, byteCnt := u.txLen, sendResult := ok
      auxOut := false, attemptCnt := BitVec.ofNat 8 (fs.length + 1), now := Turn.run
      freeCtr := u.freeCtr + (fs.length + 1) * (u.txLen.toNat + 5)
      trace := .sendDone ok :: ((if ok then [] else [.outcome .sendFailed]) ++
        ((attemptEvents u.attemptBytes inp).reverse ++ (u.atRequest fs).trace)) } := by
  obtain ⟨r, hlast⟩ := exists_getLast_of_length hinp
  have hcount := answered_attemptCnt u inp r (by omega : fs.length < 255)
  have hattempt := runTurns_attemptTurns (u := u.atRequest fs) hr TxState.noConfusion rfl hk hinp
    hlast [Turn.run]
  rw [endAttempt_of_lastAnswer (s := (u.atRequest fs).answered inp r) h hlast hcount] at hattempt
  refine hattempt.trans ((runTurns_slaveFinish ?_ ?_ rfl).trans ?_)
  · exact hr
  · exact TxState.noConfusion
  · rw [attemptEvents_reverse, BitVec.ofNat_add, Nat.add_mul, one_mul, ← Nat.add_assoc]
    rfl

/-! ## The whole send (R152) -/

theorem retries_bounds {prm : Params} (h : prm.wf = true) :
    1 ≤ prm.retries ∧ prm.retries ≤ 255 := by
  simp only [Params.wf, Bool.and_eq_true, decide_eq_true_eq] at h
  obtain ⟨⟨⟨-, hone⟩, hmax⟩, -⟩ := h
  exact ⟨hone, hmax⟩

/-- Pieces with a separator between them, the last piece apart. -/
theorem intercalate_append_singleton {α : Type} (x : α) (xs : List (List α)) (y : List α) :
    List.intercalate [x] (xs ++ [y]) = xs.flatMap (· ++ [x]) ++ y := by
  induction xs with
  | nil => simp
  | cons z zs ih =>
    obtain ⟨w, ws, hws⟩ := List.exists_cons_of_ne_nil (l := zs ++ [y]) (by simp)
    rw [List.cons_append, hws, List.intercalate_cons_cons, ← hws, ih]
    simp

/-- The level the line has before the first attempt is forgotten with it. -/
theorem runTurns_request (hr : u.role = .slave) (ht : u.txState ≠ .idle) (hp : u.txPoint = .request)
    (ts : List Turn) :
    State.runTurns (Turn.run :: ts) { u with auxOut := false } =
      State.runTurns (Turn.run :: ts) u := by
  have hbegin := slaveMove_request { u with now := Turn.run } hp
  rw [runTurns_slave hr ht ts hbegin rfl]
  exact runTurns_slave (u := { u with auxOut := false }) hr ht ts
    (slaveMove_request { u with auxOut := false, now := Turn.run } hp) rfl

/-- A Slave that sends the first `len` bytes of its Outbox, with their sum taken. -/
def State.sending (s : State) (len : Half) : State :=
  { s with txLen := len, rxEnable := false, cksAcc := sum8 (s.outbox.bytes len.toNat) }

/-- A Slave's send, begun and summed, is at its first request (R152). -/
theorem runTurns_beginSlaveSend (hr : s.role = .slave) (len : Half) (ts : List Turn) :
    State.runTurns (List.replicate (len.toNat + 1) Turn.run ++ Turn.run :: ts)
        (s.beginSlaveSend len) =
      State.runTurns (Turn.run :: ts) ((s.sending len).atRequest []) := by
  have hsum := runTurns_slaveSum (u := { s with
    txState := .requesting, txLen := len, rxEnable := false, attemptCnt := 0, txPoint := .sum }) hr
    TxState.noConfusion rfl (Turn.run :: ts)
  refine hsum.trans ((runTurns_request ?_ ?_ rfl ts).symm.trans ?_)
  · exact hr
  · exact TxState.noConfusion
  · simp [State.atRequest, State.sending, State.addedTo, State.place]

/-- A Slave's send whose attempts `fs` are not acknowledged and whose last is acknowledged, or is
number `RETRIES` and is not (R152 to R156). -/
theorem runTurns_slaveSend (hr : s.role = .slave) (hret : s.params.retries ≤ 255) {len : Half}
    {fs : List (List Byte)} (hmore : fs.length < s.params.retries)
    (hbad : ∀ inp ∈ fs, inp.length = len.toNat + 5 ∧ inp.getLast? ≠ some s.params.ackSentinel)
    (hinp : inp.length = len.toNat + 5) {ok : Bool} (h : s.lastAnswer fs.length inp ok) :
    State.runTurns (slaveSendTurns len.toNat (fs ++ [inp])) (s.beginSlaveSend len) = .next { s with
      rxEnable := true, txState := .idle, txPoint := .idle, txLen := len, byteCnt := len
      cksAcc := sum8 (s.outbox.bytes len.toNat), sendResult := ok, auxOut := false
      attemptCnt := BitVec.ofNat 8 (fs.length + 1), now := Turn.run
      freeCtr := s.freeCtr + (fs.length + 1) * (len.toNat + 5)
      trace := (List.intercalate [Event.delay .backoff] ((fs ++ [inp]).map (attemptEvents
          (frameBytes s.params.checksumPos (s.outbox.bytes len.toNat) ++ [s.params.ackRequest]))) ++
        ((if ok then [] else [Event.outcome .sendFailed]) ++
          [Event.sendDone ok])).reverse ++ s.trace } := by
  have hsplit : slaveSendTurns len.toNat (fs ++ [inp]) =
      List.replicate (len.toNat + 1) Turn.run ++
        ((fs.flatMap fun inp => attemptTurns inp ++ [Turn.run]) ++
          (attemptTurns inp ++ [Turn.run])) := by
    simp [slaveSendTurns, intercalate_append_singleton, List.flatMap_map]
  obtain ⟨ts, hts⟩ : ∃ ts, (fs.flatMap fun inp => attemptTurns inp ++ [Turn.run]) ++
      (attemptTurns inp ++ [Turn.run]) = Turn.run :: ts := by
    cases fs <;> exact ⟨_, rfl⟩
  rw [hsplit, hts, runTurns_beginSlaveSend hr, ← hts,
    runTurns_retries (u := s.sending len) hr rfl hret hmore hbad,
    runTurns_lastAttempt (u := s.sending len) hr rfl hret hmore hinp h]
  cases ok <;> simp [intercalate_append_singleton, List.flatMap_map, State.atRequest,
    State.attemptBytes, State.sending]

end Sys2Proof.Machine

section

open Sys2Proof Sys2Proof.Machine

/-- Settles O52: the last of the attempts is the one that ends the send, by its response or by its
number; the attempts before it are each followed by a backoff. -/
theorem slaveSendAttempts : Obligations.SlaveSendAttempts := by
  intro s len fails good hwf hacc hcan hr hbad hlen hgood p out ends
  obtain ⟨hone, hret⟩ := retries_bounds hwf
  rw [exec_ssend_of_accepted hacc hcan hr, andThen_next]
  refine ⟨fun hall => ?_, fun hmore => ?_⟩
  · obtain ⟨fs, inp, rfl⟩ := (List.eq_nil_or_concat' fails).resolve_left fun h => by
      simp [h] at hall; omega
    obtain ⟨hinp, hwrong⟩ := hbad inp (by simp)
    have hcount : fs.length + 1 = s.params.retries := by simpa using hall
    have h := runTurns_slaveSend hr hret (by omega) (fun x hx => hbad x (by simp [hx])) hinp
      (.inr ⟨rfl, hwrong, hcount⟩)
    rw [hcount] at h
    exact h
  · exact runTurns_slaveSend hr hret hmore hbad hlen (.inl ⟨rfl, hgood⟩)

end
end
